-- ==== Sys2Proof/Word.lean ====
section
/-! DEFINITION. The word type: a balanced ternary string, held as the integer it denotes (R23). -/

namespace Sys2Proof

/-- A word, nonet or trit as the integer of R23. Every trit pattern of n trits is a distinct integer,
so nothing is lost (log 2). -/
abbrev Word := Int

/-- A vector register's 27 lane words, or a mask register's 27 trits, lane 0 first (R66, R71). -/
abbrev Lanes := List Int

/-- 3^n. -/
def pow3 (n : Nat) : Nat := 3 ^ n

/-- The largest integer of n trits, (3^n − 1)/2 (R23). -/
def half (n : Nat) : Nat := (3 ^ n - 1) / 2

/-- A register whose 27 lanes are all zero (R61). -/
def Lanes.zero : Lanes := List.replicate 27 0

end Sys2Proof
end

