-- ==== Sys2Proof/Machine/Trits.lean ====
section
/-! DEFINITION. Operations on balanced integers: the bounding operations of R8, fields of trits (R6),
trit-by-trit operations, sub-elements, and the binary packing of a nonet (R30 to R32). -/

namespace Sys2Proof.Machine

/-- wrapₙ(x) of R8: the value of n trits congruent to x modulo 3ⁿ. -/
def wrap (n : Nat) (x : Int) : Int := (x + half n) % (3 ^ n : Nat) - half n

/-- sat(x, n) of R8. -/
def sat (n : Nat) (x : Int) : Int := max (-(half n : Int)) (min (half n) x)

/-- trunc_to(n, x) of R8: x with its n lowest trits removed. -/
def trunc (n : Nat) (x : Int) : Int := (x + half n) / (3 ^ n : Nat)

def sgn (x : Int) : Int := if x > 0 then 1 else if x < 0 then -1 else 0

/-- x is a value of n trits (R23). -/
def inTrits (n : Nat) (x : Int) : Bool := decide (-(half n : Int) ≤ x) && decide (x ≤ half n)

/-- The w trits of x that start at position lo, as a balanced integer: x[lo+w−1:lo] of R6. -/
def field (x : Int) (lo w : Nat) : Int := wrap w (trunc lo x)

/-- Trit i of x. -/
def trit (x : Int) (i : Nat) : Int := field x i 1

/-- x with the w trits from position lo replaced by those of y. -/
def setField (x : Int) (lo w : Nat) (y : Int) : Int := x + (wrap w y - field x lo w) * (3 ^ lo : Nat)

/-- The n lowest trits of x, t0 first. -/
def trits : Nat → Int → List Int
  | 0, _ => []
  | n + 1, x => wrap 1 x :: trits n (trunc 1 x)

/-- The integer whose trits, t0 first, are given. -/
def ofTrits : List Int → Int
  | [] => 0
  | t :: ts => t + 3 * ofTrits ts

/-- Consensus of two trits (R130, UTCON). -/
def consensus (a b : Int) : Int := if a = b then a else 0

/-- A trit-by-trit operation on n-trit values (R130). -/
def tritwise (n : Nat) (f : Int → Int → Int) (a b : Int) : Int :=
  ofTrits (List.zipWith f (trits n a) (trits n b))

/-- Most significant nonzero trit of the n trits of x, 0 when there is none: lead() of R87. -/
def lead (n : Nat) (x : Int) : Int := ((trits n x).reverse.find? (· ≠ 0)).getD 0

/-- Rotation of the n trits of x left by m (R133). -/
def rotate (n : Nat) (x : Int) (m : Int) : Int :=
  let k := (m % (n : Int)).toNat
  let ts := trits n x
  ofTrits (ts.drop (n - k) ++ ts.take (n - k))

/-- Number of trits of x (of n) that satisfy p. -/
def countTrits (n : Nat) (p : Int → Bool) (x : Int) : Int := ((trits n x).filter p).length

/-- VLEAD of R227: the signed, one-based position of the lead trit. -/
def leadPos (n : Nat) (x : Int) : Int :=
  let ts := trits n x
  match (ts.zipIdx.reverse.find? (fun p => p.1 ≠ 0)) with
  | some (t, i) => t * ((i : Int) + 1)
  | none => 0

/-- The word made of nonets n0, n1, n2 (R24). -/
def wordOf (n0 n1 n2 : Int) : Int := n0 + 19683 * n1 + 387420489 * n2

/-- Nonet j of a word (R24). -/
def nonetOf (x : Int) (j : Nat) : Int := field x (9 * j) 9

/-- Nearest integer to num/den, an exact half toward zero: near() of R203 (den > 0). -/
def nearDiv (num : Int) (den : Nat) : Int :=
  sgn num * (((2 * num.natAbs + den - 1) / (2 * den) : Nat) : Int)

/-- div_near(x, y) of R131 (y ≠ 0). -/
def divNear (x y : Int) : Int := nearDiv (x * sgn y) y.natAbs

/-- Floor of the square root by fuel on its number of bits. -/
def isqrtFrom : Nat → Nat → Nat → Nat
  | 0, _, r => r
  | k + 1, n, r =>
    let r' := r + 2 ^ k
    isqrtFrom k n (if r' * r' ≤ n then r' else r)

/-- ⌊√n⌋. -/
def isqrt (n : Nat) : Nat := isqrtFrom (n.log2 / 2 + 1) n 0

/-- The halfword of a nonet, R30: 16-bit two's complement. -/
def halfword (n : Int) : Nat := (n % 65536).toNat

/-- The signed value of a halfword. -/
def ofHalfword (h : Nat) : Int := if h < 32768 then (h : Int) else (h : Int) - 65536

/-- R32: the nonet a halfword stands for, or none for poison and out-of-range codes. -/
def nonetOfHalfword (h : Nat) : Option Int :=
  let n := ofHalfword h
  if inTrits 9 n then some n else none

def poisonCode : Nat := 0x8000

/-- Lane l of a register or mask; positions beyond it read 0 (R51). -/
def lane (v : Lanes) (l : Nat) : Int := v.getD l 0

/-- A register built lane by lane. -/
def mkLanes (f : Nat → Int) : Lanes := (List.range 27).map f

/-- A register with the lanes selected by p replaced. -/
def updLanes (old : Lanes) (p : Nat → Bool) (f : Nat → Int) : Lanes :=
  mkLanes fun l => if p l then f l else lane old l

end Sys2Proof.Machine
end

