-- ==== Sys2Proof/Syntax.lean ====
section
/-! DEFINITION. The instruction set: the fields of an instruction word as typed data (R84 to R95), and
one constructor of `Instr` for every row of the table of operations and events. -/

namespace Sys2Proof

/-- Element types of R85. -/
inductive Ty where
  | t27 | t9 | f27 | f9 | l3
deriving DecidableEq, Repr

/-- Conditions of R72. -/
inductive Cond where
  | always | gt | lt | ge | le | eq | ne
deriving DecidableEq, Repr

/-- Destination clamp, W0[6] (R84). -/
inductive Clamp where
  | off | sat | unit
deriving DecidableEq, Repr

/-- Source modifier, W0[2:0] (R84). -/
inductive Modifier where
  | plain | neg | abs
deriving DecidableEq, Repr

/-- What an operand field names (R90, R74, R140, R176). `unused` is a field that its form requires to be 0. -/
inductive Opnd where
  | unused
  /-- v0 to v1535 -/
  | vec (n : Nat)
  /-- o0 to o26 -/
  | opr (n : Nat)
  /-- h0 to h8 -/
  | hist (n : Nat)
  /-- s0 to s242 -/
  | uni (n : Nat)
  /-- k0 to k8: indices 1,536 to 1,544 in capsule mode (R74) -/
  | kreg (n : Nat)
  /-- the constant j − 13 of R91 -/
  | const (v : Int)
  /-- m0 to m8, in a field that names a mask (R140) -/
  | mask (n : Nat)
  /-- x0 to x8, in the D field of XLD (R176) -/
  | xreg (n : Nat)
deriving DecidableEq, Repr

/-- The fields of an instruction after decoding. `var` is the five variant trits as one balanced number,
whose parts each entry assigns; `imm` is imm27 or imm20, whichever the format has (R89). -/
structure Fields where
  ty    : Ty := .t27
  var   : Int := 0
  mask  : Nat := 0
  cond  : Cond := .always
  la    : Nat := 0
  clamp : Clamp := .off
  scale : Int := 0
  modA  : Modifier := .plain
  modB  : Modifier := .plain
  modC  : Modifier := .plain
  d     : Opnd := .unused
  a     : Opnd := .unused
  b     : Opnd := .unused
  c     : Opnd := .unused
  aux   : Int := 0
  imm   : Int := 0
deriving DecidableEq, Repr

/-- A part of a gang: the band's name in the state, the gang's order within it, and the part's
lowest-numbered slice (R53, R54). -/
structure PartId where
  band : Nat
  gang : Nat
  part : Nat
deriving DecidableEq, Repr

/-- One barrier of one group at one level (R346), of the leading or trailing copies of a paired launch (R418). -/
structure BarrierKey where
  level    : Nat
  group    : Nat
  number   : Nat
  trailing : Bool
deriving DecidableEq, Repr

/-- Whose budget period begins (R335, R336). -/
inductive BudgetAgent where
  | core (n : Nat)
  | controller (n : Nat)
  | management
deriving DecidableEq, Repr

/-- What the check code finds when a sector is read: how many bytes are wrong, and whether the tag's
version state is 10 or 11 (R38, R39; log 56, DEDUCED). -/
structure SectorError where
  sector : Nat
  bytes  : Nat
  badTag : Bool
deriving DecidableEq, Repr

/-- A firmware image: its bytes, the public key and the signature that it carries, and its security version (R389;
log 15, PRESUMED). -/
structure Image where
  bytes     : List Nat
  key       : List Nat
  signature : List Nat
  security  : Nat
deriving DecidableEq, Repr

/-- The operation of a peer's atomic (R306 to R309). -/
inductive AtomicOp where
  | aadd | amin | amax | afadd | afmin | afmax | axch | acas
deriving DecidableEq, Repr

/-- An atomic that arrives from a peer: its operation, its type and clamp, and for each element its first device nonet,
its operand C after the modifier, and D (R306, R307, R439; log 98, DESIGN CHOICE). -/
structure PeerAtomic where
  op     : AtomicOp
  fields : Fields
  elems  : List (Nat × Word × Word)
deriving DecidableEq, Repr

/-- What a peer asks of this device's memory (R439): a read, a write of packed halfwords, or an atomic. -/
inductive PeerData where
  | read
  | write (hs : List Nat)
  | atomic (a : PeerAtomic)
deriving DecidableEq, Repr

/-- Role of a PCIe port (R437). -/
inductive PortRole where
  | unassigned | host | peer
deriving DecidableEq, Repr

/-- One constructor per row of the table. Rows that an instruction word encodes carry its `Fields`;
rows that are steps of the device carry what the step is about. -/
inductive Instr where
  /-- UADD (R130): Adds two uniform words, then applies destination scale and clamp. -/
  | uadd (f : Fields)
  /-- USUB (R130): Subtracts two uniform words, then applies destination scale and clamp. -/
  | usub (f : Fields)
  /-- UMUL (R130): Writes the low word of the product of two uniform words, bounded by R87. -/
  | umul (f : Fields)
  /-- UMUL_H (R130): Writes the high word, trunc_to(27), of the 54-trit product of two uniform words. -/
  | umulH (f : Fields)
  /-- UDIV (R131): Divides uniform words with rounding to nearest; a zero divisor gives the signed bound, sets sticky
  saturation and counts one saturation. -/
  | udiv (f : Fields)
  /-- UDIV_R (R131): Writes the remainder left by nearest division; a zero divisor returns a. -/
  | udivR (f : Fields)
  /-- UMIN (R130): Writes the minimum of two uniform words. -/
  | umin (f : Fields)
  /-- UMAX (R130): Writes the maximum of two uniform words. -/
  | umax (f : Fields)
  /-- UCMP (R130): Writes sign(a − b) as a uniform word. -/
  | ucmp (f : Fields)
  /-- USEL (R132): Selects a, b or the old destination on the sign of c. -/
  | usel (f : Fields)
  /-- USHF (R133): Shifts a uniform word by a signed trit count, with optional clamp. -/
  | ushf (f : Fields)
  /-- USHF_ROT (R133): Rotates the trits of a uniform word by the count mod 27. -/
  | ushfRot (f : Fields)
  /-- UTMIN (R130): Writes the trit-wise minimum of two uniform words. -/
  | utmin (f : Fields)
  /-- UTMAX (R130): Writes the trit-wise maximum of two uniform words. -/
  | utmax (f : Fields)
  /-- UTCON (R130): Writes the trit-wise consensus of two uniform words. -/
  | utcon (f : Fields)
  /-- UMOV (R130): Moves a uniform word or an immediate into a uniform register. -/
  | umov (f : Fields)
  /-- ULEA (R130): Writes a + b × c, bounded by R87. -/
  | ulea (f : Fields)
  /-- BR_ANY (R135): Branches each slice in which any lane satisfies the mask condition; the issuing set may part. -/
  | brAny (f : Fields)
  /-- BR_ALL (R135): Branches each slice in which all three lanes satisfy the mask condition. -/
  | brAll (f : Fields)
  /-- BR_U (R135): Branches the whole issuing set on the sign of a uniform word. -/
  | brU (f : Fields)
  /-- CALL (R136): Branches unconditionally and writes the link PC + 9 into a uniform register. -/
  | call (f : Fields)
  /-- RET (R137): Branches to a register value plus an offset, using the return predictor. -/
  | ret (f : Fields)
  /-- REGANG (R55): Parks a part until every live slice arrives or exits; then the gang re-forms, or takes a
  regang-mismatch trap. -/
  | regang (f : Fields)
  /-- REGANG_REFORM (R55): When the last live slice arrives at REGANG or exits, the waiting parts re-form, or the
  mismatch trap is raised. -/
  | regangReform (band gang : Nat)
  /-- EXIT (R139): Ends the live slices of the issuing set once all their earlier instructions have committed. -/
  | exit (f : Fields)
  /-- MLOG_MIN (R141): Combines two masks by trit-wise minimum in the lanes of the issuing slices. -/
  | mlogMin (f : Fields)
  /-- MLOG_MAX (R141): Combines two masks by trit-wise maximum in the lanes of the issuing slices. -/
  | mlogMax (f : Fields)
  /-- MLOG_CON (R141): Combines two masks by trit-wise consensus in the lanes of the issuing slices. -/
  | mlogCon (f : Fields)
  /-- MMOV (R142): Copies one mask into another in the lanes of the issuing slices. -/
  | mmov (f : Fields)
  /-- MMOV_IN (R142): Sets mask trits from the trits of a word. -/
  | mmovIn (f : Fields)
  /-- MMOV_OUT (R142): Writes the trits of a mask as a word to a uniform or vector destination. -/
  | mmovOut (f : Fields)
  /-- MCNT (R143): Counts the lanes of the issuing slices whose mask trit satisfies a condition. -/
  | mcnt (f : Fields)
  /-- LANEID (R144): Writes base plus lane number into each active lane. -/
  | laneid (f : Fields)
  /-- CYCLE (R146): Reads the core's cycle counter. -/
  | cycle (f : Fields)
  /-- STATR (R147): Reads the gang status word. -/
  | statr (f : Fields)
  /-- STATC (R148): Clears the sticky-saturation and locks-lost status trits when it commits. -/
  | statc (f : Fields)
  /-- TREG (R149): Reads a trap register of each issuing slice. -/
  | treg (f : Fields)
  /-- VADD (R227): Adds elements lane-wise, bounded by R87. -/
  | vadd (f : Fields)
  /-- VSUB (R227): Subtracts elements lane-wise, bounded by R87. -/
  | vsub (f : Fields)
  /-- VMUL (R227): Multiplies elements and keeps the low part, bounded by R87. -/
  | vmul (f : Fields)
  /-- VMULH (R227): Writes the high part of each element product. -/
  | vmulh (f : Fields)
  /-- VMAC (R228): Writes a × b + c per element, bounded once. -/
  | vmac (f : Fields)
  /-- VDOT3 (R229): Adds the three packed T9 products of each lane to a T27 accumulator. -/
  | vdot3 (f : Fields)
  /-- VDIV (R230): Divides elements with nearest rounding; a zero divisor saturates and counts. -/
  | vdiv (f : Fields)
  /-- VDIV_R (R230): Writes the remainder of each element's nearest division. -/
  | vdivR (f : Fields)
  /-- VMIN (R227): Writes the minimum of each element pair. -/
  | vmin (f : Fields)
  /-- VMAX (R227): Writes the maximum of each element pair. -/
  | vmax (f : Fields)
  /-- VSHF (R231): Shifts each element by its count, rounding to nearest on right shifts. -/
  | vshf (f : Fields)
  /-- VSHF_ROT (R231): Rotates the trits of each element. -/
  | vshfRot (f : Fields)
  /-- VTMIN (R227): Writes the trit-wise minimum of each element pair. -/
  | vtmin (f : Fields)
  /-- VTMAX (R227): Writes the trit-wise maximum of each element pair. -/
  | vtmax (f : Fields)
  /-- VTCON (R227): Writes the trit-wise consensus of each element pair. -/
  | vtcon (f : Fields)
  /-- VCMP (R232): Writes a one-trit comparison per active lane into a mask. -/
  | vcmp (f : Fields)
  /-- VSEL (R233): Selects per element on the sign of c, keeping the old destination on zero. -/
  | vsel (f : Fields)
  /-- VMOV (R227): Moves a register or immediate into a vector register, canonicalising F types. -/
  | vmov (f : Fields)
  /-- VCNT (R227): Counts the nonzero, plus or minus trits of each element. -/
  | vcnt (f : Fields)
  /-- VLEAD (R227): Writes the signed position of each element's leading nonzero trit (experimental). -/
  | vlead (f : Fields)
  /-- FADD (R234): Adds floats exactly and narrows once. -/
  | fadd (f : Fields)
  /-- FSUB (R234): Subtracts floats exactly and narrows once. -/
  | fsub (f : Fields)
  /-- FMUL (R234): Multiplies floats exactly and narrows once. -/
  | fmul (f : Fields)
  /-- FMA (R234): Computes a × b + c exactly with a single narrowing. -/
  | fma (f : Fields)
  /-- FMIN (R235): Writes the canonical minimum of each float pair, with NaN propagation. -/
  | fmin (f : Fields)
  /-- FMAX (R235): Writes the canonical maximum of each float pair, with NaN propagation. -/
  | fmax (f : Fields)
  /-- FCMP (R237): Compares floats in total order into a mask, counting signalling NaNs as invalid. -/
  | fcmp (f : Fields)
  /-- FRCP (R236): Computes an approximate reciprocal with p − 1 significand trits. -/
  | frcp (f : Fields)
  /-- FRSQ (R236): Computes an approximate reciprocal square root with p − 1 significand trits. -/
  | frsq (f : Fields)
  /-- FSCL (R234): Scales each float by a power of three taken from B. -/
  | fscl (f : Fields)
  /-- FCLS (R238): Writes a class code for each float element. -/
  | fcls (f : Fields)
  /-- CVT (R239): Converts elements between integer and float types, optionally with dither. -/
  | cvt (f : Fields)
  /-- PACK (R241): Packs three nonets into the sub-elements of each lane. -/
  | pack (f : Fields)
  /-- UNPK (R241): Extracts one raw sub-element or code of each lane as a T27 integer. -/
  | unpk (f : Fields)
  /-- LMUL (R242): Multiplies L3 code pairs and narrows the products to L3. -/
  | lmul (f : Fields)
  /-- LEXP (R244): Turns selected L3 codes times a float scale into float values. -/
  | lexp (f : Fields)
  /-- LQNT (R245): Quantises float elements against given scales into L3 codes. -/
  | lqnt (f : Fields)
  /-- LCMP (R243): Writes the sign of the difference of each L3 code pair. -/
  | lcmp (f : Fields)
  /-- SLIDE (R247): Shifts elements by k, taking elements beyond the end from C (concatenate). -/
  | slide (f : Fields)
  /-- SLIDE_EDGE (R247): Shifts elements by k, repeating the edge element beyond the ends. -/
  | slideEdge (f : Fields)
  /-- SLIDE_FILL (R247): Shifts elements by k, filling from C at the same position beyond the ends. -/
  | slideFill (f : Fields)
  /-- PERM (R248): Permutes elements by per-element indices. -/
  | perm (f : Fields)
  /-- BCAST (R248): Broadcasts element k into every element of the active lanes. -/
  | bcast (f : Fields)
  /-- RED (R250): Reduces active lanes by sum, max or min in increasing lane order. -/
  | red (f : Fields)
  /-- SCAN (R250): Writes inclusive prefix sums, maxima or minima over the active lanes. -/
  | scan (f : Fields)
  /-- VEXT (R249): Extracts element k raw into a uniform register. -/
  | vext (f : Fields)
  /-- VINS (R249): Inserts a raw value into element k if its lane is active. -/
  | vins (f : Fields)
  /-- SHUF3 (R251): Rotates the three sub-elements of each lane (deprecated). -/
  | shuf3 (f : Fields)
  /-- LDN (R171): Loads one nonet into a uniform or k register. -/
  | ldn (f : Fields)
  /-- LDW (R171): Loads one word into a uniform or k register. -/
  | ldw (f : Fields)
  /-- STN (R172): Stores the low nonet of a word. -/
  | stn (f : Fields)
  /-- STW (R172): Stores a word. -/
  | stw (f : Fields)
  /-- VLD (R173): Loads one contiguous element per active lane. -/
  | vld (f : Fields)
  /-- VST (R173): Stores one contiguous element per active lane. -/
  | vst (f : Fields)
  /-- VLDS (R174): Loads strided elements per active lane. -/
  | vlds (f : Fields)
  /-- VSTS (R174): Stores strided elements per active lane. -/
  | vsts (f : Fields)
  /-- GATH (R175): Loads elements at per-lane offsets. -/
  | gath (f : Fields)
  /-- SCAT (R175): Stores elements at per-lane offsets. -/
  | scat (f : Fields)
  /-- XLD (R176): Fills a translation register from a translation without trapping. -/
  | xld (f : Fields)
  /-- PREF (R177): Prefetches lines into the shared cache and L1 without traps or effects. -/
  | pref (f : Fields)
  /-- PREF_SC (R177): Prefetches lines into the shared cache only. -/
  | prefSc (f : Fields)
  /-- AADD (R308): Atomically adds to memory elements, wrapping or saturating, and returns the old values. -/
  | aadd (f : Fields)
  /-- AMIN (R308): Atomically stores the minimum and returns the old values. -/
  | amin (f : Fields)
  /-- AMAX (R308): Atomically stores the maximum and returns the old values. -/
  | amax (f : Fields)
  /-- AFADD (R308): Atomically adds floats with one narrowing and returns the old values. -/
  | afadd (f : Fields)
  /-- AFMIN (R309): Atomically stores the float minimum with NaN rules and returns the old encoding. -/
  | afmin (f : Fields)
  /-- AFMAX (R309): Atomically stores the float maximum with NaN rules and returns the old encoding. -/
  | afmax (f : Fields)
  /-- AXCH (R308): Atomically exchanges memory elements with C. -/
  | axch (f : Fields)
  /-- ACAS (R308): Atomically writes C where the old trits equal the expected value, and returns the old value. -/
  | acas (f : Fields)
  /-- DRAIN (R313): Waits until the gang's outstanding acknowledgements at issue have returned. -/
  | drain (f : Fields)
  /-- DRAIN_BAR (R313): Drains, then arrives at a barrier without waiting for it. -/
  | drainBar (f : Fields)
  /-- DRAIN_COMPLETE (R313): The last acknowledgement that a DRAIN awaits returns, and the slice continues. -/
  | drainComplete (p : PartId)
  /-- BATCH_SEAL (R314): Closes the current copy batch and writes its number, waiting if that number is still in use. -/
  | batchSeal (f : Fields)
  /-- BATCH_WAIT (R314): Waits until every node of the named batch has finished, raising any stalled node's fault. -/
  | batchWait (f : Fields)
  /-- BATCH_WAIT_COMPLETE (R314): The last node of a waited batch finishes and the wait completes. -/
  | batchWaitComplete (p : PartId)
  /-- ICINV (R315): Drains, then invalidates one instruction line on every core of the package. -/
  | icinv (f : Fields)
  /-- ICINV_ALL (R315): Drains, then invalidates every instruction line of the context on every core. -/
  | icinvAll (f : Fields)
  /-- ICINV_COMPLETE (R315): Every core confirms the invalidation and fetch resumes. -/
  | icinvComplete (p : PartId)
  /-- ICLOCK (R317): Locks up to n instruction lines for the context on the core and returns the count locked. -/
  | iclock (f : Fields)
  /-- ICLOCK_UN (R317): Frees the context's locks on n lines and returns the count freed. -/
  | iclockUn (f : Fields)
  /-- FENCE (R312): Speculative fence of a scope that orders the gang's accesses. -/
  | fence (f : Fields)
  /-- FENCE_NS (R312): Non-speculative fence that issues nothing until it completes. -/
  | fenceNs (f : Fields)
  /-- FENCE_COMPLETE (R312): Every earlier access of the gang is acknowledged within scope and the fence completes. -/
  | fenceComplete (p : PartId)
  /-- FENCE_ROLLBACK (R297): An invalidation reaches a line read under an incomplete speculative fence, and the slice
  rolls back to the instruction after the fence. -/
  | fenceRollback (p : PartId) (line : Nat)
  /-- COPY (R187): Creates a copy node that converts or copies a tensor and optionally writes a fingerprint. -/
  | copy (f : Fields)
  /-- CMPB (R193): Creates a node that compares two tensors nonet by nonet. -/
  | cmpb (f : Fields)
  /-- LINK (R194): Makes one node a successor of another. -/
  | link (f : Fields)
  /-- BIN (R196): Creates a node that counts items per bin and patches the row counts of queued nodes. -/
  | bin (f : Fields)
  /-- RELS (R195): Releases a held node. -/
  | rels (f : Fields)
  /-- NODE_FINISH (R182): A node's writes are all performed and acknowledged; the walker applies its patches and
  decrements its successors. -/
  | nodeFinish (band serial : Nat)
  /-- NODE_FAULT (R192): A node's element access faults and the node stalls at that element. -/
  | nodeFault (band serial : Nat)
  /-- FOLLOW_ON_DECREMENT (R190): A copy's last destination nonet lands and the copy engine decrements its follow-on
  matrix node. -/
  | followOnDecrement (band serial : Nat)
  /-- MMUL (R257): Multiplies A by B into an accumulator tile step by step, and resets the progress in D at commit. -/
  | mmul (f : Fields)
  /-- MMUL_NODE (R263): Creates a matrix node that multiplies into the tile named in C. -/
  | mmulNode (f : Fields)
  /-- ENGINE_COMMAND_READY (R261): A matrix-engine command becomes ready and is performed in ready order. -/
  | engineCommandReady (core : Nat)
  /-- MMUL_STEP (R257): The sequencer completes one 27-column step of a multiply. -/
  | mmulStep (core : Nat)
  /-- AZERO (R265): Sets every word of an accumulator tile to zero. -/
  | azero (f : Fields)
  /-- ARD (R266): Reads tile words into lanes, bounded or narrowed. -/
  | ard (f : Fields)
  /-- AWR (R267): Writes raw words into tile words. -/
  | awr (f : Fields)
  /-- ASAVE (R268): Copies a tile raw into scratchpad words. -/
  | asave (f : Fields)
  /-- ARST (R268): Copies scratchpad words raw back into a tile. -/
  | arst (f : Fields)
  /-- BQNT (R269): Quantises float rows into L3 blocks with scales. -/
  | bqnt (f : Fields)
  /-- BDQ (R270): Dequantises L3 rows with scales into float rows. -/
  | bdq (f : Fields)
  /-- SEND (R344): Appends a word to a channel as a core-scope release, blocking on a full channel or no allowance. -/
  | send (f : Fields)
  /-- SEND_COMPLETE (R344): A blocked SEND finds a free slot and allowance and is performed. -/
  | sendComplete (band channel : Nat)
  /-- RECV (R344): Removes the oldest word of a channel, blocking while it is empty. -/
  | recv (f : Fields)
  /-- RECV_COMPLETE (R345): A word is appended and the oldest waiting RECV takes it. -/
  | recvComplete (band channel : Nat)
  /-- BAR (R346): Arrives at a barrier and waits for its phase to complete. -/
  | bar (f : Fields)
  /-- BAR_ARR (R346): Arrives at a barrier and goes on. -/
  | barArr (f : Fields)
  /-- BARRIER_PHASE_COMPLETE (R346): Every participant has arrived or exited, and the waits on the phase complete. -/
  | barrierPhaseComplete (kernel : Nat) (key : BarrierKey)
  /-- PARK (R348): Compares a word and, if equal, registers the part as a waiter. -/
  | park (f : Fields)
  /-- PARK_POLL (R350): An unregistered PARK re-reads its word every 243 cycles. -/
  | parkPoll (p : PartId)
  /-- PARK_TIMEOUT (R350): An unregistered PARK completes after 59,049 cycles. -/
  | parkTimeout (p : PartId)
  /-- WAKE (R349): Removes and wakes up to n registrations on a word and returns the number woken. -/
  | wake (f : Fields)
  /-- GROW (R351): Requests more registers, waiting as a blocking point until granted. -/
  | grow (f : Fields)
  /-- GROW_GRANT (R330): The oldest waiting GROW request is granted once free registers cover it. -/
  | growGrant (core : Nat)
  /-- SHRINK (R351): Returns registers to the core's pool. -/
  | shrink (f : Fields)
  /-- LAUNCH (R352): Commits the version, releases, and hands a launch packet to the front end. -/
  | launch (f : Fields)
  /-- CAP_ENTER (R356): Contends for a capsule record: takes, adopts, or waits tethered. -/
  | capEnter (f : Fields)
  /-- CAP_RETRY (R356): A tethered contender wakes on a change of record word 0 and repeats its contend loop. -/
  | capRetry (p : PartId)
  /-- CAP_STEP_COMMIT (R358): A body step's commit is checked against state, token and step at the record's home and
  recorded. -/
  | capStepCommit (p : PartId)
  /-- CAP_STORE_APPLY (R358): After a store step commits, the slice applies the store as a plain store. -/
  | capStoreApply (p : PartId)
  /-- CAP_LEAVE (R360): Completes the body: waits for stores, writes the return slot and marker, and frees the record.
  -/
  | capLeave (f : Fields)
  /-- CAP_MARK_DESCHEDULED (R359): After the holder's outstanding work drains, its core marks the record descheduled
  and wakes its waiters. -/
  | capMarkDescheduled (p : PartId)
  /-- REJOIN (R361): Automatic reclaim, completion, wait or fresh contention of a slice in capsule mode. -/
  | rejoin (p : PartId)
  /-- MAP (R394): Writes a leaf PTE for a page at the chosen level and shoots down stale translations. -/
  | map (f : Fields)
  /-- UNMAP (R394): Writes an invalid entry at the chosen level and shoots down stale translations. -/
  | unmap (f : Fields)
  /-- MAP_COMPLETE (R395): Every core confirms the shoot-down of a MAP or UNMAP, and D is written. -/
  | mapComplete (p : PartId)
  /-- PKSET (R396): Sets the permission of one key in the context's permission register. -/
  | pkset (f : Fields)
  /-- PKSET_COMPLETE (R378): Every core's copy of the permission register has changed. -/
  | pksetComplete (p : PartId)
  /-- PKRD (R397): Reads one word of the permission register. -/
  | pkrd (f : Fields)
  /-- TRAP (R398): Raises the software trap with a sub-code. -/
  | trap (f : Fields)
  /-- FAULT_SLOT_FREED (R384): A part waiting because every fault-record slot was open resumes when one closes. -/
  | faultSlotFreed (p : PartId)
  /-- TRET (R399): Closes the record and replays the trapping instruction. -/
  | tret (f : Fields)
  /-- TRET_SKIP (R399): Closes the record and skips the trapping instruction. -/
  | tretSkip (f : Fields)
  /-- TKILL (R400): Stops the issuing kernel. -/
  | tkill (f : Fields)
  /-- FREC (R401): Reads a word of the slice's copy of its latest fault record. -/
  | frec (f : Fields)
  /-- DSTEP_ON (R402): Sets the step trit of the status word. -/
  | dstepOn (f : Fields)
  /-- DSTEP_OFF (R402): Clears the step trit of the status word. -/
  | dstepOff (f : Fields)
  /-- COMMIT (R429): Waits for the gang's stores and commits the band's version everywhere. -/
  | commit (f : Fields)
  /-- PAIR_CK (R430): Takes a paired checkpoint. -/
  | pairCk (f : Fields)
  /-- EINJ_CORR (R431): Alters one stored trit without its check trits, to be corrected. -/
  | einjCorr (f : Fields)
  /-- EINJ_UNC (R431): Poisons a scratchpad word or a sector. -/
  | einjUnc (f : Fields)
  /-- EINJ_LINK (R431): Makes the next flit toward a line's home fail its CRC. -/
  | einjLink (f : Fields)
  /-- EINJ_SIG (R431): Adds one to the trailing copy's current signature. -/
  | einjSig (f : Fields)
  /-- PARTITION_ISSUE (R326): In each local cycle the partition issues the first eligible part in starvation, capsule,
  share and age order. -/
  | partitionIssue (core partition : Nat)
  /-- PART_STARVING (R326): A part's wait count reaches 27 and the part becomes starving. -/
  | partStarving (p : PartId)
  /-- STAGE_REBALANCE (R328): Every 2,187 cycles the core moves one eighty-first of share between stages. -/
  | stageRebalance (core : Nat)
  /-- BUDGET_PERIOD_START (R335): A new 59,049-cycle budget period begins and throttling ends. -/
  | budgetPeriodStart (agent : BudgetAgent)
  /-- WATCHDOG_EXPIRY (R338): A gang's watchdog count exceeds w; the budget trap stops the kernel. -/
  | watchdogExpiry (band gang : Nat)
  /-- PACKET_TAKE (R320): The front end takes a takeable head packet, checks it and splits the grid among dies, or
  refuses it. -/
  | packetTake (queue : Nat)
  /-- BAND_DISPATCH (R322): A die places a pending band on a core that can hold its demand and starts its gangs. -/
  | bandDispatch (die core : Nat)
  /-- PLACEMENT_EVICTION (R323): After a head band waits 59,049 cycles, whole lower-priority waiting bands are evicted
  until it fits. -/
  | placementEviction (die : Nat)
  /-- GROW_EVICTION (R331): With every gang waiting and the oldest GROW blocked, the youngest waiting gangs are
  evicted until it can be granted. -/
  | growEviction (core : Nat)
  /-- GANG_EVICT (R82): A waiting gang's stores drain and its state is saved. -/
  | gangEvict (band gang : Nat)
  /-- GANG_RESUME (R334): An evicted gang whose wake condition is met resumes once resources are free. -/
  | gangResume (band gang : Nat)
  /-- REMOTE_LOAD_RETURN (R162): A requested sector arrives at the core and is delivered to every load that joined its
  miss-status entry. -/
  | remoteLoadReturn (req : Nat)
  /-- STORE_ACK (R298): An acknowledgement returns and the gang's outstanding-acknowledgement count falls. -/
  | storeAck (band gang : Nat)
  /-- HOME_ACCESS (R160): A request reaches its line's home slice and is performed in the line's serial order. -/
  | homeAccess (req : Nat)
  /-- HBM_BURST_COMPLETE (R39): A burst returns; the check code is decoded, correcting or poisoning, and the home's
  line fills. -/
  | hbmBurstComplete (controller : Nat) (sectors : List SectorError)
  /-- CLUSTER_ACCESS (R158): A scratchpad access arrives over the cluster network and is serialised at the cell. -/
  | clusterAccess (req : Nat)
  /-- SCRUB_READ (R423): The scrubber reads the next sector, correcting or poisoning it. -/
  | scrubRead (controller : Nat) (e : SectorError)
  /-- SCRUB_WRITEBACK (R40): A scrubber write-back is accepted only if the scrub generation is unchanged within 4,096
  cycles. -/
  | scrubWriteback (controller : Nat) (cycles : Nat)
  /-- HOME_LINE_SCRUB (R423): A home slice reads a line once per 59,049 cycles and corrects single errors in place. -/
  | homeLineScrub (line : Nat)
  /-- BAND_END (R64): A band whose gangs have exited and nodes finished commits, adds its counts and frees its
  resources. -/
  | bandEnd (band : Nat)
  /-- KERNEL_STOP (R388): A kernel's bands end at once, versions drop, capsules are marked and records close. -/
  | kernelStop (kernel : Nat) (code sub : Int)
  /-- PAIRED_CHECKPOINT (R420): Both copies reach the checkpoint and signatures match; the leading copy performs held
  stores and once-operations. -/
  | pairedCheckpoint (band : Nat)
  /-- SIGNATURE_RECEIVE (R419): A trailing copy's group signature arrives and is compared. -/
  | signatureReceive (band : Nat)
  /-- PAIRED_MISMATCH (R422): On a mismatch both copies roll back to the latest checkpoint, or the kernel stops at the
  third. -/
  | pairedMismatch (band : Nat)
  /-- FLIT_RECEIVE (R409): A UCIe flit arrives; a CRC failure or out-of-range code triggers go-back replay. -/
  | flitReceive (module : Nat) (crcFails : Bool) (payload : List Nat)
  /-- LANE_ROTATION (R410): After 9 replays in a budget period the module rotates out its weakest lane onto the shadow
  lane. -/
  | laneRotation (module : Nat)
  /-- LANE_MARGIN_LOW (R410): A lane's calibration margin falls below threshold and it is rotated out at once. -/
  | laneMarginLow (module : Nat)
  /-- PLANE_DEATH (R425): A plane dies and the controller performs the reel-in: quiesce, resend, reissue, reassign,
  resume. -/
  | planeDeath (plane : Nat)
  /-- RESPONSE_CONFIRM (R424): A die's cumulative confirmation frees a home's retained responses and unblocks a full
  buffer. -/
  | responseConfirm (home plane die : Nat)
  /-- PCIE_LINK_DOWN (R410): A PCIe link goes down; reads through it return poison and writes are dropped. -/
  | pcieLinkDown (port : Nat)
  /-- HOST_WRITE (R33): A host or peer write of nonets is checked for out-of-range codes and performed at the line's
  home. -/
  | hostWrite (port byte : Nat) (data : List Nat)
  /-- HOST_BYTE_MERGE (R35): A write of one byte of a halfword is merged at the home with the nonet's other byte. -/
  | hostByteMerge (port byte value : Nat)
  /-- HOST_READ (R36): A host or peer read within one line is served as one access, poison returning 0x8000. -/
  | hostRead (port byte count : Nat)
  /-- HOST_READ_RESPONSE (R33): A host or peer answers a device read; out-of-range codes become poison. -/
  | hostReadResponse (req : Nat) (data : List Nat)
  /-- PEER_REQUEST (R439): A peer request is served inside the inbound ranges, otherwise returns 0x8000 or is dropped.
  -/
  | peerRequest (port nonet count : Nat) (data : PeerData)
  /-- TAIL_WRITE (R440): A host write of a queue tail submits packets, or is dropped as an ingress error. -/
  | tailWrite (port queue : Nat) (bytes : List Nat)
  /-- REGISTER_WRITE (R445): A host write to a BAR2 slot without behaviour of its own, taking effect only when bytes 0
  to 5 are whole and in range. -/
  | registerWrite (port offset : Nat) (bytes : List Nat)
  /-- NEGOTIATE (R447): Puts the accepted feature trits in effect and returns them. -/
  | negotiate (port : Nat) (args : List Int)
  /-- RESYNC (R448): Writes the 11,814-word summary to host memory. -/
  | resync (port : Nat) (args : List Int)
  /-- INSTALL (R444): Installs a context from its descriptor. -/
  | install (port : Nat) (args : List Int)
  /-- CHANGE (R444): Re-reads the descriptor of an installed context. -/
  | change (port : Nat) (args : List Int)
  /-- REMOVE (R444): Stops the context's kernels, evicts its gangs, unbinds its queues and releases its pool. -/
  | remove (port : Nat) (args : List Int)
  /-- RELEASE (R371): Zeroes frames and removes them from their pool. -/
  | release (port : Nat) (args : List Int)
  /-- WINDOW (R438): Grants a context a host or peer window. -/
  | window (port : Nat) (args : List Int)
  /-- QUEUE (R440): Binds a command queue to a context with priority and ring. -/
  | queue (port : Nat) (args : List Int)
  /-- RESOLVE (R385): Resolves a host-service fault record with replay, skip or kill. -/
  | resolve (port : Nat) (args : List Int)
  /-- STOP (R388): Stops a running kernel of a context. -/
  | stop (port : Nat) (args : List Int)
  /-- BUDGET (R336): Sets the budget of an activity. -/
  | budget (port : Nat) (args : List Int)
  /-- INJECT (R431): Sets a context's injection permission. -/
  | inject (port : Nat) (args : List Int)
  /-- REPLACE (R449): Checks new code and writes a kernel-table entry as one step. -/
  | replace (port : Nat) (args : List Int)
  /-- TOKEN (R321): Sets a queue token's count unless it would lower one that an untaken packet waits on. -/
  | token (port : Nat) (args : List Int)
  /-- ATTESTATION_REQUEST (R390): The controller returns a signed 716-byte attestation report. -/
  | attestationRequest (nonce : List Nat)
  /-- BRING_UP (R452): At power-on the device checks firmware, self-tests, trains planes, stacks and ports, and zeroes
  memory. -/
  | bringUp (image : Image) (stepsPass : Bool)
  /-- THERMAL_HIGH (R451): A die above 105 °C lowers every budget to 27. -/
  | thermalHigh (die : Nat)
  /-- THERMAL_COOL (R451): A die cooling below 100 °C restores its budgets. -/
  | thermalCool (die : Nat)
  /-- THERMAL_TRIP (R451): A die reaching 115 °C trips shutdown. -/
  | thermalTrip (die : Nat)
  /-- FIRMWARE_UPDATE (R452): Through the recovery interface on port 0, the host updates the management controller's
  firmware. -/
  | firmwareUpdate (port : Nat) (image : Image)
  /-- PORT_RESET (R437): A PCIe port is reset, takes its role afresh from the controller's configuration and retrains.
  -/
  | portReset (port : Nat) (role : PortRole)
  /-- PCIE_LINK_UP (R410): A PCIe port's link that was down comes back up, and its link state in the RESYNC summary
  returns to +1. -/
  | pcieLinkUp (port : Nat)
  /-- INBOUND_RANGES (R439): System software opens or changes the inbound ranges in which a peer-facing port serves
  peer requests. -/
  | inboundRanges (port : Nat) (ranges : List (Nat × Nat))
deriving DecidableEq, Repr

end Sys2Proof
end

