-- ==== Sys2Proof/Machine/Encoding.lean ====
section
/-! DEFINITION. The opcode map and, for every coded instruction, the forms its entry gives it: variants,
types, predicate, operand classes, aux6, W2, modifiers, clamp and scale (R84 to R106, R126 to R130, R165,
R178, R220 to R226, R254, R304, R305, R341, R342, R391, R392, R428). -/

namespace Sys2Proof.Machine

/-- The coded instructions, one per row of the table that an instruction word encodes. -/
inductive Op where
  | uadd | usub | umul | umulH | udiv | udivR | umin | umax | ucmp | usel | ushf | ushfRot | utmin | utmax
  | utcon | umov | ulea | brAny | brAll | brU | call | ret | regang | exit | mlogMin | mlogMax | mlogCon
  | mmov | mmovIn | mmovOut | mcnt | laneid | cycle | statr | statc | treg | vadd | vsub | vmul | vmulh
  | vmac | vdot3 | vdiv | vdivR | vmin | vmax | vshf | vshfRot | vtmin | vtmax | vtcon | vcmp | vsel | vmov
  | vcnt | vlead | fadd | fsub | fmul | fma | fmin | fmax | fcmp | frcp | frsq | fscl | fcls | cvt | pack
  | unpk | lmul | lexp | lqnt | lcmp | slide | slideEdge | slideFill | perm | bcast | red | scan | vext
  | vins | shuf3 | ldn | ldw | stn | stw | vld | vst | vlds | vsts | gath | scat | xld | pref | prefSc
  | aadd | amin | amax | afadd | afmin | afmax | axch | acas | drain | drainBar | batchSeal | batchWait
  | icinv | icinvAll | iclock | iclockUn | fence | fenceNs | copy | cmpb | link | bin | rels | mmul
  | mmulNode | azero | ard | awr | asave | arst | bqnt | bdq | send | recv | bar | barArr | park | wake
  | grow | shrink | launch | capEnter | capLeave | map | unmap | pkset | pkrd | trap | tret | tretSkip
  | tkill | frec | dstepOn | dstepOff | commit | pairCk | einjCorr | einjUnc | einjLink | einjSig
deriving DecidableEq, Repr

/-- Every coded instruction, in the order of the table. -/
def Op.all : List Op :=
  ([.uadd, .usub, .umul, .umulH, .udiv, .udivR, .umin, .umax, .ucmp, .usel, .ushf, .ushfRot, .utmin, .utmax, .utcon, .umov, .ulea, .brAny, .brAll, .brU] : List Op)
  ++ ([.call, .ret, .regang, .exit, .mlogMin, .mlogMax, .mlogCon, .mmov, .mmovIn, .mmovOut, .mcnt, .laneid, .cycle, .statr, .statc, .treg, .vadd, .vsub, .vmul, .vmulh] : List Op)
  ++ ([.vmac, .vdot3, .vdiv, .vdivR, .vmin, .vmax, .vshf, .vshfRot, .vtmin, .vtmax, .vtcon, .vcmp, .vsel, .vmov, .vcnt, .vlead, .fadd, .fsub, .fmul, .fma] : List Op)
  ++ ([.fmin, .fmax, .fcmp, .frcp, .frsq, .fscl, .fcls, .cvt, .pack, .unpk, .lmul, .lexp, .lqnt, .lcmp, .slide, .slideEdge, .slideFill, .perm, .bcast, .red] : List Op)
  ++ ([.scan, .vext, .vins, .shuf3, .ldn, .ldw, .stn, .stw, .vld, .vst, .vlds, .vsts, .gath, .scat, .xld, .pref, .prefSc, .aadd, .amin, .amax] : List Op)
  ++ ([.afadd, .afmin, .afmax, .axch, .acas, .drain, .drainBar, .batchSeal, .batchWait, .icinv, .icinvAll, .iclock, .iclockUn, .fence, .fenceNs, .copy, .cmpb, .link, .bin, .rels] : List Op)
  ++ ([.mmul, .mmulNode, .azero, .ard, .awr, .asave, .arst, .bqnt, .bdq, .send, .recv, .bar, .barArr, .park, .wake, .grow, .shrink, .launch, .capEnter, .capLeave] : List Op)
  ++ ([.map, .unmap, .pkset, .pkrd, .trap, .tret, .tretSkip, .tkill, .frec, .dstepOn, .dstepOff, .commit, .pairCk, .einjCorr, .einjUnc, .einjLink, .einjSig] : List Op)

/-- The instruction with a given operation and fields. -/
def Op.mk : Op → Fields → Instr
  | .uadd, f => .uadd f
  | .usub, f => .usub f
  | .umul, f => .umul f
  | .umulH, f => .umulH f
  | .udiv, f => .udiv f
  | .udivR, f => .udivR f
  | .umin, f => .umin f
  | .umax, f => .umax f
  | .ucmp, f => .ucmp f
  | .usel, f => .usel f
  | .ushf, f => .ushf f
  | .ushfRot, f => .ushfRot f
  | .utmin, f => .utmin f
  | .utmax, f => .utmax f
  | .utcon, f => .utcon f
  | .umov, f => .umov f
  | .ulea, f => .ulea f
  | .brAny, f => .brAny f
  | .brAll, f => .brAll f
  | .brU, f => .brU f
  | .call, f => .call f
  | .ret, f => .ret f
  | .regang, f => .regang f
  | .exit, f => .exit f
  | .mlogMin, f => .mlogMin f
  | .mlogMax, f => .mlogMax f
  | .mlogCon, f => .mlogCon f
  | .mmov, f => .mmov f
  | .mmovIn, f => .mmovIn f
  | .mmovOut, f => .mmovOut f
  | .mcnt, f => .mcnt f
  | .laneid, f => .laneid f
  | .cycle, f => .cycle f
  | .statr, f => .statr f
  | .statc, f => .statc f
  | .treg, f => .treg f
  | .vadd, f => .vadd f
  | .vsub, f => .vsub f
  | .vmul, f => .vmul f
  | .vmulh, f => .vmulh f
  | .vmac, f => .vmac f
  | .vdot3, f => .vdot3 f
  | .vdiv, f => .vdiv f
  | .vdivR, f => .vdivR f
  | .vmin, f => .vmin f
  | .vmax, f => .vmax f
  | .vshf, f => .vshf f
  | .vshfRot, f => .vshfRot f
  | .vtmin, f => .vtmin f
  | .vtmax, f => .vtmax f
  | .vtcon, f => .vtcon f
  | .vcmp, f => .vcmp f
  | .vsel, f => .vsel f
  | .vmov, f => .vmov f
  | .vcnt, f => .vcnt f
  | .vlead, f => .vlead f
  | .fadd, f => .fadd f
  | .fsub, f => .fsub f
  | .fmul, f => .fmul f
  | .fma, f => .fma f
  | .fmin, f => .fmin f
  | .fmax, f => .fmax f
  | .fcmp, f => .fcmp f
  | .frcp, f => .frcp f
  | .frsq, f => .frsq f
  | .fscl, f => .fscl f
  | .fcls, f => .fcls f
  | .cvt, f => .cvt f
  | .pack, f => .pack f
  | .unpk, f => .unpk f
  | .lmul, f => .lmul f
  | .lexp, f => .lexp f
  | .lqnt, f => .lqnt f
  | .lcmp, f => .lcmp f
  | .slide, f => .slide f
  | .slideEdge, f => .slideEdge f
  | .slideFill, f => .slideFill f
  | .perm, f => .perm f
  | .bcast, f => .bcast f
  | .red, f => .red f
  | .scan, f => .scan f
  | .vext, f => .vext f
  | .vins, f => .vins f
  | .shuf3, f => .shuf3 f
  | .ldn, f => .ldn f
  | .ldw, f => .ldw f
  | .stn, f => .stn f
  | .stw, f => .stw f
  | .vld, f => .vld f
  | .vst, f => .vst f
  | .vlds, f => .vlds f
  | .vsts, f => .vsts f
  | .gath, f => .gath f
  | .scat, f => .scat f
  | .xld, f => .xld f
  | .pref, f => .pref f
  | .prefSc, f => .prefSc f
  | .aadd, f => .aadd f
  | .amin, f => .amin f
  | .amax, f => .amax f
  | .afadd, f => .afadd f
  | .afmin, f => .afmin f
  | .afmax, f => .afmax f
  | .axch, f => .axch f
  | .acas, f => .acas f
  | .drain, f => .drain f
  | .drainBar, f => .drainBar f
  | .batchSeal, f => .batchSeal f
  | .batchWait, f => .batchWait f
  | .icinv, f => .icinv f
  | .icinvAll, f => .icinvAll f
  | .iclock, f => .iclock f
  | .iclockUn, f => .iclockUn f
  | .fence, f => .fence f
  | .fenceNs, f => .fenceNs f
  | .copy, f => .copy f
  | .cmpb, f => .cmpb f
  | .link, f => .link f
  | .bin, f => .bin f
  | .rels, f => .rels f
  | .mmul, f => .mmul f
  | .mmulNode, f => .mmulNode f
  | .azero, f => .azero f
  | .ard, f => .ard f
  | .awr, f => .awr f
  | .asave, f => .asave f
  | .arst, f => .arst f
  | .bqnt, f => .bqnt f
  | .bdq, f => .bdq f
  | .send, f => .send f
  | .recv, f => .recv f
  | .bar, f => .bar f
  | .barArr, f => .barArr f
  | .park, f => .park f
  | .wake, f => .wake f
  | .grow, f => .grow f
  | .shrink, f => .shrink f
  | .launch, f => .launch f
  | .capEnter, f => .capEnter f
  | .capLeave, f => .capLeave f
  | .map, f => .map f
  | .unmap, f => .unmap f
  | .pkset, f => .pkset f
  | .pkrd, f => .pkrd f
  | .trap, f => .trap f
  | .tret, f => .tret f
  | .tretSkip, f => .tretSkip f
  | .tkill, f => .tkill f
  | .frec, f => .frec f
  | .dstepOn, f => .dstepOn f
  | .dstepOff, f => .dstepOff f
  | .commit, f => .commit f
  | .pairCk, f => .pairCk f
  | .einjCorr, f => .einjCorr f
  | .einjUnc, f => .einjUnc f
  | .einjLink, f => .einjLink f
  | .einjSig, f => .einjSig f

/-- The operation and fields of a coded instruction; none for a step of the device. -/
def codedOf : Instr → Option (Op × Fields)
  | .uadd f => some (.uadd, f)
  | .usub f => some (.usub, f)
  | .umul f => some (.umul, f)
  | .umulH f => some (.umulH, f)
  | .udiv f => some (.udiv, f)
  | .udivR f => some (.udivR, f)
  | .umin f => some (.umin, f)
  | .umax f => some (.umax, f)
  | .ucmp f => some (.ucmp, f)
  | .usel f => some (.usel, f)
  | .ushf f => some (.ushf, f)
  | .ushfRot f => some (.ushfRot, f)
  | .utmin f => some (.utmin, f)
  | .utmax f => some (.utmax, f)
  | .utcon f => some (.utcon, f)
  | .umov f => some (.umov, f)
  | .ulea f => some (.ulea, f)
  | .brAny f => some (.brAny, f)
  | .brAll f => some (.brAll, f)
  | .brU f => some (.brU, f)
  | .call f => some (.call, f)
  | .ret f => some (.ret, f)
  | .regang f => some (.regang, f)
  | .exit f => some (.exit, f)
  | .mlogMin f => some (.mlogMin, f)
  | .mlogMax f => some (.mlogMax, f)
  | .mlogCon f => some (.mlogCon, f)
  | .mmov f => some (.mmov, f)
  | .mmovIn f => some (.mmovIn, f)
  | .mmovOut f => some (.mmovOut, f)
  | .mcnt f => some (.mcnt, f)
  | .laneid f => some (.laneid, f)
  | .cycle f => some (.cycle, f)
  | .statr f => some (.statr, f)
  | .statc f => some (.statc, f)
  | .treg f => some (.treg, f)
  | .vadd f => some (.vadd, f)
  | .vsub f => some (.vsub, f)
  | .vmul f => some (.vmul, f)
  | .vmulh f => some (.vmulh, f)
  | .vmac f => some (.vmac, f)
  | .vdot3 f => some (.vdot3, f)
  | .vdiv f => some (.vdiv, f)
  | .vdivR f => some (.vdivR, f)
  | .vmin f => some (.vmin, f)
  | .vmax f => some (.vmax, f)
  | .vshf f => some (.vshf, f)
  | .vshfRot f => some (.vshfRot, f)
  | .vtmin f => some (.vtmin, f)
  | .vtmax f => some (.vtmax, f)
  | .vtcon f => some (.vtcon, f)
  | .vcmp f => some (.vcmp, f)
  | .vsel f => some (.vsel, f)
  | .vmov f => some (.vmov, f)
  | .vcnt f => some (.vcnt, f)
  | .vlead f => some (.vlead, f)
  | .fadd f => some (.fadd, f)
  | .fsub f => some (.fsub, f)
  | .fmul f => some (.fmul, f)
  | .fma f => some (.fma, f)
  | .fmin f => some (.fmin, f)
  | .fmax f => some (.fmax, f)
  | .fcmp f => some (.fcmp, f)
  | .frcp f => some (.frcp, f)
  | .frsq f => some (.frsq, f)
  | .fscl f => some (.fscl, f)
  | .fcls f => some (.fcls, f)
  | .cvt f => some (.cvt, f)
  | .pack f => some (.pack, f)
  | .unpk f => some (.unpk, f)
  | .lmul f => some (.lmul, f)
  | .lexp f => some (.lexp, f)
  | .lqnt f => some (.lqnt, f)
  | .lcmp f => some (.lcmp, f)
  | .slide f => some (.slide, f)
  | .slideEdge f => some (.slideEdge, f)
  | .slideFill f => some (.slideFill, f)
  | .perm f => some (.perm, f)
  | .bcast f => some (.bcast, f)
  | .red f => some (.red, f)
  | .scan f => some (.scan, f)
  | .vext f => some (.vext, f)
  | .vins f => some (.vins, f)
  | .shuf3 f => some (.shuf3, f)
  | .ldn f => some (.ldn, f)
  | .ldw f => some (.ldw, f)
  | .stn f => some (.stn, f)
  | .stw f => some (.stw, f)
  | .vld f => some (.vld, f)
  | .vst f => some (.vst, f)
  | .vlds f => some (.vlds, f)
  | .vsts f => some (.vsts, f)
  | .gath f => some (.gath, f)
  | .scat f => some (.scat, f)
  | .xld f => some (.xld, f)
  | .pref f => some (.pref, f)
  | .prefSc f => some (.prefSc, f)
  | .aadd f => some (.aadd, f)
  | .amin f => some (.amin, f)
  | .amax f => some (.amax, f)
  | .afadd f => some (.afadd, f)
  | .afmin f => some (.afmin, f)
  | .afmax f => some (.afmax, f)
  | .axch f => some (.axch, f)
  | .acas f => some (.acas, f)
  | .drain f => some (.drain, f)
  | .drainBar f => some (.drainBar, f)
  | .batchSeal f => some (.batchSeal, f)
  | .batchWait f => some (.batchWait, f)
  | .icinv f => some (.icinv, f)
  | .icinvAll f => some (.icinvAll, f)
  | .iclock f => some (.iclock, f)
  | .iclockUn f => some (.iclockUn, f)
  | .fence f => some (.fence, f)
  | .fenceNs f => some (.fenceNs, f)
  | .copy f => some (.copy, f)
  | .cmpb f => some (.cmpb, f)
  | .link f => some (.link, f)
  | .bin f => some (.bin, f)
  | .rels f => some (.rels, f)
  | .mmul f => some (.mmul, f)
  | .mmulNode f => some (.mmulNode, f)
  | .azero f => some (.azero, f)
  | .ard f => some (.ard, f)
  | .awr f => some (.awr, f)
  | .asave f => some (.asave, f)
  | .arst f => some (.arst, f)
  | .bqnt f => some (.bqnt, f)
  | .bdq f => some (.bdq, f)
  | .send f => some (.send, f)
  | .recv f => some (.recv, f)
  | .bar f => some (.bar, f)
  | .barArr f => some (.barArr, f)
  | .park f => some (.park, f)
  | .wake f => some (.wake, f)
  | .grow f => some (.grow, f)
  | .shrink f => some (.shrink, f)
  | .launch f => some (.launch, f)
  | .capEnter f => some (.capEnter, f)
  | .capLeave f => some (.capLeave, f)
  | .map f => some (.map, f)
  | .unmap f => some (.unmap, f)
  | .pkset f => some (.pkset, f)
  | .pkrd f => some (.pkrd, f)
  | .trap f => some (.trap, f)
  | .tret f => some (.tret, f)
  | .tretSkip f => some (.tretSkip, f)
  | .tkill f => some (.tkill, f)
  | .frec f => some (.frec, f)
  | .dstepOn f => some (.dstepOn, f)
  | .dstepOff f => some (.dstepOff, f)
  | .commit f => some (.commit, f)
  | .pairCk f => some (.pairCk, f)
  | .einjCorr f => some (.einjCorr, f)
  | .einjUnc f => some (.einjUnc, f)
  | .einjLink f => some (.einjLink, f)
  | .einjSig f => some (.einjSig, f)
  | .regangReform _ _ => none
  | .drainComplete _ => none
  | .batchWaitComplete _ => none
  | .icinvComplete _ => none
  | .fenceComplete _ => none
  | .fenceRollback _ _ => none
  | .nodeFinish _ _ => none
  | .nodeFault _ _ => none
  | .followOnDecrement _ _ => none
  | .engineCommandReady _ => none
  | .mmulStep _ => none
  | .sendComplete _ _ => none
  | .recvComplete _ _ => none
  | .barrierPhaseComplete _ _ => none
  | .parkPoll _ => none
  | .parkTimeout _ => none
  | .growGrant _ => none
  | .capRetry _ => none
  | .capStepCommit _ => none
  | .capStoreApply _ => none
  | .capMarkDescheduled _ => none
  | .rejoin _ => none
  | .mapComplete _ => none
  | .pksetComplete _ => none
  | .faultSlotFreed _ => none
  | .partitionIssue _ _ => none
  | .partStarving _ => none
  | .stageRebalance _ => none
  | .budgetPeriodStart _ => none
  | .watchdogExpiry _ _ => none
  | .packetTake _ => none
  | .bandDispatch _ _ => none
  | .placementEviction _ => none
  | .growEviction _ => none
  | .gangEvict _ _ => none
  | .gangResume _ _ => none
  | .remoteLoadReturn _ => none
  | .storeAck _ _ => none
  | .homeAccess _ => none
  | .hbmBurstComplete _ _ => none
  | .clusterAccess _ => none
  | .scrubRead _ _ => none
  | .scrubWriteback _ _ => none
  | .homeLineScrub _ => none
  | .bandEnd _ => none
  | .kernelStop _ _ _ => none
  | .pairedCheckpoint _ => none
  | .signatureReceive _ => none
  | .pairedMismatch _ => none
  | .flitReceive _ _ _ => none
  | .laneRotation _ => none
  | .laneMarginLow _ => none
  | .planeDeath _ => none
  | .responseConfirm _ _ _ => none
  | .pcieLinkDown _ => none
  | .hostWrite _ _ _ => none
  | .hostByteMerge _ _ _ => none
  | .hostRead _ _ _ => none
  | .hostReadResponse _ _ => none
  | .peerRequest _ _ _ _ => none
  | .tailWrite _ _ _ => none
  | .registerWrite _ _ _ => none
  | .attestationRequest _ => none
  | .bringUp _ _ => none
  | .thermalHigh _ => none
  | .thermalCool _ => none
  | .thermalTrip _ => none
  | .firmwareUpdate _ _ => none
  | .portReset _ _ => none
  | .pcieLinkUp _ => none
  | .inboundRanges _ _ => none
  | .negotiate _ _ => none
  | .resync _ _ => none
  | .install _ _ => none
  | .change _ _ => none
  | .remove _ _ => none
  | .release _ _ => none
  | .window _ _ => none
  | .queue _ _ => none
  | .resolve _ _ => none
  | .stop _ _ => none
  | .budget _ _ => none
  | .inject _ _ => none
  | .replace _ _ => none
  | .token _ _ => none

/-- What an operand field accepts (R90, R93). `reg v u k c`: vector class, uniform registers, k registers as
uniforms (R129), constants. -/
inductive Cls where
  /-- The field must be 0. -/
  | zero
  /-- A mask field, R140. -/
  | mask
  /-- A translation-register field, R176. -/
  | xreg
  | reg (v u k c : Bool)
  /-- Vector class in the engine format, where no field names a k register; with `uc`, uniform or constant too
  (R254). -/
  | lanes (uc : Bool)
deriving DecidableEq, Repr

/-- Vector class. -/
def Cls.v : Cls := .reg true false false false
/-- Vector class, uniform or constant. -/
def Cls.vu : Cls := .reg true true false true
/-- Uniform. -/
def Cls.u : Cls := .reg false true false false
/-- Uniform or constant. -/
def Cls.uc : Cls := .reg false true false true
/-- Uniform or k register. -/
def Cls.uk : Cls := .reg false true true false
/-- Uniform, k register or constant. -/
def Cls.ukc : Cls := .reg false true true true
/-- Uniform or vector class. -/
def Cls.uv : Cls := .reg true true false false

/-- How a form uses mask select and condition: as nothing, as a predicate or a branch test, or, for BR.U, the
condition alone (R93, R127). -/
inductive PredUse where
  | none | full | condOnly
deriving DecidableEq, Repr

/-- How a form uses aux6 (R93, R95). -/
inductive AuxUse where
  | zero | tensor | memory
deriving DecidableEq, Repr

/-- How a form uses W2 (R89): not at all, as imm27, as C alone, as C and imm20, or as the places of MMUL, whose
trits [19:7] and C are 0 (R254, R255). -/
inductive W2Use where
  | none | imm27 | c | cImm | places
deriving DecidableEq, Repr

/-- Which destination clamps a form accepts (R87, R305). -/
inductive ClampUse where
  | none | satOnly | any
deriving DecidableEq, Repr

/-- One form of one instruction (log 21, DEDUCED). -/
structure Spec where
  opcode : Int
  tys    : List Ty := [.t27]
  pred   : PredUse := .none
  d      : Cls := .zero
  /-- D is a destination, so that h registers and constants there are sub-code 15. -/
  dest   : Bool := true
  a      : Cls := .zero
  b      : Cls := .zero
  c      : Cls := .zero
  aux    : AuxUse := .zero
  w2     : W2Use := .none
  mA     : Bool := false
  mB     : Bool := false
  mC     : Bool := false
  clamp  : ClampUse := .none
  scale  : Bool := false
deriving DecidableEq, Repr

/-- The immediate form of an arithmetic instruction: B is the immediate (R92, R93). -/
def Spec.immediate (s : Spec) : Spec :=
  { s with b := .zero, w2 := if s.w2 = .none then .imm27 else .cImm }

/-- The immediate form of UMOV, MMOV.IN, LANEID and VMOV, which reads nothing else (R127, R220). -/
def Spec.immediateOnly (s : Spec) : Spec :=
  { s with a := .zero, b := .zero, w2 := .imm27, mA := false, mB := s.mA }

/-- Group −4, two sources (R128, R130). -/
def Spec.uni (j : Int) (r87 : Bool) : Spec :=
  { opcode := -324 + j, d := .uk, a := .ukc, b := .ukc, mA := true, mB := true,
    clamp := if r87 then .any else .none, scale := r87 }

/-- Groups −3 to 0, vector destination, two sources (R220). -/
def Spec.vec (opcode : Int) (tys : List Ty) (r87 : Bool) (aux : AuxUse := .zero) : Spec :=
  { opcode := opcode, tys := tys, pred := .full, d := .v, a := .vu, b := .vu, aux := aux, mA := true, mB := true,
    clamp := if r87 then .any else .none, scale := r87 }

def Spec.three (s : Spec) (m : Bool := true) : Spec := { s with c := .vu, w2 := .c, mC := m }
def Spec.onlyA (s : Spec) : Spec := { s with b := .zero, mB := false }
def Spec.raw (s : Spec) : Spec := { s with mA := false, mB := false, mC := false, clamp := .none, scale := false }

/-- Group +1, uniform data (R165). -/
def Spec.memU (j : Int) (load : Bool) : Spec :=
  { opcode := 81 + j, d := if load then .uk else .zero, a := .uk, b := .ukc,
    c := if load then .zero else .ukc, aux := .memory, w2 := .cImm }

def tysT : List Ty := [.t27, .t9]
def tysF : List Ty := [.f27, .f9]
def tysTF : List Ty := [.t27, .t9, .f27, .f9]
def tysAll : List Ty := [.t27, .t9, .f27, .f9, .l3]

/-- Group +1, vector data (R165). -/
def Spec.memV (j : Int) (load : Bool) (lanes : Bool) : Spec :=
  { opcode := 81 + j, tys := tysAll, pred := .full, d := if load then .v else .zero, a := .u,
    b := if lanes then .vu else .uc, c := if load then .zero else .vu, aux := .memory, w2 := .cImm }

/-- Atomics (R304 to R306), vector or uniform form. The uniform form's B is a uniform register or a constant (log 83,
DESIGN CHOICE). -/
def Spec.atomic (j : Int) (tys : List Ty) (m sat : Bool) (uniform : Bool) : Spec :=
  { opcode := 162 + j, tys := tys, pred := if uniform then .none else .full,
    d := if uniform then .u else .v, a := .u, b := if uniform then .uc else .vu, c := if uniform then .uc else .vu,
    aux := .memory, w2 := .cImm, mC := m, clamp := if sat then .satOnly else .none }

/-- Group +2, system codes. -/
def Spec.sys2 (j : Int) : Spec := { opcode := 162 + j }

/-- Group +3 (R178, R254). -/
def Spec.eng (j : Int) (d a b c : Cls) : Spec :=
  { opcode := 243 + j, d := d, a := a, b := b, c := c, w2 := .c }

/-- Group +4 (R341, R391, R428). -/
def Spec.sys4 (j : Int) (d a b : Cls) : Spec := { opcode := 324 + j, d := d, a := a, b := b }

/-- The form of each instruction. `var` is the five variant trits: trit [20] = +1 selects the immediate form of
the arithmetic groups and the uniform form of the atomics. Where an entry is silent on clamp and scale, it takes them
(log 21, DEDUCED). -/
def Op.spec (op : Op) (var : Int) : Spec :=
  let imm := trit var 4 = 1
  let i (s : Spec) : Spec := if imm then s.immediate else s
  let io (s : Spec) : Spec := if imm then s.immediateOnly else s
  match op with
  | .uadd => i (.uni 1 true)
  | .usub => i (.uni 2 true)
  | .umul => i (.uni 3 true)
  | .umulH => i (.uni 3 false)
  | .udiv => i (.uni 4 true)
  | .udivR => i (.uni 4 false)
  | .umin => i (.uni 5 false)
  | .umax => i (.uni 6 false)
  | .ucmp => i (.uni 7 false)
  | .usel => i { Spec.uni 8 false with c := .ukc, w2 := .c, mC := true }
  | .ushf => i { Spec.uni 9 false with clamp := .any }
  | .ushfRot => i (.uni 9 false)
  | .utmin => i (.uni 10 false)
  | .utmax => i (.uni 11 false)
  | .utcon => i (.uni 12 false)
  | .umov => io (.onlyA (.uni 13 true))
  | .ulea => i { Spec.uni 14 true with c := .ukc, w2 := .c, mC := true }
  | .brAny | .brAll => { opcode := -309, pred := .full, a := .u, w2 := .imm27 }
  | .brU => { opcode := -309, pred := .condOnly, a := .uk, w2 := .imm27, mA := true }
  | .call => { opcode := -308, d := .u, a := .u, w2 := .imm27 }
  | .ret => { opcode := -307, a := .u, w2 := .imm27 }
  | .regang => { opcode := -306 }
  | .exit => { opcode := -305 }
  | .mlogMin | .mlogMax | .mlogCon =>
    i { opcode := -304, d := .mask, a := .mask, b := .mask, mA := true, mB := true }
  | .mmov => { opcode := -303, d := .mask, a := .mask, mA := true }
  | .mmovIn => io { opcode := -303, d := .mask, a := .uc, mA := true }
  | .mmovOut => { opcode := -303, d := .uv, a := .mask, mA := true }
  | .mcnt => { opcode := -302, d := .uv, a := .mask, mA := true }
  | .laneid => io { opcode := -301, tys := tysT, pred := .full, d := .v, a := .uc }
  | .cycle => { opcode := -300, d := .uv }
  | .statr => { opcode := -299, d := .uv }
  | .statc => { opcode := -298, w2 := .imm27 }
  | .treg => { opcode := -297, d := .uv }
  | .vadd => i (.vec (-242) tysT true)
  | .vsub => i (.vec (-241) tysT true)
  | .vmul => i (.vec (-240) tysT true)
  | .vmulh => i (.vec (-239) tysT false)
  | .vmac => i (.three (.vec (-238) tysT true))
  | .vdot3 => i (.three (.vec (-237) [.t9] true))
  | .vdiv => i (.vec (-236) tysT true)
  | .vdivR => i (.vec (-236) tysT false)
  | .vmin => i (.vec (-235) tysT false)
  | .vmax => i (.vec (-234) tysT false)
  | .vshf => i { Spec.vec (-233) tysT false with clamp := .any }
  | .vshfRot => i (.vec (-233) tysT false)
  | .vtmin => i (.vec (-232) tysT false)
  | .vtmax => i (.vec (-231) tysT false)
  | .vtcon => i (.vec (-230) tysT false)
  | .vcmp => i { Spec.vec (-229) [.t27, .t9, .l3] false with d := .mask }
  | .vsel => i (.three (.vec (-228) tysAll false))
  | .vmov => io (.onlyA (.vec (-227) tysAll true))
  | .vcnt => .onlyA (.vec (-226) tysT false)
  | .vlead => .onlyA (.vec (-225) tysT false)
  | .fadd => i (.vec (-161) tysF true .tensor)
  | .fsub => i (.vec (-160) tysF true .tensor)
  | .fmul => i (.vec (-159) tysF true .tensor)
  | .fma => i (.three (.vec (-158) tysF true .tensor))
  | .fmin => i (.vec (-157) tysF true .tensor)
  | .fmax => i (.vec (-156) tysF true .tensor)
  | .fcmp => i { Spec.vec (-155) tysF false .tensor with d := .mask }
  | .frcp => .onlyA (.vec (-154) tysF true .tensor)
  | .frsq => .onlyA (.vec (-153) tysF true .tensor)
  | .fscl => i (.vec (-152) tysF true .tensor)
  | .fcls => .onlyA (.vec (-151) tysF false .tensor)
  | .cvt => .onlyA (.vec (-80) tysTF true .tensor)
  | .pack => i (.raw (.three (.vec (-79) [.t9, .f9] false)))
  | .unpk => .raw (.onlyA (.vec (-78) [.t9, .f9, .l3] false))
  | .lmul => i (.vec (-77) [.l3] true .tensor)
  | .lexp => i (.vec (-76) tysF true .tensor)
  | .lqnt => i (.vec (-75) tysF false .tensor)
  | .lcmp => i (.vec (-74) [.l3] false)
  | .slide | .slideFill => i (.raw (.three { Spec.vec 1 tysAll false with b := .uc }))
  | .slideEdge => i (.raw { Spec.vec 1 tysAll false with b := .uc, w2 := .c })
  | .perm => .raw (.vec 2 tysTF false)
  | .bcast => i (.raw { Spec.vec 3 tysAll false with b := .uc })
  | .red => .onlyA (.vec 4 tysTF true .tensor)
  | .scan => .onlyA (.vec 5 tysTF true .tensor)
  | .vext => i (.raw { Spec.vec 6 tysAll false with b := .uc, d := .u, pred := .none })
  | .vins => i (.raw { Spec.vec 7 tysAll false with a := .uc, b := .uc })
  | .shuf3 => i (.raw (.vec 8 [.t9, .f9] false))
  | .ldn => .memU 1 true
  | .ldw => .memU 2 true
  | .stn => .memU 3 false
  | .stw => .memU 4 false
  | .vld => .memV 5 true false
  | .vst => .memV 6 false false
  | .vlds => .memV 7 true false
  | .vsts => .memV 8 false false
  | .gath => .memV 9 true true
  | .scat => .memV 10 false true
  | .xld => { opcode := 92, d := .xreg, a := .u, b := .uc, aux := .memory, w2 := .cImm }
  | .pref | .prefSc => { opcode := 93, a := .u, b := .vu, aux := .memory, w2 := .cImm }
  | .aadd => .atomic 1 tysT true true imm
  | .amin => .atomic 2 tysT true false imm
  | .amax => .atomic 3 tysT true false imm
  | .afadd => .atomic 4 tysF true false imm
  | .afmin => .atomic 5 tysF true false imm
  | .afmax => .atomic 6 tysF true false imm
  | .axch => .atomic 7 tysT false false imm
  | .acas => .atomic 8 tysT false false imm
  | .drain => .sys2 9
  | .drainBar => { Spec.sys2 9 with a := .uc, w2 := .imm27 }
  | .batchSeal => { Spec.sys2 10 with d := .u }
  | .batchWait => { Spec.sys2 10 with a := .u }
  | .icinv => { Spec.sys2 11 with a := .u, w2 := .imm27 }
  | .icinvAll => .sys2 11
  | .iclock | .iclockUn => { Spec.sys2 12 with d := .u, a := .u, b := .uc, w2 := .imm27 }
  | .fence | .fenceNs => .sys2 13
  | .copy => { Spec.eng 1 .u .u .u .u with aux := .tensor, w2 := .cImm }
  | .cmpb => { Spec.eng 2 .u .u .u .u with w2 := .cImm }
  | .link => .eng 3 .zero .u .u .zero
  | .bin => { Spec.eng 4 .u .u .u .u with w2 := .cImm }
  | .rels => .eng 5 .u .u .zero .zero
  | .mmul => { Spec.eng 6 .u .u .u .zero with
      tys := tysAll, aux := .tensor, w2 := .places, mA := true, mB := true, clamp := .any }
  | .mmulNode => { Spec.eng 6 .u .u .u .u with
      tys := tysAll, aux := .tensor, w2 := .cImm, mA := true, mB := true, clamp := .any }
  | .azero => .eng 7 .zero .u .zero .zero
  | .ard => { Spec.eng 8 (.lanes false) .u .uc .zero with tys := [.t27, .f27], aux := .tensor, clamp := .any, scale := true }
  | .awr => .eng 9 .zero .u .uc (.lanes true)
  | .asave => .eng 10 .zero .u .u .zero
  | .arst => .eng 11 .zero .u .u .zero
  | .bqnt => { Spec.eng 12 .zero .u .u .uc with tys := tysF, aux := .tensor }
  | .bdq => { Spec.eng 13 .zero .u .u .uc with tys := tysF, aux := .tensor, clamp := .any, scale := true }
  | .send => { Spec.sys4 1 .zero .zero .uc with w2 := .imm27 }
  | .recv => { Spec.sys4 2 .u .zero .zero with w2 := .imm27 }
  | .bar | .barArr => { Spec.sys4 3 .zero .uc .zero with w2 := .imm27 }
  | .park => { Spec.sys4 4 .zero .u .uc with w2 := .imm27 }
  | .wake => { Spec.sys4 5 .u .u .uc with w2 := .imm27 }
  | .grow => { Spec.sys4 6 .u .zero .uc with w2 := .imm27 }
  | .shrink => { Spec.sys4 7 .u .zero .uc with w2 := .imm27 }
  | .launch => { Spec.sys4 9 .u .u .zero with w2 := .imm27 }
  | .capEnter => { Spec.sys4 10 .u .u .u with w2 := .imm27, dest := false }
  | .capLeave => .sys4 10 .zero .zero .zero
  | .map => .sys4 11 .u .u .u
  | .unmap => .sys4 12 .u .u .zero
  | .pkset => { Spec.sys4 13 .zero .u .uc with w2 := .imm27 }
  | .pkrd => { Spec.sys4 14 .uv .u .zero with w2 := .imm27 }
  | .trap => { Spec.sys4 15 .zero .u .zero with w2 := .imm27 }
  | .tret | .tretSkip => .sys4 16 .zero .zero .zero
  | .tkill => .sys4 17 .zero .zero .zero
  | .frec => { Spec.sys4 18 .uv .u .zero with w2 := .imm27 }
  | .dstepOn | .dstepOff => .sys4 19 .zero .zero .zero
  | .commit => .sys4 20 .zero .zero .zero
  | .pairCk => .sys4 21 .zero .zero .zero
  | .einjCorr => { Spec.sys4 22 .zero .u .uc with w2 := .imm27 }
  | .einjUnc | .einjLink => { Spec.sys4 22 .zero .u .zero with w2 := .imm27 }
  | .einjSig => .sys4 22 .zero .zero .zero

/-- Opcode, [26:21] of W0. -/
def Op.opcode (op : Op) : Int := (op.spec 0).opcode

/-- A variant of an arithmetic group that has the immediate form: [19:16] is v and [20] is 0 or +1. -/
def varImm (v var : Int) : Bool := var == v || var == v + 81

/-- CVT's variants (R239): [17:16] names an assigned type, [18] is 0 for an element-for-element pair, and [19]
may be +1 only when the destination is F27 or F9. -/
def cvtVar (ty : Option Ty) (var : Int) : Bool :=
  let src := field var 0 2
  let sub := trit var 2
  let dither := trit var 3
  (trit var 4 == 0) && [0, 1, 3, 4, -1].contains src
  && (dither == 0 || dither == 1 && (ty == some .f27 || ty == some .f9))
  && (sub == 0 || !(src == 0 && ty == some .f27 || src == 3 && ty == some .t27
        || src == 1 && ty == some .f9 || src == 4 && ty == some .t9))

/-- The variants of the atomics (R305): form, scope, acquire and release; plain carries scope 0. -/
def atomicVar (var : Int) : Bool :=
  let form := trit var 4
  let scope := field var 2 2
  let acq := trit var 1
  let rel := trit var 0
  (form == 0 || form == 1) && (acq == 0 || acq == 1) && (rel == 0 || rel == 1)
  && decide (-3 ≤ scope) && decide (scope ≤ 3) && (acq != 0 || rel != 0 || scope == 0)

/-- FENCE's variants (R305): a scope, and [16] for .NS. -/
def fenceVar (ns : Int) (var : Int) : Bool :=
  let scope := field var 2 2
  trit var 4 == 0 && trit var 1 == 0 && trit var 0 == ns && decide (-3 ≤ scope) && decide (scope ≤ 3)

/-- v lies in an interval that depends on the type; with a type that the entry does not accept, in any of them. -/
def between (lo hi v : Int) : Bool := decide (lo ≤ v) && decide (v ≤ hi)

/-- Whether the entry of `op` assigns `var` to it. The type matters where a variant's range depends on it; `none`
stands for a reserved type (R126, R225, R165, R178, R254, R305, R341, R391, R428). -/
def Op.varOk (op : Op) (ty : Option Ty) (var : Int) : Bool :=
  let v4 := field var 0 4
  let f20 := trit var 4
  let arith := f20 == 0 || f20 == 1
  match op with
  | .uadd | .usub | .umul | .udiv | .umin | .umax | .ucmp | .usel | .ushf | .utmin | .utmax | .utcon
  | .umov | .ulea | .mlogMin | .laneid => varImm 0 var
  | .umulH | .udivR | .ushfRot | .mlogMax | .mmovIn => varImm 1 var
  | .mlogCon => varImm (-1) var
  | .brAny => var == 1
  | .brAll => var == -1
  | .brU => var == 3
  | .call | .ret | .regang | .exit | .mmov | .cycle | .statr | .statc => var == 0
  | .mmovOut => var == -1
  | .mcnt => between (-3) 3 var
  | .treg => between (-4) 4 var
  | .vadd | .vsub | .vmul | .vmulh | .vmac | .vdot3 | .vdiv | .vmin | .vmax | .vshf | .vtmin | .vtmax
  | .vtcon | .vsel | .vmov | .fadd | .fsub | .fmul | .fma | .fmin | .fmax | .fscl | .pack | .lmul | .lcmp
  | .slide | .bcast | .vext | .vins | .shuf3 => varImm 0 var
  | .vdivR | .vshfRot | .slideEdge => varImm 1 var
  | .slideFill => varImm (-1) var
  | .vcmp => arith && match ty with
    | some .t27 => v4 == 0
    | some .t9 => between 0 3 v4
    | _ => between 0 9 v4
  | .fcmp => arith && if ty == some .f27 then v4 == 0 else between 0 3 v4
  | .vcnt => between (-1) 1 var
  | .vlead | .frcp | .frsq | .fcls | .perm => var == 0
  | .cvt => cvtVar ty var
  | .unpk => f20 == 0 && field var 0 2 == 0
      && (if ty == some .t9 || ty == some .f9 then between (-1) 1 (field var 2 2) else true)
  | .lexp => arith && if ty == some .f9 then between (-1) 1 v4 else between (-4) 4 v4
  | .lqnt => arith && (trit var 3 == 0 || trit var 3 == 1)
      && (if ty == some .f9 then between (-1) 1 (field var 0 3) else between (-4) 4 (field var 0 3))
  | .red | .scan => between (-1) 1 var
  | .ldn | .ldw | .stn | .stw | .vld | .vst | .vlds | .vsts | .gath | .scat | .xld | .pref => var == 0
  | .prefSc => var == 1
  | .aadd | .amin | .amax | .afadd | .afmin | .afmax | .axch | .acas => atomicVar var
  | .drain | .icinv | .iclock => var == 0
  | .drainBar | .batchSeal | .icinvAll => var == 1
  | .batchWait | .iclockUn => var == -1
  | .fence => fenceVar 0 var
  | .fenceNs => fenceVar 1 var
  | .copy | .cmpb | .link | .bin | .rels | .mmul | .azero | .ard | .awr | .asave | .arst | .bdq => var == 0
  | .mmulNode => var == 1
  | .bqnt => var == 0 || var == 1
  | .send | .recv | .bar | .park | .wake | .grow | .shrink | .launch => var == 0
  | .barArr | .capEnter => var == 1
  | .capLeave => var == -1
  | .map | .unmap => between (-1) 1 var
  | .pkset | .pkrd | .trap | .tret | .tkill | .frec | .commit => var == 0
  | .tretSkip | .dstepOn | .pairCk | .einjCorr => var == 1
  | .dstepOff => var == -1
  | .einjUnc => var == 2
  | .einjLink => var == 3
  | .einjSig => var == 4

/-- Whether the entry of `op` accepts the type, with this variant (R126, R225, R239). -/
def Op.tyOk (op : Op) (var : Int) (ty : Ty) : Bool :=
  (op.spec var).tys.contains ty &&
  match op with
  | .cvt =>
    let src := field var 0 2
    src != -1 && !(src == 0 && ty == .t27) && !(src == 1 && ty == .t9)
      && !(src == 3 && ty == .f27) && !(src == 4 && ty == .f9)
  | _ => true

def tyCode : Ty → Int
  | .t27 => 0 | .t9 => 1 | .f27 => 3 | .f9 => 4 | .l3 => -1

def tyOfCode (v : Int) : Option Ty :=
  [Ty.t27, .t9, .f27, .f9, .l3].find? (fun t => tyCode t == v)

def condCode : Cond → Int
  | .always => 0 | .gt => 1 | .lt => -1 | .ge => 2 | .le => -2 | .eq => 3 | .ne => -3

def condOfCode (v : Int) : Option Cond :=
  [Cond.always, .gt, .lt, .ge, .le, .eq, .ne].find? (fun c => condCode c == v)

def clampCode : Clamp → Int
  | .off => 0 | .sat => 1 | .unit => -1

def clampOfCode (v : Int) : Clamp := if v = 1 then .sat else if v = -1 then .unit else .off

def modCode : Modifier → Int
  | .plain => 0 | .neg => -1 | .abs => 1

def modOfCode (v : Int) : Modifier := if v = 1 then .abs else if v = -1 then .neg else .plain

/-- The field value of an operand (R90, R91, R74, R140, R176). -/
def opndCode : Opnd → Int
  | .unused => 0
  | .vec n => n - 1093
  | .opr n => n + 443
  | .kreg n => n + 443
  | .hist n => n + 470
  | .uni n => n + 479
  | .const v => v + 735
  | .mask n => n - 4
  | .xreg n => n - 4

/-- The operand a field value names; none for a reserved index (R90). -/
def opndOfCode (capsule : Bool) (v : Int) : Option Opnd :=
  let i := v + 1093
  if i < 0 then none
  else if i < 1536 then some (.vec i.toNat)
  else if i < 1563 then
    if capsule && decide (i < 1545) then some (.kreg (i.toNat - 1536)) else some (.opr (i.toNat - 1536))
  else if i < 1572 then some (.hist (i.toNat - 1563))
  else if i < 1815 then some (.uni (i.toNat - 1572))
  else if i < 1842 then some (.const (i - 1828))
  else none

/-- Whether a class accepts an operand. -/
def Cls.accepts : Cls → Opnd → Bool
  | .zero, .unused => true
  | .mask, .mask _ => true
  | .xreg, .xreg _ => true
  | .reg v _ _ _, .vec _ => v
  | .reg v _ _ _, .opr _ => v
  | .reg v _ _ _, .hist _ => v
  | .reg v _ k _, .kreg _ => v || k
  | .reg _ u _ _, .uni _ => u
  | .reg _ _ _ c, .const _ => c
  | .lanes _, .vec _ => true
  | .lanes _, .opr _ => true
  | .lanes _, .hist _ => true
  | .lanes uc, .uni _ => uc
  | .lanes uc, .const _ => uc
  | _, _ => false

def clampAllowed : ClampUse → Clamp → Bool
  | _, .off => true
  | .any, _ => true
  | .satOnly, .sat => true
  | _, _ => false

/-- What a decode depends on beside the words: the slice's capsule-mode trit (R74) and the gang's grant (R67). -/
structure DecodeCtx where
  capsule : Bool
  grant   : Nat
deriving DecidableEq, Repr

/-- The operand exists (R90, R140, R176) and is named by its index in this mode and grant (R67, R74). -/
def opndExists (x : DecodeCtx) : Opnd → Bool
  | .unused => true
  | .vec n => decide (n < 1536) && decide (n < x.grant)
  | .opr n => decide (n < 27) && (!x.capsule || decide (9 ≤ n))
  | .kreg n => decide (n < 9) && x.capsule
  | .hist n => decide (n < 9)
  | .uni n => decide (n < 243)
  | .const v => decide (-13 ≤ v) && decide (v ≤ 13)
  | .mask n => decide (n < 9)
  | .xreg n => decide (n < 9)

/-- h0 to h8 and constants are read-only (R69, R90). -/
def readOnly : Opnd → Bool
  | .hist _ | .const _ => true
  | _ => false

/-- aux6 carries what the format gives it (R93, R95). -/
def auxFits (s : Spec) (aux : Int) : Bool :=
  match s.aux with
  | .zero => aux == 0
  | .tensor => inTrits 6 aux
  | .memory => inTrits 6 aux && trit aux 0 == 0 && (trit aux 3 == 1 || trit aux 3 == 0 && field aux 4 2 == 0)
      && [0, 1, -1].contains (field aux 1 2) && !(s.d == .xreg && trit aux 3 == 1)

/-- The form after the base kind of aux6 has been read: A is a base only with base kind 0 (R93, R95; log 100,
DEDUCED). -/
def specWith (s : Spec) (aux : Int) : Spec :=
  if s.aux = .memory ∧ trit aux 3 ≠ 0 then { s with a := .zero } else s

/-- imm fits the shape of W2 (R89, R93, R255; log 100, DEDUCED). -/
def immFits (s : Spec) (imm : Int) : Bool :=
  match s.w2 with
  | .none | .c => imm == 0
  | .imm27 => inTrits 27 imm
  | .cImm => inTrits 20 imm
  | .places => inTrits 7 imm

/-- STATC may name only the trits a program may clear (R148, R78). -/
def statcFits (op : Op) (imm : Int) : Bool :=
  op != .statc || [0, 3, 81, 84].contains imm

/-- Mask and condition carry what the form allows (R72, R93, R127). -/
def predFits (p : PredUse) (mask : Nat) (cond : Cond) : Bool :=
  decide (mask < 9) && (cond != .always || mask == 0)
  && match p with
    | .none => mask == 0 && cond == .always
    | .full => true
    | .condOnly => mask == 0

def opndFits (x : DecodeCtx) (c : Cls) (o : Opnd) : Bool := c.accepts o && opndExists x o

/-- The fields of a coded instruction are those its entry admits. -/
def fieldsOk (x : DecodeCtx) (op : Op) (f : Fields) : Bool :=
  let s := specWith (op.spec f.var) f.aux
  inTrits 5 f.var && op.varOk (some f.ty) f.var && op.tyOk f.var f.ty
  && predFits s.pred f.mask f.cond && decide (f.la ≤ 26)
  && auxFits s f.aux && immFits s f.imm && statcFits op f.imm
  && (s.mA || f.modA == .plain) && (s.mB || f.modB == .plain) && (s.mC || f.modC == .plain)
  && clampAllowed s.clamp f.clamp && (f.scale == 0 || s.scale && inTrits 2 f.scale)
  && opndFits x s.d f.d && !(s.dest && readOnly f.d)
  && opndFits x s.a f.a && opndFits x s.b f.b && opndFits x s.c f.c

end Sys2Proof.Machine
end

