-- ==== Sys2Proof/WellFormed.lean ====
section
/-! DEFINITION. What makes an instruction well formed: the operands and fields that its entry admits (R84 to R95,
R126 to R130, R165, R178, R220 to R226, R254, R304 to R306, R341, R342, R391, R392, R428). Steps of the device
have no encoding and are well formed as they stand. -/

namespace Sys2Proof

open Sys2Proof.Machine

/-- An instruction is well formed in a decode context. -/
def wellFormed (x : DecodeCtx) (i : Instr) : Bool :=
  match codedOf i with
  | some (op, f) => fieldsOk x op f
  | none => true

end Sys2Proof
end

