-- ==== Sys2Proof/Decode.lean ====
section
/-! DEFINITION. Decoding the three words of an instruction (R83 to R95), with the checks of R107 in their order,
and the encoder written from the same tables. -/

namespace Sys2Proof

open Sys2Proof.Machine

/-- The fields of the three words, as numbers (R84, R88, R89). W2 is read in both of its shapes. -/
structure Raw where
  opcode : Int
  var    : Int
  ty     : Int
  mask   : Int
  cond   : Int
  la     : Int
  clamp  : Int
  scale  : Int
  rsv    : Int
  mA     : Int
  mB     : Int
  mC     : Int
  d      : Int
  a      : Int
  b      : Int
  aux    : Int
  c      : Int
  imm20  : Int
  imm27  : Int
deriving DecidableEq, Repr

def Raw.ofWords (w0 w1 w2 : Int) : Raw :=
  { opcode := field w0 21 6, var := field w0 16 5, ty := field w0 14 2, mask := field w0 12 2, cond := field w0 10 2,
    la := field w0 7 3, clamp := trit w0 6, scale := field w0 4 2, rsv := trit w0 3, mA := trit w0 2,
    mB := trit w0 1, mC := trit w0 0,
    d := field w1 20 7, a := field w1 13 7, b := field w1 6 7, aux := field w1 0 6,
    c := field w2 20 7, imm20 := field w2 0 20, imm27 := field w2 0 27 }

/-- What a field names under its class; none where no operand of the class's kind has that value. -/
def parseOpnd (capsule : Bool) : Cls → Int → Option Opnd
  | .zero, _ => some .unused
  | .mask, v => if -4 ≤ v ∧ v ≤ 4 then some (.mask (v + 4).toNat) else none
  | .xreg, v => if -4 ≤ v ∧ v ≤ 4 then some (.xreg (v + 4).toNat) else none
  | .reg _ _ _ _, v => opndOfCode capsule v
  | .lanes _, v => opndOfCode capsule v

/-- Sub-code 13 applies to fields that hold an operand index (R90, R107). -/
def reservedIndex (capsule : Bool) (c : Cls) (v : Int) : Bool :=
  match c with
  | .reg _ _ _ _ => (opndOfCode capsule v).isNone
  | .lanes _ => (opndOfCode capsule v).isNone
  | _ => false

/-- Sub-code 14: the field names a class that its format refuses. -/
def wrongClass (capsule dest : Bool) (c : Cls) (v : Int) : Bool :=
  match parseOpnd capsule c v with
  | none => true
  | some o => !c.accepts o && !(dest && readOnly o)

def outsideGrant (grant : Nat) : Option Opnd → Bool
  | some (.vec n) => decide (grant ≤ n)
  | _ => false

/-- The operations that a pair of opcode and variant may name; the type counts where the variant's range depends
on it. -/
def findOp (ty : Option Ty) (opcode var : Int) : Option Op :=
  Op.all.find? fun op => op.opcode == opcode && op.varOk ty var

/-- Sub-codes 17 and 18 of STATC (R148). -/
def statcCode (imm : Int) : Option Nat :=
  let ts := trits 27 imm
  if (ts.drop 8).contains 1 then some 17
  else if ts.contains (-1) then some 18
  else if [0, 2, 3, 5, 6, 7].any (fun i => ts.getD i 0 == 1) then some 18
  else none

/-- The checks of R107 from sub-code 7 on that an operation with a known type undergoes, in their order; 0 when
all pass. -/
def checkFields (x : DecodeCtx) (op : Op) (r : Raw) : Nat :=
  let s0 := op.spec r.var
  let s := specWith s0 r.aux
  let cl := x.capsule
  let fieldsOf : List (Cls × Int) := [(s.d, r.d), (s.a, r.a), (s.b, r.b), (s.c, r.c)]
  let usesC := s.w2 = .c ∨ s.w2 = .cImm ∨ s.w2 = .places
  if (condOfCode r.cond).isNone then 7
  else if r.cond = 0 ∧ r.mask ≠ -4 then 8
  else if s.pred = .none ∧ (r.cond ≠ 0 ∨ r.mask ≠ -4) ∨ s.pred = .condOnly ∧ r.mask ≠ -4 then 9
  else if r.rsv ≠ 0
      ∨ s.d = .zero ∧ r.d ≠ 0 ∨ s.a = .zero ∧ r.a ≠ 0 ∨ s.b = .zero ∧ r.b ≠ 0
      ∨ s.aux = .zero ∧ r.aux ≠ 0
      ∨ s.aux = .memory ∧ (trit r.aux 0 ≠ 0 ∨ trit r.aux 3 ≠ 1 ∧ field r.aux 4 2 ≠ 0)
      ∨ s.w2 = .none ∧ r.imm27 ≠ 0
      ∨ usesC ∧ s.c = .zero ∧ r.c ≠ 0
      ∨ s.w2 = .c ∧ r.imm20 ≠ 0
      ∨ s.w2 = .places ∧ field r.imm20 7 13 ≠ 0 then 10
  else if s.aux = .memory ∧ (trit r.aux 3 = -1 ∨ ¬ [0, 1, -1].contains (field r.aux 1 2)) then 11
  else if !s.mA ∧ r.mA ≠ 0 ∨ !s.mB ∧ r.mB ≠ 0 ∨ !s.mC ∧ r.mC ≠ 0
      ∨ !clampAllowed s.clamp (clampOfCode r.clamp) ∨ !s.scale ∧ r.scale ≠ 0 then 12
  else if fieldsOf.any (fun p => reservedIndex cl p.1 p.2) then 13
  else if wrongClass cl s.dest s.d r.d ∨ wrongClass cl false s.a r.a ∨ wrongClass cl false s.b r.b
      ∨ wrongClass cl false s.c r.c ∨ s.d = .xreg ∧ trit r.aux 3 = 1 then 14
  else if s.dest ∧ ((parseOpnd cl s.d r.d).map readOnly).getD false then 15
  else if fieldsOf.any (fun p => outsideGrant x.grant (parseOpnd cl p.1 p.2)) then 16
  else if op = .statc then (statcCode r.imm27).getD 0
  else 0

/-- The typed fields of an instruction whose checks have passed. -/
def Raw.fields (x : DecodeCtx) (op : Op) (ty : Ty) (r : Raw) : Fields :=
  let s := specWith (op.spec r.var) r.aux
  let o (c : Cls) (v : Int) : Opnd := (parseOpnd x.capsule c v).getD .unused
  { ty := ty, var := r.var, mask := (r.mask + 4).toNat, cond := (condOfCode r.cond).getD .always,
    la := (r.la + 13).toNat, clamp := clampOfCode r.clamp, scale := r.scale,
    modA := modOfCode r.mA, modB := modOfCode r.mB, modC := modOfCode r.mC,
    d := o s.d r.d, a := o s.a r.a, b := o s.b r.b, c := o s.c r.c, aux := r.aux,
    imm := match s.w2 with | .none | .c => 0 | .imm27 => r.imm27 | .cImm | .places => r.imm20 }

/-- Decoding after the words are split: an instruction, or the sub-code of trap code 1. -/
def decodeRaw (x : DecodeCtx) (r : Raw) : Except Nat Instr :=
  if Op.all.all (fun op => op.opcode != r.opcode) then .error 2
  else
    let ty? := tyOfCode r.ty
    match findOp ty? r.opcode r.var with
    | none => .error 4
    | some op =>
      match ty? with
      | none => .error 5
      | some ty =>
        if op.tyOk r.var ty then
          match checkFields x op r with
          | 0 => .ok (op.mk (r.fields x op ty))
          | n => .error n
        else .error 6

/-- R107: decoding of the words W0, W1 and W2. Poldin is stepping B0, so sub-code 3 never arises (R106). -/
def decode (x : DecodeCtx) (w0 w1 w2 : Word) : Except Nat Instr :=
  if w0 = 0 ∧ w1 = 0 ∧ w2 = 0 then .error 1 else decodeRaw x (Raw.ofWords w0 w1 w2)

/-- W0 from its fields (R84). -/
def encodeW0 (op : Op) (f : Fields) : Word :=
  op.opcode * 3 ^ 21 + f.var * 3 ^ 16 + tyCode f.ty * 3 ^ 14 + ((f.mask : Int) - 4) * 3 ^ 12
  + condCode f.cond * 3 ^ 10 + ((f.la : Int) - 13) * 3 ^ 7 + clampCode f.clamp * 3 ^ 6 + f.scale * 3 ^ 4
  + modCode f.modA * 9 + modCode f.modB * 3 + modCode f.modC

/-- W1 from its fields (R88). -/
def encodeW1 (f : Fields) : Word :=
  opndCode f.d * 3 ^ 20 + opndCode f.a * 3 ^ 13 + opndCode f.b * 3 ^ 6 + f.aux

/-- W2 from its fields (R89). -/
def encodeW2 (op : Op) (f : Fields) : Word :=
  if (op.spec f.var).w2 = .imm27 then f.imm else opndCode f.c * 3 ^ 20 + f.imm

/-- The words of a coded instruction; none for a step of the device. -/
def encode (i : Instr) : Option (Word × Word × Word) :=
  (codedOf i).map fun p => (encodeW0 p.1 p.2, encodeW1 p.2, encodeW2 p.1 p.2)

/-- The nonets of an instruction stored as R30 packs them: nine halfwords, the lowest address first. None when a
halfword is poison or out of range (R32). -/
def tableNonets (w : Nat) : Option (List Int) :=
  (List.range 9).mapM fun j => nonetOfHalfword (w / 2 ^ (16 * j) % 65536)

/-- The three words made of nine nonets (R24, R83). -/
def wordsOfNonets (ns : List Int) : Word × Word × Word :=
  let n (j : Nat) : Int := ns.getD j 0
  (wordOf (n 0) (n 1) (n 2), wordOf (n 3) (n 4) (n 5), wordOf (n 6) (n 7) (n 8))

/-- The instruction whose bits are w, numbered from the least significant bit of the first halfword; bits from
nbits up are 0. Decoded outside capsule mode with the largest grant. -/
def decodeTableWord (nbits w : Nat) : Option Instr :=
  match tableNonets (w % 2 ^ nbits) with
  | none => none
  | some ns =>
    let ws := wordsOfNonets ns
    (decode { capsule := false, grant := 1530 } ws.1 ws.2.1 ws.2.2).toOption

end Sys2Proof
end

