-- ==== Sys2Proof/Machine/Flags.lean ====
section
/-! DEFINITION. What a result moves beside its destination: the sticky saturation trit and the exception counts
(R77, R198, R206, R216 to R218), and the destination rule of R87 for integers. -/

namespace Sys2Proof.Machine

/-- Saturations, flushes and NaNs counted under the instruction's tensor identifier, signalling NaNs counted in
the context's invalid count, and whether sticky saturation is set. -/
structure Effects where
  sat     : Nat := 0
  flush   : Nat := 0
  nan     : Nat := 0
  invalid : Nat := 0
  sticky  : Bool := false
deriving DecidableEq, Repr

def Effects.none : Effects := {}

def Effects.add (a b : Effects) : Effects :=
  { sat := a.sat + b.sat, flush := a.flush + b.flush, nan := a.nan + b.nan, invalid := a.invalid + b.invalid,
    sticky := a.sticky || b.sticky }

def Effects.sum (es : List Effects) : Effects := es.foldl Effects.add .none

/-- One element moves each count at most once per instruction (R216). -/
def Effects.once (a : Effects) : Effects :=
  { a with sat := min a.sat 1, flush := min a.flush 1, nan := min a.nan 1 }

/-- One saturation with the sticky trit. -/
def Effects.clamped : Effects := { sat := 1, sticky := true }

/-- r × 3^k for k ≥ 0, truncation of low trits for k < 0 (R87). -/
def scaleInt (k r : Int) : Int :=
  if 0 ≤ k then r * (3 ^ k.toNat : Nat) else trunc (-k).toNat r

/-- Wrap, saturate or clamp to ±1 a value of n trits; sticky saturation and one saturation when a clamp changes
it (R87, R198). -/
def clampInt (n : Nat) (c : Clamp) (r : Int) : Int × Effects :=
  match c with
  | .off => (wrap n r, .none)
  | .sat => let d := sat n r; (d, if d = r then .none else .clamped)
  | .unit => let d := max (-1) (min 1 r); (d, if d = r then .none else .clamped)

/-- The destination rule of R87 for integers of n trits. -/
def intDest (n : Nat) (c : Clamp) (k r : Int) : Int × Effects := clampInt n c (scaleInt k r)

/-- A source modifier on an integer or a code (R87). -/
def modInt (m : Modifier) (x : Int) : Int :=
  match m with
  | .plain => x
  | .neg => -x
  | .abs => if x < 0 then -x else x

/-- UDIV and VDIV on n-trit values (R131, R230). -/
def divDest (n : Nat) (c : Clamp) (k a b : Int) : Int × Effects :=
  if b = 0 then (sgn a * half n, .clamped)
  else
    let q := if 0 ≤ k then divNear (a * (3 ^ k.toNat : Nat)) b else divNear a (b * (3 ^ (-k).toNat : Nat))
    clampInt n c q

/-- UDIV.R and VDIV.R (R131). -/
def remNear (a b : Int) : Int := if b = 0 then a else a - b * divNear a b

/-- USHF and VSHF on n-trit values (R133, R231). A count beyond n trits in either direction shifts every trit
out, so counts are limited to 2n, which is exact. -/
def shiftDest (n : Nat) (c : Clamp) (a count : Int) : Int × Effects :=
  let m := max (-(2 * n : Int)) (min (2 * n) count)
  clampInt n c (scaleInt m a)

/-- sign(a − b). -/
def cmpInt (a b : Int) : Int := sgn (a - b)

/-- A mask trit satisfies a condition (R72). -/
def condHolds : Cond → Int → Bool
  | .always, _ => true
  | .gt, t => t == 1
  | .lt, t => t == -1
  | .ge, t => t == 1 || t == 0
  | .le, t => t == -1 || t == 0
  | .eq, t => t == 0
  | .ne, t => t == 1 || t == -1

end Sys2Proof.Machine
end

