-- ==== Sys2Proof/Machine/Floats.lean ====
section
/-! DEFINITION. F27 and F9 (R199 to R206), the L3 codes (R207 to R209, R212), ordered dither (R210), and the IEEE
formats of the host (R214, R215). Exact values are fractions, and the values that involve a square root of two or
of an operand are roots of fractions. -/

namespace Sys2Proof.Machine

/-- A float format: p significand trits and the special exponent E (R201). -/
structure Fmt where
  p : Nat
  E : Nat
deriving DecidableEq, Repr

def fmt27 : Fmt := ⟨21, 364⟩
def fmt9 : Fmt := ⟨5, 40⟩

/-- Number of exponent trits. -/
def Fmt.eTrits (F : Fmt) : Nat := if F.p = 21 then 6 else 4

/-- The exponent field of an encoding (R199, R200). -/
def fexp (F : Fmt) (x : Int) : Int := field x F.p F.eTrits
/-- The significand field, as an integer. -/
def fsig (F : Fmt) (x : Int) : Int := field x 0 F.p

/-- The encoding with a given exponent and significand. -/
def fpack (F : Fmt) (e m : Int) : Int := e * (3 ^ F.p : Nat) + m

/-- What an encoding stands for (R201). A NaN keeps its format's p and its significand. -/
inductive FVal where
  | fin (num : Int) (den : Nat)
  | inf (sign : Int)
  | nan (p : Nat) (sig : Int)
deriving DecidableEq, Repr

def fval (F : Fmt) (x : Int) : FVal :=
  let e := fexp F x
  let m := fsig F x
  if e = F.E then
    let s1 := trit m (F.p - 1)
    if s1 = 0 then .nan F.p m else .inf s1
  else
    let j := e - F.p
    if 0 ≤ j then .fin (m * (3 ^ j.toNat : Nat)) 1 else .fin m (3 ^ (-j).toNat)

def FVal.isNan : FVal → Bool
  | .nan _ _ => true
  | _ => false

/-- A NaN whose s2 is nonzero (R201). -/
def FVal.signalling : FVal → Bool
  | .nan p m => trit m (p - 2) != 0
  | _ => false

/-- Canonical encodings (R201, R202). -/
def finf (F : Fmt) (s : Int) : Int := fpack F F.E (s * (3 ^ (F.p - 1) : Nat))
def fqnan (F : Fmt) : Int := fpack F F.E 0
def fsnan (F : Fmt) : Int := fpack F F.E (3 ^ (F.p - 2) : Nat)
def fmaxFin (F : Fmt) (s : Int) : Int := fpack F (F.E - 1) (s * half F.p)
def fone (F : Fmt) (s : Int) : Int := fpack F 1 (s * (3 ^ (F.p - 1) : Nat))

/-- The canonical quiet NaN as a value of a format. -/
def qnan (F : Fmt) : FVal := .nan F.p 0

/-- The class code of FCLS (R238). -/
def fclass (F : Fmt) (x : Int) : Int :=
  let e := fexp F x
  let m := fsig F x
  let s1 := trit m (F.p - 1)
  if e = F.E then
    if s1 ≠ 0 then 3 * s1 else if trit m (F.p - 2) = 0 then 4 else -4
  else if m = 0 then 0
  else if s1 ≠ 0 ∨ e = -(F.E : Int) then sgn m
  else 2 * sgn m

/-- A source modifier on a float encoding: negation inverts the significand (R8, R87). -/
def modFloat (F : Fmt) (m : Modifier) (x : Int) : Int :=
  let n := fpack F (fexp F x) (-(fsig F x))
  match m with
  | .plain => x
  | .neg => n
  | .abs => if fsig F x < 0 then n else x

/-- Sign as VSEL and FCMP read it: 0 for a NaN and for a zero (R233). -/
def fsign (F : Fmt) (x : Int) : Int :=
  match fval F x with
  | .fin n _ => sgn n
  | .inf s => s
  | .nan _ _ => 0

/-- Least i below `lo + 2^fuel` with `ok i`, for `ok` that stays true once true. -/
def leastFrom (ok : Nat → Bool) : Nat → Nat → Nat
  | 0, lo => lo
  | f + 1, lo => if ok (lo + 2 ^ f - 1) then leastFrom ok f lo else leastFrom ok f (lo + 2 ^ f)

/-- near(n/d × 3^j + dither/27) (R203, R211). -/
def nearScaled (num : Int) (den : Nat) (j dither : Int) : Int :=
  let n := if 0 ≤ j then num * (3 ^ j.toNat : Nat) else num
  let d := if 0 ≤ j then den else den * 3 ^ (-j).toNat
  if dither = 0 then nearDiv n d else nearDiv (27 * n + dither * d) (27 * d)

/-- Nearest integer to √(a/b), an exact half toward zero. -/
def nearRoot (a b : Nat) : Nat :=
  let t := isqrt (4 * a / b)
  if t % 2 = 0 then t / 2 else if t * t * b = 4 * a then t / 2 else t / 2 + 1

/-- near(√(n/d) × 3^j). -/
def nearRootScaled (num den : Nat) (j : Int) : Int :=
  let k := (2 * j.natAbs)
  if 0 ≤ j then nearRoot (num * 3 ^ k) den else nearRoot num (den * 3 ^ k)

/-- The loop of R204 for a nonzero finite value, whose rounding at a given exponent of 3 is `rnd`; q significand
trits are kept of p (q = p but in R236). The least exponent at which the significand fits is found by bisection. -/
def narrowBy (F : Fmt) (q : Nat) (sign : Int) (rnd : Int → Int) : Int × Effects :=
  let fits (i : Nat) : Bool := decide ((rnd ((q : Int) - ((i : Int) - F.E))).natAbs ≤ half q)
  let i := leastFrom fits 10 0
  let e := (i : Int) - F.E
  if e > F.E - 1 then (finf F sign, { sat := 1 })
  else
    let m := rnd ((q : Int) - e)
    if m = 0 then (0, { flush := 1 }) else (fpack F e (m * (3 ^ (F.p - q) : Nat)), .none)

/-- A NaN of a format of p₀ significand trits in format F, s1 and s2 cleared, payload aligned at s3 (R204). -/
def narrowNan (F : Fmt) (p0 : Nat) (m : Int) : Int :=
  let payload :=
    if F.p ≤ p0 then field m (p0 - F.p) (F.p - 2) else field m 0 (p0 - 2) * (3 ^ (F.p - p0) : Nat)
  fpack F F.E payload

/-- narrow(x, F) and narrow_d(x, F) of R204 and R211; `dither` is 27·d. -/
def narrow (F : Fmt) (x : FVal) (dither : Int := 0) : Int × Effects :=
  match x with
  | .nan p m => (narrowNan F p m, .none)
  | .inf s => (finf F s, .none)
  | .fin n d => if n = 0 then (0, .none) else narrowBy F F.p (sgn n) fun j => nearScaled n d j dither

/-- narrow of sign × √(num/den). -/
def narrowRoot (F : Fmt) (q : Nat) (sign : Int) (num den : Nat) : Int × Effects :=
  if num = 0 then (0, .none) else narrowBy F q sign fun j => sign * nearRootScaled num den j

/-- clamp(x, c) of R205 on a narrowed encoding. A saturation already counted by narrowing counts once. -/
def clampFloat (F : Fmt) (c : Clamp) (r : Int × Effects) : Int × Effects :=
  let x := r.1
  let y := match c with
    | .off => x
    | .sat => match fval F x with
      | .inf s => fmaxFin F s
      | _ => x
    | .unit => match fval F x with
      | .inf s => fone F s
      | .fin n d => if n.natAbs > d then fone F (sgn n) else x
      | .nan _ _ => x
  if y = x then r else (y, (r.2.add .clamped).once)

/-- x × 3^k (R87). -/
def scaleFloat (k : Int) : FVal → FVal
  | .fin n d => if 0 ≤ k then .fin (n * (3 ^ k.toNat : Nat)) d else .fin n (d * 3 ^ (-k).toNat)
  | x => x

/-- The destination of a float operation: scale, narrow, clamp, and one NaN counted for a NaN result (R206). The
invalid count rises for each signalling operand. -/
def floatDest (F : Fmt) (c : Clamp) (k : Int) (r : FVal) (invalid : Nat) (dither : Int := 0) : Int × Effects :=
  let d := clampFloat F c (narrow F (scaleFloat k r) dither)
  (d.1, d.2.add { nan := if r.isNan then 1 else 0, invalid := invalid })

/-- Signalling NaNs among the operands (R218; log 43, DEDUCED). -/
def signallers (xs : List FVal) : Nat := (xs.filter FVal.signalling).length

/-- The first NaN among the operands (R206). -/
def firstNan (xs : List FVal) : Option FVal := xs.find? FVal.isNan

/-- A sum of two values (R206); `F` fixes the quiet NaN of opposite infinities. A NaN, of a product or a partial sum,
stays. -/
def addVal (F : Fmt) : FVal → FVal → FVal
  | .nan p m, _ => .nan p m
  | _, .nan p m => .nan p m
  | .inf s, .inf t => if s = t then .inf s else qnan F
  | .inf s, .fin _ _ => .inf s
  | .fin _ _, .inf t => .inf t
  | .fin a b, .fin c d => if b = d then .fin (a + c) b else .fin (a * d + c * b) (b * d)

/-- A product of two values (R206). -/
def mulVal (F : Fmt) : FVal → FVal → FVal
  | .nan p m, _ => .nan p m
  | _, .nan p m => .nan p m
  | .fin a b, .fin c d => .fin (a * c) (b * d)
  | .inf s, .inf t => .inf (s * t)
  | .inf s, .fin n _ => if n = 0 then qnan F else .inf (s * sgn n)
  | .fin n _, .inf s => if n = 0 then qnan F else .inf (s * sgn n)

def negVal : FVal → FVal
  | .fin n d => .fin (-n) d
  | .inf s => .inf (-s)
  | .nan p m => .nan p (-m)

/-- An operation on operands under R206: the first NaN operand, else `f`. -/
def withNan (xs : List FVal) (f : FVal) : FVal := (firstNan xs).getD f

/-- Three-way comparison of two values: −Inf < finite < +Inf < NaN, all NaNs equal (R237). -/
def cmpVal : FVal → FVal → Int
  | .nan _ _, .nan _ _ => 0
  | .nan _ _, _ => 1
  | _, .nan _ _ => -1
  | .inf s, .inf t => sgn (s - t)
  | .inf s, _ => s
  | _, .inf t => -t
  | .fin a b, .fin c d => sgn (a * d - c * b)

/-! ### L3 -/

/-- P(j) of R208 for j from 0 to 12: near(2^(j/2) × 3^18); negative j by the table's own entries. -/
def l3ProductTable : List Int :=
  [6053445, 8560864, 12106890, 17121728, 24213781, 34243457, 48427561, 68486914, 96855122, 136973827, 193710244,
   273947655, 387420489, 547895310, 774840978] ++
  [1095790620, 1549681956, 2191581240, 3099363912, 4383162479, 6198727824, 8766324958, 12397455648, 17532649916,
   24794911296]

/-- The exact product of two codes, times 3^18 (R208). -/
def l3Product (a b : Int) : Int :=
  if a = 0 ∨ b = 0 then 0 else sgn a * sgn b * l3ProductTable.getD (a.natAbs + b.natAbs - 2) 0

/-- The square of a nonzero code's magnitude, 2^(|c|−7), as a fraction (R207). -/
def l3Square (c : Int) : Nat × Nat :=
  let n := c.natAbs
  if 7 ≤ n then (2 ^ (n - 7), 1) else (1, 2 ^ (7 - n))

/-- v ≥ 2^((j − 7.5 − d)/2), for v² = num/den and 27·d = dither (R212). Both sides are raised to the power that
makes them rational. -/
def l3AtLeast (num den : Nat) (j : Nat) (dither : Int) : Bool :=
  let m := if dither = 0 then 2 else 54
  let e : Int := if dither = 0 then 2 * j - 15 else 27 * (2 * j - 15) - 2 * dither
  if 0 ≤ e then decide (den ^ m * 2 ^ e.toNat ≤ num ^ m) else decide (den ^ m ≤ num ^ m * 2 ^ (-e).toNat)

/-- The magnitude of the code that quantises v, v² = num/den, under R212. -/
def l3Magnitude (num den : Nat) (dither : Int) : Nat :=
  if num = 0 then 0
  else ((List.range 13).filter fun j => l3AtLeast num den (j + 1) dither).length

/-- v ≥ 2^3.25. -/
def l3Over (num den : Nat) : Bool := decide (den ^ 2 * 2 ^ 13 ≤ num ^ 2)

/-- One element quantised under R212, v² = num/den; counts the saturation and the flush. -/
def l3Quantise (sign : Int) (num den : Nat) (dither : Int) : Int × Effects :=
  let k := l3Magnitude num den dither
  (sign * k, { sat := if l3Over num den then 1 else 0, flush := if num ≠ 0 ∧ k = 0 then 1 else 0 })

/-- clamp(c, −1) limits a code to ±7 (R209). -/
def clampL3 (c : Clamp) (r : Int × Effects) : Int × Effects :=
  match c with
  | .unit =>
    let y := max (-7) (min 7 r.1)
    if y = r.1 then r else (y, (r.2.add .clamped).once)
  | _ => r

/-- clamp(narrow(x × 3^k, L3), clamp) for x = sign × √(num/den) (R209, R242); a zero sign is a zero value. -/
def l3Dest (c : Clamp) (k sign : Int) (num den : Nat) : Int × Effects :=
  if sign = 0 then (0, .none)
  else
    let m := if 0 ≤ k then num * 9 ^ k.toNat else num
    let d := if 0 ≤ k then den else den * 9 ^ (-k).toNat
    clampL3 c (l3Quantise sign m d 0)

/-! ### Dither -/

/-- 27·d(i) of R210. -/
def dither27 (i : Nat) : Int := ((5 * i % 27 : Nat) : Int) - 13

/-! ### Host formats -/

/-- A binary interchange format: exponent and fraction widths. -/
structure IeeeFmt where
  ebits : Nat
  fbits : Nat
deriving DecidableEq, Repr

def binary16 : IeeeFmt := ⟨5, 10⟩
def bfloat16 : IeeeFmt := ⟨8, 7⟩
def binary32 : IeeeFmt := ⟨8, 23⟩

def IeeeFmt.bias (I : IeeeFmt) : Nat := 2 ^ (I.ebits - 1) - 1

def absVal : FVal → FVal
  | .fin n d => .fin n.natAbs d
  | .inf _ => .inf 1
  | x => x

/-- Host value to F (R214): a value beyond the largest finite one becomes it, counted as a saturation. -/
def ofIeee (I : IeeeFmt) (F : Fmt) (x : Nat) (dither : Int) : Int × Effects :=
  let frac := x % 2 ^ I.fbits
  let e := x / 2 ^ I.fbits % 2 ^ I.ebits
  let s : Int := if x / 2 ^ (I.fbits + I.ebits) % 2 = 1 then -1 else 1
  if e = 2 ^ I.ebits - 1 then
    if frac = 0 then (finf F s, .none)
    else (if frac / 2 ^ (I.fbits - 1) = 1 then fqnan F else fsnan F, { nan := 1 })
  else
    let m := if e = 0 then frac else 2 ^ I.fbits + frac
    let sh : Int := (max e 1 : Nat) - (I.bias + I.fbits : Nat)
    let v : FVal := if 0 ≤ sh then .fin (s * (m * 2 ^ sh.toNat : Nat)) 1 else .fin (s * m) (2 ^ (-sh).toNat)
    if cmpVal (absVal v) (fval F (fmaxFin F 1)) > 0 then (fmaxFin F s, { sat := 1 })
    else
      let r := narrow F v dither
      match fval F r.1 with
      | .inf t => (fmaxFin F t, r.2)
      | _ => r

/-- Nearest integer to num/den, ties to even. -/
def nearEven (num den : Nat) : Nat :=
  let q := num / den
  let r := num % den
  if 2 * r < den then q else if 2 * r > den then q + 1 else if q % 2 = 0 then q else q + 1

/-- F to a host value (R215): nearest, ties to even; overflow to the largest finite value (log 31, DEDUCED). -/
def toIeee (I : IeeeFmt) (F : Fmt) (x : Int) : Nat × Effects :=
  let sbit (s : Int) : Nat := if s < 0 then 2 ^ (I.fbits + I.ebits) else 0
  let top : Nat := (2 ^ I.ebits - 1) * 2 ^ I.fbits
  match fval F x with
  | .inf s => (sbit s + top, .none)
  | .nan p m =>
    (top + (if FVal.signalling (.nan p m) then 2 ^ (I.fbits - 2) else 2 ^ (I.fbits - 1)), { nan := 1 })
  | .fin n d =>
    if n = 0 then (0, .none)
    else
      let a := n.natAbs
      let emax := 2 ^ I.ebits - 2
      -- i is the biased exponent, from 1 (which also serves subnormal values) up
      let sig (i : Nat) : Nat :=
        let sh : Int := (I.bias + I.fbits : Nat) - (i : Int)
        if 0 ≤ sh then nearEven (a * 2 ^ sh.toNat) d else nearEven a (d * 2 ^ (-sh).toNat)
      let i := leastFrom (fun j => decide (sig (j + 1) < 2 ^ (I.fbits + 1))) 11 0 + 1
      let sh : Int := (emax : Int) - (I.bias + I.fbits : Nat)
      let biggest : FVal := if 0 ≤ sh then .fin ((2 ^ (I.fbits + 1) - 1) * 2 ^ sh.toNat : Nat) 1
        else .fin (2 ^ (I.fbits + 1) - 1 : Nat) (2 ^ (-sh).toNat)
      if cmpVal (.fin a d) biggest > 0 then (sbit n + top - 1, { sat := 1 })
      else
        let m := sig i
        if m = 0 then (sbit n, { flush := 1 })
        else (sbit n + (if m < 2 ^ I.fbits then m else i * 2 ^ I.fbits + (m - 2 ^ I.fbits)), .none)

end Sys2Proof.Machine
end

