-- ==== Sys2Proof/Config.lean ====
section
/-! DEFINITION. What an implementation of Poldin fixes, and the free values: results that the spec leaves open.
A free value is a constant without a body, so that nothing can be proved of it beyond its type. -/

namespace Sys2Proof.Config

/-- Free value (log 10): whether a register read that a false lookahead claim covers returns the value before the
claiming instruction (R86): of the free counter at the read, the one at which the claiming instruction committed,
and the file that the read is from. -/
opaque staleRead : Nat → Nat → Nat → Bool

/-- Free value (log 12): the home slice of a line (R160: a fixed hash that is not architectural). -/
opaque homeSlice : Nat → Nat

/-- Free value (log 12): the set of a line in its home slice (R15, R160). -/
opaque homeSet : Nat → Nat

/-- Free value (log 84): the eight check bytes of a sector, as one number, of its 54 payload bytes and its tag
(R37: Reed-Solomon over GF(2⁸), whose field and generator polynomials the spec does not give). -/
opaque sectorCheck : List (BitVec 8) → BitVec 64

/-- Free value (log 66): the bands of a grid of the first size that the devices after the one with the second as its
band base hold (R47). -/
opaque laterBands : Nat → Nat → Nat

/-- Free value (log 12): the home slice of a line of a host or peer window, by its port and the number of the line
there (R160). -/
opaque portSlice : Nat → Nat → Nat

/-- Free value (log 85): which sectors lie in which stack, as exchanges of two sectors, one after another, in the
assignment that gives the first 2³⁰ sectors to stack 0 and so on (R10, R16). Every assignment of 2³⁰ sectors to each
stack is some list of exchanges. -/
opaque sectorSwaps : List (Nat × Nat)

/-- Free values (log 14): the device's serial number, its attestation key, as a modulus and the octets of the private
exponent, and the salt of a signature made at a count of the free counter (R390). -/
opaque serialNumber : Nat
opaque attestModulus : Nat
opaque attestExponent : List Nat
opaque attestSalt : Nat → List Nat

/-- Trits of feature word 1 that the device offers, positions 0 to 7 (R447). -/
def offered : Nat := 8

/-- Generation and stepping of feature word 0 (R447; log 82, DEDUCED). -/
def generation : Int := 3
def stepping : Int := 1

/-- Numbers of the package (R11, R12, R14, R320, R370, R437). -/
def cores : Nat := 2187
def computeDies : Nat := 27
def coresPerDie : Nat := 81
def coresPerCluster : Nat := 9
def partitions : Nat := 32
def homes : Nat := 162
/-- A home slice: its sets, the ways of a set, how many of them versions may hold, its lines, and the nonets of all
slices together (R15, R20). -/
def homeSets : Nat := 243
def homeWays : Nat := 27
def versionWays : Nat := 9
def homeLines : Nat := homeSets * homeWays
def sharedNonets : Nat := homes * homeLines * 243

/-- A core's L1 data cache and instruction cache in lines, the lockable ones of the latter, its miss-status entries, and
the gangs that a partition holds (R14; log 9). -/
def l1Lines : Nat := 81
def codeCacheLines : Nat := 243
def lockableLines : Nat := 81
def missEntries : Nat := 2187
def partitionGangs : Nat := 3
def controllers : Nat := 12
def uciModules : Nat := 243
def planes : Nat := 9
def queues : Nat := 729
def contexts : Nat := 243
def ports : Nat := 6

/-- Bytes of BAR0 (R437). -/
def bar0 : Nat := 2 ^ 40

/-- Shell dies, and what shell die d carries (R10): home slices 27d to 27d + 26, PCIe port d, and the stacks 2d and
2d + 1 with their controllers. The launch front end and the management controller lie on shell die 0. -/
def shellDies : Nat := 6
def homesPerShell : Nat := 27
def shellOfHome (h : Nat) : Nat := h / homesPerShell
def shellOfPort (p : Nat) : Nat := p
def shellOfController (c : Nat) : Nat := c / 2
def frontEndShell : Nat := 0
def managementShell : Nat := 0

/-- Sectors of a stack (R16). -/
def stackSectors : Nat := 2 ^ 30

/-- Nonets of device memory: twelve stacks (R16, R20). -/
def deviceNonets : Nat := 347892350976

/-- Small-page frames that lie in device memory: 0 to 159,072,861 (R156). -/
def frames : Nat := 159072862

/-- Registers of a core, and of an empty core the scratchpad nonets and tile words (R48, R67). -/
def coreRegisters : Nat := 6561
def coreScratch : Nat := 531441
def coreTileWords : Nat := 177147

/-- Cycles of a budget period (R335). -/
def period : Nat := 59049

end Sys2Proof.Config
end

