-- ==== Sys2Proof/Machine/State.lean ====
section
/-! DEFINITION. The state of the device, as plain data, and the state that bring-up leaves (R452). -/

namespace Sys2Proof.Machine

/-- A sparse map: keys strictly rising, and no entry that equals what an unlisted key reads as. -/
abbrev SMap (α : Type) := List (Nat × α)

/-- Where a nonet lies once its address is resolved. -/
inductive Place where
  | dev (nonet : Nat)
  | host (nonet : Nat)
  /-- Nonet of a peer's memory, through the window that begins at the peer's nonet `base` (R438). -/
  | peer (port nonet base : Nat)
  /-- Nonet of a band's scratchpad; `far` through region −3. -/
  | scr (band nonet : Nat) (far : Bool)
deriving DecidableEq, Repr

/-! ### Slices, parts and gangs -/

/-- A translation register (R75); it is empty while not valid. Bounds are offsets from the base. -/
structure XReg where
  valid   : Bool
  base    : Word
  frame   : Int
  key     : Int
  size    : Int
  written : Int
  loc     : Int
  low     : Int
  high    : Int
deriving DecidableEq, Repr

/-- A translation register at gang start: empty, every field 0 (R61, R75). -/
def XReg.zero : XReg :=
  { valid := false, base := 0, frame := 0, key := 0, size := 0, written := 0, loc := 0, low := 0, high := 0 }

/-- A word of an operand-log entry (R82, R411). -/
inductive LogWord where
  | base
  | offset (lane : Nat)
  | data (lane : Nat)
deriving DecidableEq, Repr

/-- The operands a memory instruction holds in the operand log (R82): its instruction words' address, base,
lane offsets, data and active lanes (log 26, DEDUCED). -/
structure OpLog where
  pc     : Word
  base   : Word
  offset : List Int
  data   : List Int
  active : List Nat
  /-- The entry's poisoned words (R411). -/
  bad    : List LogWord
  /-- A TRET replay has armed the entry: the instruction at `pc` takes its operands from here. -/
  armed  : Bool
deriving DecidableEq, Repr

/-- What a body step commits into the capsule record (R358). -/
inductive CapEffect where
  /-- A k register's new value; `sat` where a clamp changed it, which counts once the step has committed (R216). -/
  | reg (k : Nat) (v : Word) (sat : Bool := false)
  | branch (position : Int)
  | store (addr value : Word) (word : Bool)
  | leave
  /-- The skip of a trapping body step: only step and position change (R361). -/
  | skip
deriving DecidableEq, Repr

/-- A slice's side of a capsule, while its capsule-mode trit is +1 (R356 to R361). -/
structure Capsule where
  /-- Program counter of the CAP.ENTER, to which a trap handler returns (R362). -/
  enter    : Word
  record   : Word
  slot     : Word
  token    : Int
  step     : Int
  position : Int
  body     : Word
  stores   : Int
  /-- A step whose commit is on its way to the record's home, sent at count `sent` of the free counter. -/
  pending  : Option CapEffect
  sent     : Nat := 0
  /-- A committed store that has still to be applied. -/
  apply    : Option CapEffect
  /-- The slice runs the body; otherwise its next issue performs the rejoin. -/
  running  : Bool
  /-- A TRET.SKIP returned here: the rejoin first commits the trapping step (R361). -/
  skipping : Bool
deriving DecidableEq, Repr

structure Slice where
  live : Bool
  pc   : Word
  /-- k0 to k8 -/
  k    : List Int
  /-- e0 to e8 (R76) -/
  e    : List Int
  /-- The copy of the latest fault record that FREC reads, 27 words (R401) -/
  frec : List Int
  /-- Capsule mode is +1 exactly when this is some. -/
  cap  : Option Capsule
  log  : Option OpLog
  /-- Operands of a memory instruction that has issued and not committed: it waits at its data or at a scratchpad.
  An eviction keeps them and arms them for the reissue (R82, R334). -/
  issued : Option OpLog := none
deriving DecidableEq, Repr

/-- A trap about to be taken or taken: code, sub-code, address, lane mask, and what R383 adds for a node. -/
structure TrapInfo where
  code  : Int
  sub   : Int
  addr  : Word := 0
  lanes : Int := 0
  node  : Int := -1
  plane : Int := 0
  row   : Int := 0
  elem  : Int := 0
  /-- Operand-log entries held (word 19). -/
  log   : Option OpLog := none
  /-- The poison's location matters to R415: it lies in base memory. -/
  base  : Bool := false
deriving DecidableEq, Repr

/-- What a slice does when a repeated arrival's phase completes (R346). -/
inductive AfterPhase where
  | done | arriveAndWait | arriveAndGo
deriving DecidableEq, Repr

/-- The lines that an ICINV names (R315). -/
inductive CodeName where
  | all
  /-- The line that begins at a place. -/
  | line (start : Place)
  | nothing
deriving DecidableEq, Repr

/-- What a part waits for. Blocking points are R332's; the others are waits that an entry states. -/
inductive Wait where
  | ready
  /-- At REGANG; `last` marks the part that arrived last, while no exit has followed (R55). -/
  | regang (last : Bool)
  | send (channel : Nat) (word : Word)
  | recv (channel : Nat) (dst : Nat)
  /-- Waits for a phase; `again` lists the slices whose repeated arrival counts in the next one (R346). -/
  | barrier (key : BarrierKey) (phase : Nat) (after : AfterPhase) (again : List Nat)
  /-- Registered as a waiter on the word that device nonet `word` begins. -/
  | park (word : Nat)
  /-- Unregistered: the core's cycles that have passed and the times the word has been read again, every 243 of them; it
  ends after 59,049 (R350). -/
  | parkPoll (word : Nat) (expected : Word) (cycles : Nat) (polls : Nat := 0)
  | grow (amount : Nat) (dst : Nat)
  /-- A region −3 access waits for its band to be resident. -/
  | remote (band : Nat)
  /-- A remote load whose requests are outstanding. -/
  | load (req : Nat)
  /-- Fault wait for the host, at the record's address. -/
  | fault (record : Word) (code : Int)
  /-- Fault wait for a free slot: the trap, and the address and words of its instruction (R362). -/
  | faultSlot (t : TrapInfo) (pc : Word) (words : Word × Word × Word)
  /-- Tethered on word 0 of a capsule record, which device nonet `word` begins. -/
  | tether (word : Nat) (woken : Bool)
  | capCommit
  | capApply
  /-- Waits until every acknowledgement has returned, then issues again. -/
  | acks
  /-- DRAIN, which waits for what was counted before count `since` of the free counter, and the level and number of a
  DRAIN.BAR's barrier (R313). -/
  | drain (since : Nat) (barrier : Option (Int × Int))
  | fence (scope : Int)
  | batch (number : Nat)
  /-- ICINV, which waits for what was counted before count `since` of the free counter, and then for every core. -/
  | icinv (since : Nat) (name : CodeName)
  /-- MAP or UNMAP of the entry that begins at device nonet `pte`, for address `addr`; `committed` says that the band's
  version committed at issue, since no access of the gang was on its way then (R395). -/
  | map (level pte : Nat) (new : Word) (dst : Nat) (addr : Word) (committed : Bool)
  | pkset (key : Nat) (perm : Int)
  | engine
  | nodes
  /-- A checkpoint of a paired launch (R420): whether it is at a once-operation or a trap, and the operands that
  enter the signature with width 0 (R419). -/
  | checkpoint (once : Bool) (terms : List Int)
  /-- A part of a paired copy waits for the other copy at this place, where both take the checkpoint that a node's write
  calls for (R420). -/
  | undo
deriving DecidableEq, Repr

/-- A lookahead claim in force (R86): the next `left` instructions read no register among these; `old` is the
register's value before the claiming instruction, which committed at count `born` of the free counter. -/
structure Claim where
  left : Nat
  reg  : Opnd
  old  : List Int
  born : Nat := 0
deriving DecidableEq, Repr

structure Part where
  /-- Slice numbers, rising -/
  slices    : List Nat
  /-- h0 to h8 (R69) -/
  hist      : List (List Int)
  /-- Poisoned words of the last-result file: register and lane. -/
  histBad   : List (Nat × Nat)
  wait      : Wait
  /-- The checkpoint the part waited at has been taken, so its instruction performs (R420). -/
  granted   : Bool
  /-- What the leading copy forwarded (R418): a trap's record address and words, or a result. -/
  forwarded : Option (Bool × List Int)
  /-- Lookahead of the instruction that waits (R86). -/
  la        : Nat
  waitCount : Nat
  /-- Order of becoming starving (R326). -/
  starving  : Option Nat
  claims    : List Claim
  /-- Debug step after a TRET: instructions still to commit before trap 14, plus one (R387); 0 when off. -/
  stepping  : Nat
  /-- The open record of the handler that the part runs (R385). -/
  handling  : Option Word
  /-- The slices of the trapping part that word 8 of that record names (R383, R393). -/
  trapped   : List Nat := []
  /-- The free counter when the part formed: what it accesses comes later (R312). -/
  formed    : Nat := 0
  /-- The part's multiply has read operand A and been interrupted: the level-2 coordinates of the members whose
  allocations it holds (R218, R259). -/
  mul       : Option (List Nat) := none
  /-- Instructions that have committed since the part formed, by which the two copies of a pair find the same
  instruction (R420). -/
  count     : Nat := 0
deriving DecidableEq, Repr

inductive Residence where
  | resident | evicted | exited
deriving DecidableEq, Repr

structure Gang where
  stage      : Nat
  index      : Nat
  width      : Nat
  partition  : Nat
  residence  : Residence
  grant      : Nat
  /-- v registers that are not all zero -/
  vregs      : SMap (List Int)
  oregs      : SMap (List Int)
  uregs      : SMap Int
  masks      : SMap (List Int)
  xregs      : SMap XReg
  /-- Poisoned words of vector, operand, uniform, mask and k registers: the register and the lane. A mask or a uniform
  register is one word, at lane 0; a k register has one to a slice, at the slice's first lane (R29, R65, R411). -/
  bad        : List (Opnd × Nat)
  trapEnable : Int
  paired     : Int
  versioned  : Int
  locksLost  : Int
  sticky     : Int
  step       : Int
  dither     : Nat
  /-- Send allowance of each channel (R345) -/
  allowance  : SMap Nat
  /-- Sequence number of the current copy batch; its rolling number is this mod 81 (R314). -/
  batch      : Nat
  /-- Outstanding-acknowledgement count (R298) -/
  acks       : Nat
  watchdog   : Nat
  slices     : List Slice
  parts      : List Part
  /-- Hardware has set the trit in this local cycle, so that a STATC of the same cycle leaves it +1 (R78). -/
  stickyNow  : Bool := false
  locksNow   : Bool := false
deriving DecidableEq, Repr

/-! ### Nodes, tiles and bands -/

/-- A tensor shape record (R183). -/
structure Shape where
  base        : Word
  format      : Int
  len         : Int
  rows        : Int
  rowStride   : Int
  planes      : Int
  planeStride : Int
deriving DecidableEq, Repr

inductive NodeState where
  | held | queued | running | stalled | finished
deriving DecidableEq, Repr

/-- What a node does, with what its instruction gave it (R178 to R196, R263). -/
inductive NodeKind where
  | copy (src : Shape) (dst : Option Shape) (fp : Option Word) (follow : Option Nat) (dither : Option Nat)
  | cmpb (a b : Shape) (result : Word)
  | bin (items : Shape) (table : Word) (area : Option Word) (bins : Nat)
  | matrix (f : Fields) (a b acc : Word)
deriving DecidableEq, Repr

structure Node where
  serial    : Nat
  gang      : Nat
  /-- Sequence number of the batch it joined (R180). -/
  batch     : Option Nat
  kind      : NodeKind
  state     : NodeState
  /-- Decrements needed, received, and p slots taken by LINK or a follow-on (R181, R194). -/
  need      : Nat
  got       : Nat
  linked    : Nat
  succs     : List Nat
  /-- Items done: elements of a copy, compare or bin; steps of a multiply. -/
  progress  : Nat
  /-- Running fingerprint and its count, and the elements of a copy's open sector; or the compare's answer so far, or
  the bin counts, or a multiply's operand A. -/
  acc       : List Int
  /-- All data has moved. -/
  moved     : Bool
  followed  : Bool
  fault     : Option TrapInfo
  tid       : Nat
  /-- The trailing copy's placeholder (R418). -/
  stub      : Bool
  /-- Its next write would overfill the undo log of its copy, so that it waits for a checkpoint (R420). -/
  full      : Bool := false
deriving DecidableEq, Repr

structure Tile where
  cols   : Nat
  words  : SMap Int
  poison : List Nat
deriving DecidableEq, Repr

/-- Saturations, flushes and NaNs of one tensor identifier (R216). -/
structure Counts where
  sat   : Nat
  flush : Nat
  nan   : Nat
deriving DecidableEq, Repr

inductive Copy where
  | unpaired | leading | trailing
deriving DecidableEq, Repr

/-- A held store (R297, R418): the nonets it writes, in order; for the signature its virtual address, width and
value; and the page-table entries that its writes will mark written, by the device nonets at which they begin. -/
structure HeldStore where
  addr   : Word
  word   : Bool
  value  : Word
  nonets : List (Place × Int)
  ptes   : List Nat
  /-- The free counter when its instruction issued: that instruction's stores to a sector are one write (R34). -/
  stamp  : Nat := 0
deriving DecidableEq, Repr

/-- What a checkpoint or a speculative fence saves of a band (R297, R420). -/
structure Snapshot where
  gangs      : List Gang
  scratch    : SMap Int
  scrPoison  : List Nat
  tiles      : List Tile
  counts     : SMap Counts
  channels   : List (List (Word × Nat))
  nodes      : List Node
  nextSerial : Nat
  openSlots  : List Nat := []
  succCounts : SMap Nat := []
  /-- Serials of its multiplies that run, in the order in which they started (R261). -/
  starts : List Nat := []
  chanBad    : List (Nat × Nat) := []
deriving DecidableEq, Repr

/-- A copy's side of a paired launch (R417 to R422). -/
structure Pair where
  mate       : Nat
  held       : List HeldStore
  /-- Stores of the open group, then closed groups' signatures that have not been matched. -/
  openGroup  : List HeldStore
  signatures : List Word
  /-- Signatures received from the trailing copy. -/
  received   : List Word
  snapshot   : Snapshot
  mismatches : Nat
  /-- Units in the undo log (R420). -/
  undo       : List (Nat × Nat)
  /-- EINJ.SIG's addition to the current group; how many EINJ.SIG have been executed since the checkpoint or the
  rollback to it, and how many of them a rollback has undone (R431). -/
  inject     : Int
  sigs       : Nat
  sigsSeen   : Nat
deriving DecidableEq, Repr

/-- A speculative fence that has not completed (R297): the gang as it was after the fence, and what its later
instructions have read, counted and stored. -/
structure Spec1 where
  gang    : Nat
  saved   : Gang
  counts  : SMap Counts
  invalid : Nat
  lines   : List Nat
  /-- Device nonets read, with their values. -/
  seen    : List (Nat × Int)
  held    : List HeldStore
  issued  : Nat
deriving DecidableEq, Repr

structure Band where
  uid        : Nat
  kernel     : Nat
  index      : Nat
  copy       : Copy
  /-- The core that holds it; none while the band is evicted as a whole. -/
  core       : Option Nat
  /-- The die whose dispatcher places it (R63). -/
  die        : Nat
  /-- Order of re-placement while the band waits for a core again (R322). -/
  queuedAt   : Nat
  /-- Core from which it was relaunched, which it must avoid (R416). -/
  avoid      : Option Nat
  age        : Nat
  gangs      : List Gang
  scratch    : SMap Int
  scrPoison  : List Nat
  tiles      : List Tile
  nodes      : List Node
  nextSerial : Nat
  /-- Serials of finished nodes with a p slot that was never linked, and for each finished node the number of its
  successors, those linked after its end among them (R186, R194). -/
  openSlots  : List Nat := []
  succCounts : SMap Nat := []
  /-- Serials of its multiplies that run, in the order in which they started (R261). -/
  starts : List Nat := []
  /-- Words of each channel with their sender, oldest first. -/
  channels   : List (List (Word × Nat))
  /-- Poisoned channel words, which lie in the scratchpad: the channel and the place from the oldest (R49, R411). -/
  chanBad    : List (Nat × Nat) := []
  /-- The live version: device nonets, as halfwords (R30), and poisoned sectors (R301, R411). -/
  version    : SMap (BitVec 16)
  verPoison  : List Nat
  /-- Sectors that a single store of the version wrote whole, so that base poison no longer shows (R34). -/
  verClean   : List Nat
  committed  : Bool
  settled    : Bool
  relaunches : Nat
  counts     : SMap Counts
  pair       : Option Pair
  specs      : List Spec1
deriving DecidableEq, Repr

/-! ### Kernels, contexts and queues -/

structure Stage where
  entry : Int
  gangs : Nat
  width : Nat
  grant : Nat
deriving DecidableEq, Repr

structure Channel where
  producer : Nat
  consumer : Nat
  depth    : Nat
deriving DecidableEq, Repr

/-- A user level: extent and domain (−1 cluster, 0 die, +1 package, +2 system; R442). -/
structure Level where
  extent : Nat
  domain : Int
deriving DecidableEq, Repr

/-- A launch record (R48, R442). -/
structure Launch where
  levels    : List Level
  bandBase  : Int
  stages    : List Stage
  channels  : List Channel
  versioned : Bool
  paired    : Bool
  scratch   : Nat
  paramAddr : Word
  paramLen  : Int
  counters  : Word
  watchdog  : Nat
  tiles     : List Nat
deriving DecidableEq, Repr

/-- A range of pending bands of one die, lo included and hi excluded. -/
structure Pending where
  die  : Nat
  lo   : Nat
  hi   : Nat
  copy : Copy
deriving DecidableEq, Repr

/-- One barrier (R346): its phase and who has arrived in it, as band, gang and slice. -/
structure Barrier where
  key     : BarrierKey
  phase   : Nat
  arrived : List (Nat × Nat × Nat)
deriving DecidableEq, Repr

/-- The scope of the release and acquire that a queue token carries (R300). -/
inductive TokenScope where
  | die | package | system
deriving DecidableEq, Repr

structure Kernel where
  uid      : Nat
  context  : Nat
  number   : Int
  /-- The queue of its packet, and the first nonet of the packet's status word; none for a LAUNCH instruction. -/
  queue    : Option (Nat × Nat)
  priority : Nat
  seq      : Nat
  launch   : Launch
  codeBase : Word
  codeLen  : Nat
  pending  : List Pending
  /-- The token it posts when it ends (R321). -/
  post     : Option Nat
  /-- Dies that the partition vector gave bands (R300). -/
  dies     : List Nat
  ended    : List (Nat × Bool)
  /-- Clusters chosen for groups bound to one: group, whether of trailing copies, cluster (R46, R417). -/
  clusters : List (Nat × Bool × Nat)
  barriers : List Barrier
  /-- The tokens it waited on, with the scope that hardware computed for each at its start (R300). -/
  scopes   : List (Nat × TokenScope) := []
deriving DecidableEq, Repr

structure HostWindow where
  frame : Nat
  count : Nat
  base  : Nat
deriving DecidableEq, Repr

structure PeerWindow where
  frame : Nat
  count : Nat
  port  : Nat
  base  : Nat
deriving DecidableEq, Repr

/-- An installed context (R370 to R378). -/
structure Context where
  number      : Nat
  descriptor  : Int
  topTable    : Int
  /-- Frame pool: first frame and count of each extent (R371). -/
  pool        : List (Nat × Nat)
  transHost   : Bool
  protHost    : Bool
  handler     : Word
  faultArea   : Word
  slots       : Nat
  kernelTable : Int
  /-- Keys whose permission is not +1 -/
  perms       : SMap Int
  hostWins    : SMap HostWindow
  peerWins    : SMap PeerWindow
  tokens      : SMap Int
  nextKernel  : Int
  nextRecord  : Int
  lastSlot    : Option Nat
  lastRecord  : Int
  invalid     : Nat
  relaunches  : Nat
  forced      : Nat
  mismatches  : Nat
  stops       : Nat
  issueShare  : Nat
  copyShare   : Nat
  inject      : Int
  /-- For each token, the dies that the launches which have posted it gave bands; 27 stands for another device's, on
  whose behalf the host has set it (R300). -/
  posters     : SMap (List Nat) := []
  /-- The nine words of its descriptor, as it was installed or last changed (R370, R390). -/
  installed   : List Int := []
deriving DecidableEq, Repr

/-- A bound queue (R440, R445). -/
structure Queue where
  number   : Nat
  context  : Nat
  priority : Nat
  base     : Nat
  size     : Nat
  tail     : Int
  taken    : Int
deriving DecidableEq, Repr

/-- A launch packet that has passed the front end's checks (R441 to R443). -/
structure Packet where
  launch   : Launch
  codeBase : Word
  codeLen  : Nat
  /-- First bands of dies 0 to 26, and the number of bands (R45). -/
  cuts     : List Nat
  post     : Option Nat
  waits    : List (Nat × Word)
deriving DecidableEq, Repr

/-- An accepted LAUNCH's packet, the head of a queue of its own, which is numbered from 729 (R320). -/
structure OwnPacket where
  number   : Nat
  context  : Nat
  priority : Nat
  packet   : Packet
  /-- The kernel-table entry that it names, which its take reads (R449). -/
  entry    : Int
deriving DecidableEq, Repr

/-! ### Units -/

/-- A command of the matrix engine that is ready (R261): the instruction of a part, or a node. A multiply carries its
fields, the steps it has completed and, from its first step on, operand A's nonets (R259); a BQNT the dither phase at
issue in place of the steps (R269). -/
inductive EngineCmd where
  | part (p : PartId) (f : Option Fields) (progress : Nat) (a : List Int)
  | node (band serial : Nat)
deriving DecidableEq, Repr

/-- Shares of a launch's stages on a core (R328). -/
structure Shares where
  kernel : Nat
  sigma  : List Nat
deriving DecidableEq, Repr

/-- A line of an instruction cache: its first nonet, and the number by which a lock names it (R14, R317). -/
structure CodeLine where
  start  : Place
  number : Nat
deriving DecidableEq, Repr

/-- A core whose state differs from that after reset. -/
structure Core where
  number    : Nat
  /-- Cycles for which each partition's vector pipe stays busy. -/
  busy      : SMap Nat
  /-- The last 81 issues of each partition, latest first: kernel and stage (R329). -/
  recent    : SMap (List (Nat × Nat))
  /-- Issue slots and copied nonets per context in this period (R336). -/
  issued    : SMap Nat
  copied    : SMap Nat
  shares    : List Shares
  /-- The local cycle begins with a rebalance (R328) or a budget period (R335) that has not been performed. -/
  rebalance : Bool
  period    : Bool
  corrected : Nat
  poisoned  : Nat
  dropped   : Nat
  engine    : List EngineCmd
  /-- Locked lines per context, by their numbers, earliest first (R317). -/
  locks     : List (Nat × Nat)
  /-- Lines in the instruction cache, the one fetched first at the head (R14). -/
  code      : List CodeLine := []
  /-- The core's cycle counter less its die's count of cycles: each core leaves reset at a time of its own (R146). -/
  offset    : Int
deriving DecidableEq, Repr

/-- The local cycles that a pending band of a kernel, or its trailing copy, has waited as a die's head band (R322). -/
structure HeadWait where
  kernel   : Nat
  index    : Nat
  trailing : Bool
  cycles   : Nat
deriving DecidableEq, Repr

structure Die where
  number  : Nat
  waited  : List HeadWait
  hot     : Bool
  /-- Cycles of the one clock of its cores, under wrap27 (R13). -/
  cycle   : Int
  /-- The place, 32 · core + partition within the die, that was served last in this local cycle; −1 for none. -/
  last    : Int
deriving DecidableEq, Repr

structure Port where
  role     : PortRole
  up       : Bool
  ingress  : Nat
  egress   : Nat
  command  : List Int
  doorbell : Int
  response : List Int
  inbound  : List (Nat × Nat)
deriving DecidableEq, Repr

structure Home where
  number    : Nat
  corrected : Nat
  poisoned  : Nat
deriving DecidableEq, Repr

structure Controller where
  number    : Nat
  /-- Local cycles since reset (R9, R13). -/
  cycle     : Nat
  corrected : Nat
  poisoned  : Nat
  budget    : Nat
  used      : Nat
  /-- The sector of the controller's stack at which the scrubber's next read begins its search (R423). -/
  position  : Nat
  /-- An outstanding scrub write-back: sector, generation when read, corrected payload (R40). -/
  scrub     : Option (Nat × Nat × List Int)
  /-- The controller's cycle at which the scrubber read that sector. -/
  scrubAt   : Nat := 0
  /-- A budget period has begun that has not been performed (R335). -/
  period    : Bool := false
deriving DecidableEq, Repr

structure UciModule where
  number    : Nat
  replays   : Nat
  rotations : Nat
  inPeriod  : Nat
  shadow    : Bool
deriving DecidableEq, Repr

/-- A completion tag (R424): of a core's request the core, its miss-status entry and its issue number; of a host's or a
peer's the port and the transaction's tag. -/
inductive Tag where
  | core (core entry issue : Nat)
  | port (port transaction : Nat)
deriving DecidableEq, Repr

/-- A retained response: its tag and, of a write, an atomic or a capsule access, the value it returned (R424). -/
structure Response where
  tag   : Tag
  value : List Int
deriving DecidableEq, Repr

/-- Responses that a home retains for a die on a plane, oldest first (R424). -/
structure Retained where
  home      : Nat
  plane     : Nat
  die       : Nat
  responses : List Response
deriving DecidableEq, Repr

inductive ReqKind where
  | load | store | atomic
deriving DecidableEq, Repr

/-- One element of a request, or the piece of it that the request reaches: its position among the instruction's
elements, its lane, its address and its nonets, from number `first` of the element on, with the values stored or, once
read, returned. -/
structure ReqElem where
  pos    : Nat
  lane   : Nat
  addr   : Word
  places : List Place
  data   : List Int
  first  : Nat := 0
deriving DecidableEq, Repr

/-- A request between a gang and a home, a scratchpad or a port: one for each line, scratchpad or port line that an
instruction touches, and one that is not sent for what it reads of sectors that are outstanding already (R161, R162). An
instruction's requests have one quotient by 100. -/
structure Req where
  id     : Nat
  part   : PartId
  kind   : ReqKind
  instr  : Instr
  elems  : List ReqElem
  done   : Bool
  poison : Option TrapInfo
  /-- Trits of the sectors of the line that the lanes reach (R161). -/
  mask   : List Int := []
  /-- The core from which it is sent, and the miss-status entries of its sectors, the first of which stands in its
  completion tag (R162, R424). -/
  core    : Nat := 0
  entries : List Nat := []
  /-- The request whose outstanding sectors this load has joined (R162). -/
  joins   : Option Nat := none
  /-- Gangs that have since stored to a sector of this load, as band, gang and the sector's first nonet: their later
  loads do not join it (R162). -/
  shut    : List (Nat × Nat × Place) := []
  /-- Saturations, flushes, NaNs, signalling NaNs and sticky saturation of an atomic that has been performed. -/
  moved  : List Nat := []
  /-- It has arrived; an atomic is performed once all of its requests have, since it writes nothing where any element of
  it reads poison (R307, R412). -/
  here   : Bool := false
deriving DecidableEq, Repr

/-- A host command whose doorbell rang (R444). -/
structure HostCommand where
  port : Nat
  code : Int
  args : List Int
deriving DecidableEq, Repr

inductive Power where
  | off | up | recovery | shut
deriving DecidableEq, Repr

/-- The running firmware's digest and security version, and what is fused: the minimum version and the digest of the
Akonarn key (R389). -/
structure Firmware where
  digest    : List Nat
  version   : Nat
  minimum   : Nat
  keyDigest : List Nat
deriving DecidableEq, Repr

/-- The part that holds the issue slot (log 8). -/
structure Issue where
  part : PartId
deriving DecidableEq, Repr

/-- What wrong or erased trits lie in (R28, R407). -/
inductive UpsetAt where
  | reg (part : PartId) (reg : Opnd) (lane : Nat)
  /-- A word of the entry of a part's operand log. -/
  | log (part : PartId) (word : LogWord)
  /-- A word of a scratchpad or of a line at its home. -/
  | word (p : Place)
  /-- A word of a channel, counted from the oldest, in the scratchpad of a band's core (R49). -/
  | channel (band channel word : Nat)
  /-- A word of the version line of a band that holds a device nonet. -/
  | version (band nonet : Nat)
  | tile (band tile word : Nat)
  /-- A line of a core's L1 data or instruction cache. -/
  | copy (core : Nat)
deriving DecidableEq, Repr

/-- Trits of one stored word, or of one line, that a checker finds wrong or erased (R28, R407). -/
structure Upset where
  unit   : UpsetAt
  errors : Nat
deriving DecidableEq, Repr

/-- A unit of nine nonets, which may be an instruction, that writes have changed since an ICINV last named its line
(R315, R316): its first nonet, the instruction before them, as a whole, which of the nonets no write has rewritten, and
the cores whose instruction caches hold the line from before. Every core still gives the old instruction while some
nonet has not been rewritten, and then those cores do. `owner` is the band whose version, or whose held stores, make the
change. -/
structure CodeUnit where
  unit  : Place
  owner : Option Nat
  old   : List Int
  left  : List Nat
  cores : List Nat
deriving DecidableEq, Repr

structure State where
  mem         : List Host.Cell
  poison      : List Nat
  gens        : SMap Nat
  /-- Ranges of sectors, as the first and the number, that the zeroing of frames has written: each write counts in the
  scrub generation of every sector of its range (R38, R371). -/
  zeroed      : List (Nat × Nat)
  verTags     : List Nat
  /-- Words, by place, with a trit altered without its check trits (R431); and words of version lines, as the band, the
  number of the device word and the trit. -/
  flips       : List (Place × Nat)
  verFlips    : List (Nat × Nat × Nat)
  hostMem     : List Host.Cell
  peerMem     : SMap (List Host.Cell)
  planeMap    : List Nat
  rehash      : Nat
  deadPlanes  : List Nat
  dying       : List Nat
  features    : Int
  negotiated  : Bool
  power       : Power
  tripped     : Bool
  firmware    : Firmware
  contexts    : List Context
  queues      : List Queue
  roundRobin  : SMap Nat
  launches    : List OwnPacket
  kernels     : List Kernel
  takenSeq    : Nat
  bands       : List Band
  placed      : Nat
  nextUid     : Nat
  starveSeq   : Nat
  cores       : List Core
  dies        : List Die
  ports       : List Port
  homes       : List Home
  controllers : List Controller
  modules     : List UciModule
  retained    : List Retained
  reqs        : List Req
  parks       : List (Nat × PartId)
  mgmtBudget  : Nat
  mgmtUsed    : Nat
  commands    : List HostCommand
  outbox      : List (Nat × Nat)
  replies     : List (Nat × List Nat)
  attested    : List Nat
  agenda      : List Instr
  issue       : Option Issue
  turn        : Nat
  slow        : Bool
  free        : Nat
  /-- Wrong or erased trits that checkers are about to meet: an input (log 38). -/
  upsets      : List Upset
  /-- Code that a fetch may still give as it was (R83, R316; log 9), the earliest first. -/
  codeOld     : List CodeUnit
  /-- Local cycles of the management controller (R9, R13, R335), and whether a budget period of it has begun that has
  not been performed. -/
  mgmtCycle   : Nat
  mgmtPeriod  : Bool
  /-- Cycles of the fabric domain of each shell die, which are its home slices' local cycles (R13). -/
  fabric      : List Nat
  /-- EINJ.LINK has marked the next flit that carries a request of this gang to this home slice (R431). -/
  linkFails   : List (Nat × Nat × Nat)
  /-- Phases of system-level barriers in which every slice of the other devices has arrived: an input (R47, R346). -/
  peerPhases  : List (Nat × BarrierKey × Nat)
  /-- Kernels whose launch record differs from another device's: an input (R47). -/
  disagree    : List Nat
deriving DecidableEq, Repr

/-- Why the machine stops with a fault. No step of this model faults: every trap of R382 is a next state. -/
inductive Fault where
  /-- Raised by no one. -/
  | none
deriving DecidableEq, Repr

/-- Why a step has no meaning. -/
inductive Refusal where
  /-- An instruction whose meaning has not been written, by its mnemonic. Safe. -/
  | notModelled (mnemonic : String)
  /-- An instruction word run while no part holds the issue slot: the instruction belongs to no program. Raised
  by every coded instruction's meaning. Safe: `step` runs one only for the part that holds the slot. -/
  | noIssuingPart
deriving DecidableEq, Repr

/-- A port after bring-up (R437, R452; log 16). -/
def Port.reset (role : PortRole) : Port :=
  { role := role, up := role != .unassigned, ingress := 0, egress := 0, command := List.replicate 9 0, doorbell := 0,
    response := List.replicate 9 0, inbound := [] }

def Core.reset (n : Nat) : Core :=
  { number := n, busy := [], recent := [], issued := [], copied := [], shares := [],
    rebalance := false, period := false, corrected := 0, poisoned := 0, dropped := 0, engine := [], locks := [], offset := 0 }

def Die.reset (n : Nat) : Die := { number := n, waited := [], hot := false, cycle := 0, last := -1 }
def Home.reset (n : Nat) : Home := { number := n, corrected := 0, poisoned := 0 }
def Controller.reset (n : Nat) : Controller :=
  { number := n, cycle := 0, corrected := 0, poisoned := 0, budget := 81, used := 0, position := 0, scrub := none }
def UciModule.reset (n : Nat) : UciModule :=
  { number := n, replays := 0, rotations := 0, inPeriod := 0, shadow := false }

/-- The initial plane map: entry e names plane e mod 9 (R287). -/
def planeMapReset : List Nat := (List.range 81).map (· % 9)

/-- The device as bring-up leaves it: every count 0, memory zeroed and unpoisoned, every queue unbound, no context
installed, waiting for NEGOTIATE (R452). What the spec does not give: logs 1, 4, 5, 8, 15, 16
(log 1, DESIGN CHOICE). -/
def State.reset : State :=
  { mem := [], poison := [], gens := [], zeroed := [], verTags := [], flips := [], verFlips := [],
    hostMem := [], peerMem := [],
    planeMap := planeMapReset, rehash := 0, deadPlanes := [], dying := [], features := 0, negotiated := false,
    power := .up, tripped := false, firmware := { digest := List.replicate 64 0, version := 0, minimum := 0, keyDigest := List.replicate 64 0 },
    contexts := [], queues := [], roundRobin := [], launches := [], kernels := [], takenSeq := 0, bands := [], placed := 0,
    nextUid := 0, starveSeq := 0, cores := [], dies := [],
    ports := [.reset .host, .reset .unassigned, .reset .unassigned, .reset .unassigned, .reset .unassigned,
      .reset .unassigned],
    homes := [], controllers := [], modules := [], retained := [], reqs := [], parks := [],
    mgmtBudget := 81, mgmtUsed := 0, commands := [], outbox := [], replies := [], attested := [],
    agenda := [], issue := none, turn := 0, slow := false, free := 0, upsets := [], codeOld := [], mgmtCycle := 0, mgmtPeriod := false,
    fabric := List.replicate 6 0, linkFails := [], peerPhases := [], disagree := [] }

end Sys2Proof.Machine
end

