-- ==== Sys2Proof/Machine/Access.lean ====
section
/-! DEFINITION. Sparse maps, and reading and replacing the records of the state by their names. -/

namespace Sys2Proof.Machine

/-! ### Sparse maps -/

/-- The value at a key; d is what an unlisted key reads as. -/
def smapGet {α : Type} (d : α) : SMap α → Nat → α
  | [], _ => d
  | (j, v) :: m, k => if j = k then v else smapGet d m k

def smapDrop {α : Type} (m : SMap α) (k : Nat) : SMap α := m.filter fun p => p.1 != k

/-- The map with a key set; an entry equal to d is removed, so that the form stays canonical. -/
def smapSet {α : Type} [DecidableEq α] (d : α) : SMap α → Nat → α → SMap α
  | [], k, v => if v = d then [] else [(k, v)]
  | (j, w) :: m, k, v =>
    if k < j then (if v = d then (j, w) :: smapDrop m k else (k, v) :: (j, w) :: m)
    else if k = j then (if v = d then smapDrop m k else (k, v) :: m)
    else (j, w) :: smapSet d m k v

/-- An optional value at a key. -/
def smapFind {α : Type} : SMap α → Nat → Option α
  | [], _ => none
  | (j, v) :: m, k => if j = k then some v else smapFind m k

/-- The map with a key present. -/
def smapPut {α : Type} : SMap α → Nat → α → SMap α
  | [], k, v => [(k, v)]
  | (j, w) :: m, k, v =>
    if k < j then (k, v) :: (j, w) :: m else if k = j then (k, v) :: m else (j, w) :: smapPut m k v

/-- A sorted list of numbers without repeats, as a set. -/
def setAdd : List Nat → Nat → List Nat
  | [], k => [k]
  | j :: m, k => if k < j then k :: j :: m else if k = j then j :: m else j :: setAdd m k

def setDel (m : List Nat) (k : Nat) : List Nat := m.filter (· != k)

/-- Without repeats, in the order of first appearance. -/
def distinct {α : Type} [BEq α] (l : List α) : List α :=
  l.foldl (fun acc x => if acc.contains x then acc else acc ++ [x]) []

/-- A list with its repeats removed and its elements rising. -/
def toSet (l : List Nat) : List Nat := l.foldl setAdd []

/-- Element i of a list changed. -/
def modAt {α : Type} (l : List α) (i : Nat) (f : α → α) : List α :=
  match l, i with
  | [], _ => []
  | x :: xs, 0 => f x :: xs
  | x :: xs, n + 1 => x :: modAt xs n f

def satCount (n : Nat) : Nat := min n (half 27)

/-! ### Units, which are listed only where they differ from reset -/

def findUnit {α : Type} (num : α → Nat) (dflt : Nat → α) (l : List α) (n : Nat) : α :=
  (l.find? fun x => num x == n).getD (dflt n)

/-- A list of numbered units, by rising number, with unit n replaced; a unit equal to its reset value is not
listed. -/
def putUnit {α : Type} [DecidableEq α] (num : α → Nat) (dflt : Nat → α) : List α → α → List α
  | [], x => if x = dflt (num x) then [] else [x]
  | y :: ys, x =>
    if num x < num y then (if x = dflt (num x) then y :: ys.filter (num · != num x) else x :: y :: ys)
    else if num x = num y then (if x = dflt (num x) then ys.filter (num · != num x) else x :: ys)
    else y :: putUnit num dflt ys x

def State.core (s : State) (n : Nat) : Core := findUnit Core.number Core.reset s.cores n
def State.setCore (s : State) (c : Core) : State := { s with cores := putUnit Core.number Core.reset s.cores c }
def State.modCore (s : State) (n : Nat) (f : Core → Core) : State := s.setCore (f (s.core n))
def State.die (s : State) (n : Nat) : Die := findUnit Die.number Die.reset s.dies n
def State.setDie (s : State) (d : Die) : State := { s with dies := putUnit Die.number Die.reset s.dies d }
def State.home (s : State) (n : Nat) : Home := findUnit Home.number Home.reset s.homes n
def State.modHome (s : State) (n : Nat) (f : Home → Home) : State :=
  { s with homes := putUnit Home.number Home.reset s.homes (f (s.home n)) }
def State.controller (s : State) (n : Nat) : Controller := findUnit Controller.number Controller.reset s.controllers n
def State.modController (s : State) (n : Nat) (f : Controller → Controller) : State :=
  { s with controllers := putUnit Controller.number Controller.reset s.controllers (f (s.controller n)) }
def State.uci (s : State) (n : Nat) : UciModule := findUnit UciModule.number UciModule.reset s.modules n
def State.modUci (s : State) (n : Nat) (f : UciModule → UciModule) : State :=
  { s with modules := putUnit UciModule.number UciModule.reset s.modules (f (s.uci n)) }
def State.port (s : State) (n : Nat) : Port := s.ports.getD n (.reset .unassigned)
def State.modPort (s : State) (n : Nat) (f : Port → Port) : State := { s with ports := modAt s.ports n f }

/-- The die of a core (R11). -/
def dieOf (core : Nat) : Nat := core / Config.coresPerDie

/-- A core's cycle counter (R146; log 8). -/
def State.cycle (s : State) (core : Nat) : Int := wrap 27 ((s.die (dieOf core)).cycle + (s.core core).offset)

/-- The retained responses of a home for a die on a plane (R424). -/
def retainedOf (s : State) (home plane die : Nat) : List Response :=
  ((s.retained.find? fun x => x.home == home && x.plane == plane && x.die == die).map (·.responses)).getD []

def setRetained (s : State) (home plane die : Nat) (xs : List Response) : State :=
  let rest := s.retained.filter fun x => !(x.home == home && x.plane == plane && x.die == die)
  { s with retained := if xs.isEmpty then rest else rest ++ [{ home := home, plane := plane, die := die, responses := xs }] }

/-- The home may send the die a further response on the plane (R424). -/
def roomFor (s : State) (home plane die : Nat) : Bool := decide ((retainedOf s home plane die).length < 729)

/-- The home keeps a response until the die confirms it (R424). -/
def retain (s : State) (home plane die : Nat) (x : Response) : State :=
  setRetained s home plane die (retainedOf s home plane die ++ [x])

/-- The die has received a response: the request that its tag names is no longer on its way (R424). -/
def received (s : State) (x : Response) : Bool :=
  match x.tag with
  | .core _ _ issue => !(s.reqs.any (·.id == issue))
  | .port _ _ => true

/-- The die has received the oldest 243 responses of a buffer, which it then confirms (R424). -/
def confirmable (s : State) (home plane die : Nat) : Bool :=
  let xs := retainedOf s home plane die
  decide (243 ≤ xs.length) && (xs.take 243).all (received s)

/-- The home keeps a response that the die receives in the same step; where it makes up 243, the die confirms them. -/
def retainReceived (s : State) (home plane die : Nat) (x : Response) : State :=
  let s1 := retain s home plane die x
  setRetained s1 home plane die ((retainedOf s1 home plane die).drop (if confirmable s1 home plane die then 243 else 0))

/-- A budget in force: a die above its limit lowers every budget to 27 (R336, R451; log 72, DESIGN CHOICE). -/
def State.budget (s : State) (b : Nat) : Nat := if s.dies.any (·.hot) then min b 27 else b

/-! ### Contexts, kernels, bands, gangs and parts -/

def State.context (s : State) (n : Nat) : Option Context := s.contexts.find? (·.number == n)
def State.modContext (s : State) (n : Nat) (f : Context → Context) : State :=
  { s with contexts := s.contexts.map fun c => if c.number = n then f c else c }
def State.kernel (s : State) (uid : Nat) : Option Kernel := s.kernels.find? (·.uid == uid)
def State.modKernel (s : State) (uid : Nat) (f : Kernel → Kernel) : State :=
  { s with kernels := s.kernels.map fun k => if k.uid = uid then f k else k }
def State.band (s : State) (uid : Nat) : Option Band := s.bands.find? (·.uid == uid)
def State.modBand (s : State) (uid : Nat) (f : Band → Band) : State :=
  { s with bands := s.bands.map fun b => if b.uid = uid then f b else b }
def State.queueAt (s : State) (n : Nat) : Option Queue := s.queues.find? (·.number == n)

def modGangB (b : Band) (g : Nat) (f : Gang → Gang) : Band := { b with gangs := modAt b.gangs g f }
def State.modGang (s : State) (band g : Nat) (f : Gang → Gang) : State := s.modBand band fun b => modGangB b g f

/-- Every copy of a gang that a band holds: the live one and those that a speculative fence or a checkpoint saved (R297,
R420). -/
def Band.mapGangs (b : Band) (f : Gang → Gang) : Band :=
  { b with
    gangs := b.gangs.map f
    specs := b.specs.map fun x => { x with saved := f x.saved }
    pair := b.pair.map fun p => { p with snapshot := { p.snapshot with gangs := p.snapshot.gangs.map f } } }

/-- The part of a gang that begins with a slice. -/
def partOf (g : Gang) (first : Nat) : Option Part := g.parts.find? fun p => p.slices.head? == some first

def modPartG (g : Gang) (first : Nat) (f : Part → Part) : Gang :=
  { g with parts := g.parts.map fun p => if p.slices.head? = some first then f p else p }

def State.modPart (s : State) (p : PartId) (f : Part → Part) : State :=
  s.modGang p.band p.gang fun g => modPartG g p.part f

def modSlicesG (g : Gang) (sl : List Nat) (f : Slice → Slice) : Gang :=
  { g with slices := g.slices.mapIdx fun i x => if sl.contains i then f x else x }

def modNodeB (b : Band) (serial : Nat) (f : Node → Node) : Band :=
  { b with nodes := b.nodes.map fun n => if n.serial = serial then f n else n }
def State.modNode (s : State) (band serial : Nat) (f : Node → Node) : State := s.modBand band fun b => modNodeB b serial f

def nodeOf (b : Band) (serial : Nat) : Option Node := b.nodes.find? (·.serial == serial)

/-- The records an issuing part belongs to. -/
structure Run where
  id   : PartId
  band : Band
  gang : Gang
  part : Part
  kern : Kernel
  ctx  : Context
  core : Nat
  /-- The gang acts through one of its nodes (R181). -/
  node : Bool := false
deriving DecidableEq, Repr

/-- The records of a part; none where one is missing. The core of a band that is evicted as a whole is given as 0
and is not used. -/
def State.run (s : State) (p : PartId) : Option Run :=
  match s.band p.band with
  | none => none
  | some b =>
    match b.gangs[p.gang]?, s.kernel b.kernel with
    | some g, some k =>
      match partOf g p.part, s.context k.context with
      | some q, some x =>
        some { id := p, band := b, gang := g, part := q, kern := k, ctx := x, core := b.core.getD 0 }
      | _, _ => none
    | _, _ => none

/-- The run of the same part after a change of the state; the old records where the part is gone. -/
def Run.again (r : Run) (s : State) : Run := (s.run r.id).getD r

/-- A part of no slice. -/
def Part.empty : Part where
  slices := []
  hist := []
  histBad := []
  wait := .ready
  granted := false
  forwarded := none
  la := 0
  waitCount := 0
  starving := none
  claims := []
  stepping := 0
  handling := none

/-- A gang as the agent of its nodes: its first part, or an empty one where it has exited. A speculative fence of
the gang does not hold its nodes, and they do not see the stores that it holds (R285, R297). -/
def gangRun (s : State) (uid gang : Nat) : Option Run :=
  match s.band uid with
  | none => none
  | some b => match b.gangs[gang]?, s.kernel b.kernel with
    | some g, some k => match s.context k.context with
      | some x =>
        let p := g.parts.headD Part.empty
        let id : PartId := { band := uid, gang := gang, part := p.slices.headD 0 }
        some { id := id, band := { b with specs := [] }, gang := g, part := { p with mul := none }, kern := k, ctx := x, core := b.core.getD 0
               node := true }
      | none => none
    | _, _ => none

/-- The part's slice that leads it. -/
def Run.slice (r : Run) : Slice :=
  r.gang.slices.getD r.id.part { live := false, pc := 0, k := [], e := [], frec := [], cap := none, log := none }

/-- The gang is parted when it has more than one part (R53). -/
def Gang.parted (g : Gang) : Bool := decide (1 < g.parts.length)

/-- Lanes of a set of slices (R51). -/
def lanesOf (sl : List Nat) (l : Nat) : Bool := sl.contains (l / 3)

/-- Whether the part runs a capsule body (R357). -/
def Run.body (r : Run) : Bool := match r.slice.cap with
  | some c => c.running
  | none => false

/-- Whether indices 1,536 to 1,544 name k0 to k8 (R74). -/
def Run.capsule (r : Run) : Bool := r.slice.cap.isSome

/-- The program counter of the part's next instruction: in a capsule body, the position's (R362). -/
def Run.pc (r : Run) : Word := match r.slice.cap with
  | some c => if c.running then wrap 27 (c.body + 9 * c.position) else r.slice.pc
  | none => r.slice.pc

def Run.modBand (r : Run) (s : State) (f : Band → Band) : State := s.modBand r.id.band f
def Run.modGang (r : Run) (s : State) (f : Gang → Gang) : State := s.modGang r.id.band r.id.gang f
def Run.modPart (r : Run) (s : State) (f : Part → Part) : State := s.modPart r.id f
def Run.modSlices (r : Run) (s : State) (f : Slice → Slice) : State :=
  r.modGang s fun g => modSlicesG g r.part.slices f

/-- Coordinate of band b at a user level, levels counted from 2 (R43). -/
def coordOf (levels : List Level) (i b : Nat) : Nat :=
  let p := ((levels.take i).map (·.extent)).foldl (· * ·) 1
  b / p % ((levels.getD i { extent := 1, domain := 0 }).extent)

/-- B, the number of bands (R43). -/
def Launch.bands (l : Launch) : Nat := (l.levels.map (·.extent)).foldl (· * ·) 1

/-- Bands of the grid that a device holds: all of it; where the outermost level is bound to the system domain, those
from the band base on but for what the devices after it hold (R45, R47; log 66). -/
def ownBands (l : Launch) : Nat :=
  if (l.levels.getLast?.map (·.domain)) = some 2 then
    ((l.bands : Int) - l.bandBase).toNat - Config.laterBands l.bands l.bandBase.toNat
  else ((l.bands : Int) - l.bandBase).toNat

/-- The group of a band at level a: bands with one quotient by the product of the extents of levels 2 to a (R43,
R346). Level 1 is the band itself. -/
def groupOf (l : Launch) (a b : Nat) : Nat := b / ((l.levels.take (a - 1)).map (·.extent)).foldl (· * ·) 1

end Sys2Proof.Machine
end

