-- ==== Sys2Proof/Machine/Memory.lean ====
section
/-! DEFINITION. Device memory and its sectors (R30 to R40), the page walk (R155, R156, R373 to R377), the nine
regions (R150 to R154), band versions (R301, R302), and one access as the home or the scratchpad performs it. -/

namespace Sys2Proof.Machine

/-! ### Bytes, nonets and sectors -/

/-- The canonical form of memory: addresses strictly rising and no byte equal to what an unlisted one reads as, 0
(R452). -/
def Memory.wf : List Host.Cell → Bool
  | [] => true
  | [(_, v)] => v != 0
  | (a, v) :: (b, w) :: m => decide (a < b) && v != 0 && Memory.wf ((b, w) :: m)

def memByte (m : List Host.Cell) (a : Nat) : BitVec 8 := smapGet 0 m a
def memPut (m : List Host.Cell) (a : Nat) (v : BitVec 8) : List Host.Cell := smapSet 0 m a v

/-- The halfword at nonet j, little-endian (R30). -/
def memHalf (m : List Host.Cell) (j : Nat) : Nat := (memByte m (2 * j)).toNat + 256 * (memByte m (2 * j + 1)).toNat

def memPutHalf (m : List Host.Cell) (j h : Nat) : List Host.Cell :=
  memPut (memPut m (2 * j) (BitVec.ofNat 8 h)) (2 * j + 1) (BitVec.ofNat 8 (h / 256))

/-- The value of nonet j (R30). -/
def memNonet (m : List Host.Cell) (j : Nat) : Int := ofHalfword (memHalf m j)
def memPutNonet (m : List Host.Cell) (j : Nat) (v : Int) : List Host.Cell := memPutHalf m j (halfword v)

def sectorOf (j : Nat) : Nat := j / 27
def lineOf (j : Nat) : Nat := j / 243

/-- The home slice of a device nonet's line (R160). -/
def homeOf (j : Nat) : Nat := Config.homeSlice (lineOf j) % Config.homes

/-- A sector after an exchange of two sectors of device memory. -/
def swapSector (x : Nat × Nat) (sec : Nat) : Nat :=
  let n := Config.controllers * Config.stackSectors
  if n ≤ x.1 ∨ n ≤ x.2 then sec else if sec = x.1 then x.2 else if sec = x.2 then x.1 else sec

/-- The place of a sector: its stack, times 2³⁰, and its address there. Every stack holds 2³⁰ sectors (R10, R16;
log 85, DESIGN CHOICE). -/
def stackPlace (sec : Nat) : Nat := Config.sectorSwaps.foldl (fun sec x => swapSector x sec) sec

/-- The controller, and so the stack, that holds a sector (R10, R16; log 85). -/
def controllerOf (sec : Nat) : Nat := stackPlace sec / Config.stackSectors

/-- The sector at an address of a controller's stack (R423). -/
def sectorAt (controller addr : Nat) : Nat :=
  Config.sectorSwaps.foldr swapSector (Config.stackSectors * controller + addr)

/-- A sector's scrub generation: it counts the writes of the sector, those that zeroed its frame among them (R38). -/
def State.gen (s : State) (sec : Nat) : Nat :=
  (smapGet 0 s.gens sec + (s.zeroed.filter fun z => decide (z.1 ≤ sec) && decide (sec < z.1 + z.2)).length) % 8192

/-- The word that holds a nonet, as a place: its nonet's number by 3 (R407). -/
def wordPlace : Place → Place
  | .dev j => .dev (j / 3)
  | .scr u n _ => .scr u (n / 3) false
  | p => p

/-- The altered trits that a write leaves: words that it covers whole take its value (R407). -/
def flipsAfter (s : State) (ps : List Place) : List (Place × Nat) :=
  if s.flips.isEmpty then [] else s.flips.filter fun x => (ps.filter fun p => wordPlace p == x.1).length < 3

/-- The plane of a device line (R286). -/
def planeOf (s : State) (j : Nat) : Nat :=
  let n := field ((j : Int) - 1093) 5 22
  let h := field n 0 4 + field n 4 4 + field n 8 4 + field n 12 4 + field n 16 4 + field n 20 2
  s.planeMap.getD (h % 81).toNat 0

/-- The UCIe module of a compute die on a plane: 9 to a die, by plane (log 19). -/
def moduleOf (die plane : Nat) : Nat := 9 * die + plane

/-- A go-back replay at a module (R409, R410). -/
def replayFlit (s : State) (module : Nat) : State :=
  s.modUci module fun x => { x with replays := satCount (x.replays + 1), inPeriod := x.inPeriod + 1 }

/-- Poisons a sector of base memory; a new origin counts at its home slice (R408). -/
def poisonSector (s : State) (sec : Nat) (origin : Bool) : State :=
  if s.poison.contains sec then s
  else
    let s := { s with poison := setAdd s.poison sec }
    if origin then s.modHome (homeOf (27 * sec)) fun h => { h with poisoned := satCount (h.poisoned + 1) } else s

/-- A write to sectors advances the scrub generation of each once (R38). -/
def advanceGens (s : State) (secs : List Nat) : State :=
  { s with gens := secs.foldl (fun g sec => smapSet 0 g sec ((smapGet 0 g sec + 1) % 8192)) s.gens }

/-- Lines that a version holds. -/
def versionLines (b : Band) : List Nat :=
  toSet ((b.version.map fun w => lineOf w.1) ++ b.verPoison.map (· / 9))

def holdsLine (b : Band) (line : Nat) : Bool :=
  b.version.any (fun w => lineOf w.1 == line) || b.verPoison.any (fun sec => sec / 9 == line)

/-- The version state of the tags that a write of base values gives its sectors: 01 under a live version of the line,
else 00 (R38). -/
def tagWrite (s : State) (secs : List Nat) : List Nat :=
  toSet (s.verTags.filter (fun sec => !secs.contains sec)
    ++ secs.filter fun sec => s.bands.any fun b => holdsLine b (sec / 9))

/-- One write to base memory: the nonets change, each sector's scrub generation advances once (R38), and a sector
that a single write covers whole becomes unpoisoned (R34). -/
def writeBase (s : State) (ws : List (Nat × Int)) (single : Bool) : State :=
  let secs := toSet (ws.map fun w => sectorOf w.1)
  let whole (sec : Nat) : Bool := single && decide ((toSet ((ws.map (·.1)).filter fun j => sectorOf j == sec)).length = 27)
  { advanceGens s secs with
    mem := ws.foldl (fun m w => memPutNonet m w.1 w.2) s.mem
    flips := flipsAfter s (ws.map fun w => .dev w.1)
    verTags := if s.verTags.isEmpty && s.bands.all (fun b => b.version.isEmpty && b.verPoison.isEmpty) then []
      else tagWrite s secs
    poison := s.poison.filter fun sec => !(secs.contains sec && whole sec) }

/-- The poison of a write whose values `ws` base memory already holds; a sector that it poisons alone advances its
generation here (R34, R38). -/
def poisonAfter (s : State) (ws : List (Nat × Int)) (secs : List Nat) (origin : Bool) : State :=
  let only := secs.filter fun sec => !ws.any fun w => sectorOf w.1 == sec
  secs.foldl (fun s sec => poisonSector s sec origin) { advanceGens s only with verTags := tagWrite s only }

/-- A write of poison to sectors of base memory (R34, R38). -/
def poisonBase (s : State) (secs : List Nat) (origin : Bool) : State := poisonAfter s [] secs origin

/-- The 64 bytes of a sector in its stack (R37): payload, check code, tag. -/
def sectorBytes (s : State) (sec : Nat) : List (BitVec 8) :=
  let payload := (List.range 54).map fun i => memByte s.mem (54 * sec + i)
  let tag := (if s.poison.contains sec then 32768 else 0) + 4 * s.gen sec + if s.verTags.contains sec then 1 else 0
  let tagBytes := [BitVec.ofNat 8 tag, BitVec.ofNat 8 (tag / 256)]
  let check := (Config.sectorCheck (payload ++ tagBytes)).toNat
  payload ++ (List.range 8).map (fun i => BitVec.ofNat 8 (check / 256 ^ i)) ++ tagBytes

/-! ### Band versions -/

/-- The band whose version a band's accesses see: its own or, of a trailing copy, the leading copy's (R301, R421). -/
def versionOf (s : State) (b : Band) : Band :=
  match b.copy, b.pair with
  | .trailing, some p => (s.band p.mate).getD b
  | _, _ => b

/-- A word of a band's version line is read: one wrong trit is corrected and counted, more poison the line's sector in
the version (R407, R408, R411). -/
def correctVersionWord (s : State) (uid k : Nat) : State :=
  let n := (s.verFlips.filter fun x => x.1 == uid && x.2.1 == k).length
  if n = 0 then s
  else
    let s1 := { s with verFlips := s.verFlips.filter fun x => !(x.1 == uid && x.2.1 == k) }
    let sec := sectorOf (3 * k)
    if n = 1 then s1.modHome (homeOf (3 * k)) fun h => { h with corrected := satCount (h.corrected + 1) }
    else if (s.band uid).any fun b => b.verPoison.contains sec then s1
    else (s1.modHome (homeOf (3 * k)) fun h => { h with poisoned := satCount (h.poisoned + 1) }).modBand uid fun b =>
      { b with verPoison := setAdd b.verPoison sec, verClean := setDel b.verClean sec }

/-- Every wrong word of a band's version is met, as when the version is read to be committed. -/
def correctVersion (s : State) (uid : Nat) : State :=
  ((s.verFlips.filter (·.1 == uid)).map (·.2.1)).foldl (fun s k => correctVersionWord s uid k) s

/-- Commit of a band's version at every home (R302). After it the band is not relaunchable (R414). -/
def commitVersion (s : State) (uid : Nat) (forced : Bool) : State :=
  let s := correctVersion s uid
  match s.band uid with
  | none => s
  | some b =>
    let s0 := s.modBand uid fun b => { b with version := [], verPoison := [], verClean := [], committed := true }
    let s1 := if b.version.isEmpty then s0 else writeBase s0 (b.version.reverse.map fun w => (w.1, w.2.toInt)) false
    let only := b.verPoison.filter fun sec => !b.version.any fun w => sectorOf w.1 == sec
    let s3 := { advanceGens s1 only with
      verTags := if only.isEmpty then s1.verTags else tagWrite s1 only
      poison := toSet (s1.poison.filter (fun sec => !b.verClean.contains sec) ++ b.verPoison)
      codeOld := s1.codeOld.map fun u => if u.owner = some uid then { u with owner := none } else u }
    if forced then
      match s.kernel b.kernel with
      | none => s3
      | some k => s3.modContext k.context fun c => { c with forced := satCount (c.forced + 1) }
    else s3

/-- Before an access from outside a band to a line that its live version holds, the home forces its commit
(R302). `self` is the band that makes the access, to which its other copy is no outsider (R418, R421). -/
def forceForeign (s : State) (self : Option Nat) (lines : List Nat) : State :=
  let own (b : Band) : Bool := self.any fun u => b.uid == u
    || (s.band u).any fun a => a.copy != .unpaired && a.kernel == b.kernel && a.index == b.index
  let hit := s.bands.filter fun b => !own b && lines.any (holdsLine b)
  hit.foldl (fun s b => commitVersion s b.uid true) s

/-- Two lines have one home slice and one set of it (R15, R160). -/
def sameSet (l m : Nat) : Bool :=
  Config.homeSlice l % Config.homes == Config.homeSlice m % Config.homes
    && Config.homeSet l % Config.homeSets == Config.homeSet m % Config.homeSets

/-- The lines of bands' versions fill the nine version ways of a line's set (R15). -/
def waysFull (s : State) (line : Nat) : Bool :=
  let all := s.bands.flatMap versionLines
  decide (Config.versionWays ≤ all.length) && decide (Config.versionWays ≤ (all.filter (sameSet line)).length)

/-- A line enters a band's version with the values and the poison that one store gives it. From then on the tags of all
its sectors show version state 01: R38 has a base write-back record it, and the model, which shows no write-back of a
line, takes it to happen with the store (log 101, DESIGN CHOICE). -/
def holdLine (s : State) (uid line : Nat) (ws : List (Nat × Int)) (bad : List Nat) (single : Bool) : State :=
  let secs := toSet (ws.map fun w => sectorOf w.1)
  let whole (sec : Nat) : Bool :=
    single && decide ((toSet ((ws.map (·.1)).filter fun j => sectorOf j == sec)).length = 27)
  let clean := secs.filter whole
  let s2 := s.modBand uid fun b => { b with
    version := ws.foldl (fun m w => smapPut m w.1 (BitVec.ofInt 16 w.2)) b.version
    verPoison := toSet ((b.verPoison.filter fun sec => !clean.contains sec) ++ bad)
    verClean := toSet ((b.verClean ++ clean).filter fun sec => !bad.contains sec) }
  { s2 with
    verTags := toSet (s2.verTags ++ (List.range 9).map (9 * line + ·))
    verFlips := if s2.verFlips.isEmpty then []
      else s2.verFlips.filter fun x => !(x.1 == uid && decide (3 ≤ (ws.filter fun w => w.1 / 3 == x.2.1).length)) }

/-- What one store of a versioned band does to one line (R301). A version that cannot obtain a way for the line is
committed; where the other bands' lines still fill the ways, the write is performed in base memory (R160). -/
def writeLine (uid : Nat) (ws : List (Nat × Int)) (bad : List Nat) (single : Bool) (s : State) (line : Nat) : State :=
  let mine := ws.filter fun w => lineOf w.1 == line
  let spoilt := bad.filter fun sec => sec / 9 == line
  let full (s : State) : Bool := waysFull s line && !(s.band uid).any fun b => holdsLine b line
  let s1 := if full s then commitVersion s uid true else s
  if full s1 then poisonAfter (writeBase s1 mine single) mine spoilt false
  else holdLine s1 uid line mine spoilt single

/-- A write of a versioned band to device memory, which poisons the sectors `bad` (R301): its lines are written one
after another (log 101, DESIGN CHOICE). -/
def writeVersion (s : State) (uid : Nat) (ws : List (Nat × Int)) (bad : List Nat) (single : Bool) : State :=
  (toSet (ws.map (fun w => lineOf w.1) ++ bad.map (· / 9))).foldl (writeLine uid ws bad single) s

/-! ### Translation -/

/-- The word centred on a physical address, as its first device nonet (R156). -/
def physNonet (p : Int) : Option Nat :=
  let j := p + 1092
  if 0 ≤ j ∧ j + 2 < Config.deviceNonets then some j.toNat else none

/-- The word at a device nonet and the two after it, from base memory. -/
def devWord (s : State) (j : Nat) : Word := wordOf (memNonet s.mem j) (memNonet s.mem (j + 1)) (memNonet s.mem (j + 2))

/-- The three nonets of a word, with their device nonets. -/
def wordCells (j : Nat) (v : Word) : List (Nat × Int) := [(j, nonetOf v 0), (j + 1, nonetOf v 1), (j + 2, nonetOf v 2)]

/-- Frames a to b of small pages lie in a list of extents. -/
def covered : Nat → List (Nat × Nat) → Int → Int → Bool
  | 0, _, _, _ => false
  | fuel + 1, ext, a, b =>
    if b < a then true
    else match ext.find? fun e => decide ((e.1 : Int) ≤ a) && decide (a < e.1 + e.2) with
      | none => false
      | some e => covered fuel ext (e.1 + e.2) b

/-- A leaf found by a walk: its PTE and the first device nonet of the PTE's word, and the level (1 huge, 2 large,
3 small). -/
structure Leaf where
  pte   : Word
  slot  : Nat
  level : Nat
  frame : Int
  key   : Nat
  exec  : Bool
  loc   : Int
deriving DecidableEq, Repr

inductive WalkResult where
  | leaf (l : Leaf)
  /-- Translation sub-code of R375. -/
  | bad (sub : Int)
  /-- The entry lies in a poisoned sector (R373). -/
  | poisoned
deriving DecidableEq, Repr

/-- Trits of a page offset at a level: 7, 13 or 19 (R156). -/
def offsetTrits (level : Nat) : Nat := 7 + 6 * (3 - level)

/-- Half the number of frames of a page, rounded down: (3^m − 1)/2 with m = 0, 6 or 12. -/
def frameHalf (level : Nat) : Int := half (6 * (3 - level))

/-- A table entry, as PTE fields (R374). -/
def pteFrame (v : Word) : Int := field v 9 18
def pteKind (v : Word) : Int := trit v 4

/-- Fields that must be 0 in a table entry (R374, R375 sub-code 5). -/
def tableClean (v : Word) : Bool := field v 5 4 == 0 && field v 0 4 == 0

/-- Why a leaf's frames are not the context's to reach: beyond device memory, outside its pool, or outside its windows
(R371, R375). -/
def grantSub (c : Context) (level : Nat) (f loc : Int) (a : Word) : Option Int :=
  let h := frameHalf level
  if loc = 0 then
    if f - h < 0 ∨ f + h ≥ Config.frames then some (1 + level)
    else if covered 82 c.pool (f - h) (f + h) then none else some 6
  else
    let fr := trunc 7 (2187 * f + field a 0 (offsetTrits level))
    let inWin (f0 m : Nat) : Bool := decide ((f0 : Int) ≤ fr) && decide (fr < f0 + m)
    if loc = -1 then if c.hostWins.any (fun w => inWin w.2.frame w.2.count) then none else some 7
    else if c.peerWins.any (fun w => inWin w.2.frame w.2.count) then none else some 7

/-- The fields of a leaf entry (R374). -/
def leafOf (level slot : Nat) (v : Word) : Leaf :=
  { pte := v, slot := slot, level := level, frame := pteFrame v, key := (field v 5 4 + 40).toNat, exec := trit v 3 == 1,
    loc := trit v 0 }

/-- What a leaf at a level means, or its sub-code (R156, R373 to R375). -/
def leafResult (c : Context) (level slot : Nat) (v : Word) (a : Word) : WalkResult :=
  let f := pteFrame v
  let loc := trit v 0
  let bad : WalkResult := .bad (1 + level)
  if trit v 3 = -1 ∨ trit v 2 = -1 ∨ trit v 1 = -1 then bad
  else if level = 2 ∧ field f 0 6 ≠ 0 ∨ level = 1 ∧ field f 0 12 ≠ 0 then bad
  else
    match grantSub c level f loc a with
    | some sub => .bad sub
    | none => .leaf (leafOf level slot v)

/-- An entry of a table, read at its home; none where it does not lie in device memory. -/
def entryAt (p : Int) : Option Nat := physNonet p

/-- The word of a table entry reads as poison: its sector is poisoned, or its own trits cannot be corrected (R373,
R407). -/
def entryBad (s : State) (j : Nat) : Bool :=
  s.poison.contains (sectorOf j) || decide (2 ≤ (s.flips.filter (·.1 == .dev (j / 3))).length)

/-- The walk below the top table: `level` counts from 1, `f` is the table's frame (R155, R373; log 24, DEDUCED). A table
entry whose execute, accessed or written trit is −1 meets both R375's sub-codes for reserved trits and sub-code 5; it
raises 5 (log 102, DESIGN CHOICE). -/
def walkFrom (s : State) (c : Context) (a : Word) : Nat → Nat → Int → WalkResult
  | 0, _, _ => .bad 4
  | fuel + 1, level, f =>
    let idx := field a (25 - 6 * level) 6 + 364
    match entryAt (2187 * f + 3 * (idx - 364)) with
    | none => .bad (1 + level)
    | some j =>
      if entryBad s j then .poisoned
      else
        let v := devWord s j
        let k := pteKind v
        if k = -1 then .bad (1 + level)
        else if k = 1 then leafResult c level j v a
        else if level = 3 then .bad 4
        else if !tableClean v ∨ covered 82 c.pool (pteFrame v) (pteFrame v) then .bad 5
        else walkFrom s c a fuel (level + 1) (pteFrame v)

/-- The walk of an address in regions 0 to +4 (R155, R373). -/
def walk (s : State) (c : Context) (a : Word) : WalkResult :=
  let r := field a 25 2
  match entryAt (c.topTable - 12 + 3 * r) with
  | none => .bad 1
  | some j =>
    if entryBad s j then .poisoned
    else
      let v := devWord s j
      if pteKind v ≠ 0 then .bad 1
      else if !tableClean v ∨ covered 82 c.pool (pteFrame v) (pteFrame v) then .bad 5
      else walkFrom s c a 3 1 (pteFrame v)

/-- The entries that a walk below the top table reads, as their device nonets. -/
def entriesFrom (s : State) (a : Word) : Nat → Nat → Int → List Nat
  | 0, _, _ => []
  | fuel + 1, level, f =>
    match entryAt (2187 * f + 3 * field a (25 - 6 * level) 6) with
    | none => []
    | some j =>
      if entryBad s j ∨ pteKind (devWord s j) ≠ 0 then [j] else j :: entriesFrom s a fuel (level + 1) (pteFrame (devWord s j))

/-- The entries that the walk of an address reads. -/
def walkEntries (s : State) (c : Context) (a : Word) : List Nat :=
  match entryAt (c.topTable - 12 + 3 * field a 25 2) with
  | none => []
  | some j =>
    if field a 25 2 < 0 then []
    else if entryBad s j ∨ pteKind (devWord s j) ≠ 0 then [j] else j :: entriesFrom s a 3 1 (pteFrame (devWord s j))

/-- Where an address lies through a leaf (R156, R438). -/
def leafPlace (c : Context) (l : Leaf) (a : Word) : Place :=
  let p := 2187 * l.frame + field a 0 (offsetTrits l.level)
  let fr := trunc 7 p
  if l.loc = 0 then .dev (p + 1093).toNat
  else if l.loc = -1 then
    match c.hostWins.find? fun w => decide ((w.2.frame : Int) ≤ fr) && decide (fr < w.2.frame + w.2.count) with
    | some w => .host ((w.2.base : Int) / 2 + (p - 2187 * w.2.frame + 1093)).toNat
    | none => .host 0
  else
    match c.peerWins.find? fun w => decide ((w.2.frame : Int) ≤ fr) && decide (fr < w.2.frame + w.2.count) with
    | some w => .peer w.2.port ((w.2.base : Int) + (p - 2187 * w.2.frame + 1093)).toNat w.2.base
    | none => .peer 0 0 0

/-- The first nonet of the aligned unit of k nonets that holds a nonet of translated memory: k is 9, 27 or 243. Lines,
sectors and instructions are units of the physical address, so those of a window lie at multiples of k from where it
begins; a host window begins at a multiple of 2,187 nonets (R25, R156, R438). -/
def unitStart (k : Nat) : Place → Place
  | .dev j => .dev (k * (j / k))
  | .host n => .host (k * (n / k))
  | .peer q n b => .peer q (b + k * ((n - b) / k)) b
  | p => p

/-- The nonet i places after a nonet. -/
def Place.plus (i : Nat) : Place → Place
  | .dev j => .dev (j + i)
  | .host n => .host (n + i)
  | .peer q n b => .peer q (n + i) b
  | .scr u n far => .scr u (n + i) far

/-- A nonet through whichever region or window it is reached. -/
def Place.near : Place → Place
  | .scr u n _ => .scr u n false
  | .peer q n _ => .peer q n 0
  | p => p

/-- The number of a nonet in its memory. -/
def Place.nonet : Place → Nat
  | .dev j => j
  | .host n => n
  | .peer _ n _ => n
  | .scr _ n _ => n

/-- A place lies among the k nonets from a start on. -/
def Place.within (k : Nat) (start p : Place) : Bool :=
  start.plus (p.nonet - start.nonet) == p && decide (start.nonet ≤ p.nonet) && decide (p.nonet < start.nonet + k)

/-- The number of the instruction line that holds an address of a leaf's page: the physical line, and its location
(R156, R317). -/
def leafLine (l : Leaf) (a : Word) : Nat :=
  let p := 2187 * l.frame + field a 0 (offsetTrits l.level)
  3 * ((p + 1093 + 243 * 3 ^ 20).toNat / 243) + (l.loc + 1).toNat

/-- Sets the accessed or the written trit of a leaf's PTE, as one read-modify-write that changes that trit alone
(R376). -/
def setPteTrit (s : State) (slot i : Nat) : State :=
  let v := devWord s slot
  if trit v i = 1 then s else writeBase s (wordCells slot (setField v i 1 1)) false

/-- The entry that holds the leaf which the walk of an address finds. -/
def walkSlot (s : State) (c : Context) (a : Word) : Option Nat :=
  if field a 25 2 < 0 then none
  else match walk s c a with
    | .leaf l => some l.slot
    | _ => none

def touchSlot (s : State) (slot : Option Nat) : State :=
  match slot with
  | some j => setPteTrit s j 2
  | none => s

/-- A walk that finds a leaf sets its accessed trit, also where the access then fails a check (R376). -/
def touchWalk (s : State) (c : Context) (a : Word) : State := touchSlot s (walkSlot s c a)

/-! ### Regions and permissions -/

/-- What an access is, for the checks of R154, R168 and R377. -/
inductive AccKind where
  | read | write | atomic
  /-- PARK's read and WAKE's write: translated device memory alone. -/
  | park | wake
  /-- CAP.ENTER's record and slot (R356). -/
  | capsule
  /-- EINJ's targets (R431). -/
  | einjStore | einjLoad
  | fetch
deriving DecidableEq, Repr

def AccKind.writes : AccKind → Bool
  | .write | .atomic | .wake | .capsule | .einjStore => true
  | _ => false

/-- The agent of an access: its band's records. -/
structure Who where
  band : Band
  gang : Nat
  kern : Kernel
  ctx  : Context
  /-- The access is one of a node of the gang, not of the gang's own instructions. -/
  node : Bool := false
deriving DecidableEq, Repr

/-- A gang as an agent; it stays one when the part that sent an access has gone (R55, R139). -/
def State.who (s : State) (uid gang : Nat) : Option Who :=
  (s.band uid).bind fun b => (s.kernel b.kernel).bind fun k => (s.context k.context).map fun c =>
    { band := b, gang := gang, kern := k, ctx := c }

def Run.who (r : Run) : Who := { band := r.band, gang := r.id.gang, kern := r.kern, ctx := r.ctx, node := r.node }

/-- Lowest address of region i (R150). -/
def regionLow (i : Int) : Int := 847288609443 * i - 423644304721

/-- The permission of a key (R377). -/
def permOf (c : Context) (k : Nat) : Int := smapGet 1 c.perms k

/-- The grid index of a band (R47). -/
def gridIndex (k : Kernel) (b : Nat) : Nat := (k.launch.bandBase + b).toNat

/-- The band of a copy at a user level-2 coordinate of the issuing band's level-2 group (R152, R418). -/
def memberIndex (k : Kernel) (b : Band) (m : Nat) : Nat :=
  let e := (k.launch.levels.getD 0 { extent := 1, domain := 0 }).extent
  b.index - coordOf k.launch.levels 0 (gridIndex k b.index) % e + m

/-- Whether a band of a kernel has ended (R152). -/
def bandEnded (k : Kernel) (index : Nat) (copy : Copy) : Bool :=
  k.ended.contains (index, copy == .trailing)

inductive Resolved where
  | ok (p : Place) (leaf : Option Leaf)
  /-- Trap code and sub-code. -/
  | trap (code sub : Int)
  /-- The target band of a region −3 access is not resident; its kernel's band index. -/
  | absent (index : Nat)
  | poisoned
deriving DecidableEq, Repr

/-- Permission and location checks of an address whose leaf is known; `free` leaves the key's permission aside,
for region −2 (R153). -/
def checkLeaf (w : Who) (kind : AccKind) (free : Bool) (l : Leaf) (a : Word) : Resolved :=
    let p := permOf w.ctx l.key
    if kind = .atomic ∧ l.loc = -1 then .trap 4 7
    else if kind = .capsule ∧ l.loc = -1 then .trap 4 7
    else if (kind = .park ∨ kind = .wake ∨ kind = .capsule) ∧ l.loc ≠ 0 then .trap 4 8
    else if (kind = .einjStore ∨ kind = .einjLoad) ∧ l.loc ≠ 0 then .trap 4 10
    else if free then .ok (leafPlace w.ctx l a) (some l)
    else if kind = .fetch then
      if l.exec ∧ p ≠ -1 then .ok (leafPlace w.ctx l a) (some l) else .trap 6 3
    else if kind.writes then
      if p = 1 then .ok (leafPlace w.ctx l a) (some l) else .trap 6 2
    else if p ≠ -1 then .ok (leafPlace w.ctx l a) (some l) else .trap 6 1

/-- Translation and permission of an address in regions 0 to +4, with the location checks of the access kind. -/
def resolveTranslated (s : State) (w : Who) (kind : AccKind) (free : Bool) (a : Word) : Resolved :=
  match walk s w.ctx a with
  | .bad sub => .trap 5 sub
  | .poisoned => .poisoned
  | .leaf l => checkLeaf w kind free l a

/-- Where one nonet's address lies for an access, or why it does not (R150 to R154, R168; log 30, DEDUCED)
(log 40, DEDUCED). -/
def resolve (s : State) (w : Who) (kind : AccKind) (a : Word) : Resolved :=
  let r := field a 25 2
  let o := (a - regionLow r).toNat
  let launch := w.kern.launch
  if r ≥ 0 then resolveTranslated s w kind false a
  else if kind = .fetch then .trap 4 11
  else if r = -1 then .trap 4 1
  else if kind = .park ∨ kind = .wake ∨ kind = .capsule then .trap 4 8
  else if (kind = .einjStore ∨ kind = .einjLoad) ∧ r ≠ -4 then .trap 4 10
  else if r = -4 then
    if o < launch.scratch then .ok (.scr w.band.uid o false) none else .trap 4 2
  else if r = -2 then
    if kind.writes then .trap 4 6
    else if launch.paramLen ≤ o then .trap 4 5
    else
      let t := wrap 27 (launch.paramAddr + o)
      if field t 25 2 ≥ 0 then resolveTranslated s w .read true t else .trap 5 1
  else
    let m := o / 531441
    let i := o % 531441
    let lv := launch.levels.getD 0 { extent := 0, domain := 0 }
    if launch.levels.isEmpty ∨ lv.domain ≠ -1 ∨ lv.extent ≤ m then .trap 4 3
    else if launch.scratch ≤ i then .trap 4 2
    else if w.band.copy ≠ .unpaired ∧ kind.writes then .trap 4 9
    else
      let idx := memberIndex w.kern w.band m
      if idx = w.band.index then .ok (.scr w.band.uid i true) none
      else if bandEnded w.kern idx w.band.copy then .trap 4 4
      else match s.bands.find? fun b => b.kernel == w.kern.uid && b.index == idx && b.copy == w.band.copy with
        | some b => if b.core.isSome then .ok (.scr b.uid i true) none else .absent idx
        | none => .absent idx

/-! ### One access -/

/-- The port through which host pages are reached: the lowest-numbered one that faces the host (log 23, DESIGN
CHOICE). -/
def hostPort (s : State) : Nat :=
  ((List.range Config.ports).find? fun i => (s.port i).role == .host).getD 0

/-- Stores of the gang or its band that are not yet performed and that its loads see: those held by a speculative
fence, which reach no node before it completes, then those held by a paired copy (R285, R297, R418). The latest is
first. -/
def heldCells (w : Who) : List (Place × Int) :=
  let specs := if w.node then []
    else (w.band.specs.filter (·.gang == w.gang)).flatMap fun x => x.held.flatMap (·.nonets)
  let pair := match w.band.pair with
    | some p => p.held.flatMap (·.nonets)
    | none => []
  ((pair ++ specs).map fun x => (x.1.near, x.2)).reverse

/-- Value of a nonet as an agent reads it (R285, R301; log 5, DESIGN CHOICE). -/
def peek (s : State) (w : Who) (p : Place) : Int :=
  let b := (s.band w.band.uid).getD w.band
  match (heldCells { w with band := b }).lookup p.near with
  | some v => v
  | none =>
  match p with
  | .dev j => match smapFind (versionOf s b).version j with
    | some v => v.toInt
    | none => memNonet s.mem j
  | .host n => memNonet s.hostMem n
  | .peer port n _ => memNonet (smapGet [] s.peerMem port) n
  | .scr uid n _ => match s.band uid with
    | some t => smapGet 0 t.scratch n
    | none => 0

/-- Whether a nonet reads as poison (R33, R34, R410, R411). -/
def isPoison (s : State) (w : Who) (p : Place) : Bool :=
  let b := versionOf s ((s.band w.band.uid).getD w.band)
  match p with
  | .dev j =>
    let sec := sectorOf j
    b.verPoison.contains sec || (s.poison.contains sec && !b.verClean.contains sec)
  | .host n => !(s.port (hostPort s)).up || (nonetOfHalfword (memHalf s.hostMem n)).isNone
  | .peer port n _ => !(s.port port).up || (nonetOfHalfword (memHalf (smapGet [] s.peerMem port) n)).isNone
  | .scr uid n _ => match s.band uid with
    | some t => t.scrPoison.contains (n / 3)
    | none => false

/-- The poison of a nonet lies in base memory, and is not confined to the band's version (R415). -/
def poisonInBase (s : State) (w : Who) (p : Place) : Bool :=
  match p with
  | .dev j => s.poison.contains (sectorOf j) &&
      !((versionOf s ((s.band w.band.uid).getD w.band)).verClean.contains (sectorOf j))
  | .host _ | .peer _ _ _ => true
  | .scr _ _ _ => false

def devLines (ps : List Place) : List Nat :=
  toSet (ps.filterMap fun p => match p with | .dev j => some (lineOf j) | _ => none)

/-- A word with one wrong trit is corrected and counted; one with two is poisoned and counted, unless it is poisoned
already (R407, R408). -/
def correctWord (s : State) (p : Place) : State :=
  let n := (s.flips.filter (·.1 == p)).length
  if n = 0 then s
  else
    let s1 := { s with flips := s.flips.filter (·.1 != p) }
    match p with
    | .dev k =>
      if n = 1 then s1.modHome (homeOf (3 * k)) fun h => { h with corrected := satCount (h.corrected + 1) }
      else poisonSector s1 (sectorOf (3 * k)) true
    | .scr u k _ => match (s.band u).bind (·.core) with
      | some c =>
        if n = 1 then s1.modCore c fun x => { x with corrected := satCount (x.corrected + 1) }
        else if (s.band u).any fun b => b.scrPoison.contains k then s1
        else (s1.modCore c fun x => { x with poisoned := satCount (x.poisoned + 1) }).modBand u fun b =>
          { b with scrPoison := setAdd b.scrPoison k }
      | none => s1
    | _ => s1

/-- A word is read: a band's own access to a line of its version reads the version line, and base memory for what the
version does not hold (R301, R407). -/
def correctRead (owner : Option Band) (s : State) (p : Place) : State :=
  match owner, p with
  | some b, .dev k =>
    let s1 := correctVersionWord s b.uid k
    if (List.range 3).all fun i => (smapFind b.version (3 * k + i)).isSome then s1 else correctWord s1 p
  | _, _ => correctWord s p

/-- The words that an access reads are corrected in the same access (R407). -/
def correctWords (s : State) (owner : Option Band) (ps : List Place) : State :=
  if s.flips.isEmpty && s.verFlips.isEmpty then s
  else ps.foldl (fun s p => correctRead owner s (wordPlace p)) s

/-- The words of a range of a scratchpad that an engine reads are corrected (R407). -/
def correctScratch (s : State) (uid lo n : Nat) : State :=
  (s.flips.map (·.1)).foldl (fun s p => match p with
    | .scr u k _ => if u = uid ∧ lo < 3 * k + 3 ∧ 3 * k < lo + n then correctWord s p else s
    | _ => s) s

/-- An access to device nonets from outside every band: versions that hold their lines commit, and the words that it
reads are corrected (R302, R407). -/
def openWords (s : State) (js : List Nat) : State :=
  correctWords (forceForeign s none (toSet (js.map lineOf))) none (js.map Place.dev)

/-- The entries that the walks of some addresses read are corrected (R155, R407). -/
def correctWalks (s : State) (c : Context) (as : List Word) : State :=
  if s.flips.isEmpty then s
  else correctWords s none ((as.flatMap (walkEntries s c)).map Place.dev)

/-- Nonets of words that a write covers only in part, whose other nonets it reads. -/
def partialPlaces (ps : List Place) : List Place :=
  ps.filter fun p => decide ((ps.filter fun q => wordPlace q == wordPlace p).length < 3)

/-- The port that a nonet of a host or peer page lies behind. -/
def portOf (s : State) : Place → Option Nat
  | .host _ => some (hostPort s)
  | .peer q _ _ => some q
  | _ => none

/-- The home slice of a line of a host or peer page (R160). -/
def portHome (port : Nat) (line : Place) : Nat := Config.portSlice port line.nonet % Config.homes

/-- A host or peer answers a read of some nonets, each of which one request asks for (R161): an out-of-range code that
is not poison raises the port's ingress-error count (R33), and a link that is down makes each sector newly poisoned,
which its home counts (R408, R410). -/
def countIngress (s : State) (ps : List Place) : State :=
  let out := distinct (ps.filter fun p => match p with | .host _ | .peer _ _ _ => true | _ => false)
  let bad (p : Place) : Bool :=
    let h := match p with
      | .host n => memHalf s.hostMem n
      | .peer q n _ => memHalf (smapGet [] s.peerMem q) n
      | _ => 0
    (nonetOfHalfword h).isNone && h != poisonCode
  let up (p : Place) : Bool := (portOf s p).any fun q => (s.port q).up
  let s1 := (out.filter fun p => up p && bad p).foldl (fun s p => match portOf s p with
    | some q => s.modPort q fun x => { x with ingress := satCount (x.ingress + 1) }
    | none => s) s
  (distinct ((out.filter fun p => !up p).map (unitStart 27))).foldl (fun s p => match portOf s p with
    | some q => s.modHome (portHome q (unitStart 243 p)) fun h => { h with poisoned := satCount (h.poisoned + 1) }
    | none => s) s1

/-- A flit that EINJ.LINK has marked, the next that carries a request of the gang to a home, fails its CRC and is
replayed (R409, R431). -/
def linkFault (s : State) (w : Who) (ps : List Place) : State :=
  if s.linkFails.isEmpty then s
  else ps.foldl (fun s p => match p with
    | .dev j =>
      let key := (w.band.uid, w.gang, homeOf j)
      if s.linkFails.contains key then
        replayFlit { s with linkFails := s.linkFails.filter (· != key) } (moduleOf (dieOf (w.band.core.getD 0)) (planeOf s j))
      else s
    | _ => s) s

/-- What happens before an access of a band, which `reads`, `writes` or both: versions of other bands that hold a line
of it commit (R302); a band whose scratchpad another band reads settles, and a band that writes another's settles
(R414). -/
def prepare (s : State) (w : Who) (ps : List Place) (reads writes : Bool) : State :=
  let s0 := forceForeign (linkFault s w ps) (some w.band.uid) (devLines ps)
  let s1 := correctWords s0 (some (versionOf s0 ((s0.band w.band.uid).getD w.band))) (if reads then ps else partialPlaces ps)
  let others := toSet (ps.filterMap fun p => match p with
    | .scr uid _ _ => if uid = w.band.uid then none else some uid
    | _ => none)
  if others.isEmpty then s1
  else
    let s2 := if writes then s1.modBand w.band.uid fun b => { b with settled := true } else s1
    if reads then others.foldl (fun s uid => s.modBand uid fun b => { b with settled := true }) s2 else s2

/-- The homes of the device lines of an access that a core's die has made, and that is performed at once, keep their
responses, each with what was returned from its line. Such an access holds no miss-status entry (R424; log 106, DESIGN
CHOICE). -/
def respond (s : State) (core issue : Nat) (xs : List (Place × List Int)) : State :=
  (devLines (xs.map (·.1))).zipIdx.foldl (fun s l =>
    let value := xs.flatMap fun x => match x.1 with
      | .dev j => if lineOf j = l.1 then x.2 else []
      | _ => []
    retainReceived s (homeOf (243 * l.1)) (planeOf s (243 * l.1)) (dieOf core)
      { tag := .core core 0 (100 * issue + l.2), value := value }) s

/-- The responses to an access of a band that is performed at once. -/
def respondTo (s : State) (w : Who) (ps : List Place) : State :=
  respond s (w.band.core.getD 0) s.free (ps.map fun p => (p, []))

/-- A band's read of some nonets is served where they lie (R33, R302, R407, R414). -/
def serveRead (s : State) (w : Who) (ps : List Place) : State := prepare (countIngress s ps) w ps true false

/-- A band's read of some nonets goes out, is served and is answered at once (R424). -/
def prepareRead (s : State) (w : Who) (ps : List Place) : State := respondTo (serveRead s w ps) w ps

/-- A write of scratchpad nonets; a word that one write covers loses its poison (R411). A paired copy's undo log
notes each sector's first write (R420). -/
def writeScratch (s : State) (uid : Nat) (ws : List (Nat × Int)) : State :=
  State.modBand { s with flips := flipsAfter s (ws.map fun w => .scr uid w.1 false) } uid fun b =>
    let ns := ws.map (·.1)
    let whole (k : Nat) : Bool := ns.contains (3 * k) && ns.contains (3 * k + 1) && ns.contains (3 * k + 2)
    { b with
      scratch := ws.foldl (fun m w => smapSet 0 m w.1 w.2) b.scratch
      scrPoison := b.scrPoison.filter fun k => !whole k
      pair := b.pair.map fun p => { p with
        undo := (ws.map fun w => (0, w.1 / 27)).foldl (fun u k => if u.contains k then u else u ++ [k]) p.undo } }

/-- A write to a nonet of a host page: the halfword in host memory, or nothing with the link down (R410; log 4, DESIGN
CHOICE). -/
def writeHost (s : State) (n : Nat) (v : Int) : State :=
  if (s.port (hostPort s)).up then { s with hostMem := memPutNonet s.hostMem n v } else s

def writePeer (s : State) (port n : Nat) (v : Int) : State :=
  if (s.port port).up then { s with peerMem := smapSet [] s.peerMem port (memPutNonet (smapGet [] s.peerMem port) n v) }
  else s

/-- Writes of one instruction through a port whose link is down are dropped, and each counts once: there is one to a
line (R161, R410). -/
def countDropped (s : State) (ps : List Place) : State :=
  let down := ps.filter fun p => (portOf s p).any fun q => !(s.port q).up
  (distinct (down.map (unitStart 243))).foldl (fun s p => match portOf s p with
    | some q => s.modPort q fun x => { x with ingress := satCount (x.ingress + 1) }
    | none => s) s

/-- Splits the writes by where they go. -/
def devWrites (ws : List (Place × Int)) : List (Nat × Int) :=
  ws.filterMap fun w => match w.1 with | .dev j => some (j, w.2) | _ => none

def scrWrites (uid : Nat) (ws : List (Place × Int)) : List (Nat × Int) :=
  ws.filterMap fun w => match w.1 with | .scr u n _ => if u = uid then some (n, w.2) else none | _ => none

def scrBands (ws : List (Place × Int)) : List Nat :=
  toSet (ws.filterMap fun w => match w.1 with | .scr u _ _ => some u | _ => none)

/-- A nonet of device memory in a band's version, or in base memory. -/
def verNonet (s : State) (uid j : Nat) : Int :=
  match (s.band uid).bind fun b => smapFind b.version j with
  | some v => v.toInt
  | none => memNonet s.mem j

/-- Nothing of a changed unit of code is given any more: it has been rewritten whole, and no core holds it. -/
def CodeUnit.gone (x : CodeUnit) : Bool := x.left.isEmpty && x.cores.isEmpty

/-- The cores whose instruction caches hold the line of a unit of code. -/
def codeHolders (s : State) (u : Place) : List Nat :=
  (s.cores.filter fun c => c.code.any fun y => y.start.within 243 u).map (·.number)

/-- A write of some nonets of a unit of code, before which its nonets are as `read` gives them: the unit keeps its old
instruction until it has been rewritten whole, and for the cores that hold its line until they lose it (R83, R316; log
9, DESIGN CHOICE). -/
def noteUnit (read : Place → Int) (owner : Option Nat) (ps : List Place) (s : State) (u : Place) : State :=
  let js := (List.range 9).filter fun i => ps.contains (u.plus i)
  let mine (x : CodeUnit) : Bool := x.unit == u && x.owner == owner && !x.left.isEmpty
  let fresh : CodeUnit :=
    { unit := u, owner := owner, old := (List.range 9).map fun i => read (u.plus i), left := List.range 9, cores := codeHolders s u }
  let xs := if s.codeOld.any mine then s.codeOld else s.codeOld ++ [fresh]
  let note (x : CodeUnit) : CodeUnit := if mine x then { x with left := x.left.filter fun i => !js.contains i } else x
  { s with codeOld := (xs.map note).filter fun x => !x.gone }

/-- The places through which a nonet may be fetched: none for a scratchpad's, and a peer's through every window of the
context that holds it (R438). -/
def asCode (c : Context) : Place → List Place
  | .scr _ _ _ => []
  | .peer q n _ => (c.peerWins.filter fun w => w.2.port == q && decide (w.2.base ≤ n) && decide (n < w.2.base + 2187 * w.2.count)).map
      fun w => .peer q n w.2.base
  | p => [p]

/-- Stores by a band to translated memory: until an ICINV names the line, a fetch of an instruction that they change
gives the old one as a whole, or the new one (R83, R315, R316; log 9, DESIGN CHOICE). -/
def noteCode (s : State) (w : Who) (owner : Option Nat) (ps : List Place) : State :=
  let ps := ps.flatMap (asCode w.ctx)
  (distinct (ps.map (unitStart 9))).foldl (noteUnit (peek s w) owner ps) s

/-- The instruction that a fetch of a unit on a core still gives a band, while writes to it await their ICINV (R316; log
9, DESIGN CHOICE). -/
def oldCode (s : State) (uid core : Nat) (u : Place) : Option (List Int) :=
  (s.codeOld.find? fun x => x.unit == u && (x.owner == none || x.owner == some uid)
    && (!x.left.isEmpty || x.cores.contains core)).map (·.old)

/-- Cores lose the lines of code that `named` names: what they held of them from before is given no more. -/
def dropLines (s : State) (lost : Nat → Bool) (named : Place → Bool) : State :=
  let lose (u : CodeUnit) : CodeUnit := if named u.unit then { u with cores := u.cores.filter fun c => !lost c } else u
  { s with
    cores := s.cores.map fun c => if lost c.number then { c with code := c.code.filter fun x => !named x.start } else c
    codeOld := (s.codeOld.map lose).filter fun u => !u.gone }

/-- A line enters a core's instruction cache of 243 lines; in a full one the line that was fetched first makes way, but
for those that the core's locks keep (R14, R317; log 9, DESIGN CHOICE). What writes have changed only in part is held
as it was. -/
def cacheLine (s : State) (core : Nat) (x : CodeLine) : State :=
  let c := s.core core
  if c.code.contains x then s
  else
    let kept (y : CodeLine) : Bool := (c.locks.take Config.lockableLines).any (·.2 == y.number)
    let s1 := if c.code.length < Config.codeCacheLines then s
      else match c.code.find? fun y => !kept y with
        | some y => dropLines s (· == core) fun p => y.start.within 243 p
        | none => s
    let s2 := s1.modCore core fun c => { c with code := c.code ++ [x] }
    { s2 with codeOld := s2.codeOld.map fun u =>
        if x.start.within 243 u.unit && !u.left.isEmpty then { u with cores := setAdd u.cores core } else u }

/-- A band's stores to device memory enter its version; a band of an unversioned launch never has one (R301). A
capsule's direct writes do not (R358). -/
def inVersion (s : State) (w : Who) (direct : Bool) : Bool :=
  (w.kern.launch.versioned || (s.band w.band.uid).any fun b => !b.version.isEmpty) && !direct

/-- A store is about to be performed: a store to a host or peer page commits the band's version first (R301), and a
direct write forces the commit of the versions that hold its lines (R358). -/
def prepareStore (s : State) (w : Who) (ps : List Place) (direct : Bool) : State :=
  let s1 := prepare s w ps false true
  let foreign := ps.any fun p => match p with | .host _ | .peer _ _ _ => true | _ => false
  let s2 := if foreign && w.kern.launch.versioned then commitVersion s1 w.band.uid false else s1
  if direct then forceForeign s2 none (devLines ps) else s2

/-- One write as the homes and scratchpads perform it; later writes of the list prevail. `single` says that the
writes to a sector are one write (R34). -/
def placeStore (s : State) (w : Who) (ws : List (Place × Int)) (single versioned : Bool) : State :=
  let dev := devWrites ws
  let s4 := if dev.isEmpty then s
    else if versioned then writeVersion s w.band.uid dev [] single else writeBase s dev single
  let s5 := (scrBands ws).foldl (fun s u => writeScratch s u (scrWrites u ws)) s4
  ws.foldl (fun s x => match x.1 with
    | .host n => writeHost s n x.2
    | .peer p n _ => writePeer s p n x.2
    | _ => s) (countDropped s5 (ws.map (·.1)))

/-- A store of a band: `direct` says that it is one of a capsule's direct writes, which commit the band's own version
first where it holds the line (R358). -/
def poke (s : State) (w : Who) (ws : List (Place × Int)) (single direct : Bool) : State :=
  let ps := ws.map (·.1)
  let versioned := inVersion s w direct
  let s1 := noteCode (prepareStore s w ps direct) w (if versioned then some w.band.uid else none) ps
  placeStore s1 w ws single versioned

/-- A store that was held: the code that it changes was noted when its instruction was executed, and in base memory it
becomes that of every band (R316). -/
def pokeHeld (s : State) (w : Who) (ws : List (Place × Int)) : State :=
  let versioned := inVersion s w false
  let s1 := placeStore (prepareStore s w (ws.map (·.1)) false) w ws true versioned
  if versioned then s1
  else { s1 with codeOld := s1.codeOld.map fun u => if u.owner = some w.band.uid then { u with owner := none } else u }

/-- A write of poison to device sectors by a band, in its version where it has one, which the copies of a pair share
(R191, R301, R411, R421). -/
def pokePoison (s : State) (w : Who) (secs : List Nat) (origin : Bool) : State :=
  let s1 := forceForeign s (some w.band.uid) (toSet (secs.map (· / 9)))
  match (s1.band w.band.uid).map (versionOf s1) with
  | some b =>
    if w.kern.launch.versioned || !b.version.isEmpty then
      let fresh := secs.filter fun sec => !(b.verPoison.contains sec || s1.poison.contains sec && !b.verClean.contains sec)
      let s2 := if origin then fresh.foldl (fun s sec => s.modHome (homeOf (27 * sec)) fun h =>
          { h with poisoned := satCount (h.poisoned + 1) }) s1 else s1
      writeVersion s2 b.uid [] secs false
    else poisonBase s1 secs origin
  | none => poisonBase s1 secs origin

end Sys2Proof.Machine
end

