-- ==== Sys2Proof/Machine/Ops.lean ====
section
/-! DEFINITION. The operations that every instruction shares: registers and lookahead claims (R65 to R75, R86),
exception counts (R216), committing and parting (R52, R53), stopping a kernel (R388), taking a trap (R381 to R385)
and returning from one (R386, R399). -/

namespace Sys2Proof.Machine

/-! ### Registers -/

/-- s0 reads as zero (R70). -/
def uget (g : Gang) (n : Nat) : Word := if n = 0 then 0 else smapGet 0 g.uregs n

/-- The lane at which the poison of a register's word is noted: a uniform and a mask register are one word, and a k
register one in each slice (R29, R65). -/
def wordLane (o : Opnd) (l : Nat) : Nat :=
  match o with
  | .uni _ | .mask _ => 0
  | .kreg _ => 3 * (l / 3)
  | _ => l

/-- The word of a register in which a lane lies is poisoned (R411). -/
def badWord (r : Run) (o : Opnd) (l : Nat) : Bool :=
  match o with
  | .hist n => r.part.histBad.contains (n, l)
  | _ => r.gang.bad.contains (o, wordLane o l)

/-- Words of a register that are written whole lose their poison (R411). -/
def unpoison (bad : List (Opnd × Nat)) (d : Opnd) (p : Nat → Bool) : List (Opnd × Nat) :=
  bad.filter fun x => !(x.1 == d && p x.2)

/-- A write to s0 is discarded (R70). -/
def uset (g : Gang) (n : Nat) (v : Word) : Gang :=
  if n = 0 then g
  else { g with uregs := smapSet 0 g.uregs n v, bad := unpoison g.bad (.uni n) fun _ => true }

def vget (g : Gang) (n : Nat) : Lanes := smapGet Lanes.zero g.vregs n
def vset (g : Gang) (n : Nat) (v : Lanes) : Gang := { g with vregs := smapSet Lanes.zero g.vregs n v }
def oget (g : Gang) (n : Nat) : Lanes := smapGet Lanes.zero g.oregs n
def oset (g : Gang) (n : Nat) (v : Lanes) : Gang := { g with oregs := smapSet Lanes.zero g.oregs n v }

/-- m0 reads as +1 in every lane (R71); lanes of no slice read 0 (R51). -/
def mget (g : Gang) (n : Nat) : Lanes :=
  if n = 0 then mkLanes fun l => if l < 3 * g.width then 1 else 0 else smapGet Lanes.zero g.masks n

/-- A write to m0 is discarded (R71). -/
def mset (g : Gang) (n : Nat) (v : Lanes) : Gang :=
  if n = 0 then g else { g with masks := smapSet Lanes.zero g.masks n v }

/-- k registers of each slice, lane by lane (R74). -/
def kLanes (g : Gang) (n : Nat) : Lanes :=
  mkLanes fun l => match g.slices[l / 3]? with
    | some x => if l / 3 < g.width then x.k.getD n 0 else 0
    | none => 0

/-- The value of a constant operand in an element type (R91; log 22, DEDUCED). -/
def constWord (ty : Ty) (v : Int) : Word :=
  match ty with
  | .t27 => v
  | .t9 => wordOf v v v
  | .f27 => (narrow fmt27 (.fin v 1)).1
  | .f9 => let x := (narrow fmt9 (.fin v 1)).1; wordOf x x x
  | .l3 => ofTrits ((List.replicate 9 (trits 3 v)).flatten)

/-- A register's value, lane by lane, with no claim taken into account; a constant in the type that the operand is read
in (log 22, DEDUCED). -/
def regLanes (r : Run) (ty : Ty) (o : Opnd) : Lanes :=
  match o with
  | .vec n => vget r.gang n
  | .opr n => oget r.gang n
  | .hist n => r.part.hist.getD n Lanes.zero
  | .kreg n => kLanes r.gang n
  | .uni n => List.replicate 27 (uget r.gang n)
  | .const v => List.replicate 27 (constWord ty v)
  | .mask n => mget r.gang n
  | .unused | .xreg _ => Lanes.zero

/-- The file an operand reads, for the choice of a stale read: operand positions of one instruction are apart, but the
last-result file is seen whole before a shift or whole after it (R69, R86). -/
def staleFile (pos : Nat) : Opnd → Nat
  | .hist _ => 9
  | _ => pos

/-- A read that claims cover returns each claimed old value or the present one (R86, log 10). -/
def stale (r : Run) (s : State) (pos : Nat) (o : Opnd) (now : Lanes) : Lanes :=
  (r.part.claims.filter fun c => c.reg == o).foldl
    (fun v c => if Config.staleRead s.free c.born (staleFile pos o) then c.old else v) now

/-- A source operand's lanes. -/
def readLanes (r : Run) (s : State) (ty : Ty) (pos : Nat) (o : Opnd) : Lanes := stale r s pos o (regLanes r ty o)

/-- A source operand's word in a uniform form: a k register gives the issuing slice's own. -/
def readWord (r : Run) (s : State) (pos : Nat) (o : Opnd) : Word :=
  match o with
  | .kreg n => r.slice.k.getD n 0
  | .const v => v
  | _ => lane (readLanes r s .t27 pos o) 0

/-- The lanes a predicate selects in the issuing part (R72, R73). -/
def activeLanes (r : Run) (s : State) (f : Fields) : Nat → Bool :=
  let m := stale r s 4 (.mask f.mask) (mget r.gang f.mask)
  fun l => lanesOf r.part.slices l && condHolds f.cond (lane m l)

/-- Lane mask as a word, as in e4. -/
def lanesWord (p : Nat → Bool) : Int := ofTrits ((List.range 27).map fun l => if p l then 1 else 0)

/-! ### Counts -/

def zeroCounts : Counts := { sat := 0, flush := 0, nan := 0 }

/-- Counts added under a tensor identifier (R216). -/
def countInto (m : SMap Counts) (tid : Nat) (e : Effects) : SMap Counts :=
  let c := smapGet zeroCounts m tid
  smapSet zeroCounts m tid { sat := c.sat + e.sat, flush := c.flush + e.flush, nan := c.nan + e.nan }

/-- What an instruction's results move (R198, R216 to R218): sticky saturation, the band's counts under a tensor
identifier, the context's invalid count, which each copy of a pair raises (log 95, DESIGN CHOICE). Under a speculative
fence the counts wait for it to complete (R297). -/
def applyEffects (r : Run) (s : State) (tid : Nat) (e : Effects) : State :=
  let s1 := if e.sticky then r.modGang s fun g => { g with sticky := 1, stickyNow := true } else s
  let counts : Bool := !(e.sat == 0 && e.flush == 0 && e.nan == 0)
  if r.band.specs.any (·.gang == r.id.gang) then
    r.modBand s1 fun b => { b with specs := b.specs.map fun x =>
      if x.gang = r.id.gang then
        { x with counts := if counts then countInto x.counts tid e else x.counts, invalid := x.invalid + e.invalid }
      else x }
  else
    let s2 := if counts then r.modBand s1 fun b => { b with counts := countInto b.counts tid e } else s1
    if e.invalid = 0 then s2
    else s2.modContext r.ctx.number fun c => { c with invalid := satCount (c.invalid + e.invalid) }

def tidOf (f : Fields) : Nat := (f.aux + 364).toNat

/-! ### Results of an instruction -/

/-- How an instruction's meaning ends. -/
inductive Result where
  /-- It commits, having written these registers, and the part continues at the next instruction. -/
  | commit (dests : List Opnd) (s : State)
  /-- It commits, and each slice continues where the list says. -/
  | branch (dests : List Opnd) (targets : List (Nat × Word)) (s : State)
  /-- A capsule body step, to be committed into the record (R358). -/
  | step (e : CapEffect) (s : State)
  | trap (t : TrapInfo) (s : State)
  | wait (w : Wait) (s : State)
  /-- The state is the instruction's outcome as it stands. -/
  | done (s : State)
deriving DecidableEq, Repr

/-- k register n of some slices takes a word, and loses its poison (R74, R411). -/
def setK (g : Gang) (sl : List Nat) (n : Nat) (v : Nat → Int) : Gang :=
  { g with
    slices := g.slices.mapIdx fun i x => if sl.contains i then { x with k := x.k.set n (v i) } else x
    bad := unpoison g.bad (.kreg n) fun l => sl.contains (l / 3) }

/-- Every k register of some slices takes a value, and loses its poison (R74, R411). -/
def setKs (g : Gang) (sl : List Nat) (k : Slice → List Int) : Gang :=
  { modSlicesG g sl (fun x => { x with k := k x }) with
    bad := g.bad.filter fun x => match x.1 with | .kreg _ => !sl.contains (x.2 / 3) | _ => true }

/-- Uniform destination: a k register of the issuing slice, or a uniform register (R129, R70). In a capsule body
the new value goes into the record first. -/
def writeUni (r : Run) (s : State) (d : Opnd) (v : Word) : Result :=
  match d with
  | .kreg n =>
    if r.body then .step (.reg n v) s
    else .commit [] (r.modGang s fun g => setK g r.part.slices n fun _ => v)
  | .uni n => .commit [d] (r.modGang s fun g => uset g n v)
  | _ => .commit [] s

/-- A parted-write trap is due: a write of gang-wide state from a part (R56). -/
def partedTrap : TrapInfo := { code := 10, sub := 1 }

def Result.orParted (r : Run) (s : State) (x : Result) : Result :=
  if r.gang.parted then .trap partedTrap s else x

/-- The last-result file shifts when a vector or operand register is written (R69). `bad` lists the lanes of the
result that stay poisoned. -/
def shiftHist (r : Run) (s : State) (v : Lanes) (bad : List Nat) : State :=
  r.modPart s fun p => { p with
    hist := v :: p.hist.take 8
    histBad := bad.map (0, ·) ++ (p.histBad.filter fun x => x.1 < 8).map fun x => (x.1 + 1, x.2) }

/-- Lanes of a register that stay poisoned after a write of the lanes p. -/
def badLanes (g : Gang) (d : Opnd) (p : Nat → Bool) : List Nat :=
  (g.bad.filter fun x => x.1 == d && !p x.2).map (·.2)

/-- Vector-class destination: the register keeps the lanes outside `p` (R73, R56). A k register takes the value of
the lowest active lane of its slice (R74). -/
def writeVec (r : Run) (s : State) (d : Opnd) (p : Nat → Bool) (f : Nat → Int) : Result :=
  match d with
  | .vec n =>
    let v := updLanes (vget r.gang n) p f
    let s1 := r.modGang s fun g => { vset g n v with bad := unpoison g.bad d p }
    .commit (d :: (List.range 9).map .hist) (shiftHist r s1 v (badLanes r.gang d p))
  | .opr n =>
    let v := updLanes (oget r.gang n) p f
    let s1 := r.modGang s fun g => { oset g n v with bad := unpoison g.bad d p }
    .commit (d :: (List.range 9).map .hist) (shiftHist r s1 v (badLanes r.gang d p))
  | .kreg n =>
    let s' := r.part.slices.foldl (fun s j =>
      match [3 * j, 3 * j + 1, 3 * j + 2].find? p with
      | some l => r.modGang s fun g => setK g [j] n fun _ => f l
      | none => s) s
    .commit [] s'
  | _ => .commit [] s

/-- A mask register loses its poison when all of its lanes are written; a write of some of them leaves it poisoned, and
does not read it (R411; log 38, DESIGN CHOICE). -/
def unpoisonMask (g : Gang) (d : Opnd) (p : Nat → Bool) : List (Opnd × Nat) :=
  if (List.range (3 * g.width)).all p then unpoison g.bad d fun _ => true else g.bad

/-- Mask destination, R71 and R140. -/
def writeMask (r : Run) (s : State) (d : Opnd) (p : Nat → Bool) (f : Nat → Int) : Result :=
  match d with
  | .mask n =>
    .commit [d] (r.modGang s fun g => { mset g n (updLanes (mget r.gang n) p f) with bad := unpoisonMask g d p })
  | _ => .commit [] s

/-- Destination that is a uniform register or of vector class (R142, R143, R145): a vector register receives the
word of each lane in the lanes of the issuing slices. -/
def writeEither (r : Run) (s : State) (d : Opnd) (w : Word) (f : Nat → Int) : Result :=
  match d with
  | .uni _ => Result.orParted r s (writeUni r s d w)
  | _ => writeVec r s d (lanesOf r.part.slices) f

/-! ### Program counters and parts -/

/-- Every slice of the part continues at the next instruction. -/
def advance (r : Run) (s : State) : State := r.modSlices s fun x => { x with pc := wrap 27 (x.pc + 9) }

/-- Claims in force once one more instruction has committed (R86). -/
def countClaims (cs : List Claim) : List Claim :=
  (cs.map fun c => { c with left := c.left - 1 }).filter fun c => decide (0 < c.left)

/-- The operand log after an instruction has committed: an entry of an uncommitted instruction is free (R82). -/
def dropLog (x : Slice) : Slice := { x with log := x.log.filter fun l => !l.armed, issued := none }

/-- The part after its instruction has committed: claims count down and the instruction's own claim begins (R86; none
while the part steps, R387), the operand log entry is free (R82), a debug step counts (R387). -/
def retirePart (r : Run) (la : Nat) (dests : List Opnd) (born : Nat) (p : Part) : Part :=
  let fresh := if la = 0 ∨ p.stepping ≠ 0 then [] else
    dests.map fun d => { left := la, reg := d, old := regLanes r .t27 d, born := born : Claim }
  { p with claims := countClaims p.claims ++ fresh, granted := false, forwarded := none, wait := .ready, waitCount := 0,
           starving := none, stepping := if p.stepping = 2 then 1 else p.stepping, mul := none, count := p.count + 1 }

/-- The number that an instruction's requests share: the free counter when it issued. -/
def Req.group (q : Req) : Nat := q.id / 100

/-- A store or an atomic is not acknowledged that the part has issued, or an access that the gang issued before the part
formed (R312). -/
def owes (s : State) (r : Run) : Bool :=
  s.reqs.any fun q => q.part.band == r.id.band && q.part.gang == r.id.gang
    && (q.kind != .load && decide (0 < r.gang.acks) && (!r.gang.parted || q.part.part == r.id.part)
      || (q.kind == .load || decide (0 < r.gang.acks)) && r.gang.parted && decide (q.group < r.part.formed))

/-- The slot is free and the free counter advances. -/
def freeSlot (s : State) : State := { s with issue := none, free := s.free + 1 }

def retire (r : Run) (la : Nat) (dests : List Opnd) (s : State) : State :=
  freeSlot (r.modSlices (r.modPart s (retirePart r la dests s.free)) dropLog)

/-- Slices grouped by where they continue, in the order of their first slices. A taken branch to the next instruction
leaves its slices in the part of those that do not take it (log 86, DEDUCED). -/
def groupTargets (dest : Nat → Word) (sl : List Nat) : List (List Nat) :=
  sl.foldl (fun acc j =>
    if acc.any (fun x => (x.head?.map dest) == some (dest j)) then
      acc.map fun x => if (x.head?.map dest) = some (dest j) then x ++ [j] else x
    else acc ++ [[j]]) []

/-- The parts of a gang in the order of their lowest slices (R54). -/
def insertPart (p : Part) : List Part → List Part
  | [] => [p]
  | q :: qs => if p.slices.head?.getD 0 ≤ q.slices.head?.getD 0 then p :: q :: qs else q :: insertPart p qs

def sortParts (ps : List Part) : List Part := ps.foldr insertPart []

/-- Divides a part by where its slices continue (R53); each part begins with a copy of the part's own state, and
forms at `now`. -/
def splitPart (g : Gang) (first now : Nat) (targets : List (Nat × Word)) : Gang :=
  match partOf g first with
  | none => g
  | some p =>
    let dest (j : Nat) : Word := (targets.lookup j).getD 0
    let groups := groupTargets dest p.slices
    let parts := groups.map fun sl => { p with slices := sl, formed := if groups.length = 1 then p.formed else now }
    { g with
      slices := g.slices.mapIdx fun i x => if p.slices.contains i then { x with pc := dest i } else x
      parts := sortParts (g.parts.flatMap fun q => if q.slices.head? = some first then parts else [q]) }

/-! ### Stopping a kernel -/

/-- Every part tethered on a record's word 0 wakes when its state changes (R356). A contender's registration on word 0
stands in its wait, apart from `State.parks`: whether it is one of the home's 729 registrations (R350), and whether a
WAKE on that word reaches it, the spec does not say; the model counts it as none of them and lets no WAKE reach it
(log 103, DESIGN CHOICE). -/
def wakeTethers (s : State) (word : Nat) : State :=
  { s with bands := s.bands.map fun b => { b with gangs := b.gangs.map fun g => { g with parts := g.parts.map fun p =>
      match p.wait with
      | .tether w _ => if w = word then { p with wait := .tether w true } else p
      | _ => p } } }

/-- The device nonet at which the word centred on a capsule record's or another device word's address begins, for
a context's band, and its page's leaf. -/
def devWordAt (s : State) (w : Who) (kind : AccKind) (a : Word) : Option (Nat × Option Leaf) :=
  match resolve s w kind (wrap 27 (a - 1)) with
  | .ok (.dev j) l => some (j, l)
  | _ => none

/-- A walk that finds a leaf sets its accessed trit, and a write that commits its written trit too (R376). -/
def touchLeaf (s : State) : Option Leaf → State
  | some l => setPteTrit s l.slot 2
  | none => s

/-- A committed write through a leaf sets its written and its accessed trit (R376). -/
def markLeaf (s : State) : Option Leaf → State
  | some l => setPteTrit (setPteTrit s l.slot 2) l.slot 1
  | none => s

/-- Word i of a capsule record lies at the record's centre − 39 + 3i (R353). -/
def recordAddr (record : Word) (i : Nat) : Word := wrap 27 (record - 39 + 3 * i)

/-- A direct write of words at their homes as one access (R353, R358). -/
def directWords (s : State) (w : Who) (ws : List (Nat × Word)) : State :=
  poke s w (ws.flatMap fun x => (wordCells x.1 x.2).map fun c => (Place.dev c.1, c.2)) false true

/-- The holder's core marks the record descheduled: state +1 and the holder's token are checked, the state becomes
−1 and the waiters wake (R359). A record whose page can no longer be read is not marked and stays held: R359 does not
say what becomes of it (log 115, DESIGN CHOICE). -/
def markRecord (s : State) (w : Who) (c : Capsule) : State :=
  let s := correctWalks s w.ctx [wrap 27 (recordAddr c.record 0 - 1)]
  match devWordAt s w .read (recordAddr c.record 0) with
  | none => touchWalk s w.ctx (wrap 27 (recordAddr c.record 0 - 1))
  | some (j, l) =>
    let s1 := openWords (touchLeaf s l) [j]
    let v := devWord s1 j
    if trit v 26 = 1 ∧ field v 0 17 = c.token then
      wakeTethers (markLeaf (respondTo (directWords s1 w [(j, setField v 26 1 (-1))]) w [.dev j]) l) j
    else respondTo s1 w [.dev j]

/-- Marks the records of every slice of a set that runs a body. -/
def markSlices (s : State) (w : Who) (g : Gang) (sl : List Nat) : State :=
  sl.foldl (fun s j => match g.slices[j]? with
    | some x => match x.cap with
      | some c => if c.running then markRecord s w c else s
      | none => s
    | none => s) s

/-- A record of the context's fault area closes: state −1 and an outcome, one write of word 0; an error where the write
fails a check of R168, with what its walk leaves (R376, R383, R384). -/
def closeRecord (s : State) (w : Who) (addr : Word) (outcome : Int) : Except State State :=
  let s := correctWalks s w.ctx [wrap 27 (addr - 40)]
  match resolve s w .write (wrap 27 (addr - 40)) with
  | .ok (.dev j) leaf =>
    let s1 := openWords s [j]
    let s2 := writeBase s1 (wordCells j (setField (setField (devWord s1 j) 26 1 (-1)) 23 2 outcome)) false
    .ok (markLeaf (respondTo s2 w [.dev j]) leaf)
  | _ => .error (touchWalk s w.ctx (wrap 27 (addr - 40)))

/-- The state that an attempted write leaves, whether or not its checks passed. -/
def attempted : Except State State → State
  | .ok s => s
  | .error s => s

/-- The record that is open for a part: the handler's, or the host's (R384). -/
def openRecord (p : Part) : Option Word :=
  match p.wait with
  | .fault a _ => some a
  | _ => p.handling

/-- The record that a part has open closes; the trailing copy of a pair has none of its own. An error where the write
fails a check (R384, R418). -/
def closeOpen (s : State) (r : Run) (outcome : Int) : Except State State :=
  match openRecord r.part with
  | some a => if r.band.copy = .trailing then .ok s else closeRecord s r.who a outcome
  | none => .ok s

/-- Instruction-cache locks of a context fall on cores where it no longer has a band (R318). -/
def dropLocks (s : State) : State :=
  let resident (ctx core : Nat) : Bool := s.bands.any fun b =>
    b.core == some core && (match s.kernel b.kernel with | some k => k.context == ctx | none => false)
  { s with cores := s.cores.map fun c => { c with locks := c.locks.filter fun l => resident l.1 c.number } }

/-- Stage shares end with the launch's last band on a core (R328). -/
def dropShares (s : State) : State :=
  let held (core : Nat) (x : Shares) : Bool := s.bands.any fun b => b.core == some core && b.kernel == x.kernel
  { s with cores := s.cores.map fun c => { c with shares := c.shares.filter (held c.number) } }

/-- A packet's status word, which its queue's number and the word's first nonet name; the host is told (R440,
R445). -/
def putStatus (s : State) (q : Option (Nat × Nat)) (v : Int) : State :=
  match q with
  | none => s
  | some (_, j) =>
    let s1 := writeBase (forceForeign s none [lineOf j]) (wordCells j v) false
    { s1 with outbox := s1.outbox ++ (((List.range Config.ports).filter fun i => (s.port i).role == .host).map (·, 2)) }

/-- Altered trits of the scratchpads and the version lines of some bands go with them, and so do marked flits. -/
def dropFlips (s : State) (mine : Nat → Bool) : State :=
  { s with
    flips := s.flips.filter fun x => match x.1 with | .scr u _ _ => !mine u | _ => true
    verFlips := s.verFlips.filter fun x => !mine x.1
    linkFails := s.linkFails.filter fun x => !mine x.1 }

/-- Removal of a kernel's bands, requests and registrations. -/
def eraseKernel (s : State) (uid : Nat) : State :=
  let mine (u : Nat) : Bool := s.bands.any fun b => b.uid == u && b.kernel == uid
  let s := dropFlips s mine
  { s with
    bands := s.bands.filter fun b => b.kernel != uid
    kernels := s.kernels.filter fun k => k.uid != uid
    reqs := s.reqs.filter fun q => !mine q.part.band
    parks := s.parks.filter fun p => !mine p.2.band
    cores := s.cores.map fun c => { c with
      engine := c.engine.filter fun e => match e with | .part p _ _ _ => !mine p.band | .node b _ => !mine b
      shares := c.shares.filter fun x => x.kernel != uid }
    issue := match s.issue with
      | some i => if mine i.part.band then none else some i
      | none => none
    codeOld := s.codeOld.filter fun u => !(u.owner.any mine) }

/-- A kernel stop (R388): capsule records are marked, open records close with outcome +3 except `keep`, versions
drop, PARK registrations go, the bands end at once, the queue's status word becomes +3 and locks fall. A stop with
code 15 counts in the context (R408; log 29, DEDUCED). -/
def stopKernel (s : State) (uid : Nat) (code : Int) (keep : Option Word) : State :=
  match s.kernel uid with
  | none => s
  | some k =>
    match s.context k.context with
    | none => eraseKernel s uid
    | some c =>
      let bands := s.bands.filter fun b => b.kernel == uid
      let s1 := bands.foldl (fun s b => (b.gangs.zipIdx).foldl (fun s gi =>
        let w : Who := { band := b, gang := gi.2, kern := k, ctx := c }
        let s' := gi.1.parts.foldl (fun s p => markSlices s w gi.1 p.slices) s
        gi.1.parts.foldl (fun s p => match openRecord p with
          | some a => if some a = keep then s else attempted (closeRecord s w a 3)
          | none => s) s') s) s
      let s2 := if code = 15 then s1.modContext c.number fun c => { c with stops := satCount (c.stops + 1) } else s1
      dropLocks (putStatus (eraseKernel s2 uid) k.queue 3)

/-! ### Fault records -/

/-- Order of a gang within its band (R324). -/
def gangOrder (r : Run) : Nat := r.id.gang

/-- The 27 words of a fault record (R383); word 0 carries state and disposition. -/
def recordWords (r : Run) (s : State) (t : TrapInfo) (pc : Word) (ws : Word × Word × Word) (orig : Int × Int)
    (disp : Int) (state : Int) (outcome : Int) : List Word :=
  [state * 3 ^ 26 + disp * 3 ^ 25 + outcome * 3 ^ 23, t.code, t.sub, r.ctx.nextRecord, (r.ctx.number : Int) * 3 ^ 21,
   r.kern.number, (r.band.index : Int) + r.kern.launch.bandBase,
   ((r.core : Int) - 1093) * 3 ^ 20 + (gangOrder r : Int) * 3 ^ 15 + (r.gang.stage : Int) * 3 ^ 12,
   ofTrits ((List.range 9).map fun j => if r.part.slices.contains j then 1 else 0),
   t.lanes, pc, ws.1, ws.2.1, ws.2.2, t.addr, t.node, t.plane, t.row, t.elem,
   if t.log.isSome then 3 ^ 18 else 0, orig.1, orig.2, s.cycle r.core, 0, 0, 0, 0]

/-- The virtual address of the centre of slot j (R383). -/
def slotAddr (c : Context) (j : Nat) : Word := wrap 27 (c.faultArea + 81 * j)

/-- The slot a record takes: the first, in ring order after the slot last used, whose state is not open; a slot in
a poisoned sector is not open (R384). `none` in the outer option: word 0 of a slot cannot be reached (log 76, DEDUCED).
A version that holds a slot's line commits first (R302). -/
def searchSlot (s : State) (w : Who) : List Nat → State × Option (Option Nat)
  | [] => (s, some none)
  | j :: js =>
    let s := correctWalks s w.ctx [wrap 27 (slotAddr w.ctx j - 40)]
    match devWordAt s w .write (wrap 27 (slotAddr w.ctx j - 39)) with
    | none => (touchWalk s w.ctx (wrap 27 (slotAddr w.ctx j - 40)), none)
    | some (d, l) =>
      let s1 := openWords (touchLeaf s l) [d]
      if s1.poison.contains (sectorOf d) || trit (devWord s1 d) 26 != 1 then (s1, some (some j)) else searchSlot s1 w js

def chooseSlot (s : State) (w : Who) : State × Option (Option Nat) :=
  let n := w.ctx.slots
  let start := match w.ctx.lastSlot with | some j => j + 1 | none => 0
  searchSlot s w ((List.range n).map fun i => (start + i) % n)

/-- Writes a record into a slot: words 1 to 26, then word 0, each of its three sectors whole (R384). An error when a
write fails a check of R168, with what its walk leaves (R376). -/
def writeRecord (s : State) (w : Who) (slot : Nat) (ws : List Word) : Except State State :=
  let s := correctWalks s w.ctx [wrap 27 (slotAddr w.ctx slot - 40)]
  match resolve s w .write (wrap 27 (slotAddr w.ctx slot - 40)) with
  | .ok (.dev j) leaf =>
    let cells := (ws.zipIdx.flatMap fun x => wordCells (j + 3 * x.2) x.1)
    let s1 := forceForeign s none [lineOf j]
    let s2 := respondTo (writeBase s1 cells true) w [.dev j]
    .ok ((markLeaf s2 leaf).modContext w.ctx.number fun c => { c with
      lastSlot := some slot, lastRecord := c.nextRecord, nextRecord := wrap 27 (c.nextRecord + 1) })
  | _ => .error (touchWalk s w.ctx (wrap 27 (slotAddr w.ctx slot - 40)))

/-- Disposition of a trap code in a context: +1 handler, −1 host service, 0 stop (R382, R385). -/
def dispositionOf (c : Context) (code : Int) : Int :=
  if code = 12 ∨ code = 15 ∨ code = 16 then 0
  else if code = 5 ∧ c.transHost ∨ code = 6 ∧ c.protHost then -1
  else 1

/-- Every lane of a part. -/
def partLanes (r : Run) : Int := lanesWord (lanesOf r.part.slices)

/-- A trap whose rule names no lanes is raised by every lane of the part (R76; log 20). -/
def TrapInfo.atPart (t : TrapInfo) (r : Run) : TrapInfo := if t.lanes = 0 then { t with lanes := partLanes r } else t

/-- A stop that a gang's event caused writes one closed record, where a slot is not open and can be written, and
stops the kernel (R384, R388). -/
def stopWithRecord (s : State) (r : Run) (t : TrapInfo) (pc : Word) (ws : Word × Word × Word) (orig : Int × Int)
    (keep : Option Word) : State :=
  let w := r.who
  let t := t.atPart r
  let s1 := match chooseSlot s w with
    | (s', some (some j)) => attempted (writeRecord s' w j (recordWords r s t pc ws orig 0 (-1) 3))
    | (s', _) => s'
  stopKernel s1 r.kern.uid t.code keep

/-! ### Taking a trap -/

/-- A part takes what the leading copy of its pair forwards. -/
def takeForward (isTrap : Bool) (vals : List Int) (q : Part) : Part :=
  { q with granted := true, forwarded := some (isTrap, vals), wait := .ready }

/-- The leading copy of a pair hands the trailing copy a result, or the record of their trap; a later rollback of
the trailing copy keeps it (R418, R420). -/
def forward (r : Run) (s : State) (isTrap : Bool) (vals : List Int) : State :=
  match r.band.pair with
  | some p => if r.band.copy = .leading then
      let give (g : Gang) : Gang := modPartG g r.id.part (takeForward isTrap vals)
      s.modBand p.mate fun b => { modGangB b r.id.gang give with
        pair := b.pair.map fun q => { q with snapshot := { q.snapshot with gangs := modAt q.snapshot.gangs r.id.gang give } } }
    else s
  | none => s

/-- A stop with no handler: a code raised while trap-enable is 0 becomes code 16, sub-code 1 (R77, R382). -/
def stopTrap (s : State) (r : Run) (t : TrapInfo) (pc : Word) (ws : Word × Word × Word) : State :=
  if r.gang.trapEnable = 0 then stopWithRecord s r { t with code := 16, sub := 1 } pc ws (t.code, t.sub) none
  else stopWithRecord s r t pc ws (0, 0) none

/-- Trap entry writes e0 to e8 and the FREC copy of every slice of the part (R76, R385, R401). -/
def trapRegisters (t : TrapInfo) (pc : Word) (ws : Word × Word × Word) (rec : Word) (words : List Word) (x : Slice) : Slice :=
  { x with e := [t.code, t.sub, pc, t.addr, t.lanes, ws.1, ws.2.1, ws.2.2, rec], frec := words, log := t.log,
           issued := none }

/-- The part leaves the body of its capsule, whose record its core marks descheduled (R359, R362). -/
def leaveBody (x : Slice) : Slice := { x with cap := x.cap.map fun c => { c with running := false, pending := none, apply := none } }

/-- Taking a trap (R381 to R385, R77). The trap is the oldest uncommitted instruction's; `pc` and `ws` are its
address and words. A trap while trap-enable is 0 stops the kernel with code 16, sub-code 1. When every slot is open
the part waits, out of the body of its capsule, whose record is marked (R359). The trailing copy of a pair writes no
record and names the leading copy's, which was forwarded (R418). -/
def takeTrap (s : State) (r : Run) (t : TrapInfo) (pc : Word) (ws : Word × Word × Word) : State :=
  let w := r.who
  let t := t.atPart r
  let s0 := { s with issue := none }
  if r.gang.trapEnable = 0 ∨ dispositionOf r.ctx t.code = 0 then stopTrap s0 r t pc ws
  else
    let disp := dispositionOf r.ctx t.code
    let enter (s : State) (rec : Word) (words : List Word) : State :=
      let s1 := forward r (markSlices s w r.gang r.part.slices) true (rec :: words)
      let s2 := r.modSlices s1 fun x => leaveBody (trapRegisters t pc ws rec words x)
      if disp = 1 then
        let s3 := r.modSlices s2 fun x => { x with pc := r.ctx.handler }
        let s4 := r.modGang s3 fun g => { g with trapEnable := 0 }
        r.modPart s4 fun p => { p with wait := .ready, claims := [], stepping := 0, granted := false,
                                         forwarded := none, handling := some rec, trapped := p.slices, mul := none }
      else
        let s3 := if r.band.copy = .trailing then s2 else { s2 with outbox := s2.outbox ++
          (((List.range Config.ports).filter fun i => (s.port i).role == .host).map (·, 1)) }
        r.modPart (r.modGang s3 fun g => { g with watchdog := 0 }) fun p => { p with
          wait := .fault rec t.code, claims := [], stepping := 0, granted := false, forwarded := none, mul := none }
    let words := recordWords r s t pc ws (0, 0) disp 1 0
    if r.band.copy = .trailing then
      let v := match r.part.forwarded with | some x => x.2 | none => []
      enter s0 (v.getD 0 0) (v.drop 1)
    else
      match chooseSlot s0 w with
      | (s1, none) => stopKernel s1 r.kern.uid t.code none
      | (s1, some none) =>
        let s2 := r.modSlices (markSlices s1 w r.gang r.part.slices) leaveBody
        r.modPart (r.modGang s2 fun g => { g with watchdog := 0 }) fun p => { p with wait := .faultSlot t pc ws, claims := [] }
      | (s1, some (some j)) =>
        match writeRecord s1 w j words with
        | .error s1 => stopKernel s1 r.kern.uid t.code none
        | .ok s1 => enter s1 (slotAddr r.ctx j) words

/-! ### Returning from a trap -/

/-- Return of the trapping part (R386, R387, R399): trap-enable becomes +1; a replay issues the instruction at e2
again with its operands from the log, a skip continues after it. A slice in capsule mode returns to its CAP.ENTER,
whose next issue performs the rejoin (R362). -/
def returnSlice (skip : Bool) (x : Slice) : Slice :=
  match x.cap with
  | some c => { x with pc := c.enter, cap := some { c with running := false, skipping := skip }, log := none }
  | none =>
    let pc := x.e.getD 2 0
    if skip then { x with pc := wrap 27 (pc + 9), log := none }
    else { x with pc := pc, log := x.log.map fun l => { l with armed := true } }

def returnPart (s : State) (r : Run) (skip : Bool) : State :=
  let s1 := r.modSlices s (returnSlice skip)
  let s2 := r.modGang s1 fun g => { g with trapEnable := 1 }
  r.modPart s2 fun p => { p with wait := .ready, claims := [], stepping := if r.gang.step = 1 then 2 else 0,
                                 granted := false, forwarded := none, handling := none, trapped := [] }

end Sys2Proof.Machine
end

