-- ==== Sys2Proof/Machine/Commit.lean ====
section
/-! DEFINITION. How an instruction ends: consumption of poison with relaunch and rollback (R411 to R416, R422), the
limits of a capsule body (R357, R363), the waits that come before an instruction issues (R297, R420), and the
frame in which every coded instruction runs. -/

namespace Sys2Proof.Machine

/-! ### Poison -/

/-- A band that may be relaunched (R414). -/
def relaunchable (k : Kernel) (b : Band) : Bool :=
  k.launch.versioned && b.copy == .unpaired && !b.committed && !b.settled

/-- Removes what the other units hold for a band: requests, registrations, engine commands, barrier arrivals. -/
def detachBand (s : State) (b : Band) : State :=
  { dropFlips s (· == b.uid) with
    reqs := s.reqs.filter fun q => q.part.band != b.uid
    parks := s.parks.filter fun p => p.2.band != b.uid
    cores := s.cores.map fun c => { c with engine := c.engine.filter fun e =>
      match e with | .part p _ _ _ => p.band != b.uid | .node u _ => u != b.uid }
    kernels := s.kernels.map fun k => if k.uid = b.kernel then
        { k with barriers := k.barriers.map fun x => { x with arrived := x.arrived.filter fun a => a.1 != b.uid } }
      else k
    issue := match s.issue with
      | some i => if i.part.band = b.uid then none else some i
      | none => none
    codeOld := s.codeOld.filter fun u => u.owner != some b.uid }

/-- The next number in the order of re-placement (R322). -/
def nextQueued (s : State) : Nat := (s.bands.map (·.queuedAt)).foldl max 0 + 1

/-- Relaunch of a band (R416): it stops at once, its version, nodes, counts and storage are dropped, and it waits to
be placed afresh on another core. -/
def relaunchBand (s : State) (b : Band) (ctx : Nat) : State :=
  let s1 := detachBand s b
  let s2 := s1.modBand b.uid fun b => { b with
    core := none, queuedAt := nextQueued s, avoid := b.core, gangs := [], scratch := [], scrPoison := [], chanBad := [], tiles := [], nodes := [],
    nextSerial := 0, openSlots := [], succCounts := [], starts := [], channels := [], version := [], verPoison := [], verClean := [], committed := false,
    settled := false, relaunches := b.relaunches + 1, counts := [], specs := [] }
  dropShares <| dropLocks (s2.modContext ctx fun c => { c with relaunches := satCount (c.relaunches + 1) })

/-- What a held store adds to its group's signature: address, width, value (R419). -/
def HeldStore.terms (h : HeldStore) : Int × Int × Int := (h.addr, if h.word then 1 else -1, h.value)

/-- The signature of a group; `extra` is what EINJ.SIG added (R419, R431). -/
def signatureOf (extra : Int) (terms : List (Int × Int × Int)) : Word :=
  let mix (g x : Int) : Int := wrap 27 (g * 4782971 + x)
  wrap 27 (terms.foldl (fun g t => mix (mix (mix g t.1) t.2.1) t.2.2) 0 + terms.length + extra)

/-- What a checkpoint saves of a band (R420). -/
def snapshotOf (b : Band) : Snapshot :=
  { gangs := b.gangs, scratch := b.scratch, scrPoison := b.scrPoison, tiles := b.tiles, counts := b.counts,
    channels := b.channels, nodes := b.nodes, nextSerial := b.nextSerial, openSlots := b.openSlots,
    succCounts := b.succCounts, starts := b.starts, chanBad := b.chanBad }

/-- Writes of a node that reach translated memory are once-operations (R418). -/
def translatedAddr (a : Word) : Bool := decide (0 ≤ field a 25 2)

/-- A node that writes translated memory, which the leading copy performs once (R418). -/
def Node.once (n : Node) : Bool :=
  match n.kind with
  | .copy _ dst fp _ _ => (dst.any fun d => translatedAddr d.base) || fp.any translatedAddr
  | .cmpb _ _ res => translatedAddr res
  | .bin _ _ area _ => area.any translatedAddr
  | .matrix _ _ _ _ => false

/-- A node as a rollback leaves it: what was performed once stays performed, the rest is done again (R418, R422). -/
def restoreNode (now : List Node) (n : Node) : Node :=
  if !n.once then n
  else match now.find? fun m => m.serial == n.serial with
    | some m => { n with state := m.state, progress := m.progress, acc := m.acc, moved := m.moved, fault := m.fault }
    | none => { n with state := .running, moved := true }

/-- A copy rolled back to its latest checkpoint (R422; log 27, DEDUCED). -/
def rollbackBand (b : Band) : Band :=
  match b.pair with
  | none => b
  | some p =>
    let x := p.snapshot
    let home (old now : Residence) : Residence :=
      if old = .exited then .exited else if now = .exited then .resident else now
    let stay (i : Nat) (g : Gang) : Gang := match b.gangs[i]? with
      | some now => { g with residence := home g.residence now.residence, partition := now.partition, watchdog := now.watchdog }
      | none => g
    { b with
      gangs := x.gangs.mapIdx stay, scratch := x.scratch, scrPoison := x.scrPoison, tiles := x.tiles, counts := x.counts,
      channels := x.channels, nodes := x.nodes.map (restoreNode b.nodes), nextSerial := x.nextSerial,
      openSlots := x.openSlots, succCounts := x.succCounts, starts := x.starts, chanBad := x.chanBad, specs := [],
      pair := some { p with held := [], openGroup := [], signatures := [], received := [], undo := [], inject := 0,
                            sigs := 0, sigsSeen := max p.sigs p.sigsSeen, mismatches := p.mismatches + 1 } }

/-- The multiplies of a band that have started join the queue of its core's engine in the order in which they did, if
they do not stand there (R261). -/
def queueStarts (s : State) (uid : Nat) : State :=
  match s.band uid with
  | none => s
  | some b => match b.core with
    | none => s
    | some c => s.modCore c fun x =>
        { x with engine := x.engine ++ (b.starts.map (EngineCmd.node uid)).filter fun e => !x.engine.contains e }

/-- A mismatch of a paired band (R422): both copies roll back, or the third at one checkpoint stops the kernel with
code 15, sub-code 6. `r` is a part of the band, for the stop's record (log 28, DEDUCED). What R422 rolls back does not
name the barriers: an arrival made since the checkpoint stays, and the BAR arrives again (log 119, DESIGN CHOICE). -/
def mismatch (s : State) (r : Run) : State :=
  match r.band.pair with
  | none => s
  | some p =>
    let s1 := s.modContext r.ctx.number fun c => { c with mismatches := satCount (c.mismatches + 1) }
    if 2 ≤ p.mismatches then
      stopTrap s1 r { code := 15, sub := 6 } r.pc (0, 0, 0)
    else
      let ours (u : Nat) : Bool := u == r.band.uid || u == p.mate
      let s2 : State := { s1 with
        issue := none
        reqs := s1.reqs.filter fun q => !ours q.part.band
        parks := s1.parks.filter fun q => !ours q.2.band
        cores := s1.cores.map fun c => { c with engine := c.engine.filter fun e =>
          match e with | .part q _ _ _ => !ours q.band | .node u _ => !ours u } }
      let s3 := (s2.modBand r.band.uid rollbackBand).modBand p.mate rollbackBand
      queueStarts (queueStarts s3 r.band.uid) p.mate

/-! ### Ending an instruction -/

/-- A wait that is a blocking point resets the watchdog (R338). -/
def Wait.blocking : Wait → Bool
  | .ready | .capCommit | .capApply | .acks | .drain _ _ | .fence _ | .batch _ | .icinv _ _ | .map .. | .pkset _ _
  | .engine | .nodes | .checkpoint _ _ | .undo => false
  | _ => true

/-- The part waits, and its instruction, of lookahead la, has not committed. -/
def setWait (s : State) (r : Run) (la : Nat) (w : Wait) : State :=
  let s1 := r.modPart s fun p => { p with wait := w, la := la, waitCount := 0, starving := none }
  if w.blocking then r.modGang s1 fun g => { g with watchdog := 0 } else s1

/-- Consumption of poison by an instruction or a node of a part's band; `stop` stops the kernel (R415). -/
def poisonOut (s : State) (r : Run) (t : TrapInfo) (stop : TrapInfo → State) : State :=
  if r.band.pair.isSome then mismatch s r
  else if t.base then stop t
  else if relaunchable r.kern r.band then
    if r.band.relaunches < 2 then freeSlot (relaunchBand s r.band r.ctx.number) else stop { t with sub := 7 }
  else stop t

/-- A trap waits until the part's stores are acknowledged, since the write of its record's word 0 is a release (R384). A
trap of a paired copy is a checkpoint: the leading copy takes it, unless its instruction has just had one, when both are
there, and the trailing copy when the leading copy's record comes; one that traps where the leading copy did not
mismatches (R418, R420). -/
def trapOut (s : State) (r : Run) (t : TrapInfo) (ws : Word × Word × Word) : State :=
  if t.code = 15 then poisonOut s r t fun t =>
    if owes s r then freeSlot (setWait s r r.part.la .acks) else takeTrap s r t r.pc ws
  else if owes s r then freeSlot (setWait s r r.part.la .acks)
  else if r.band.pair.isSome ∧ (!r.part.granted ∨ r.band.copy = .trailing ∧ r.part.forwarded = none) then
    freeSlot (r.modPart s fun p => { p with wait := .checkpoint true [t.code, t.sub, r.pc, t.addr, (t.atPart r).lanes] })
  else match r.part.forwarded with
    | some (false, _) => freeSlot (mismatch s r)
    | _ => takeTrap s r t r.pc ws

/-- The state in which an instruction of a part has ended. -/
def finishResult (r : Run) (la : Nat) (ws : Word × Word × Word) : Result → State
  | .commit dests s => retire r la dests (advance r s)
  | .branch dests targets s => r.modGang (retire r la dests s) fun g =>
      splitPart g r.id.part s.free targets
  | .step e s =>
    let s1 := r.modSlices s fun x => { x with cap := x.cap.map fun c => { c with pending := some e, sent := s.free } }
    freeSlot (setWait (r.modGang s1 fun g => { g with acks := g.acks + 1 }) r la .capCommit)
  | .trap t s => trapOut s r t ws
  | .wait w s => freeSlot (setWait s r la w)
  | .done s => freeSlot s

/-- A once-operation ends its checkpoint: what a rollback restores is the state after it. A store that the full buffer
held back is issued again after a rollback (R420). -/
def resnap (r : Run) (s : State) : State :=
  if r.band.pair.isSome && r.part.granted && !((s.run r.id).any fun q => q.part.granted) then
    r.modBand s fun b => { b with pair := b.pair.map fun p =>
      if p.held.isEmpty then { p with snapshot := snapshotOf b, undo := [] } else p }
  else s

/-- Ending an instruction; `s` is the state before it. A trailing copy that completes where the leading copy trapped
mismatches (R418). -/
def finish (s : State) (r : Run) (la : Nat) (ws : Word × Word × Word) (x : Result) : State :=
  match r.part.forwarded, x with
  | some (true, _), .trap _ _ | some (true, _), .wait _ _ => resnap r (finishResult r la ws x)
  | some (true, _), _ => freeSlot (mismatch s r)
  | _, _ => resnap r (finishResult r la ws x)

/-- A once-operation of a paired launch waits for its checkpoint (R418, R420; log 34, DEDUCED). -/
def onceOp (r : Run) (s : State) (terms : List Int) (k : Unit → Result) : Result :=
  if r.band.pair.isSome && !r.part.granted then .wait (.checkpoint true terms) s else k ()

/-- The trailing copy takes the forwarded result of a once-operation, and the leading copy forwards its own. -/
def trailing (r : Run) : Option (List Int) :=
  if r.band.copy = .trailing then some (match r.part.forwarded with | some x => x.2 | none => []) else none

/-- The records of a part that waits, for an event that completes its instruction. -/
def waitingRun (s : State) (p : PartId) (ok : Wait → Bool) : Option Run :=
  (s.run p).bind fun r => if ok r.part.wait then some r else none

/-- The issue slot after an event: kept while its part exists. -/
def keepIssue (s0 s : State) : State :=
  { s with issue := s0.issue.bind fun i => if (s.run i.part).isSome then some i else none }

/-- The words of the instruction at a part's program counter, as its band reads them; zeros where they cannot be
fetched. -/
def instrWords (s : State) (r : Run) : Word × Word × Word :=
  let look (j : Nat) : Resolved := resolve s r.who .fetch (wrap 27 (r.pc - 4 + j))
  let old := match look 0 with
    | .ok p _ => oldCode s r.id.band r.core (unitStart 9 p)
    | _ => none
  let n (j : Nat) : Int := match old.bind (·[j]?), look j with
    | some v, _ => v
    | none, .ok p _ => peek s r.who p
    | none, _ => 0
  (wordOf (n 0) (n 1) (n 2), wordOf (n 3) (n 4) (n 5), wordOf (n 6) (n 7) (n 8))

/-- An event ends the instruction that a part waits at. -/
def finishWaiting (s : State) (r : Run) (x : Result) : State :=
  keepIssue s (finish { s with issue := none } r r.part.la (instrWords s r) x)

/-- The part issues its instruction again. -/
def reissue (s : State) (p : PartId) : State := s.modPart p fun q => { q with wait := .ready }

/-- Something that the gang's acknowledgement count held at a count of the free counter has not been acknowledged
(R298, R313). -/
def drains (s : State) (r : Run) (since : Nat) : Bool :=
  let commits (p : Part) : Bool := p.wait == .capCommit && p.slices.any fun j => match r.gang.slices[j]? with
    | some x => x.cap.any fun c => decide (c.sent < since)
    | none => false
  r.gang.acks != 0 && (r.gang.parts.any commits || s.reqs.any fun q =>
    q.kind != .load && q.part.band == r.id.band && q.part.gang == r.id.gang && decide (q.group < since))

/-! ### Limits of a capsule body -/

/-- Instructions that may be body steps (R357). -/
def bodyOp (op : Op) (f : Fields) : Bool :=
  match op with
  | .uadd | .usub | .umul | .umulH | .udiv | .udivR | .umin | .umax | .ucmp | .usel | .ushf | .ushfRot | .utmin
  | .utmax | .utcon | .umov | .ulea | .ldn | .ldw | .stn | .stw | .brU | .capLeave => true
  | .brAny | .brAll => f.a == .uni 0
  | _ => false

def isBodyBranch (op : Op) : Bool := op == .brU || op == .brAny || op == .brAll
def isBodyStore (op : Op) : Bool := op == .stn || op == .stw

/-- A violation of the body's limits, in sub-code order (R357, R363); the target of a branch is judged by the
branch itself. -/
def bodyLimit (c : Capsule) (op : Op) (f : Fields) : Option Int :=
  let isReg (o : Opnd) : Bool := match o with | .kreg _ => true | _ => false
  if !bodyOp op f then some 1
  else if !isBodyBranch op && !isBodyStore op && op != .capLeave && !isReg f.d then some 2
  else if !isBodyBranch op && op != .capLeave && decide (26 ≤ c.position) then some 3
  else if !isBodyBranch op && decide (81 ≤ c.step) then some 4
  else if isBodyStore op && decide (9 ≤ c.stores) then some 5
  else none

def capsuleTrap (r : Run) (op : Op) (f : Fields) : Option TrapInfo :=
  match r.slice.cap with
  | some c => if c.running then (bodyLimit c op f).map fun n => { code := 9, sub := n } else none
  | none => none

/-! ### Waits before issue -/

/-- Instructions that wait while a speculative fence of their gang is incomplete (R297, R342, R392, R428). -/
def waitsForFence (op : Op) : Bool :=
  decide (0 < (op.opcode + 40) / 81) && op != .capLeave &&
    !([Op.ldn, .ldw, .stn, .stw, .vld, .vst, .vlds, .vsts, .gath, .scat, .pref, .prefSc].contains op)

/-- The gang's incomplete speculative fence. -/
def specOf (b : Band) (g : Nat) : Option Spec1 := b.specs.find? (·.gang == g)

/-- Instructions that are checkpoints of a paired launch and no once-operations (R420). -/
def pairedStop (op : Op) : Bool :=
  [Op.pairCk, .commit, .fence, .fenceNs, .drain, .drainBar, .batchWait].contains op

/-- Instructions that themselves wait for acknowledgements, or need not: FREC reads no memory (R401), a MAP's checks
come before its wait (R395), and a COMMIT of a launch without versions and a PAIR.CK of an unpaired one complete at
once (R429, R430). -/
def waitsItself (r : Run) (op : Op) : Bool :=
  [Op.drain, .drainBar, .fence, .fenceNs, .icinv, .icinvAll, .frec, .map, .unmap].contains op
    || op == .commit && !r.kern.launch.versioned || op == .pairCk && r.band.pair.isNone

/-- A node waits for a checkpoint before its next write (R420). -/
def fullNode (b : Band) : Bool := b.nodes.any (·.full)

/-- A part of a paired copy stops for the checkpoint that a node's write calls for, unless the other copy is ahead there
or waits at a checkpoint of that instruction itself, which this one is to reach (R420; log 104, DESIGN CHOICE). -/
def stopsForNode (r : Run) (s : State) : Bool :=
  match r.band.pair.bind fun p => s.band p.mate with
  | none => false
  | some m => (fullNode r.band || fullNode m) &&
    match m.gangs[r.id.gang]?.bind fun g => g.parts.find? fun p => p.slices.contains r.id.part with
    | none => false
    | some p => decide (p.count ≤ r.part.count) && match p.wait with
      | .checkpoint _ _ => decide (p.count < r.part.count)
      | _ => true

/-- A wait that comes before the instruction is performed: for an incomplete speculative fence, for
acknowledgements before an access that is performed at once (log 7), or for a paired checkpoint. -/
def preWait (r : Run) (s : State) (op : Op) : Option Wait :=
  match specOf r.band r.id.gang with
  | some x => if waitsForFence op || op == .exit || decide (27 ≤ x.issued) then some .acks else none
  | none =>
    if waitsForFence op && !waitsItself r op && owes s r then some .acks
    else if !r.part.granted && stopsForNode r s then some .undo
    else if r.band.pair.isSome && !r.part.granted && pairedStop op then some (.checkpoint false []) else none

/-- Every instruction issued under a speculative fence counts (R297). -/
def countSpec (r : Run) (s : State) : State :=
  if (specOf r.band r.id.gang).isSome then
    r.modBand s fun b => { b with specs := b.specs.map fun x => if x.gang = r.id.gang then { x with issued := x.issued + 1 } else x }
  else s

/-! ### Poisoned operands -/

/-- Instructions that read every lane of a source whatever the predicate (R246). -/
def crossLane (op : Op) : Bool := [Op.slide, .slideEdge, .slideFill, .perm, .bcast, .vext, .shuf3].contains op

/-- The register operands an instruction reads; AWR moves its data raw (R412). -/
def sourceOpnds (op : Op) (f : Fields) : List Opnd :=
  let x := op.spec f.var
  [f.a, f.b] ++ (if op = .awr then [] else [f.c]) ++ (if op = .usel ∨ !x.dest then [f.d] else [])
    ++ (if x.pred = .none then [] else [.mask f.mask])

/-- The instruction reads a poisoned register word (R411, R412; log 38, DESIGN CHOICE). -/
def poisonedRead (r : Run) (s : State) (op : Op) (f : Fields) : Bool :=
  if r.gang.bad.isEmpty ∧ r.part.histBad.isEmpty then false
  else if [r.slice.issued, r.slice.log].any fun x => x.any fun l => l.armed && l.pc == r.pc then false
  else
    let src := sourceOpnds op f
    let lanewise : Bool := (op.spec f.var).pred == .full && !crossLane op
    let reads (o : Opnd) (l : Nat) : Bool := match o with
      | .vec _ | .opr _ | .hist _ => !lanewise || activeLanes r s f l
      | .kreg _ => lanesOf r.part.slices l
      | _ => true
    r.gang.bad.any (fun x => src.contains x.1 && reads x.1 x.2)
      || r.part.histBad.any (fun x => src.contains (.hist x.1) && reads (.hist x.1) x.2)

/-- An instruction that would commit having read a poisoned register word consumes the poison instead; a prefetch
consumes none (R177, R412). -/
def consumeOperands (r : Run) (s : State) (op : Op) (f : Fields) (x : Result) : Result :=
  match x with
  | .trap _ _ => x
  | _ => if op != .pref && op != .prefSc && poisonedRead r s op f then .trap { code := 15, sub := 3 } s else x

/-- A trap under an incomplete speculative fence is raised only when its instruction commits (R297). -/
def deferTrap (r : Run) (s : State) (x : Result) : Result :=
  match x, specOf r.band r.id.gang with
  | .trap _ _, some _ => .wait .acks s
  | _, _ => x

/-- The frame of every coded instruction: it runs for the part that holds the issue slot (log 80, DESIGN CHOICE). -/
def runOp (op : Op) (f : Fields) (s : State) (body : Run → Result) : Host.Outcome State Fault Refusal :=
  match s.issue.bind fun i => s.run i.part with
  | none => .refused .noIssuingPart
  | some r =>
    let ws := (encodeW0 op f, encodeW1 f, encodeW2 op f)
    match capsuleTrap r op f with
    | some t => .next (finish s r f.la ws (.trap t s))
    | none =>
      match preWait r s op with
      | some w => .next (finish s r f.la ws (.wait w s))
      | none => .next (countSpec r (finish s r f.la ws (deferTrap r s (consumeOperands r s op f (body r)))))

end Sys2Proof.Machine
end

