-- ==== Sys2Proof/Machine/Operands.lean ====
section
/-! DEFINITION. Operand forms: elements of a lane word in each type (R85, R222), source modifiers (R87), immediates
(R89, R92), and the shapes in which arithmetic instructions read sources and write destinations. -/

namespace Sys2Proof.Machine

/-! ### Elements -/

/-- Elements per lane (R222). -/
def elems : Ty → Nat
  | .t27 | .f27 => 1
  | .t9 | .f9 => 3
  | .l3 => 9

/-- Trits per element. -/
def etrits : Ty → Nat
  | .t27 | .f27 => 27
  | .t9 | .f9 => 9
  | .l3 => 3

def isFloat : Ty → Bool
  | .f27 | .f9 => true
  | _ => false

def fmtOf : Ty → Fmt
  | .f9 => fmt9
  | _ => fmt27

/-- A type whose accesses are words (R167). -/
def wordType : Ty → Bool
  | .t9 | .f9 => false
  | _ => true

/-- Element i of a lane word. -/
def elem (ty : Ty) (x : Word) (i : Nat) : Int := if etrits ty = 27 then x else field x (etrits ty * i) (etrits ty)

/-- The lane word with element i replaced. -/
def putElem (ty : Ty) (x : Word) (i : Nat) (v : Int) : Word :=
  if etrits ty = 27 then v else setField x (etrits ty * i) (etrits ty) v

/-- The lane word made of its elements. -/
def ofElems (ty : Ty) (vs : List Int) : Word :=
  vs.foldr (fun v acc => v + acc * (3 ^ etrits ty : Nat)) 0

/-- A source modifier on one element (R87). -/
def modElem (ty : Ty) (m : Modifier) (x : Int) : Int := if isFloat ty then modFloat (fmtOf ty) m x else modInt m x

/-- A source modifier on every element of a word. -/
def modWord (ty : Ty) (m : Modifier) (x : Word) : Word :=
  match m with
  | .plain => x
  | _ => ofElems ty ((List.range (elems ty)).map fun i => modElem ty m (elem ty x i))

/-! ### Sources -/

/-- The immediate form of an arithmetic instruction (R92). -/
def isImm (f : Fields) : Bool := trit f.var 4 == 1

/-- Source A, B and C of a uniform form, modified (R128). -/
def uniA (r : Run) (s : State) (f : Fields) : Word := modInt f.modA (readWord r s 0 f.a)
def uniB (r : Run) (s : State) (f : Fields) : Word :=
  modInt f.modB (if isImm f then f.imm else readWord r s 1 f.b)
def uniC (r : Run) (s : State) (f : Fields) : Word := modInt f.modC (readWord r s 2 f.c)

/-- Source A, B and C of a vector form read in a type, modified, lane by lane (R220). -/
def vecA (r : Run) (s : State) (ty : Ty) (f : Fields) : Lanes := (readLanes r s ty 0 f.a).map (modWord ty f.modA)
def vecB (r : Run) (s : State) (ty : Ty) (f : Fields) : Lanes :=
  (if isImm f then List.replicate 27 f.imm else readLanes r s ty 1 f.b).map (modWord ty f.modB)
def vecC (r : Run) (s : State) (ty : Ty) (f : Fields) : Lanes := (readLanes r s ty 2 f.c).map (modWord ty f.modC)

/-- An instruction that keeps trits of the old value in the lanes p of its destination reads that value as an operand:
it consumes the poison of such a lane, which only a write of the whole word clears (R411, R412). -/
def keepsOld (r : Run) (s : State) (d : Opnd) (p : Nat → Bool) (x : Result) : Result :=
  if (List.range 27).any fun l => p l && badWord r d l then .trap { code := 15, sub := 3 } s else x

/-! ### Shapes of arithmetic instructions -/

/-- A uniform instruction: the parted-write trap from a part, else the value into D with its effects (R128). The
effects of a capsule's body step wait for its commit (R216, R358). -/
def uniform (r : Run) (s : State) (f : Fields) (v : Int × Effects) : Result :=
  match f.d with
  | .kreg n => if r.body then .step (.reg n v.1 v.2.sticky) s else writeUni r (applyEffects r s 0 v.2) f.d v.1
  | _ => Result.orParted r s (writeUni r (applyEffects r s 0 v.2) f.d v.1)

/-- An element-wise result in one lane: each element's value, with the lane's effects. -/
def laneElems (ty : Ty) (f : Nat → Int × Effects) : Int × Effects :=
  let vs := (List.range (elems ty)).map f
  (ofElems ty (vs.map (·.1)), Effects.sum (vs.map (·.2)))

/-- A vector instruction under its predicate: each active lane's word and effects (R219, R220). -/
def perLane (r : Run) (s : State) (f : Fields) (tid : Nat) (g : Nat → Int × Effects) : Result :=
  let act := activeLanes r s f
  let vs := (List.range 27).map fun l => if act l then g l else (0, Effects.none)
  let e := Effects.sum (vs.map (·.2))
  writeVec r (applyEffects r s tid e) f.d act fun l => (vs.getD l (0, .none)).1

/-- An element-wise vector instruction of one type. -/
def perElem (r : Run) (s : State) (f : Fields) (tid : Nat) (g : (l i : Nat) → Int × Effects) : Result :=
  perLane r s f tid fun l => laneElems f.ty (g l)

/-- An element-wise instruction of two sources. -/
def binary (r : Run) (s : State) (f : Fields) (tid : Nat) (g : Int → Int → Int × Effects) : Result :=
  let a := vecA r s f.ty f
  let b := vecB r s f.ty f
  perElem r s f tid fun l i => g (elem f.ty (lane a l) i) (elem f.ty (lane b l) i)

/-- An element-wise instruction of one source. -/
def unary (r : Run) (s : State) (f : Fields) (tid : Nat) (g : Int → Int × Effects) : Result :=
  let a := vecA r s f.ty f
  perElem r s f tid fun l i => g (elem f.ty (lane a l) i)

/-- A compare: one trit per active lane of mask D (R71). -/
def compare (r : Run) (s : State) (f : Fields) (tid : Nat) (g : Word → Word → Int × Effects) : Result :=
  let act := activeLanes r s f
  let a := vecA r s f.ty f
  let b := vecB r s f.ty f
  let vs := (List.range 27).map fun l => if act l then g (lane a l) (lane b l) else (0, Effects.none)
  writeMask r (applyEffects r s tid (Effects.sum (vs.map (·.2)))) f.d act fun l => (vs.getD l (0, .none)).1

/-- A value that always fits, with no effects. -/
def exact (v : Int) : Int × Effects := (v, .none)

end Sys2Proof.Machine
end

