-- ==== Sys2Proof/Machine/MemAccess.lean ====
section
/-! DEFINITION. Loads, stores, translation registers and prefetch, group +1 (R165 to R177), and the shared checks and
transfers of memory elements (R168, R169), which atomics use too. -/

namespace Sys2Proof.Machine

/-! ### Elements of an access -/

/-- One element: its lane, its address as e3 gives it, and its nonets' addresses with their exact offsets from the
base. -/
structure Elem where
  lane   : Nat
  addr   : Word
  nonets : List (Word × Int)
deriving DecidableEq, Repr

/-- How an instruction's elements lie (R171 to R175). -/
inductive MemForm where
  | uniform | contiguous | strided | gathered
deriving DecidableEq, Repr

/-- The nonet at an exact offset from a base. -/
def nonetAt (base : Word) (o : Int) : Word × Int := (wrap 27 (base + o), o)

/-- A word element, named by its centre (R26). -/
def wordElem (l : Nat) (base : Word) (o : Int) : Elem :=
  { lane := l, addr := wrap 27 (base + o), nonets := [nonetAt base (o - 1), nonetAt base o, nonetAt base (o + 1)] }

/-- A nonet element. -/
def nonetElem (l : Nat) (base : Word) (o : Int) : Elem :=
  { lane := l, addr := wrap 27 (base + o), nonets := [nonetAt base o] }

/-- Elements of one lane (R173 to R175); `u` is the lane's offset word. -/
def laneElements (form : MemForm) (word : Bool) (base u disp : Int) (l : Nat) : List Elem :=
  let o : Int := match form with
    | .uniform | .gathered => u + disp
    | .contiguous => u + disp + 3 * l
    | .strided => disp + l * u
  if word then [wordElem l base o]
  else match form with
    | .uniform => [nonetElem l base o]
    | .gathered => [0, 1, 2].map fun i => nonetElem l base (nonetOf u i + disp)
    | _ => [-1, 0, 1].map fun i => nonetElem l base (o + i)

/-! ### Operands of a memory instruction -/

/-- The translation register that aux6 names, when it does (R95). -/
def baseXreg (r : Run) (f : Fields) : Option XReg :=
  if trit f.aux 3 = 1 then some (smapGet XReg.zero r.gang.xregs (field f.aux 4 2 + 4).toNat) else none

/-- The entry of the operand log from which the instruction takes its operands: after a resumption or a wait for an
absent scratchpad, and after a TRET replay (R82, R334, R386). -/
def armedLog (r : Run) : Option OpLog :=
  [r.slice.issued, r.slice.log].findSome? fun x => x.filter fun l => l.armed && l.pc == r.pc

/-- The entry of the operand log that the instruction reads or would make: an armed entry, else the operands read
now (R82, R166). -/
def memOperands (r : Run) (s : State) (f : Fields) (offset data : Unit → Lanes) : OpLog :=
  let fresh : OpLog :=
    { pc := r.pc, base := match baseXreg r f with | some x => x.base | none => readWord r s 0 f.a,
      offset := offset (), data := data (), active := (List.range 27).filter (activeLanes r s f), bad := [],
      armed := false }
  (armedLog r).getD fresh

/-- The translation register through which the instruction's addresses go. An instruction that takes its operands from
the operand log translates them afresh, by page walks (R75, R379, R381; log 26, DEDUCED). -/
def memXreg (r : Run) (f : Fields) : Option XReg := if (armedLog r).isSome then none else baseXreg r f

/-- An instruction that has issued and waits holds its operands in the log (R82); `armed` where it will issue again
without an eviction. -/
def noteIssued (r : Run) (s : State) (l : OpLog) (armed : Bool) : State :=
  r.modSlices s fun x => { x with issued := some { l with armed := armed } }

/-! ### The checks of R168 -/

/-- An address taken through a translation register whose bounds enclose the offset (R75): the leaf that the
register holds, while its frames are the context's (R371). A store whose register was loaded before the page was
written walks for the PTE. -/
def hitLeaf (s : State) (w : Who) (x : XReg) (kind : AccKind) (a : Word) (o : Int) : Option (Resolved) :=
  if x.valid ∧ x.low ≤ o ∧ o ≤ x.high ∧ 0 ≤ field a 25 2
      ∧ (grantSub w.ctx (2 - x.size).toNat x.frame x.loc a).isNone then
    let l : Leaf := { pte := 0, slot := 0, level := (2 - x.size).toNat, frame := x.frame, key := (x.key + 40).toNat,
                      exec := false, loc := x.loc }
    match checkLeaf w kind false l a with
    | .ok p _ =>
      let leaf := if kind.writes ∧ x.written = 0 then
          match walk s w.ctx a with | .leaf l => some l | _ => none
        else none
      some (.ok p leaf)
    | y => some y
  else none

/-- Where one nonet of an access lies. -/
def resolveVia (s : State) (w : Who) (x : Option XReg) (kind : AccKind) (n : Word × Int) : Resolved :=
  match x.bind fun x => hitLeaf s w x kind n.1 n.2 with
  | some y => y
  | none => resolve s w kind n.1

/-- What the checks of one access give. -/
inductive Checked where
  | ok (places : List (List Place)) (leaves : List Leaf)
  | trap (t : TrapInfo) (leaves : List Leaf)
  | absent (index : Nat)
deriving DecidableEq, Repr

/-- The trap of an element, by code; 15 is a table entry in a poisoned sector (R373). -/
def Resolved.trapCode : Resolved → Option (Int × Int)
  | .trap c n => some (c, n)
  | .poisoned => some (15, 9)
  | _ => none

def Resolved.leaf? : Resolved → Option Leaf
  | .ok _ l => l
  | _ => none

def Resolved.place? : Resolved → Option Place
  | .ok p _ => some p
  | _ => none

/-- The first trap among an element's nonets, with the lowest code. -/
def elemTrap (rs : List Resolved) : Option (Int × Int) :=
  rs.foldl (fun acc x => match acc, x.trapCode with
    | some a, some b => if b.1 < a.1 then some b else some a
    | none, b => b
    | a, none => a) none

/-- The leaf that a nonet's walk found although the access then failed a check (R376). -/
def walkedLeaf (s : State) (w : Who) (x : Option XReg) (kind : AccKind) (n : Word × Int) : Option Leaf :=
  if (x.bind fun x => hitLeaf s w x kind n.1 n.2).isSome ∨ field n.1 25 2 < 0 then none
  else match walk s w.ctx n.1 with
    | .leaf l => some l
    | _ => none

/-- Alignment, then the region and its aperture, then translation and key, of every element (R168, R379). The check
that fails first in any lane traps; e4 marks every lane that fails it and e3 names the lowest one's element. Where those
lanes fail it with different sub-codes, R154 and R168 fix no e1; it is the lowest one's (log 105, DESIGN CHOICE). -/
def checkElems (s : State) (w : Who) (x : Option XReg) (kind : AccKind) (word : Bool) (es : List Elem) : Checked :=
  let mask (p : Elem → Bool) : Int := lanesWord fun l => es.any fun e => e.lane == l && p e
  let crooked (e : Elem) : Bool := word && decide (e.addr % 3 ≠ 0)
  match es.find? crooked with
  | some e => .trap { code := 3, sub := 1, addr := e.addr, lanes := mask crooked } []
  | none =>
    let rs := es.map fun e => (e, e.nonets.map (resolveVia s w x kind))
    let leaves := rs.flatMap fun p => p.2.filterMap Resolved.leaf?
    let traps := rs.filterMap fun p => (elemTrap p.2).map fun c => (p.1, c)
    match traps with
    | t0 :: ts =>
      let code := ts.foldl (fun m t => min m t.2.1) t0.2.1
      let failed := rs.flatMap fun p => (p.1.nonets.zip p.2).filterMap fun q => match q.2 with
        | .trap _ _ => walkedLeaf s w x kind q.1
        | _ => none
      match traps.find? fun t => t.2.1 == code with
      | some t => .trap { code := code, sub := t.2.2, addr := t.1.addr, base := true,
                          lanes := mask fun e => traps.any fun t => t.2.1 == code && t.1.lane == e.lane } (leaves ++ failed)
      | none => .ok [] []
    | [] =>
      match (rs.flatMap (·.2)).findSome? fun y => match y with | .absent i => some i | _ => none with
      | some i => .absent i
      | none => .ok (rs.map fun p => p.2.filterMap Resolved.place?) leaves

/-- A trit of several page-table entries is set: 2 the accessed, 1 the written trit (R374, R376). -/
def markPtes (s : State) (slots : List Nat) (i : Nat) : State := slots.foldl (fun s slot => setPteTrit s slot i) s

/-- The accessed or written trits of leaves that walks found (R376; log 18, DEDUCED). -/
def markLeaves (s : State) (ls : List Leaf) (i : Nat) : State := markPtes s (toSet (ls.map (·.slot))) i

/-- Held stores of one instruction are performed as one write of each sector, and their pages are written (R34, R297,
R376, R420). -/
def performStores (w : Who) (s : State) (hs : List HeldStore) : State :=
  let ws := hs.flatMap (·.nonets)
  respondTo (pokeHeld (markPtes s (hs.flatMap (·.ptes)) 1) w ws) w (ws.map (·.1))

/-- Held stores by their instructions, in order. -/
def byInstruction : List HeldStore → List (List HeldStore)
  | [] => []
  | h :: hs => match byInstruction hs with
    | (g :: gs) :: rest => if g.stamp = h.stamp then (h :: g :: gs) :: rest else [h] :: (g :: gs) :: rest
    | rest => [h] :: rest

def performHeldStores (w : Who) (s : State) (hs : List HeldStore) : State :=
  (byInstruction hs).foldl (performStores w) s

/-- A trap of a memory instruction holds its operands in the log (R82). -/
def withLog (t : TrapInfo) (l : OpLog) : TrapInfo := { t with log := some { l with armed := false } }

/-- An element that reads poison (R411 to R413; log 55, DEDUCED). -/
def poisonTrap (s : State) (w : Who) (e : Elem) (ps : List Place) : Option TrapInfo :=
  match ps.find? (isPoison s w) with
  | none => none
  | some p => some { code := 15, sub := match p with | .scr _ _ _ => 4 | _ => 1, addr := e.addr, base := poisonInBase s w p }

/-- The poison of several elements: the first element's address, every such element's lane unless the access is
uniform, and in base memory if any element's is (R76, R415). -/
def mergePoison (uni : Bool) (ts : List (Nat × TrapInfo)) : Option TrapInfo :=
  ts.head?.map fun t => { t.2 with
    base := ts.any fun x => x.2.base
    lanes := if uni then 0 else lanesWord fun l => ts.any fun x => x.1 == l }

/-- The poison that a load of some elements consumes (R411, R413). -/
def poisonOf (s : State) (w : Who) (uni : Bool) (eps : List (Elem × List Place)) : Option TrapInfo :=
  mergePoison uni (eps.filterMap fun x => (poisonTrap s w x.1 x.2).map fun t => (x.1.lane, t))

/-- The checks of a memory instruction, then what it does with its elements' places; `lanes` is e4 where the access
is uniform (log 6, DESIGN CHOICE). -/
def withElems (r : Run) (s : State) (f : Fields) (kind : AccKind) (word : Bool) (log : OpLog) (lanes : Option Int)
    (es : List Elem) (k : State → List (List Place) → List Leaf → Result) : Result :=
  let s := correctWalks s r.ctx (es.flatMap fun e => e.nonets.map (·.1))
  match checkElems s r.who (memXreg r f) kind word es with
  | .trap t ls => .trap (withLog { t with lanes := lanes.getD t.lanes } log) (markLeaves s ls 2)
  | .absent i => .wait (.remote i) (noteIssued r s log true)
  | .ok ps ls => k (markLeaves s ls 2) ps ls

/-! ### Loads -/

/-- Loaded words of each lane: a word, or three nonets. -/
def loadedWord (vs : List (Nat × List Int)) (l : Nat) : Word :=
  match (vs.filter fun x => x.1 == l).flatMap (·.2) with
  | [a, b, c] => wordOf a b c
  | [a] => a
  | _ => 0

/-- Where loaded values go, once every element has been read. `vs` pairs each element's lane with its nonets. -/
def deliver (r : Run) (s : State) (f : Fields) (form : MemForm) (vs : List (Nat × List Int)) : Result :=
  match form with
  | .uniform => writeUni r s f.d (loadedWord vs (3 * r.id.part))
  | _ => writeVec r s f.d (fun l => vs.any fun x => x.1 == l) (loadedWord vs)

/-- Requests go out for elements that do not lie in the band's own scratchpad view (R332, log 7). -/
def isRemote : Place → Bool
  | .scr _ _ far => far
  | _ => true

/-- The class of an element's request: 0 to a home, 1 to a scratchpad, 2 to a port. -/
def placeClass : Place → Nat
  | .dev _ => 0
  | .scr _ _ _ => 1
  | .host _ | .peer _ _ _ => 2

/-- What one request reaches: a line, or a band's scratchpad (R161). -/
def placeKey : Place → Place
  | .scr u _ _ => .scr u 0 false
  | p => unitStart 243 p

def Req.places (q : Req) : List Place := q.elems.flatMap (·.places)

/-- The class of a request: 0 to a home, 1 to a scratchpad, 2 to a port. -/
def Req.cls (q : Req) : Nat := (q.places.head?.map placeClass).getD 0

def reqElems (es : List Elem) (ps : List (List Place)) (data : List (List Int)) : List ReqElem :=
  ((es.zip ps).zip (data ++ List.replicate es.length [])).zipIdx.map fun x =>
    { pos := x.2, lane := x.1.1.1.lane, addr := x.1.1.1.addr, places := x.1.1.2, data := x.1.2 }

/-- An element in pieces of which one request each reaches the nonets: whole, or its nonets one by one. -/
def ReqElem.pieces {α : Type} [BEq α] (key : Place → α) (e : ReqElem) : List ReqElem :=
  if (distinct (e.places.map key)).length ≤ 1 then [e]
  else e.places.zipIdx.map fun p => { e with places := [p.1], data := (e.data.drop p.2).take 1, first := p.2 }

/-- Pieces in the order of their elements, and of an element's nonets. -/
def inOrder (es : List ReqElem) : List ReqElem :=
  (List.range es.length).flatMap fun i => [0, 1, 2].filterMap fun k => es.find? fun e => e.pos == i && e.first == k

/-- The sectors of translated memory that some nonets lie in, by their first nonets. -/
def sectorsOf (ps : List Place) : List Place :=
  distinct (ps.filterMap fun p => match p with | .scr _ _ _ => none | p => some (unitStart 27 p))

def Req.sectors (q : Req) : List Place := sectorsOf q.places

/-- The 9-trit sector mask of a request (R161). -/
def sectorMask (ps : List Place) : List Int :=
  let hit := (sectorsOf ps).map fun p => (p.nonet - (unitStart 243 p).nonet) / 27
  (List.range 9).map fun i => if hit.contains i then 1 else 0

/-- The miss-status entries of a core that its loads hold. -/
def usedEntries (s : State) (core : Nat) : List Nat :=
  distinct ((s.reqs.filter (·.core == core)).flatMap (·.entries))

/-- A core's free miss-status entries, n of them where there are as many: the lowest-numbered (R14, R162, R424; log 106,
DESIGN CHOICE). -/
def freeEntries (s : State) (core n : Nat) : List Nat :=
  let used := usedEntries s core
  ((List.range (min Config.missEntries (used.length + n))).filter fun e => !used.contains e).take n

/-- A request that it has joined is still on its way, so that a load takes its data from it (R162). -/
def Req.rides (q : Req) (s : State) : Bool := q.joins.any fun o => s.reqs.any (·.id == o)

/-- The load of the gang's core that has the sector of a nonet outstanding, and which a load of the gang joins: the gang
has not stored to the sector since that one was sent (R162). -/
def joined (s : State) (r : Run) (p : Place) : Option Req :=
  match sectorsOf [p] with
  | [sec] => s.reqs.find? fun q => q.kind == .load && q.core == r.core && !q.rides s && q.sectors.contains sec
      && !q.shut.contains (r.id.band, r.id.gang, sec)
  | _ => none

/-- What one request of a load reaches: a line or a scratchpad, and of a line what one outstanding request brings. -/
def loadKey (s : State) (r : Run) (p : Place) : Place × Option Nat := (placeKey p, (joined s r p).map (·.id))

/-- Sectors that a load needs and that are not outstanding, each of which takes an entry (R162). -/
def missing (s : State) (r : Run) (ps : List Place) : List Place :=
  sectorsOf (ps.filter fun p => (joined s r p).isNone)

/-- The core has miss-status entries for a load (R14, R162). -/
def entriesFor (s : State) (r : Run) (ps : List Place) : Bool :=
  decide ((usedEntries s r.core).length + (missing s r ps).length ≤ Config.missEntries)

/-- The entries of the sectors of a load's request: those of the request that it joins, or new ones (R162). -/
def entriesOf (s : State) (r : Run) (fresh : List (Place × Nat)) (ps : List Place) : List Nat :=
  (sectorsOf ps).filterMap fun sec => match joined s r sec with
    | some q => (q.sectors.zip q.entries).lookup sec
    | none => fresh.lookup sec

/-- The requests of an instruction, one for each line or scratchpad that its lanes touch, and of a load one for what
each outstanding request brings. Stores and atomics hold no entries (R161, R162). -/
def makeReqs (r : Run) (s : State) (kind : ReqKind) (i : Instr) (es : List ReqElem) : List Req :=
  let key (p : Place) : Place × Option Nat := if kind = .load then loadKey s r p else (placeKey p, none)
  let es := if kind = .atomic then es else es.flatMap (ReqElem.pieces key)
  let keyOf (e : ReqElem) : Option (Place × Option Nat) := e.places.head?.map key
  let new := if kind = .load then missing s r (es.flatMap (·.places)) else []
  let fresh := new.zip (freeEntries s r.core new.length)
  (distinct (es.map keyOf)).zipIdx.map fun k =>
    let mine := es.filter fun e => keyOf e == k.1
    let ps := mine.flatMap (·.places)
    { id := 100 * s.free + k.2, part := r.id, kind := kind, instr := i, elems := mine, done := false, poison := none,
      mask := sectorMask ps, core := r.core, entries := if kind = .load then entriesOf s r fresh ps else [],
      joins := k.1.bind (·.2) }

/-- A store or an atomic of a gang goes out: later loads of the gang do not join what its core has outstanding of the
sectors (R162). -/
def shutReqs (r : Run) (s : State) (ps : List Place) : State :=
  let secs := sectorsOf ps
  { s with reqs := s.reqs.map fun q =>
      let hit := if q.kind = .load ∧ q.core = r.core then q.sectors.filter secs.contains else []
      { q with shut := q.shut ++ hit.map fun sec => (r.id.band, r.id.gang, sec) } }

/-- The requests of an instruction go out. -/
def sendReqs (r : Run) (s : State) (kind : ReqKind) (i : Instr) (es : List ReqElem) : State :=
  let s1 := if kind = .load then s else shutReqs r s (es.flatMap (·.places))
  { s1 with reqs := s1.reqs ++ makeReqs r s kind i es }

/-- Every load, gather or atomic read of translated memory, region −2 or region −3 is a blocking point, even where the
data returns at once: it resets the watchdog (R332, R338). -/
def touchRemote (r : Run) (s : State) (ps : List Place) : State :=
  if ps.any isRemote then r.modGang s fun g => { g with watchdog := 0 } else s

/-- What a load under an incomplete speculative fence has read; a value that the gang's own held store gives needs no
record (R297). -/
def recordReads (w : Who) (s : State) (ps : List Place) : State :=
  let held := heldCells w
  let seen := ps.filterMap fun p => match p with
    | .dev j => if (held.lookup p).isSome then none else some (j, peek s w p)
    | _ => none
  s.modBand w.band.uid fun b => { b with specs := b.specs.map fun x =>
    if x.gang = w.gang then { x with lines := toSet (x.lines ++ devLines ps), seen := x.seen ++ seen } else x }

/-- A store or atomic of the same gang to one of the places has been sent and not yet performed, so that a read of it
must wait (R285). -/
def pendingStore (s : State) (r : Run) (ps : List Place) : Bool :=
  s.reqs.any fun q => q.kind != .load && !q.done && q.part.band == r.id.band && q.part.gang == r.id.gang
    && q.elems.any fun e => e.places.any fun p => ps.any fun x => x.near == p.near

/-- The reads of a load whose checks have passed. Under an incomplete speculative fence only translated device
memory is read (R297); where the core's miss-status entries do not suffice, the load waits to issue (R162). -/
def loadElems (r : Run) (s : State) (op : Op) (f : Fields) (form : MemForm) (log : OpLog) (es : List Elem)
    (ps : List (List Place)) : Result :=
  let flat := ps.flatten
  let spec := (specOf r.band r.id.gang).isSome
  if spec && flat.any (fun p => placeClass p != 0) then .wait .acks s
  else if s.slow && flat.any isRemote then
    if !entriesFor s r flat then .wait .acks s
    else .wait (.load s.free) (noteIssued r (sendReqs r s .load (op.mk f) (reqElems es ps [])) log false)
  else if pendingStore s r flat then .wait .acks s
  else
    let w := r.who
    let s1 := prepareRead (touchRemote r s flat) w flat
    let s2 := if spec then recordReads w s1 flat else s1
    match poisonOf s2 w (form == .uniform) (es.zip ps) with
    | some t => .trap (withLog t log) s2
    | none => deliver r s2 f form ((es.zip ps).map fun x => (x.1.lane, x.2.map (peek s2 w)))

/-- A write to a uniform register from a part traps before every memory check (R171). -/
def partedUni (r : Run) (f : Fields) : Bool := r.gang.parted && match f.d with | .uni _ => true | _ => false

/-- An instruction takes a poisoned word from its entry of the operand log (R411, R412): the base, the offset or the
offsets of its lanes, and their data. A uniform operand is one word, lane 0's. -/
def badLog (form : MemForm) (log : OpLog) : Bool :=
  log.armed && log.bad.any fun x => match x with
    | .base => true
    | .offset l => if form = .gathered then log.active.contains l else l == 0
    | .data l => if form = .uniform then l % 27 == 0 else log.active.contains (l % 27)

/-- LDN and LDW (R171). -/
def uniformLoad (op : Op) (word : Bool) (f : Fields) (s : State) : Host.Outcome State Fault Refusal :=
  runOp op f s fun r =>
    if partedUni r f then .trap partedTrap s
    else
      let log := memOperands r s f (fun _ => List.replicate 27 (readWord r s 1 f.b)) fun _ => []
      let es := laneElements .uniform word log.base (lane log.offset 0) f.imm (3 * r.id.part)
      if badLog .uniform log then .trap { code := 15, sub := 3 } s
      else withElems r s f .read word log (some (partLanes r)) es fun s ps _ => loadElems r s op f .uniform log es ps

/-- LDN: the nonet at an address (R171). -/
def execLdn (f : Fields) (s : State) : Host.Outcome State Fault Refusal := uniformLoad .ldn false f s
/-- LDW: the word centred on an address (R171). -/
def execLdw (f : Fields) (s : State) : Host.Outcome State Fault Refusal := uniformLoad .ldw true f s

/-- The offsets of a vector form, as lane words: a vector for gathers, one word otherwise (R173 to R175). -/
def offsetLanes (r : Run) (s : State) (f : Fields) (form : MemForm) : Lanes :=
  match form with
  | .gathered => readLanes r s (if wordType f.ty then .t27 else .t9) 1 f.b
  | _ => List.replicate 27 (readWord r s 1 f.b)

/-- A stride of a word type that is not divisible by 3, judged before every address (R174). -/
def strideTrap (f : Fields) (form : MemForm) (log : OpLog) (act : List Nat) : Option TrapInfo :=
  let u := lane log.offset 0
  match form, act with
  | .strided, l :: _ =>
    if wordType f.ty ∧ u % 3 ≠ 0 then
      some { code := 3, sub := 2, addr := wrap 27 (log.base + f.imm + l * u), lanes := lanesWord act.contains }
    else none
  | _, _ => none

def vectorElems (f : Fields) (form : MemForm) (log : OpLog) (act : List Nat) : List Elem :=
  act.flatMap fun l => laneElements form (wordType f.ty) log.base (lane log.offset l) f.imm l

/-- The form of a load; none of another instruction. -/
def loadForm : Op → Option MemForm
  | .ldn | .ldw => some .uniform
  | .vld => some .contiguous
  | .vlds => some .strided
  | .gath => some .gathered
  | _ => none

/-- The operands and the elements of a load that has not issued. -/
def loadAhead (r : Run) (s : State) (op : Op) (f : Fields) (form : MemForm) : OpLog × List Elem :=
  let log := memOperands r s f (fun _ => offsetLanes r s f form) fun _ => []
  (log, if form = .uniform then laneElements .uniform (op == .ldw) log.base (lane log.offset 0) f.imm (3 * r.id.part)
    else vectorElems f form log log.active)

/-- A load that is a blocking point: it reads an address outside region −4 (R332). -/
def remoteAhead (r : Run) (s : State) (op : Op) (f : Fields) : Bool :=
  match loadForm op with
  | none => false
  | some form => (loadAhead r s op f form).2.any fun e => e.nonets.any fun n => field n.1 25 2 != -4

/-- A load that the gang's speculative fence holds, because it reads what is no translated device memory, that follows a
store of the gang to what it reads, or that finds too few miss-status entries (R162, R285, R297). -/
def loadHeld (r : Run) (s : State) (op : Op) (f : Fields) : Bool :=
  match loadForm op with
  | none => false
  | some form =>
    let x := loadAhead r s op f form
    match checkElems s r.who (memXreg r f) .read (op == .ldw || form != .uniform && wordType f.ty) x.2 with
    | .ok ps _ =>
      let flat := ps.flatten
      (specOf r.band r.id.gang).isSome && flat.any (fun p => placeClass p != 0)
        || (if s.slow && flat.any isRemote then !entriesFor s r flat else pendingStore s r flat)
    | _ => false

/-- VLD, VLDS and GATH (R173 to R175). -/
def vectorLoad (op : Op) (form : MemForm) (f : Fields) (s : State) : Host.Outcome State Fault Refusal :=
  runOp op f s fun r =>
    let log := memOperands r s f (fun _ => offsetLanes r s f form) fun _ => []
    let act := log.active
    if badLog form log then .trap { code := 15, sub := 3 } s
    else match strideTrap f form log act with
      | some t => .trap (withLog t log) s
      | none =>
        let es := vectorElems f form log act
        withElems r s f .read (wordType f.ty) log none es fun s ps _ => loadElems r s op f form log es ps

/-- VLD: contiguous elements (R173). -/
def execVld (f : Fields) (s : State) : Host.Outcome State Fault Refusal := vectorLoad .vld .contiguous f s
/-- VLDS: strided elements (R174). -/
def execVlds (f : Fields) (s : State) : Host.Outcome State Fault Refusal := vectorLoad .vlds .strided f s
/-- GATH: elements at per-lane offsets (R175). -/
def execGath (f : Fields) (s : State) : Host.Outcome State Fault Refusal := vectorLoad .gath .gathered f s

/-! ### Stores -/

/-- Units of the undo log that a write of scratchpad nonets touches (R420). -/
def undoUnits (ps : List Place) : List (Nat × Nat) :=
  (toSet (ps.filterMap fun x => match x with | .scr _ n _ => some (n / 27) | _ => none)).map fun k => (0, k)

/-- A write of some units would make the undo log exceed 729 (R420). -/
def undoOver (p : Pair) (us : List (Nat × Nat)) : Bool :=
  decide (729 < p.undo.length + ((distinct us).filter fun u => !p.undo.contains u).length)

/-- A store that would overfill the store buffer or the undo log of a paired copy is a checkpoint (R420). -/
def storeCheckpoint (r : Run) (count : Nat) (ps : List Place) : Bool :=
  match r.band.pair with
  | none => false
  | some p => !r.part.granted && (decide (243 < p.held.length + count) || undoOver p (undoUnits ps))

/-- Places outside the scratchpads: translated memory. -/
def translated (ps : List Place) : Bool := ps.any fun p => placeClass p != 1

/-- A store enters the buffer of a paired copy; every 27th closes a group (R419). -/
def holdStore (p : Pair) (h : HeldStore) : Pair :=
  let g := p.openGroup ++ [h]
  let held := p.held ++ [h]
  if g.length = 27 then
    let sig := signatureOf p.inject (g.map HeldStore.terms)
    { p with held := held, openGroup := [], signatures := p.signatures ++ [sig], inject := 0 }
  else { p with held := held, openGroup := g }

def holdPaired (r : Run) (s : State) (hs : List HeldStore) : State :=
  r.modBand s fun b => { b with pair := b.pair.map fun p => hs.foldl holdStore p }

/-- Holds stores under an incomplete speculative fence (R297). -/
def holdSpec (r : Run) (s : State) (hs : List HeldStore) : State :=
  r.modBand s fun b => { b with specs := b.specs.map fun x =>
    if x.gang = r.id.gang then { x with held := x.held ++ hs } else x }

/-- A store's writes with the gang as their agent: held by a fence or a paired copy, sent as requests, or performed
(R169, R297, R298, R418). -/
def storeElems (r : Run) (s : State) (op : Op) (f : Fields) (word : Bool) (es : List Elem) (ps : List (List Place))
    (ls : List Leaf) (data : List (List Int)) : Result :=
  let w := r.who
  let items := (es.zip ps).zip data
  let held (x : (Elem × List Place) × List Int) : HeldStore :=
    { addr := x.1.1.addr, word := word, value := match x.2 with | [a, b, c] => wordOf a b c | _ => x.2.headD 0,
      nonets := x.1.2.zip x.2, ptes := toSet (ls.map (·.slot)), stamp := s.free }
  let out := items.filter fun x => translated x.1.2
  let note (s : State) (items : List ((Elem × List Place) × List Int)) : State :=
    noteCode s w (some r.id.band) (items.flatMap fun x => x.1.2)
  if storeCheckpoint r out.length ps.flatten then .wait (.checkpoint false []) s
  else
    if (specOf r.band r.id.gang).isSome then .commit [] (holdSpec r (note s items) (items.map held))
    else
      let own := if r.band.pair.isSome then items.filter (fun x => !translated x.1.2) else items
      let s1 := if r.band.pair.isSome then holdPaired r (note s out) (out.map held) else markLeaves s ls 1
      if s1.slow && !own.isEmpty then
        let qs := reqElems (own.map (·.1.1)) (own.map (·.1.2)) (own.map (·.2))
        .commit [] (r.modGang (sendReqs r s1 .store (op.mk f) qs) fun g => { g with acks := g.acks + 1 })
      else .commit [] (respondTo (poke s1 w (own.flatMap fun x => x.1.2.zip x.2) true false) w (own.flatMap fun x => x.1.2))

/-- STN and STW. In a capsule body they are the step's store, committed and then applied (R172, R358). -/
def uniformStore (op : Op) (word : Bool) (f : Fields) (s : State) : Host.Outcome State Fault Refusal :=
  runOp op f s fun r =>
    let log := memOperands r s f (fun _ => List.replicate 27 (readWord r s 1 f.b))
      fun _ => List.replicate 27 (readWord r s 2 f.c)
    let es := laneElements .uniform word log.base (lane log.offset 0) f.imm (3 * r.id.part)
    let c := lane log.data 0
    if badLog .uniform log then .trap { code := 15, sub := 3 } s
    else withElems r s f .write word log (some (partLanes r)) es fun s ps ls =>
      if r.body then .step (.store ((es.map (·.addr)).headD 0) (if word then c else nonetOf c 0) word) s
      else storeElems r s op f word es ps ls [if word then [nonetOf c 0, nonetOf c 1, nonetOf c 2] else [nonetOf c 0]]

/-- STN: the low nonet of a word (R172). -/
def execStn (f : Fields) (s : State) : Host.Outcome State Fault Refusal := uniformStore .stn false f s
/-- STW: a word (R172). -/
def execStw (f : Fields) (s : State) : Host.Outcome State Fault Refusal := uniformStore .stw true f s

/-- Data of the elements of a lane: the word's nonets in one element, or one in each of three. -/
def laneData (word : Bool) (v : Word) : List (List Int) :=
  if word then [[nonetOf v 0, nonetOf v 1, nonetOf v 2]] else [[nonetOf v 0], [nonetOf v 1], [nonetOf v 2]]

/-- VST, VSTS and SCAT (R173 to R175). -/
def vectorStore (op : Op) (form : MemForm) (f : Fields) (s : State) : Host.Outcome State Fault Refusal :=
  runOp op f s fun r =>
    let log := memOperands r s f (fun _ => offsetLanes r s f form) fun _ => readLanes r s f.ty 2 f.c
    let act := log.active
    if badLog form log then .trap { code := 15, sub := 3 } s
    else match strideTrap f form log act with
      | some t => .trap (withLog t log) s
      | none =>
        let es := vectorElems f form log act
        withElems r s f .write (wordType f.ty) log none es fun s ps ls =>
          storeElems r s op f (wordType f.ty) es ps ls (act.flatMap fun l => laneData (wordType f.ty) (lane log.data l))

/-- VST: contiguous elements (R173). -/
def execVst (f : Fields) (s : State) : Host.Outcome State Fault Refusal := vectorStore .vst .contiguous f s
/-- VSTS: strided elements (R174). -/
def execVsts (f : Fields) (s : State) : Host.Outcome State Fault Refusal := vectorStore .vsts .strided f s
/-- SCAT: elements at per-lane offsets (R175). -/
def execScat (f : Fields) (s : State) : Host.Outcome State Fault Refusal := vectorStore .scat .gathered f s

/-! ### Translation registers and prefetch -/

/-- The register that a translation of t fills (R75, R176). -/
def fillXreg (t : Word) (l : Leaf) : XReg :=
  let n := offsetTrits l.level
  let q := field t 0 n
  { valid := true, base := t, frame := l.frame, key := (l.key : Int) - 40, size := 2 - (l.level : Int),
    written := trit l.pte 1, loc := l.loc, low := max (-797161) (-(half n : Int) - q), high := min 2391484 (half n - q) }

/-- XLD: fills a translation register without trapping on the translation (R176; log 32, DEDUCED). A read of the
register under a false lookahead claim gives its value after the XLD, one of the two that R86 allows (log 10, DESIGN
CHOICE). -/
def execXld (f : Fields) (s : State) : Host.Outcome State Fault Refusal :=
  runOp .xld f s fun r =>
    if r.gang.parted then .trap partedTrap s
    else
      let log := memOperands r s f (fun _ => List.replicate 27 (readWord r s 1 f.b)) fun _ => []
      let t := wrap 27 (log.base + lane log.offset 0 + f.imm)
      let n := match f.d with | .xreg n => n | _ => 0
      let fill (s : State) (x : XReg) : State := r.modGang s fun g => { g with xregs := smapSet XReg.zero g.xregs n x }
      let empty := { XReg.zero with base := t }
      if badLog .uniform log then .trap { code := 15, sub := 3 } s
      else if field t 25 2 < 0 then .commit [] (fill s empty)
      else
      let s := correctWalks s r.ctx [t]
      match walk s r.ctx t with
        | .poisoned | .bad _ => .commit [] (fill s empty)
        | .leaf l =>
          if permOf r.ctx l.key = -1 then .commit [] (fill (setPteTrit s l.slot 2) empty)
          else .commit [] (fill (setPteTrit s l.slot 2) (fillXreg t l))

/-- A lane of a prefetch is dropped (R177; log 39, DEDUCED). -/
def prefDropped (s : State) (r : Run) (a : Word) : Bool :=
  match resolve s r.who .read a with
  | .ok (.dev _) _ => decide (field a 25 2 < 0)
  | _ => true

/-- PREF and PREF.SC: no effect but the count of dropped lanes; they may not walk, and leave no trace in the tables
(R177, R380, log 9). -/
def prefetch (op : Op) (f : Fields) (s : State) : Host.Outcome State Fault Refusal :=
  runOp op f s fun r =>
    let base := match baseXreg r f with | some x => x.base | none => readWord r s 0 f.a
    let u := readLanes r s .t27 1 f.b
    let lanes := (List.range 27).filter (lanesOf r.part.slices)
    let at_ (l : Nat) : Word := wrap 27 (base + lane u l + f.imm)
    let n := (lanes.filter fun l => prefDropped s r (at_ l)).length
    .commit [] (s.modCore r.core fun c => { c with dropped := satCount (c.dropped + n) })

/-- PREF (R177). -/
def execPref (f : Fields) (s : State) : Host.Outcome State Fault Refusal := prefetch .pref f s
/-- PREF.SC (R177). -/
def execPrefSc (f : Fields) (s : State) : Host.Outcome State Fault Refusal := prefetch .prefSc f s

end Sys2Proof.Machine
end

