-- ==== Sys2Proof/Machine/Atomics.lean ====
section
/-! DEFINITION. The atomics (R304 to R311). -/

namespace Sys2Proof.Machine

/-- A scope code of at least core scope that releases to agents outside the band (R302, R310). -/
def releasesOut (f : Fields) : Bool := trit f.var 0 == 1 && decide (-1 ≤ field f.var 2 2)

/-- An atomic that can release commits the band's version first (R302). -/
def releaseVersion (r : Run) (s : State) (on : Bool) : State :=
  if on && r.kern.launch.versioned then commitVersion s r.band.uid false else s

/-- The element that some nonets hold. -/
def joinNonets : List Int → Int
  | [a, b, c] => wordOf a b c
  | v :: _ => v
  | [] => 0

/-- The nonets of an element. -/
def splitNonets (ps : List Place) (v : Int) : List (Place × Int) :=
  match ps with
  | [_, _, _] => ps.zip [nonetOf v 0, nonetOf v 1, nonetOf v 2]
  | _ => ps.zip [nonetOf v 0]

/-- One read-modify-write: the new state, the old element, and what it counts (R307). -/
def readModifyWrite (s : State) (w : Who) (ps : List Place) (fn : Int → Int × Effects) : State × Int × Effects :=
  let s1 := prepare s w ps true true
  let old := joinNonets (ps.map (peek s1 w))
  let new := fn old
  (poke s1 w (splitNonets ps new.1) true false, old, new.2)

/-- The elements of an atomic one after another, in lane order (log 87, DESIGN CHOICE). `taken` gives what the leading
copy forwarded for element i: a trailing copy performs only the elements of its own scratchpad (R418). -/
def rmwAll (w : Who) (taken : Option (List Int)) :
    List (List Place × (Int → Int × Effects)) → Nat → State → State × List Int × Effects
  | [], _, s => (s, [], .none)
  | (ps, fn) :: rest, i, s =>
    let x := match taken with
      | some vs => if translated ps then (s, vs.getD i 0, Effects.none) else readModifyWrite s w ps fn
      | none => readModifyWrite s w ps fn
    let y := rmwAll w taken rest (i + 1) x.1
    (y.1, x.2.1 :: y.2.1, x.2.2.add y.2.2)

/-- Element operands of an atomic: C after its modifier, and D as read at the start (R307). -/
def elemOperands (ty : Ty) (form : MemForm) (v : Lanes) (l : Nat) : List Int :=
  if wordType ty then [lane v l]
  else if form = .uniform then [nonetOf (lane v l) 0]
  else [nonetOf (lane v l) 0, nonetOf (lane v l) 1, nonetOf (lane v l) 2]

/-- Where an atomic's old elements go. -/
def deliverOld (r : Run) (s : State) (f : Fields) (form : MemForm) (vs : List (Nat × Int)) : Result :=
  let nonets (v : Int) : List Int := if wordType f.ty then [nonetOf v 0, nonetOf v 1, nonetOf v 2] else [v]
  deliver r s f form (vs.map fun p => (p.1, nonets p.2))

/-- The form of an atomic: uniform, or gathered as GATH (R306). -/
def atomicForm (f : Fields) : MemForm := if trit f.var 4 == 1 then .uniform else .gathered

/-- The elements of an atomic with their addresses checked: performed at once one after another, or sent, each with its
operands C and D, to wait at the blocking point of R332 until the old elements return (log 7). A trailing copy
accesses its own scratchpad alone (R418). Where a versioned band's release atomic is held, after the commit that comes
before it, R301 and R310 say of plain and acquire atomics alone; it enters the band's next version as they do
(log 107, DESIGN CHOICE). -/
def performAtomic (r : Run) (s : State) (op : Op) (f : Fields) (log : OpLog) (fn : (c e old : Int) → Int × Effects)
    (es : List Elem) (cs olds : List Int) (ps : List (List Place)) (ls : List Leaf) : Result :=
  let w := r.who
  if s.slow && r.band.pair.isNone && ps.flatten.any isRemote then
    let s1 := markLeaves (releaseVersion r s (releasesOut f)) ls 1
    let s2 := sendReqs r s1 .atomic (op.mk f) (reqElems es ps ((cs.zip olds).map fun p => [p.1, p.2]))
    .wait (.load s.free) (noteIssued r (r.modGang s2 fun g => { g with acks := g.acks + 1 }) log false)
  else
    let mine := if r.band.copy = .trailing then (es.zip ps).filter fun x => !translated x.2 else es.zip ps
    let flat := mine.flatMap (·.2)
    let s0 := if r.band.copy = .trailing then s else releaseVersion r s (releasesOut f)
    let s1 := prepare (countIngress (touchRemote r s0 flat) flat) w flat true true
    match poisonOf s1 w (atomicForm f == .uniform) mine with
    | some t => .trap (withLog t log) s1
    | none =>
      let s2 := if r.band.copy = .trailing then s1 else markLeaves s1 ls 1
      let x := rmwAll w (trailing r) (ps.zip ((cs.zip olds).map fun p => fn p.1 p.2)) 0 s2
      let answers := (ps.zip x.2.1).flatMap fun p => p.1.zipIdx.map fun q => (q.1, if q.2 = 0 then [p.2] else [])
      let s3 := forward r (applyEffects r (respond x.1 r.core s.free answers) 0 x.2.2) false x.2.1
      deliverOld r s3 f (atomicForm f) ((es.zip x.2.1).map fun p => (p.1.lane, p.2))

/-- An atomic: `fn c e` computes the new element from the old (R306 to R310). -/
def atomic (op : Op) (f : Fields) (s : State) (fn : (c e old : Int) → Int × Effects) :
    Host.Outcome State Fault Refusal :=
  runOp op f s fun r =>
    let uni := trit f.var 4 == 1
    let form := atomicForm f
    if uni && r.gang.parted then .trap partedTrap s
    else
      let word := wordType f.ty
      let log := memOperands r s f (fun _ => offsetLanes r s f form) fun _ =>
        readLanes r s f.ty 2 f.c ++ readLanes r s .t27 3 f.d
      let expects (x : LogWord) : Bool := op == .acas || match x with | .data l => decide (l < 27) | _ => true
      let act := if uni then [3 * r.id.part] else log.active
      let es := act.flatMap fun l => laneElements form word log.base (lane log.offset l) f.imm l
      let cs := (act.flatMap (elemOperands f.ty form (log.data.take 27))).map (modElem f.ty f.modC)
      let olds := act.flatMap (elemOperands f.ty form (log.data.drop 27))
      let terms := (es.map (·.addr)) ++ cs ++ if op = .acas then olds else []
      if badLog form { log with bad := log.bad.filter expects } then .trap { code := 15, sub := 3 } s
      else onceOp r s terms fun _ =>
        withElems r s f .atomic word log (if uni then some (partLanes r) else none) es fun s ps ls =>
          performAtomic r s op f log fn es cs olds ps ls

/-! ### The new elements -/

/-- AADD's new element: wrapping or saturating (R308). -/
def aaddNew (f : Fields) (c _ old : Int) : Int × Effects := clampInt (etrits f.ty) f.clamp (old + c)
def aminNew (c _ old : Int) : Int × Effects := exact (min old c)
def amaxNew (c _ old : Int) : Int × Effects := exact (max old c)

/-- AFADD's new element: one narrowing, old as the first operand (R308). -/
def afaddNew (f : Fields) (c _ old : Int) : Int × Effects :=
  let F := fmtOf f.ty
  let x := fval F old
  let y := fval F c
  floatDest F .off 0 (withNan [x, y] (addVal F x y)) (signallers [x, y])

/-- AFMIN and AFMAX; `pick` chooses between two values that are no NaNs (R309). -/
def floatExtreme (F : Fmt) (pick : FVal → FVal → FVal) (old c : Int) : Int × Effects :=
  let m := fval F old
  let x := fval F c
  let e : Effects := { invalid := signallers [m, x] }
  if m.isNan ∧ x.isNan then (fqnan F, e)
  else if x.isNan then (old, e)
  else if m.isNan then ((narrow F x).1, e)
  else ((narrow F (pick m x)).1, e)

def afminNew (f : Fields) (c _ old : Int) : Int × Effects :=
  floatExtreme (fmtOf f.ty) (fun x y => if cmpVal x y ≤ 0 then x else y) old c
def afmaxNew (f : Fields) (c _ old : Int) : Int × Effects :=
  floatExtreme (fmtOf f.ty) (fun x y => if 0 ≤ cmpVal x y then x else y) old c
def axchNew (c _ _ : Int) : Int × Effects := exact c
/-- ACAS's new element: C where the old trits equal the expected value (R308). -/
def acasNew (c e old : Int) : Int × Effects := exact (if old = e then c else old)

/-- The new element of an atomic on its way, by its operation. -/
def atomicNew (op : Op) (f : Fields) : (c e old : Int) → Int × Effects :=
  match op with
  | .aadd => aaddNew f
  | .amin => aminNew
  | .amax => amaxNew
  | .afadd => afaddNew f
  | .afmin => afminNew f
  | .afmax => afmaxNew f
  | .acas => acasNew
  | _ => axchNew

/-- AADD (R308). -/
def execAadd (f : Fields) (s : State) : Host.Outcome State Fault Refusal := atomic .aadd f s (aaddNew f)
/-- AMIN (R308). -/
def execAmin (f : Fields) (s : State) : Host.Outcome State Fault Refusal := atomic .amin f s aminNew
/-- AMAX (R308). -/
def execAmax (f : Fields) (s : State) : Host.Outcome State Fault Refusal := atomic .amax f s amaxNew
/-- AFADD (R308). -/
def execAfadd (f : Fields) (s : State) : Host.Outcome State Fault Refusal := atomic .afadd f s (afaddNew f)
/-- AFMIN (R309). -/
def execAfmin (f : Fields) (s : State) : Host.Outcome State Fault Refusal := atomic .afmin f s (afminNew f)
/-- AFMAX (R309). -/
def execAfmax (f : Fields) (s : State) : Host.Outcome State Fault Refusal := atomic .afmax f s (afmaxNew f)
/-- AXCH (R308). -/
def execAxch (f : Fields) (s : State) : Host.Outcome State Fault Refusal := atomic .axch f s axchNew
/-- ACAS (R308). -/
def execAcas (f : Fields) (s : State) : Host.Outcome State Fault Refusal := atomic .acas f s acasNew

end Sys2Proof.Machine
end

