-- ==== Sys2Proof/Machine/Capsule.lean ====
section
/-! DEFINITION. Capsules: CAP.ENTER and CAP.LEAVE, step commits, applied stores, adoption and the rejoin
(R353 to R364). -/

namespace Sys2Proof.Machine

/-- The capsule-violation trap (R363). -/
def capTrap (sub : Int) : TrapInfo := { code := 9, sub := sub }

/-! ### The record -/

/-- Word 0 of a record (R354). -/
def capWord0 (state step position token : Int) : Word :=
  state * 3 ^ 26 + step * 3 ^ 21 + position * 3 ^ 17 + token

/-- Word 18 of a record (R354). -/
def capWord18 (width applied stores : Int) : Word := width * 3 ^ 26 + applied * 3 ^ 25 + stores * 3 ^ 22

/-- A record as one access reads it: its first device nonet, its words 0 to 18, and its page's leaf. -/
structure CapRecord where
  at0   : Nat
  words : List Word
  leaf  : Option Leaf := none
deriving DecidableEq, Repr

def CapRecord.word (c : CapRecord) (i : Nat) : Word := c.words.getD i 0
def CapRecord.state (c : CapRecord) : Int := trit (c.word 0) 26
def CapRecord.step (c : CapRecord) : Int := field (c.word 0) 21 5
def CapRecord.position (c : CapRecord) : Int := field (c.word 0) 17 4
def CapRecord.token (c : CapRecord) : Int := field (c.word 0) 0 17
def CapRecord.width (c : CapRecord) : Int := trit (c.word 18) 26
def CapRecord.applied (c : CapRecord) : Int := trit (c.word 18) 25
def CapRecord.stores (c : CapRecord) : Int := field (c.word 18) 22 3
def CapRecord.images (c : CapRecord) : List Int := (List.range 9).map fun i => c.word (7 + i)
/-- The device nonet at which word i begins. -/
def CapRecord.nonet (c : CapRecord) (i : Nat) : Nat := c.at0 + 3 * i

/-- A record holds no reserved value in words 0 and 18 (R363, sub-code 6; log 44, DEDUCED). -/
def CapRecord.legal (c : CapRecord) : Bool :=
  decide (0 ≤ c.step) && decide (c.step ≤ 81) && decide (0 ≤ c.position) && decide (c.position ≤ 27)
    && decide (0 ≤ c.stores) && decide (c.stores ≤ 9) && c.applied != -1 && field (c.word 18) 0 22 == 0

/-- What a capsule's access gives, or its trap with the entry of the leaf that its walk found (R376). -/
abbrev CapAccess (α : Type) := Except (TrapInfo × Option Nat) α

/-- The device nonet at which a capsule's word begins, and its page's leaf, for one of the kinds of access; the trap of
its checks where it may no longer be reached (R168, R377; log 89, DEDUCED). -/
def capsuleWord (s : State) (w : Who) (kinds : List AccKind) (a : Word) : CapAccess (Nat × Option Leaf) :=
  let trap (c n : Int) : CapAccess (Nat × Option Leaf) :=
    .error ({ code := c, sub := n, addr := a, base := true }, walkSlot s w.ctx (wrap 27 (a - 1)))
  match kinds.findSome? fun k => (resolve s w k (wrap 27 (a - 1))).trapCode with
  | some t => trap t.1 t.2
  | none => match resolve s w .read (wrap 27 (a - 1)) with
    | .ok (.dev j) l => .ok (j, l)
    | _ => trap 4 8

/-- The entries that the walks of some words' addresses read are corrected (R407). -/
def correctCapsule (s : State) (w : Who) (as : List Word) : State :=
  correctWalks s w.ctx (as.map fun a => wrap 27 (a - 1))

/-- The three words of a return slot and its marker (R355). -/
def slotAddrs (slot : Word) : List Word := (List.range 4).map fun (i : Nat) => wrap 27 (slot + 3 * (i : Int))

/-- The record at its home, as one access: the band's own version of its lines has been committed first (R358), wrong
words of its three sectors are corrected (R407), and the home keeps its response (R424). `issue` numbers the access. -/
def recordVia (kinds : List AccKind) (s : State) (w : Who) (record : Word) (issue : Nat := s.free) :
    CapAccess (State × CapRecord) :=
  (capsuleWord s w kinds (recordAddr record 0)).map fun x =>
    let j := x.1
    let s1 := openWords (touchLeaf s x.2) ((List.range 81).map (j + ·))
    let words := (List.range 19).map fun i => devWord s1 (j + 3 * i)
    (respond s1 (w.band.core.getD 0) issue [(.dev j, words)], { at0 := j, words := words, leaf := x.2 })

/-- The record as an access that reads it, and may write it, finds it: sub-code 1 of the protection trap without
permission to read, then sub-code 2 without permission to write (R377). -/
def recordAt (s : State) (w : Who) (record : Word) (issue : Nat := s.free) : CapAccess (State × CapRecord) :=
  recordVia [.read, .write] s w record issue

/-- A record in a poisoned sector: the trap names the sector's first word (R412, R413). -/
def recordPoison (s : State) (record : Word) (c : CapRecord) : Option TrapInfo :=
  ([0, 9, 18].find? fun (i : Nat) => s.poison.contains (sectorOf (c.nonet i))).map fun i =>
    { code := 15, sub := 1, addr := recordAddr record i, base := true }

/-- Direct writes of words of a record (R353, R358), which set its page's written trit (R376). -/
def putRecord (s : State) (w : Who) (c : CapRecord) (ws : List (Nat × Word)) : State :=
  markLeaf (directWords s w (ws.map fun x => (c.nonet x.1, x.2))) c.leaf

/-- The holder's identity: kernel; band, gang and slice; context (R354). -/
def identity (r : Run) : Word × Word × Word :=
  (r.kern.number, ((r.band.index : Int) + r.kern.launch.bandBase) * 3 ^ 8 + (gangOrder r : Int) * 27 + (r.id.part : Int),
   (r.ctx.number : Int) * 3 ^ 21)

def CapRecord.heldBy (c : CapRecord) (r : Run) : Bool :=
  c.word 1 == (identity r).1 && c.word 2 == (identity r).2.1 && field (c.word 3) 21 6 == (r.ctx.number : Int)

/-- A direct write of one word of a return slot, at its virtual address. -/
def directAt (s : State) (w : Who) (a v : Word) : CapAccess State :=
  (capsuleWord s w [.write] a).map fun x => markLeaf (respondTo (directWords s w [(x.1, v)]) w [.dev x.1]) x.2

/-- Direct writes of several words of a return slot. -/
def directAll (s : State) (w : Who) (ws : List (Word × Word)) : CapAccess State :=
  ws.foldlM (fun s x => directAt s w x.1 x.2) s

/-- A word of a return slot as its owner reads it; a poisoned one is consumed (R412). -/
def slotWord (s : State) (w : Who) (a : Word) : CapAccess (State × Word) :=
  (capsuleWord s w [.read] a).bind fun x =>
    let s1 := openWords (touchLeaf s x.2) ((List.range 3).map (x.1 + ·))
    if s1.poison.contains (sectorOf x.1) then .error ({ code := 15, sub := 1, addr := a, base := true }, x.2.map (·.slot))
    else .ok (respond s1 (w.band.core.getD 0) s.free [(.dev x.1, [devWord s1 x.1])], devWord s1 x.1)

/-- Three words of a return slot as its owner reads them, in order (R361). -/
def returnWords (s : State) (r : Run) (slot : Word) : CapAccess (State × List Word) :=
  [0, 1, 2].foldlM (fun (acc : State × List Word) (i : Nat) =>
    (slotWord acc.1 r.who (wrap 27 (slot + 3 * i))).map fun y => (y.1, acc.2 ++ [y.2])) (s, [])

/-- An instruction goes on with what a capsule's access gives, or takes its trap. -/
def Result.ofAccess {α : Type} (s : State) (x : CapAccess α) (k : α → Result) : Result :=
  match x with
  | .ok v => k v
  | .error e => .trap e.1 (touchSlot s e.2)

/-- The marker of a return slot (R355). -/
def markerAddr (slot : Word) : Word := wrap 27 (slot + 9)

/-- A pending store is applied as a plain store made directly (R358; log 46, DEDUCED). -/
def applyStore (s : State) (w : Who) (a v : Word) (word : Bool) : State :=
  let e := if word then wordElem 0 a 0 else nonetElem 0 a 0
  let ns := if word then [nonetOf v 0, nonetOf v 1, nonetOf v 2] else [nonetOf v 0]
  let s := correctWalks s w.ctx (e.nonets.map (·.1))
  match checkElems s w none .write word [e] with
  | .ok ps ls => respondTo (poke (markLeaves (markLeaves s ls 2) ls 1) w (ps.flatten.zip ns) true true) w ps.flatten
  | _ => s

/-- A pending store that is not known to be performed is applied again (R356). -/
def reapply (s : State) (w : Who) (c : CapRecord) : State :=
  if c.width ≠ 0 ∧ c.applied = 0 then applyStore s w (c.word 16) (c.word 17) (c.width == 1) else s

/-! ### Running the body -/

/-- The issuing slice as it enters or resumes a body. -/
def setCapsule (r : Run) (s : State) (k : List Int) (c : Capsule) : State :=
  let s1 := r.modGang s fun g => setKs g r.part.slices fun _ => k
  r.modPart (r.modSlices s1 fun x => { x with cap := some c }) fun p => { p with wait := .ready }

/-- A slice that is not in the body: its next issue at CAP.ENTER performs the rejoin (R361). -/
def toRejoin (r : Run) (s : State) : State :=
  r.modPart (r.modSlices s fun x => { x with cap := x.cap.map fun c =>
    { c with running := false, pending := none, apply := none } }) fun p => { p with wait := .ready }

/-- CAP.LEAVE from its second step on: the return slot, its marker, the free, and the rejoin (R360). -/
def leaveSteps (r : Run) (s : State) (record : Word) (token step : Int) (k : List Int) : Result :=
  let w := r.who
  Result.ofAccess s (recordAt s w record) fun (s0, c) =>
    let q := c.word 6
    let s0 := correctCapsule s0 w (slotAddrs q)
    Result.ofAccess s0 (directAll s0 w ([0, 1, 2].map fun (i : Nat) => (wrap 27 (q + 3 * i), k.getD i 0))) fun s1 =>
    Result.ofAccess s1 (directAt s1 w (markerAddr q) 1) fun s2 =>
    let s2 := commitVersion s2 r.id.band false
    Result.ofAccess s2 (recordAt s2 w record) fun (s3, c) =>
      if c.state = 1 ∧ c.token = token ∧ c.step = step then
        let s4 := putRecord s3 w c [(0, capWord0 0 0 0 token), (4, wrap 27 (c.word 4 + 1)), (18, 0)]
        .done (toRejoin r (wakeTethers s4 (c.nonet 0)))
      else .done (toRejoin r s3)

/-- The body runs from a record's position; at position 27 CAP.LEAVE goes on (R356, R360). -/
def enterBody (r : Run) (s : State) (c : CapRecord) (cap : Capsule) : Result :=
  let s1 := setCapsule r s c.images cap
  if c.position = 27 then leaveSteps r s1 cap.record cap.token cap.step c.images else .done s1

/-- What a slice knows of a record it has taken, adopted or reclaimed. -/
def capsuleOf (r : Run) (record slot : Word) (token : Int) (c : CapRecord) (skip : Bool) : Capsule :=
  { enter := r.slice.pc, record := record, slot := slot, token := token, step := c.step, position := c.position,
    body := c.word 5, stores := c.stores, pending := if skip then some .skip else none, apply := none, running := true,
    skipping := false }

/-- What a slice that has taken a free record knows of it. -/
def capsuleTaken (r : Run) (record slot : Word) (token : Int) (body : Word) : Capsule :=
  { enter := r.slice.pc, record := record, slot := slot, token := token, step := 0, position := 0, body := body,
    stores := 0, pending := none, apply := none, running := true, skipping := false }

/-- The argument registers sN to s(N + 8) (R356). -/
def capArgs (r : Run) (s : State) (f : Fields) : List Int :=
  match f.d with
  | .uni n => (List.range 9).map fun i => readWord r s (5 + i) (.uni (n + i))
  | _ => List.replicate 9 0

/-- One turn of the contention loop of R356, as one access. -/
def contend (r : Run) (s : State) (f : Fields) (record slot : Word) : Result :=
  let w := r.who
  Result.ofAccess s (recordAt s w record) fun (s1, c) =>
    match recordPoison s1 record c with
    | some t => .trap t s1
    | none =>
      let id := identity r
      let token := wrap 17 (c.token + 1)
      if c.state = 0 then
        let args := capArgs r s1 f
        let body := wrap 27 (r.slice.pc + 9 * f.imm)
        let ws : List (Nat × Word) := [(0, capWord0 1 0 0 token), (1, id.1), (2, id.2.1), (3, id.2.2), (5, body), (6, slot)]
          ++ (args.zipIdx.map fun x => (7 + x.2, x.1)) ++ [(18, 0)]
        let s2 := wakeTethers (putRecord s1 w c ws) (c.nonet 0)
        Result.ofAccess s2 (directAt s2 w (markerAddr slot) (-1)) fun s3 =>
        .done (setCapsule r s3 args (capsuleTaken r record slot token body))
      else if field (c.word 3) 21 6 ≠ (r.ctx.number : Int) then .trap (capTrap 9) s1
      else if c.state = -1 then
        let s2 := putRecord s1 w c [(0, capWord0 1 c.step c.position token), (1, id.1), (2, id.2.1)]
        let s2 := wakeTethers s2 (c.nonet 0)
        Result.ofAccess s2 (directAt s2 w (markerAddr slot) 0) fun s3 =>
        enterBody r (reapply s3 w c) c (capsuleOf r record slot token c false)
      else .wait (.tether (c.nonet 0) false) s1

/-! ### CAP.ENTER and CAP.LEAVE -/

/-- The record as CAP.ENTER's checks read it: whether its words 0 and 18 are legal. What cannot be reached or is
poisoned is judged later. -/
def enterRecord (s : State) (w : Who) (record : Word) : State × Bool :=
  match recordVia [] s w record with
  | .ok (s1, c) => (s1, (recordPoison s1 record c).isSome || c.legal)
  | .error e => (touchSlot s e.2, true)

/-- The checks of R356 made at issue, in their order; one that fails before the record is read leaves no trace (R381).
-/
def enterChecks (r : Run) (s : State) (f : Fields) (record slot : Word) (k : State → Result) : Result :=
  let w := r.who
  let body := wrap 27 (r.slice.pc + 9 * f.imm)
  let x := enterRecord (correctCapsule s w (recordAddr record 0 :: slotAddrs slot)) w record
  let high : Bool := match f.d with | .uni n => decide (234 < n) | _ => true
  if r.band.copy ≠ .unpaired then .trap (capTrap 11) s
  else if record % 81 ≠ 0 then .trap (capTrap 6) s
  else if !x.2 then .trap (capTrap 6) x.1
  else if ((body + 117) % 243 : Int) ≠ 0 then .trap (capTrap 7) x.1
  else if slot % 3 ≠ 0 ∨ high then .trap (capTrap 8) x.1
  else
    let words := record :: slotAddrs slot
    let check (acc : Except (TrapInfo × State) State) (a : Word) : Except (TrapInfo × State) State :=
      acc.bind fun s => match checkElems s w none .capsule true [wordElem 0 a 0] with
        | .ok _ ls => .ok (markLeaves s ls 2)
        | .trap t ls => .error ({ t with lanes := partLanes r }, markLeaves s ls 2)
        | .absent _ => .error ({ code := 4, sub := 8, addr := a, lanes := partLanes r }, s)
    match words.foldl check (.ok x.1) with
    | .error x => .trap x.1 x.2
    | .ok s => k s

/-- The issuing part divides into single slices, each of which is then to contend for the record (R356): it waits there,
woken, at CAP_RETRY. -/
def splitSingle (r : Run) (s : State) (la : Nat) : State :=
  let single (p : Part) : List Part :=
    if p.slices.head? = some r.id.part then
      p.slices.map fun j => { p with slices := [j], formed := s.free, la := la, wait := .tether 0 true }
    else [p]
  r.modGang s fun g => { g with parts := sortParts (g.parts.flatMap single) }

/-- CAP.ENTER of a slice that is not in capsule mode (R356). -/
def freshEnter (r : Run) (s : State) (f : Fields) : Result :=
  let record := readWord r s 0 f.a
  let slot := readWord r s 1 f.b
  enterChecks r s f record slot fun s =>
    let s1 := commitVersion s r.id.band false
    if 1 < r.part.slices.length then .done (splitSingle r s1 f.la) else contend r s1 f record slot

/-- The rejoin of R361, as the slice's CAP.ENTER issues again (log 45, DEDUCED). -/
def rejoin (r : Run) (s : State) (f : Fields) (own : Capsule) : Result :=
  let w := r.who
  let s := correctCapsule s w (recordAddr own.record 0 :: slotAddrs own.slot)
  Result.ofAccess s (recordVia [.read] s w own.record) fun (s1, c) =>
    match recordPoison s1 own.record c with
    | some t => .trap t s1
    | none =>
      if c.state ≠ 0 ∧ c.heldBy r then
        if own.skipping ∧ 81 ≤ c.step then .trap (capTrap 4) s1
        else if own.skipping ∧ 26 ≤ c.position then .trap (capTrap 3) s1
        else
          Result.ofAccess s1 (recordAt s1 w own.record) fun _ =>
          let s2 := putRecord s1 w c [(0, capWord0 1 c.step c.position c.token)]
          let s3 := reapply (if c.state = 1 then s2 else wakeTethers s2 (c.nonet 0)) w c
          let cap := { capsuleOf r own.record own.slot c.token c own.skipping with enter := own.enter }
          if own.skipping then
            .step .skip (setCapsule r s3 c.images cap)
          else enterBody r s3 c cap
      else
        Result.ofAccess s1 (slotWord s1 w (markerAddr own.slot)) fun (s1, marker) =>
        if marker = 1 then
          Result.ofAccess s1 (returnWords s1 r own.slot) fun (s2, ks) =>
          Result.ofAccess s2 (directAt s2 w (markerAddr own.slot) 0) fun s3 =>
          .commit [] (r.modSlices (r.modGang s3 fun g => setKs g r.part.slices fun x => ks ++ x.k.drop 3) fun x =>
            { x with cap := none })
        else if marker = -1 ∧ c.state ≠ 0 then .wait (.tether (c.nonet 0) false) s1
        else freshEnter r (r.modSlices s1 fun x => { x with cap := none }) f

/-- CAP.ENTER (R356, R361). -/
def execCapEnter (f : Fields) (s : State) : Host.Outcome State Fault Refusal :=
  runOp .capEnter f s fun r =>
    match r.slice.cap with
    | some c => rejoin r s f c
    | none => freshEnter r s f

/-- CAP.LEAVE is a body step (R357, R360); elsewhere it is a violation. -/
def execCapLeave (f : Fields) (s : State) : Host.Outcome State Fault Refusal :=
  runOp .capLeave f s fun r => if r.body then .step .leave s else .trap (capTrap 10) s

/-! ### Events -/

/-- A slice in its capsule, for an event. -/
def capsuleRun (s : State) (p : PartId) (ok : Wait → Bool) : Option (Run × Capsule) :=
  (waitingRun s p ok).bind fun r => r.slice.cap.map fun c => (r, c)

/-- The words that a step's commit writes beside step, position and word 18's applied trit, with the position it
leaves (R358). -/
def stepWords (c : Capsule) (rec : CapRecord) : CapEffect → Int × List (Nat × Word)
  | .reg k v _ => (c.position + 1, [(7 + k, v), (18, capWord18 rec.width (if rec.width = 0 then rec.applied else 1) rec.stores)])
  | .branch q => (q, [(18, capWord18 rec.width (if rec.width = 0 then rec.applied else 1) rec.stores)])
  | .store a v word =>
    (c.position + 1, [(16, a), (17, v), (18, capWord18 (if word then 1 else -1) 0 (rec.stores + 1))])
  | .leave => (27, [(18, capWord18 rec.width (if rec.width = 0 then rec.applied else 1) rec.stores)])
  | .skip => (c.position + 1, [])

/-- The slice after its step has committed. -/
def afterStep (c : Capsule) (e : CapEffect) (position : Int) (x : Slice) : Slice :=
  let c' := { c with step := c.step + 1, position := position, pending := none }
  match e with
  | .reg _ _ _ => { x with cap := some c', issued := none }
  | .store _ _ _ => { x with cap := some { c' with stores := c.stores + 1, apply := some e }, issued := none }
  | _ => { x with cap := some c' }

/-- The register that a step has written (R74). -/
def stepReg (r : Run) (s : State) : CapEffect → State
  | .reg k v _ => r.modGang s fun g => setK g r.part.slices k fun _ => v
  | _ => s

/-- What a committed step moves beside the record: a saturation (R216). -/
def CapEffect.effects : CapEffect → Effects
  | .reg _ _ true => .clamped
  | _ => .none

/-- A committed body step counts as an instruction of the part, for its claims and its debug step; the skip of a
trapping step is that of the TRET (R86, R387). -/
def stepPart (e : CapEffect) (p : Part) : Part :=
  if e = .skip then p
  else { p with claims := countClaims p.claims, stepping := if p.stepping = 2 then 1 else p.stepping }

/-- The home of a device nonet can send a response to a part's die (R424). -/
def homeAnswers (s : State) (r : Run) (j : Nat) : Bool := roomFor s (homeOf j) (planeOf s j) (dieOf r.core)

/-- The home of the word at a capsule's address can send a response. -/
def wordAnswers (s : State) (r : Run) (a : Word) : Bool :=
  match resolve s r.who .write a with
  | .ok (.dev j) _ => homeAnswers s r j
  | _ => true

/-- A step that stands commits: record, counts, registers and slices are as after it (R358). -/
def commitStep (s : State) (r : Run) (c : Capsule) (rec : CapRecord) (e : CapEffect) : State :=
  let x := stepWords c rec e
  let s1 := putRecord s r.who rec ((0, capWord0 1 (c.step + 1) x.1 c.token) :: x.2)
  r.modPart (r.modSlices (stepReg r (applyEffects r s1 0 e.effects) e) (afterStep c e x.1)) (stepPart e)

/-- CAP_STEP_COMMIT: a body step commits into the record; where the check fails the slice rejoins (R358). The
acknowledgement returns with it (R298), once the home can send it (R424). -/
def execCapStepCommit (p : PartId) (s : State) : Host.Outcome State Fault Refusal :=
  match capsuleRun s p (· == .capCommit) with
  | none => .next s
  | some (r, c) =>
    if !wordAnswers s r (recordAddr c.record 0) then .next s
    else
    let s := correctCapsule (r.modGang s fun g => { g with acks := g.acks - 1 }) r.who [recordAddr c.record 0]
    match c.pending, recordAt s r.who c.record c.sent with
    | none, _ => .next (toRejoin r s)
    | some _, .error e => .next (finishWaiting s r (.trap e.1 (touchSlot s e.2)))
    | some e, .ok (s1, rec) =>
      match recordPoison s1 c.record rec with
      | some t => .next (finishWaiting s1 r (.trap t s1))
      | none =>
        let stands := decide (rec.state = 1 ∧ rec.token = c.token ∧ rec.step = c.step)
        if stands then
          let s2 := commitStep s1 r c rec e
          match e with
          | .store _ _ _ => .next (r.modPart s2 fun q => { q with wait := .capApply })
          | .leave => .next (finishWaiting s2 r (leaveSteps r s2 c.record c.token (c.step + 1) r.slice.k))
          | _ => .next (r.modPart s2 fun q => { q with wait := .ready })
        else .next (toRejoin r s1)

/-- CAP_STORE_APPLY: the committed store is applied and acknowledged (R358), once its home can send the response (R424).
-/
def execCapStoreApply (p : PartId) (s : State) : Host.Outcome State Fault Refusal :=
  match capsuleRun s p (· == .capApply) with
  | none => .next s
  | some (r, c) =>
    let ready : Bool := match c.apply with | some (.store a _ _) => wordAnswers s r a | _ => true
    let s1 := match c.apply with
      | some (.store a v word) => applyStore s r.who a v word
      | _ => s
    if !ready then .next s
    else .next (r.modPart (r.modSlices s1 fun x => { x with cap := some { c with apply := none } }) fun q => { q with wait := .ready })

/-- The CAP.ENTER at which a slice waits. -/
def enterInstr (s : State) (r : Run) : Option Fields :=
  let ws := instrWords s r
  match decode { capsule := r.capsule, grant := r.gang.grant } ws.1 ws.2.1 ws.2.2 with
  | .ok (.capEnter f) => some f
  | _ => none

/-- A slice that was tethered goes through the loop of R356 again, or through that of R361. -/
def tryAgain (r : Run) (s : State) (f : Fields) : Result :=
  match r.slice.cap with
  | some c => rejoin r s f c
  | none =>
    let record := readWord r s 0 f.a
    let slot := readWord r s 1 f.b
    contend r (correctCapsule s r.who (recordAddr record 0 :: slotAddrs slot)) f record slot

/-- CAP_RETRY: a tethered contender whose record has changed state contends again (R356, R361). One whose gang has been
evicted does so when its CAP.ENTER issues after the resumption. -/
def execCapRetry (p : PartId) (s : State) : Host.Outcome State Fault Refusal :=
  match waitingRun s p fun w => match w with | .tether _ woken => woken | _ => false with
  | some r => match if r.gang.residence = .resident then enterInstr s r else none with
    | some f => .next (finishWaiting s r (tryAgain r s f))
    | none => .next (reissue s p)
  | none => .next s

/-- CAP_MARK_DESCHEDULED: the core of a holder that left the body marks its record (R359). -/
def execCapMarkDescheduled (p : PartId) (s : State) : Host.Outcome State Fault Refusal :=
  match s.run p with
  | none => .next s
  | some r => .next (match r.slice.cap with
    | some c => if c.running then s else markRecord s r.who c
    | none => s)

/-- REJOIN: a slice in capsule mode that has come back to its CAP.ENTER rejoins (R361). -/
def execRejoin (p : PartId) (s : State) : Host.Outcome State Fault Refusal :=
  match capsuleRun s p (· == .ready) with
  | none => .next s
  | some (r, c) =>
    if c.running ∨ r.slice.pc ≠ c.enter then .next s
    else
      match enterInstr s r with
      | some f => .next (keepIssue s (finish { s with issue := none } r f.la (instrWords s r) (rejoin r s f c)))
      | none => .next s

end Sys2Proof.Machine
end

