-- ==== Sys2Proof/Machine/Control.lean ====
section
/-! DEFINITION. Branches, calls and returns, REGANG and EXIT, mask instructions, LANEID and the reads of machine
state (R134 to R149, R53 to R57). -/

namespace Sys2Proof.Machine

/-! ### Branches -/

/-- The target of a branch (R134). -/
def branchTarget (base imm : Word) : Word := wrap 27 (base + 9 * imm)

/-- The lanes of a set of slices. -/
def slicesMask (sl : List Nat) : Int := lanesWord (lanesOf sl)

/-- A branch that the slices `taken` take (R134, R135, R53). In a capsule body the step's new position is judged
against the body (R357) and committed into the record. A taken branch of a body whose target is both misaligned and
outside the body raises the misaligned-target trap: the spec orders the two in no place (log 108, DESIGN CHOICE). -/
def branchTo (r : Run) (s : State) (dests : List Opnd) (target : Word) (taken : Nat → Bool) : Result :=
  let sl := r.part.slices.filter taken
  match r.slice.cap with
  | some c =>
    if c.running then
      let pos := if sl.isEmpty then c.position + 1 else (target - c.body) / 9
      if ¬ sl.isEmpty ∧ target % 9 ≠ 0 then .trap { code := 2, sub := 1, addr := target, lanes := slicesMask sl } s
      else if pos < 0 ∨ 26 < pos ∨ (¬ sl.isEmpty ∧ wrap 27 (c.body + 9 * pos) ≠ target) then .trap { code := 9, sub := 3 } s
      else if 81 ≤ c.step then .trap { code := 9, sub := 4 } s
      else .step (.branch pos) s
    else if ¬ sl.isEmpty ∧ target % 9 ≠ 0 then .trap { code := 2, sub := 1, addr := target, lanes := slicesMask sl } s
    else .branch dests (r.part.slices.map fun j => (j, if taken j then target else wrap 27 (r.pc + 9))) s
  | none =>
    if ¬ sl.isEmpty ∧ target % 9 ≠ 0 then .trap { code := 2, sub := 1, addr := target, lanes := slicesMask sl } s
    else .branch dests (r.part.slices.map fun j => (j, if taken j then target else wrap 27 (r.pc + 9))) s

/-- The base of BR.ANY, BR.ALL and CALL: the program counter when A names s0 (R134). -/
def branchBase (r : Run) (s : State) (f : Fields) : Word :=
  if f.a = .uni 0 then r.pc else readWord r s 0 f.a

/-- The lanes of slice j that satisfy the condition on the selected mask (R135). -/
def sliceLanes (r : Run) (s : State) (f : Fields) (j : Nat) : List Bool :=
  let m := stale r s 4 (.mask f.mask) (mget r.gang f.mask)
  [3 * j, 3 * j + 1, 3 * j + 2].map fun l => condHolds f.cond (lane m l)

/-- BR.ANY: each slice with a lane that satisfies the condition (R135). -/
def execBrAny (f : Fields) (s : State) : Host.Outcome State Fault Refusal :=
  runOp .brAny f s fun r =>
    branchTo r s [] (branchTarget (branchBase r s f) f.imm) fun j => (sliceLanes r s f j).any id

/-- BR.ALL: each slice whose three lanes satisfy it (R135). -/
def execBrAll (f : Fields) (s : State) : Host.Outcome State Fault Refusal :=
  runOp .brAll f s fun r =>
    branchTo r s [] (branchTarget (branchBase r s f) f.imm) fun j => (sliceLanes r s f j).all id

/-- BR.U: the whole set, on the sign of a word (R135). -/
def execBrU (f : Fields) (s : State) : Host.Outcome State Fault Refusal :=
  runOp .brU f s fun r =>
    branchTo r s [] (branchTarget r.pc f.imm) fun _ => condHolds f.cond (sgn (uniA r s f))

/-- CALL: an unconditional branch that writes PC + 9 into D; from a part, the parted-write trap before every other
check (R136). -/
def execCall (f : Fields) (s : State) : Host.Outcome State Fault Refusal :=
  runOp .call f s fun r =>
    Result.orParted r s <|
      match branchTo r s [f.d] (branchTarget (branchBase r s f) f.imm) (fun _ => true) with
      | .branch d t s => match f.d with
        | .uni n => .branch d t (r.modGang s fun g => uset g n (wrap 27 (r.pc + 9)))
        | _ => .branch d t s
      | x => x

/-- RET: an unconditional branch to A plus an offset, s0 included (R134, R137). -/
def execRet (f : Fields) (s : State) : Host.Outcome State Fault Refusal :=
  runOp .ret f s fun r => branchTo r s [] (branchTarget (readWord r s 0 f.a) f.imm) fun _ => true

/-! ### REGANG and EXIT -/

/-- The gang re-formed (R55): one part of every live slice, at the next instruction, with the last-result file of
the part that holds the lowest-numbered live slice (R69). The REGANG counts as the instruction of a stepping part
(R387), and a handler that passed it goes on (R385). -/
def reform (g : Gang) : Gang :=
  let live := toSet (g.parts.flatMap (·.slices))
  let first := g.parts.find? fun p => p.slices.head? == live.head?
  let hist := match first with | some p => p.hist | none => []
  let claims := match first with | some p => p.claims | none => []
  let histBad := match first with | some p => p.histBad | none => []
  let handler := g.parts.find? fun p => p.handling.isSome
  { modSlicesG g live (fun x => { x with pc := wrap 27 (x.pc + 9) }) with
    parts := [{ slices := live, hist := hist, histBad := histBad, wait := .ready, granted := false, forwarded := none,
                la := 0, waitCount := 0, starving := none, claims := countClaims claims,
                stepping := if g.parts.any (·.stepping != 0) then 1 else 0,
                handling := handler.bind (·.handling), trapped := (handler.map (·.trapped)).getD []
                count := (g.parts.map (·.count)).foldl (· + ·) 1 }] }

/-- The program counters of the live slices. -/
def livePcs (g : Gang) : List Word := g.parts.flatMap fun p => p.slices.map fun j => ((g.slices[j]?).map (·.pc)).getD 0

def Wait.atRegang : Wait → Bool
  | .regang _ => true
  | _ => false

/-- Every part of the gang waits at REGANG. -/
def allAtRegang (g : Gang) : Bool := !g.parts.isEmpty && g.parts.all fun p => p.wait.atRegang

/-- Whether the waiting slices are at one REGANG instruction. -/
def sameRegang (g : Gang) : Bool := match livePcs g with
  | [] => true
  | p :: ps => ps.all (· == p)

/-- Parts that wait at REGANG are no longer marked as having arrived last. -/
def unmarkRegang (g : Gang) : Gang :=
  { g with parts := g.parts.map fun p => if p.wait.atRegang then { p with wait := .regang false } else p }

/-- REGANG: on a gang that is not parted it takes one issue cycle; a part waits there (R55, R138). REGANG_REFORM
completes the set. -/
def execRegang (f : Fields) (s : State) : Host.Outcome State Fault Refusal :=
  runOp .regang f s fun r =>
    if r.gang.parted then .wait (.regang true) (r.modGang s unmarkRegang) else .commit [] s

/-- Slices of a part end (R139). A part left alone is no longer one of several; with no live slice the gang has
exited (R62). -/
def exitSlices (g : Gang) (first : Nat) : Gang :=
  match partOf g first with
  | none => g
  | some p =>
    let g1 := modSlicesG g p.slices fun x => { x with live := false, cap := none }
    let rest := g1.parts.filter fun q => q.slices.head? != some first
    { g1 with parts := rest, residence := if rest.isEmpty then .exited else g1.residence }

/-- A gang that has exited and created nodes that stalled with nobody waiting: their faults stop the kernel
(R192). -/
def unwaitedFault (b : Band) (gang : Nat) : Option TrapInfo :=
  (b.nodes.find? fun n => n.gang == gang && n.state == .stalled).bind (·.fault)

/-- A record that has closed is no part's open record any more. -/
def recordClosed (rec : Option Word) (g : Gang) : Gang :=
  { g with parts := g.parts.map fun p => if p.handling = rec then { p with handling := none } else p }

/-- EXIT: the live slices of the part end; in a handler its record closes with outcome −2 (R139, R385), and a record
that cannot be written stops the kernel (R384). The stop of an unwaited node fault writes its record once the stores
are acknowledged (R192, R384). -/
def execExit (f : Fields) (s : State) : Host.Outcome State Fault Refusal :=
  runOp .exit f s fun r =>
    let left := r.gang.parts.filter fun q => q.slices.head? != some r.id.part
    let fault := if left.isEmpty then unwaitedFault r.band r.id.gang else none
    if fault.isSome && owes s r then .wait .acks s
    else
      match closeOpen s r (-2) with
      | .error s => .done (stopKernel s r.kern.uid 16 none)
      | .ok s1 =>
        let s2 := r.modGang s1 fun g => unmarkRegang (exitSlices (recordClosed r.part.handling g) r.id.part)
        match fault with
        | some t => .done (stopWithRecord s2 r { t with code := 16, sub := 4 } r.pc (0, 0, 0) (0, 0) none)
        | none => .done s2

/-! ### Masks -/

/-- A source modifier on each trit of a mask (R140). -/
def modMask (m : Modifier) (v : Lanes) : Lanes := v.map (modInt m)

def maskSrc (r : Run) (s : State) (pos : Nat) (o : Opnd) (m : Modifier) : Lanes := modMask m (readLanes r s .t27 pos o)

/-- Source B of MLOG: a mask, or trit l of the immediate as lane l (R141). -/
def maskB (r : Run) (s : State) (f : Fields) : Lanes :=
  if isImm f then modMask f.modB (mkLanes fun l => trit f.imm l) else maskSrc r s 1 f.b f.modB

def mlog (op : Op) (f : Fields) (s : State) (g : Int → Int → Int) : Host.Outcome State Fault Refusal :=
  runOp op f s fun r =>
    let a := maskSrc r s 0 f.a f.modA
    let b := maskB r s f
    writeMask r s f.d (lanesOf r.part.slices) fun l => g (lane a l) (lane b l)

/-- MLOG.MIN (R141). -/
def execMlogMin (f : Fields) (s : State) : Host.Outcome State Fault Refusal := mlog .mlogMin f s min
/-- MLOG.MAX (R141). -/
def execMlogMax (f : Fields) (s : State) : Host.Outcome State Fault Refusal := mlog .mlogMax f s max
/-- MLOG.CON (R141). -/
def execMlogCon (f : Fields) (s : State) : Host.Outcome State Fault Refusal := mlog .mlogCon f s consensus

/-- MMOV: mask to mask (R142). -/
def execMmov (f : Fields) (s : State) : Host.Outcome State Fault Refusal :=
  runOp .mmov f s fun r =>
    let a := maskSrc r s 0 f.a f.modA
    writeMask r s f.d (lanesOf r.part.slices) fun l => lane a l

/-- MMOV.IN: the trits of a word, after its modifier, to a mask (R87, R142). -/
def execMmovIn (f : Fields) (s : State) : Host.Outcome State Fault Refusal :=
  runOp .mmovIn f s fun r =>
    let w := if isImm f then modInt f.modB f.imm else modInt f.modA (readWord r s 0 f.a)
    writeMask r s f.d (lanesOf r.part.slices) fun l => trit w l

/-- MMOV.OUT: a mask's trits in the lanes of the issuing slices, as a word (R142). -/
def execMmovOut (f : Fields) (s : State) : Host.Outcome State Fault Refusal :=
  runOp .mmovOut f s fun r =>
    let a := maskSrc r s 0 f.a f.modA
    let w := ofTrits ((List.range 27).map fun l => if lanesOf r.part.slices l then lane a l else 0)
    writeEither r s f.d w fun _ => w

/-- The condition that MCNT's variant names (R126). -/
def mcntCond (f : Fields) : Cond := (condOfCode (field f.var 0 2)).getD .always

/-- MCNT: how many lanes of the issuing slices satisfy a condition (R143). -/
def execMcnt (f : Fields) (s : State) : Host.Outcome State Fault Refusal :=
  runOp .mcnt f s fun r =>
    let a := maskSrc r s 0 f.a f.modA
    let n : Int := ((List.range 27).filter fun l => lanesOf r.part.slices l && condHolds (mcntCond f) (lane a l)).length
    writeEither r s f.d n fun _ => n

/-- LANEID: base plus lane number, or element number for T9 (R144). -/
def execLaneid (f : Fields) (s : State) : Host.Outcome State Fault Refusal :=
  runOp .laneid f s fun r =>
    let a := if isImm f then List.replicate 27 f.imm else readLanes r s f.ty 0 f.a
    perElem r s f 0 fun l i =>
      match f.ty with
      | .t9 => exact (wrap 9 (elem .t9 (lane a l) i + 3 * l + i))
      | _ => exact (wrap 27 (lane a l + l))

/-! ### Machine state -/

/-- CYCLE: the core's cycle counter (R146). -/
def execCycle (f : Fields) (s : State) : Host.Outcome State Fault Refusal :=
  runOp .cycle f s fun r =>
    let w := s.cycle r.core
    writeEither r s f.d w fun _ => w

/-- The gang status word (R77, R147), with the capsule-mode trit of the lowest-numbered issuing slice. -/
def statusWord (r : Run) : Word :=
  let g := r.gang
  ofTrits [g.step, g.sticky, if g.parted then 1 else 0, if r.capsule then 1 else 0, g.locksLost, g.versioned, g.paired, g.trapEnable]

/-- STATR (R147). -/
def execStatr (f : Fields) (s : State) : Host.Outcome State Fault Refusal :=
  runOp .statr f s fun r => writeEither r s f.d (statusWord r) fun _ => statusWord r

/-- STATC: clears sticky saturation and locks-lost (R148); a trit that hardware set in this local cycle stays +1
(R78). -/
def execStatc (f : Fields) (s : State) : Host.Outcome State Fault Refusal :=
  runOp .statc f s fun r =>
    Result.orParted r s (.commit [] (r.modGang s fun g => { g with
      sticky := if trit f.imm 1 = 1 ∧ ¬ g.stickyNow then 0 else g.sticky
      locksLost := if trit f.imm 4 = 1 ∧ ¬ g.locksNow then 0 else g.locksLost }))

/-- A word of each slice, in its lanes. -/
def sliceWord (r : Run) (g : Slice → Word) (l : Nat) : Word :=
  match r.gang.slices[l / 3]? with
  | some x => g x
  | none => 0

/-- TREG: each slice's trap register en, with n = the variant's [17:16] + 4 (R149). -/
def execTreg (f : Fields) (s : State) : Host.Outcome State Fault Refusal :=
  runOp .treg f s fun r =>
    let n := (field f.var 0 2 + 4).toNat
    writeEither r s f.d (r.slice.e.getD n 0) (sliceWord r fun x => x.e.getD n 0)

end Sys2Proof.Machine
end

