-- ==== Sys2Proof/Machine/Convert.lean ====
section
/-! DEFINITION. Conversions and L3 codes, group −1 (R239 to R245). -/

namespace Sys2Proof.Machine

/-- The gang's dither phase advances when a tile-tagged instruction commits (R211). -/
def advancePhase (r : Run) (s : State) : State := r.modGang s fun g => { g with dither := (g.dither + 1) % 27 }

/-- 27·d at a position with the gang's phase, or 0 when not dithered (R210, R211). -/
def ditherFrom (phase : Nat) (on : Bool) (pos : Nat) : Int := if on then dither27 ((pos + phase) % 27) else 0

/-- With the gang's phase. -/
def ditherAt (r : Run) (on : Bool) (pos : Nat) : Int := ditherFrom r.gang.dither on pos

/-! ### CVT -/

/-- A float converted to an integer of n trits, scaled once (R240; log 96, DEDUCED). -/
def floatToInt (n : Nat) (c : Clamp) (k : Int) (x : FVal) : Int × Effects :=
  match scaleFloat k x with
  | .nan p m => (0, { nan := 1, invalid := signallers [.nan p m] })
  | .inf s => (s * half n, .clamped)
  | .fin a d => clampInt n c (nearDiv a d)

/-- One element converted from a type to another (R239). -/
def convertElem (src dst : Ty) (c : Clamp) (k : Int) (dither : Int) (x : Int) : Int × Effects :=
  if isFloat src then
    let v := fval (fmtOf src) x
    if isFloat dst then floatDest (fmtOf dst) c k v (signallers [v]) dither
    else floatToInt (etrits dst) c k v
  else if isFloat dst then floatDest (fmtOf dst) c k (.fin x 1) 0 dither
  else intDest (etrits dst) c k x

/-- The source type that CVT's variant names (R239). -/
def cvtSrc (f : Fields) : Ty := (tyOfCode (field f.var 0 2)).getD .t27

/-- CVT (R239, R240). -/
def execCvt (f : Fields) (s : State) : Host.Outcome State Fault Refusal :=
  runOp .cvt f s fun r =>
    let src := cvtSrc f
    let dst := f.ty
    let on := trit f.var 3 == 1
    let sub := (trit f.var 2 + 1).toNat
    let a := vecA r s src f
    let old := regLanes r dst f.d
    let conv (x : Int) (pos : Nat) : Int × Effects := convertElem src dst f.clamp f.scale (ditherAt r on pos) x
    let s1 := if on then advancePhase r s else s
    keepsOld r s f.d (fun l => decide (elems src < elems dst) && activeLanes r s f l) <| perLane r s1 f (tidOf f) fun l =>
      if elems src = elems dst then
        laneElems dst fun i => conv (elem src (lane a l) i) (if elems dst = 1 then l else 3 * l + i)
      else if elems dst = 1 then conv (elem src (lane a l) sub) (3 * l + sub)
      else
        let v := conv (lane a l) (3 * l + sub)
        (putElem dst (lane old l) sub v.1, v.2)

/-! ### PACK and UNPK -/

/-- PACK: trits [8:0] of a, b and c as the three sub-elements (R241). -/
def execPack (f : Fields) (s : State) : Host.Outcome State Fault Refusal :=
  runOp .pack f s fun r =>
    let a := vecA r s f.ty f
    let b := vecB r s f.ty f
    let c := vecC r s f.ty f
    perLane r s f 0 fun l => exact (wordOf (nonetOf (lane a l) 0) (nonetOf (lane b l) 0) (nonetOf (lane c l) 0))

/-- UNPK: one raw sub-element or code as an integer word (R241). -/
def execUnpk (f : Fields) (s : State) : Host.Outcome State Fault Refusal :=
  runOp .unpk f s fun r =>
    let v := field f.var 2 2
    let i := (v + if f.ty = .l3 then 4 else 1).toNat
    let a := readLanes r s f.ty 0 f.a
    perLane r s f 0 fun l => exact (elem f.ty (lane a l) i)

/-! ### L3 -/

/-- The product of two codes narrowed to L3 (R242, R209). -/
def l3Mul (c : Clamp) (k a b : Int) : Int × Effects :=
  let q := l3Square a
  let p := l3Square b
  l3Dest c k (sgn a * sgn b) (q.1 * p.1) (q.2 * p.2)

/-- LMUL: nine code pairs per lane (R242). -/
def execLmul (f : Fields) (s : State) : Host.Outcome State Fault Refusal :=
  runOp .lmul f s fun r => binary r s f (tidOf f) (l3Mul f.clamp f.scale)

/-- LCMP: the sign of each code difference (R243). -/
def execLcmp (f : Fields) (s : State) : Host.Outcome State Fault Refusal :=
  runOp .lcmp f s fun r => binary r s f 0 fun a b => exact (cmpInt a b)

/-- A code's value times a float times 3^k, narrowed once and clamped, under R206 (R244, R270). -/
def l3TimesFloat (F : Fmt) (c : Clamp) (k code : Int) (b : FVal) : Int × Effects :=
  match b with
  | .nan p m => floatDest F c k (.nan p m) (signallers [.nan p m])
  | .inf s => floatDest F c k (if code = 0 then qnan F else .inf (s * sgn code)) 0
  | .fin n d =>
    if code = 0 ∨ n = 0 then (0, .none)
    else
      let q := l3Square code
      let num := q.1 * n.natAbs ^ 2
      let den := q.2 * d ^ 2
      let num := if 0 ≤ k then num * 9 ^ k.toNat else num
      let den := if 0 ≤ k then den else den * 9 ^ (-k).toNat
      clampFloat F c (narrowRoot F F.p (sgn n * sgn code) num den)

/-- LEXP: selected codes times a scale as floats (R244). -/
def execLexp (f : Fields) (s : State) : Host.Outcome State Fault Refusal :=
  runOp .lexp f s fun r =>
    let F := fmtOf f.ty
    let a := vecA r s .l3 f
    let b := vecB r s f.ty f
    let v := field f.var 0 4
    let first := if f.ty = .f9 then 3 * (v + 1).toNat else (v + 4).toNat
    perElem r s f (tidOf f) fun l j =>
      l3TimesFloat F f.clamp f.scale (elem .l3 (lane a l) (first + j)) (fval F (elem f.ty (lane b l) j))

/-- One float element quantised against a given scale (R245). -/
def quantiseElem (F : Fmt) (dither : Int) (x sc : Int) : Int × Effects :=
  let v := fval F x
  let w := fval F sc
  let inv := signallers [v, w]
  match v, w with
  | .fin n d, .fin m e =>
    if m = 0 then (0, { nan := 1, invalid := inv })
    else if n = 0 then (0, .none)
    else
      let r := l3Quantise (sgn n * sgn m) ((n.natAbs * e) ^ 2) ((m.natAbs * d) ^ 2) dither
      (r.1, r.2)
  | .inf t, .fin m _ => if m = 0 then (0, { nan := 1 }) else (t * sgn m * 13, { sat := 1 })
  | _, _ => (0, { nan := 1, invalid := inv })

/-- LQNT: float elements quantised into codes of D (R245). -/
def execLqnt (f : Fields) (s : State) : Host.Outcome State Fault Refusal :=
  runOp .lqnt f s fun r =>
    let F := fmtOf f.ty
    let on := trit f.var 3 == 1
    let v := field f.var 0 3
    let n := elems f.ty
    let first := if f.ty = .f9 then 3 * (v + 1).toNat else (v + 4).toNat
    let a := vecA r s f.ty f
    let b := vecB r s f.ty f
    let old := regLanes r .l3 f.d
    let s1 := if on then advancePhase r s else s
    keepsOld r s f.d (activeLanes r s f) <| perLane r s1 f (tidOf f) fun l =>
      (List.range n).foldl (fun (acc : Int × Effects) j =>
        let pos := if n = 1 then l else 3 * l + j
        let q := quantiseElem F (ditherAt r on pos) (elem f.ty (lane a l) j) (elem f.ty (lane b l) j)
        (putElem .l3 acc.1 (first + j) q.1, acc.2.add q.2)) (lane old l, Effects.none)

end Sys2Proof.Machine
end

