-- ==== Sys2Proof/Machine/CrossLane.lean ====
section
/-! DEFINITION. Cross-lane instructions, group 0 (R246 to R251). -/

namespace Sys2Proof.Machine

/-- E, the number of elements of the window (R222). -/
def windowSize (r : Run) (ty : Ty) : Nat := 3 * r.gang.width * elems ty

/-- Element x of a register's value, x counted over the window (R222). -/
def elemAt (ty : Ty) (v : Lanes) (x : Nat) : Int := elem ty (lane v (x / elems ty)) (x % elems ty)

/-- Element y of the window, 0 outside it. -/
def elemOr0 (ty : Ty) (v : Lanes) (size : Nat) (y : Int) : Int :=
  if 0 ≤ y ∧ y < size then elemAt ty v y.toNat else 0

/-- The single index of SLIDE, BCAST, VEXT and VINS: one integer in every type (R246). -/
def indexB (r : Run) (s : State) (f : Fields) : Int := if isImm f then f.imm else readWord r s 1 f.b

/-- A form that moves elements raw: each element of the active lanes receives one value (R246). -/
def moveElems (r : Run) (s : State) (f : Fields) (g : Nat → Int) : Result :=
  perElem r s f 0 fun l i => exact (g (l * elems f.ty + i))

/-- SLIDE in its three modes; `beyond x y` gives the element for a source position y outside the window (R247). -/
def slideOp (op : Op) (f : Fields) (s : State) (beyond : (a c : Lanes) → (size x : Nat) → (y : Int) → Int) :
    Host.Outcome State Fault Refusal :=
  runOp op f s fun r =>
    let a := readLanes r s f.ty 0 f.a
    let c := readLanes r s f.ty 2 f.c
    let k := indexB r s f
    let size := windowSize r f.ty
    moveElems r s f fun x =>
      let y : Int := x + k
      if 0 ≤ y ∧ y < size then elemAt f.ty a y.toNat else beyond a c size x y

/-- SLIDE: A and C as one run of elements (R247). -/
def execSlide (f : Fields) (s : State) : Host.Outcome State Fault Refusal :=
  slideOp .slide f s fun _ c size _ y => elemOr0 f.ty c size (if (size : Int) ≤ y then y - size else y + size)
/-- SLIDE.EDGE: the edge element repeats (R247). -/
def execSlideEdge (f : Fields) (s : State) : Host.Outcome State Fault Refusal :=
  slideOp .slideEdge f s fun a _ size _ y => if y < 0 then elemAt f.ty a 0 else elemAt f.ty a (size - 1)
/-- SLIDE.FILL: C at the same position (R247). -/
def execSlideFill (f : Fields) (s : State) : Host.Outcome State Fault Refusal :=
  slideOp .slideFill f s fun _ c _ x _ => elemAt f.ty c x

/-- The integer type in which PERM's indices are read (R246). -/
def indexTy (ty : Ty) : Ty := if wordType ty then .t27 else .t9

/-- PERM: elements selected by an index each (R248). -/
def execPerm (f : Fields) (s : State) : Host.Outcome State Fault Refusal :=
  runOp .perm f s fun r =>
    let a := readLanes r s f.ty 0 f.a
    let b := readLanes r s (indexTy f.ty) 1 f.b
    moveElems r s f fun x => elemOr0 f.ty a (windowSize r f.ty) (elemAt (indexTy f.ty) b x)

/-- Element k of A, raw (R248, R249). -/
def pickElem (r : Run) (s : State) (f : Fields) : Int :=
  elemOr0 f.ty (readLanes r s f.ty 0 f.a) (windowSize r f.ty) (indexB r s f)

/-- BCAST: element k into every element of the active lanes (R248). -/
def execBcast (f : Fields) (s : State) : Host.Outcome State Fault Refusal :=
  runOp .bcast f s fun r => moveElems r s f fun _ => pickElem r s f

/-- VEXT: element k into a uniform register (R249). -/
def execVext (f : Fields) (s : State) : Host.Outcome State Fault Refusal :=
  runOp .vext f s fun r => uniform r s f (exact (pickElem r s f))

/-- VINS: a raw value into element k of D, if k's lane is active (R249). -/
def execVins (f : Fields) (s : State) : Host.Outcome State Fault Refusal :=
  runOp .vins f s fun r =>
    let u := elems f.ty
    let k := indexB r s f
    let act := activeLanes r s f
    let old := regLanes r f.ty f.d
    let v := elem f.ty (lane (readLanes r s f.ty 0 f.a) 0) 0
    let hit (l : Nat) : Bool := act l && decide (0 ≤ k) && l == k.toNat / u
    keepsOld r s f.d (fun l => hit l && u != 1) <| writeVec r s f.d hit fun l => putElem f.ty (lane old l) (k.toNat % u) v

/-- SHUF3: the three sub-elements rotated (R251). -/
def execShuf3 (f : Fields) (s : State) : Host.Outcome State Fault Refusal :=
  runOp .shuf3 f s fun r =>
    let a := readLanes r s f.ty 0 f.a
    let b := if isImm f then List.replicate 27 f.imm else readLanes r s .t27 1 f.b
    perElem r s f 0 fun l i => exact (elem f.ty (lane a l) (((i : Int) - lane b l) % 3).toNat)

/-! ### Reductions -/

/-- The combination of some terms, bounded or narrowed once; `op` is 0 for a sum, +1 for the maximum, −1 for the
minimum (R250). -/
def combine (ty : Ty) (c : Clamp) (k op : Int) (terms : List Int) : Int × Effects :=
  if isFloat ty then
    let F := fmtOf ty
    let vs := terms.map (fval F)
    let r := match vs with
      | [] => .fin 0 1
      | v :: vs => vs.foldl (fun x y =>
          if op = 0 then addVal F x y else if 0 ≤ op * cmpVal x y then x else y) v
    floatDest F c k (withNan vs r) 0
  else
    let r := match terms with
      | [] => 0
      | t :: ts => ts.foldl (fun x y => if op = 0 then x + y else if op = 1 then max x y else min x y) t
    intDest (etrits ty) c k r

/-- RED and SCAN: lane l receives the combination over the active lanes that `upTo` gives it, in increasing lane
order (R250). -/
def reduce (r : Run) (s : State) (f : Fields) (upTo : (l j : Nat) → Bool) : Result :=
  let act := activeLanes r s f
  let a := vecA r s f.ty f
  let lanes := (List.range 27).filter act
  let inv := if isFloat f.ty then
      signallers (lanes.flatMap fun l => (List.range (elems f.ty)).map fun i => fval (fmtOf f.ty) (elem f.ty (lane a l) i))
    else 0
  let s1 := applyEffects r s (tidOf f) { invalid := inv }
  perElem r s1 f (tidOf f) fun l i =>
    combine f.ty f.clamp f.scale (field f.var 0 2) ((lanes.filter (upTo l)).map fun j => elem f.ty (lane a j) i)

/-- RED (R250). -/
def execRed (f : Fields) (s : State) : Host.Outcome State Fault Refusal :=
  runOp .red f s fun r => reduce r s f fun _ _ => true
/-- SCAN (R250). -/
def execScan (f : Fields) (s : State) : Host.Outcome State Fault Refusal :=
  runOp .scan f s fun r => reduce r s f fun l j => decide (j ≤ l)

end Sys2Proof.Machine
end

