-- ==== Sys2Proof/Machine/Recovery.lean ====
section
/-! DEFINITION. Recovery: COMMIT, PAIR.CK and EINJ (R428 to R431), and the checkpoints, signatures and mismatches of
paired launches (R417 to R422). -/

namespace Sys2Proof.Machine

/-! ### COMMIT and PAIR.CK -/

/-- COMMIT (R429). -/
def execCommit (f : Fields) (s : State) : Host.Outcome State Fault Refusal :=
  runOp .commit f s fun r =>
    .commit [] (if r.kern.launch.versioned then commitVersion s r.id.band false else s)

/-- PAIR.CK: its checkpoint has been taken before it is performed (R430, R420). -/
def execPairCk (f : Fields) (s : State) : Host.Outcome State Fault Refusal :=
  runOp .pairCk f s fun _ => .commit [] s

/-! ### EINJ -/

/-- Without the context's injection permission EINJ raises trap code 1, sub-code 21 (R431). -/
def withInjection (r : Run) (s : State) (k : Unit → Result) : Result :=
  if r.ctx.inject = 1 then k () else .trap { code := 1, sub := 21 } s

/-- EINJ's target word, checked (R431, R168). -/
def withTarget (r : Run) (s : State) (f : Fields) (kind : AccKind) (k : State → List Place → Result) : Result :=
  let e := wordElem 0 (wrap 27 (readWord r s 0 f.a + f.imm)) 0
  let s := correctWalks s r.ctx (e.nonets.map (·.1))
  match checkElems s r.who none kind true [e] with
  | .trap t ls => .trap { t with lanes := partLanes r } (markLeaves s ls 2)
  | .absent i => .wait (.remote i) s
  | .ok ps ls =>
    let s1 := markLeaves s ls 2
    k (if kind = .einjStore then markLeaves s1 ls 1 else s1) ps.flatten

/-- The version that a band's accesses see holds the line of a device nonet (R301, R421). -/
def versionHolds (s : State) (uid j : Nat) : Bool := (s.band uid).any fun b => holdsLine (versionOf s b) (lineOf j)

/-- The band whose version a band's accesses see (R421). -/
def versionUid (s : State) (uid : Nat) : Nat := ((s.band uid).map fun b => (versionOf s b).uid).getD uid

/-- A trit of a stored word is altered without its check trits; of a word whose line the band's version holds, in the
version line (R431; log 54, DEDUCED). -/
def injectFlip (s : State) (uid : Nat) (ps : List Place) (t : Nat) : State :=
  match ps.head? with
  | some p =>
    let base := if s.flips.contains (wordPlace p, t) then s else { s with flips := s.flips ++ [(wordPlace p, t)] }
    match p with
    | .dev j => if !versionHolds s uid j then base
      else
        let key := (versionUid s uid, j / 3, t)
        if s.verFlips.contains key then s else { s with verFlips := s.verFlips ++ [key] }
    | _ => base
  | none => s

/-- EINJ.CORR (R431). In a paired launch each copy acts at once, and nothing is held for a checkpoint: R431 does not say
(log 118, DESIGN CHOICE). -/
def execEinjCorr (f : Fields) (s : State) : Host.Outcome State Fault Refusal :=
  runOp .einjCorr f s fun r => withInjection r s fun _ =>
    let t := readWord r s 1 f.b
    if t < 0 ∨ 26 < t then .trap { code := 1, sub := 22 } s
    else withTarget r s f .einjStore fun s ps => .commit [] (injectFlip (forceForeign s (some r.id.band) (devLines ps)) r.id.band ps t.toNat)

/-- Poison injected into a scratchpad word, counted once at its core (R408, R431). -/
def injectScratch (s : State) (uid k core : Nat) : State :=
  match s.band uid with
  | none => s
  | some b =>
    if b.scrPoison.contains k then s
    else (s.modCore core fun c => { c with poisoned := satCount (c.poisoned + 1) }).modBand uid fun b =>
      { b with scrPoison := setAdd b.scrPoison k }

/-- EINJ.UNC (R431). In a paired launch each copy acts at once (log 118, DESIGN CHOICE). -/
def execEinjUnc (f : Fields) (s : State) : Host.Outcome State Fault Refusal :=
  runOp .einjUnc f s fun r => withInjection r s fun _ =>
    withTarget r s f .einjStore fun s ps =>
      match ps.head? with
      | some (.dev j) =>
        if versionHolds s r.id.band j then .commit [] (pokePoison s r.who [sectorOf j] true)
        else .commit [] (poisonBase (forceForeign s (some r.id.band) [lineOf j]) [sectorOf j] true)
      | some (.scr u n _) => .commit [] (injectScratch s u (n / 3) r.core)
      | _ => .commit [] s

/-- EINJ.LINK: the next flit that carries a request of the gang to the line's home fails its CRC (R431). -/
def execEinjLink (f : Fields) (s : State) : Host.Outcome State Fault Refusal :=
  runOp .einjLink f s fun r => withInjection r s fun _ =>
    withTarget r s f .einjLoad fun s ps =>
      match ps.head? with
      | some (.dev j) =>
        let key := (r.id.band, r.id.gang, homeOf j)
        .commit [] (if s.linkFails.contains key then s else { s with linkFails := s.linkFails ++ [key] })
      | _ => .commit [] s

/-- EINJ.SIG: the trailing copy's current signature gains 1; one that a rollback has undone has no effect when it is
executed again (R431). -/
def injectSig (p : Pair) : Pair :=
  { p with sigs := p.sigs + 1, inject := if p.sigs < p.sigsSeen then p.inject else p.inject + 1 }

/-- EINJ.SIG (R431). -/
def execEinjSig (f : Fields) (s : State) : Host.Outcome State Fault Refusal :=
  runOp .einjSig f s fun r => withInjection r s fun _ =>
    .commit [] (if r.band.copy = .trailing then r.modBand s fun b => { b with pair := b.pair.map injectSig } else s)

/-! ### Upsets -/

/-- A register, operand-log or tile word with one error is corrected; one with more is poisoned by `poison`, unless it
is already (`bad`). The core counts (R28, R407, R408). -/
def meetWord (s : State) (core errors : Nat) (bad : Bool) (poison : State → State) : State :=
  if bad then s
  else if errors = 1 then s.modCore core fun c => { c with corrected := satCount (c.corrected + 1) }
  else poison (s.modCore core fun c => { c with poisoned := satCount (c.poisoned + 1) })

/-- A register that stored words hold: s0 and m0 are hard-wired (R70, R71), and a constant is none. -/
def storedReg : Opnd → Bool
  | .uni n | .mask n => n != 0
  | .vec _ | .opr _ | .hist _ | .kreg _ => true
  | _ => false

/-- A checker meets wrong or erased trits: one error of a word is corrected, more poison it, and a line of an L1 or
instruction cache is fetched again (R28, R407, R408; log 38). -/
def meetUpset (s : State) (u : Upset) : State :=
  if u.errors = 0 then s
  else match u.unit with
    | .reg p o lane => match s.run p with
      | none => s
      | some r => if !storedReg o then s
        else meetWord s r.core u.errors (badWord r o lane) fun s => match o with
        | .hist n => r.modPart s fun q => { q with histBad := q.histBad ++ [(n, lane)] }
        | o => r.modGang s fun g => { g with bad := g.bad ++ [(o, wordLane o lane)] }
    | .log p word => match s.run p with
      | none => s
      | some r =>
        let bad (x : Option OpLog) : Bool := x.all (·.bad.contains word)
        let spoil (x : Option OpLog) : Option OpLog := if bad x then x else x.map fun l => { l with bad := l.bad ++ [word] }
        meetWord s r.core u.errors (bad r.slice.log && bad r.slice.issued) fun s =>
          r.modSlices s fun x => { x with log := spoil x.log, issued := spoil x.issued }
    | .word p => correctWord { s with flips := s.flips ++ List.replicate u.errors (wordPlace p, 0) } (wordPlace p)
    | .channel uid n i => match s.band uid with
      | none => s
      | some b =>
        if (b.channels.getD n []).length ≤ i then s
        else meetWord s (b.core.getD 0) u.errors (b.chanBad.contains (n, i)) fun s =>
          s.modBand uid fun b => { b with chanBad := b.chanBad ++ [(n, i)] }
    | .version uid j =>
      if versionHolds s uid j then
        correctVersionWord { s with verFlips := s.verFlips ++ List.replicate u.errors (uid, j / 3, 0) } uid (j / 3)
      else s
    | .tile uid t k => match s.band uid with
      | none => s
      | some b => meetWord s (b.core.getD 0) u.errors ((b.tiles[t]?).all fun x => x.poison.contains k) fun s =>
          s.modBand uid fun b => { b with tiles := b.tiles.modify t fun x => { x with poison := setAdd x.poison k } }
    | .copy core => s.modCore core fun c => { c with corrected := satCount (c.corrected + 1) }

/-! ### Checkpoints -/

/-- A group closes at a checkpoint; at a once-operation it takes in the operation's operands with width 0
(R419; log 47, DEDUCED). An empty group has no signature and does not close; what EINJ.SIG added to it is lost at the
checkpoint (R431; log 117, DESIGN CHOICE). -/
def closeGroup (p : Pair) (terms : List Int) : Pair :=
  if p.openGroup.isEmpty ∧ terms.isEmpty then p
  else
    let sig := signatureOf p.inject (p.openGroup.map HeldStore.terms ++ terms.map fun t => (t, 0, 0))
    { p with openGroup := [], signatures := p.signatures ++ [sig], inject := 0 }

/-- The two copies of a paired band, the leading one first. -/
def copiesOf (s : State) (uid : Nat) : Option (Band × Pair × Band × Pair) :=
  match s.band uid with
  | none => none
  | some b => match b.pair with
    | none => none
    | some p => match s.band p.mate with
      | none => none
      | some m => m.pair.map fun q => if b.copy = .leading then (b, p, m, q) else (m, q, b, p)

/-- The only part's record of a copy: a paired launch has one gang (R417). A parted copy gives its first part, one that
has exited a part of no slice. -/
def copyRun (s : State) (b : Band) : Option Run :=
  ((b.gangs.head?).bind fun g => (g.parts.head?).bind fun p =>
    s.run { band := b.uid, gang := 0, part := p.slices.headD 0 }).orElse fun _ => gangRun s b.uid 0

/-- Every part of a copy that is at a checkpoint, or waits at a blocking point (R420). -/
def pointsOf (b : Band) : List (List Nat × Word × Wait) :=
  b.gangs.flatMap fun g => g.parts.map fun p =>
    (p.slices, ((g.slices[p.slices.headD 0]?).map (·.pc)).getD 0, p.wait)

/-- The parts of two copies that wait at one checkpoint: the slices, and the checkpoint (R420). -/
def meeting (l t : Band) : Option (List Nat × Bool × List Int) :=
  (pointsOf l).findSome? fun x => match x.2.2 with
    | .checkpoint once terms => if (pointsOf t).contains x then some (x.1, once, terms) else none
    | _ => none

/-- The copies' parts are at the same instructions. -/
def samePlaces (l t : Band) : Bool :=
  let place (x : List Nat × Word × Wait) : List Nat × Word := (x.1, x.2.1)
  (pointsOf l).map place == (pointsOf t).map place

/-- Both copies wait at blocking points at the same instructions, where a copy may be evicted (R420; log 49, DEDUCED).
-/
def bothBlocked (l t : Band) : Bool :=
  !(pointsOf l).isEmpty && ((pointsOf l).all fun x => x.2.2.blocking) && ((pointsOf t).all fun x => x.2.2.blocking)
    && samePlaces l t

/-- Both copies have stopped at the same instructions for the checkpoint that a node's write calls for (R420). -/
def bothStopped (l t : Band) : Bool :=
  let stops (w : Wait) : Bool := w == .undo || w.blocking
  (fullNode l || fullNode t) && ((pointsOf l).all fun x => stops x.2.2) && ((pointsOf t).all fun x => stops x.2.2)
    && samePlaces l t

/-- The groups of the two copies match up to here. -/
def groupsMatch (p q : Pair) : Bool := p.signatures == p.received ++ q.signatures

/-- The leading copy's held stores are performed in commit order (R420). -/
def performHeld (s : State) (r : Run) (p : Pair) : State :=
  (byInstruction p.held).foldl (fun s hs => performStores (r.again s).who s hs) s

/-- What a checkpoint leaves of a copy (R420). -/
def afterCheckpoint (b : Band) : Band :=
  let b : Band := { b with nodes := b.nodes.map fun n => { n with full := false } }
  { b with pair := b.pair.map fun p => { p with
      held := [], openGroup := [], signatures := [], received := [], undo := [], mismatches := 0, inject := 0,
      sigs := 0, sigsSeen := 0, snapshot := snapshotOf b } }

/-- Parts that stopped for a node's checkpoint go on (R420). -/
def resumeCopy (b : Band) : Band :=
  { b with gangs := b.gangs.map fun g => { g with parts := g.parts.map fun p =>
      if p.wait = .undo then { p with wait := .ready } else p } }

/-- A part goes on from its checkpoint, granted. -/
def grantPart (first : Nat) (b : Band) : Band :=
  { b with gangs := b.gangs.map fun g => modPartG g first fun p => { p with granted := true, wait := .ready } }

/-- PAIRED_CHECKPOINT: both copies are at the same instruction and every group has matched; the leading copy
performs its stores and both save their state (R420). -/
def execPairedCheckpoint (band : Nat) (s : State) : Host.Outcome State Fault Refusal :=
  match copiesOf s band with
  | none => .next s
  | some (l, p, t, q) =>
    let take (terms : List Int) (grant : Band → Band × Band → Band) : State :=
      match copyRun s l with
      | none => s
      | some r =>
        if groupsMatch (closeGroup p terms) (closeGroup q terms) then
          let s1 := performHeld s r p
          (s1.modBand l.uid fun b => afterCheckpoint (grant b (l, t))).modBand t.uid fun b => afterCheckpoint (grant b (l, t))
        else keepIssue s (mismatch s r)
    match meeting l t with
    | some (sl, once, terms) =>
      .next (take (if once then terms else []) fun b x =>
        if once && b.uid == x.2.uid then b else grantPart (sl.headD 0) b)
    | none =>
      if bothStopped l t then .next (take [] fun b _ => resumeCopy b)
      else if bothBlocked l t then .next (take [] fun b _ => b)
      else .next s

/-- SIGNATURE_RECEIVE: the leading copy's core takes the trailing copy's next signature and compares the groups that
both have closed (R419). -/
def execSignatureReceive (band : Nat) (s : State) : Host.Outcome State Fault Refusal :=
  match copiesOf s band with
  | none => .next s
  | some (l, p, t, q) =>
    let received := p.received ++ q.signatures.take 1
    let s1 := s.modBand t.uid fun b => { b with pair := b.pair.map fun x => { x with signatures := x.signatures.drop 1 } }
    match p.signatures, received with
    | x :: xs, y :: ys =>
      if x = y then
        .next (s1.modBand l.uid fun b => { b with pair := b.pair.map fun z => { z with signatures := xs, received := ys } })
      else match copyRun s l with
        | some r => .next (keepIssue s (mismatch s r))
        | none => .next s
    | _, _ => .next (s1.modBand l.uid fun b => { b with pair := b.pair.map fun z => { z with received := received } })

/-- A wait that only the band's own parts can end: a checkpoint's, REGANG's, a level-1 barrier's, or a channel's,
since a paired band has one gang (R55, R346, R417). -/
def Wait.inner : Wait → Bool
  | .checkpoint _ _ | .undo | .regang _ | .send _ _ | .recv _ _ => true
  | .barrier key _ _ _ => key.level == 1
  | _ => false

/-- The copies wait at checkpoints that differ: none of their parts can go on before a checkpoint is taken. The end of a
band, which a copy without live slices awaits, is one (R420, R422). -/
def checkpointsDiffer (l t : Band) : Bool :=
  let atCheckpoint (w : Wait) : Bool := match w with | .checkpoint _ _ | .undo => true | _ => false
  let stopped (b : Band) : Bool := !b.gangs.isEmpty && ((pointsOf b).all fun x => x.2.2.inner)
    && ((pointsOf b).isEmpty || (pointsOf b).any fun x => atCheckpoint x.2.2)
  let ended (b : Band) : Bool := (pointsOf b).isEmpty
  stopped l && stopped t && (meeting l t).isNone && !bothStopped l t && !(ended l && ended t)

/-- PAIRED_MISMATCH: two signatures of one group differ, or the copies are at checkpoints that differ, and both roll
back (R422). -/
def execPairedMismatch (band : Nat) (s : State) : Host.Outcome State Fault Refusal :=
  match copiesOf s band with
  | none => .next s
  | some (l, p, t, q) =>
    let heads := match p.signatures, p.received ++ q.signatures with
      | x :: _, y :: _ => x != y
      | _, _ => false
    if heads || checkpointsDiffer l t then
      match copyRun s l with
      | some r => .next (keepIssue s (mismatch s r))
      | none => .next s
    else .next s

end Sys2Proof.Machine
end

