-- ==== Sys2Proof/Machine/Fabric.lean ====
section
/-! DEFINITION. Requests on their way, homes, scratchpads and acknowledgements (R158 to R162, R298, log 7); HBM
sectors and the scrubbers (R37 to R40, R423); links, planes and the reel-in (R409, R410, R424 to R427). -/

namespace Sys2Proof.Machine

/-! ### Requests -/

def findReq (s : State) (id : Nat) : Option Req := s.reqs.find? (·.id == id)

def putReq (s : State) (q : Req) : State := { s with reqs := s.reqs.map fun x => if x.id = q.id then q else x }

/-- An earlier store or atomic of the same gang to one of the nonets has still to be performed (R285). -/
def blockedReq (s : State) (q : Req) : Bool :=
  s.reqs.any fun x => decide (x.id < q.id) && x.kind != .load && !x.done && x.part.band == q.part.band
    && x.part.gang == q.part.gang && x.places.any fun p => q.places.any fun y => y.near == p.near

def isAtomic (op : Op) : Bool := [Op.aadd, .amin, .amax, .afadd, .afmin, .afmax, .axch, .acas].contains op

/-- The request's instruction is a uniform access. -/
def uniformInstr (i : Instr) : Bool :=
  match codedOf i with
  | some (.ldn, _) | some (.ldw, _) | some (.stn, _) | some (.stw, _) => true
  | some (op, f) => isAtomic op && atomicForm f == .uniform
  | _ => false

/-- The poison that a request's elements read. -/
def reqPoison (s : State) (w : Who) (q : Req) : Option TrapInfo :=
  mergePoison (uniformInstr q.instr) (q.elems.filterMap fun e =>
    (poisonTrap s w { lane := e.lane, addr := e.addr, nonets := [] } e.places).map fun t => (e.lane, t))

/-- Reads the nonets of a request; a speculative fence records what has been read (R297). -/
def readReq (s : State) (w : Who) (q : Req) : State :=
  let s1 := recordReads w (serveRead s w q.places) q.places
  let es := q.elems.map fun e => { e with data := e.places.map (peek s1 w) }
  putReq s1 { q with elems := es, done := true, poison := reqPoison s1 w q }

/-- What an atomic's elements moved, as a request carries it, and back. -/
def effectsList (e : Effects) : List Nat := [e.sat, e.flush, e.nan, e.invalid, if e.sticky then 1 else 0]
def effectsOf (l : List Nat) : Effects :=
  { sat := l.getD 0 0, flush := l.getD 1 0, nan := l.getD 2 0, invalid := l.getD 3 0, sticky := l.getD 4 0 != 0 }

/-- One element of an atomic on its way: its nonets and its operation. -/
def elemAtomic (i : Instr) (e : ReqElem) : List Place × (Int → Int × Effects) :=
  match codedOf i with
  | some (op, f) => (e.places, atomicNew op f (e.data.getD 0 0) (e.data.getD 1 0))
  | none => (e.places, fun v => (v, Effects.none))

/-- Performs an atomic whose requests have all arrived: its elements one after another; where one of them reads poison,
which it consumes, it writes nothing (R307, R412). -/
def performAtomics (s : State) (w : Who) (qs : List Req) : State :=
  let ps := qs.flatMap Req.places
  let s1 := prepare (countIngress s ps) w ps true true
  if qs.any fun q => (reqPoison s1 w q).isSome then
    qs.foldl (fun s q => putReq s { q with done := true, poison := reqPoison s1 w q }) s1
  else
    let es := qs.flatMap fun q => q.elems.map fun e => (q.instr, e)
    let order := (List.range es.length).filterMap fun i => es.find? (·.2.pos == i)
    let x := rmwAll w none (order.map fun p => elemAtomic p.1 p.2) 0 s1
    let old (e : ReqElem) : Int := x.2.1.getD e.pos 0
    qs.zipIdx.foldl (fun s q => putReq s { q.1 with
      elems := q.1.elems.map fun e => { e with data := [old e] }
      done := true, moved := if q.2 = 0 then effectsList x.2.2 else [] }) x.1

/-- Performs the writes of a store request (R34: one instruction's writes to a sector are one). -/
def writeReq (s : State) (w : Who) (q : Req) : State :=
  poke s w (q.elems.flatMap fun e => e.places.zip e.data) (!uniformInstr q.instr) false

/-- A request has arrived and is performed, for its gang, whatever has become of the part that sent it (R55, R139). -/
def performReq (s : State) (q : Req) : State :=
  if q.done || q.here || blockedReq s q then s
  else match s.who q.part.band q.part.gang with
    | none => s
    | some w => match q.kind with
      | .load => readReq s w q
      | .atomic =>
        let s1 := putReq s { q with here := true }
        let qs := s1.reqs.filter fun x => x.group == q.group && x.kind == .atomic
        if qs.all (·.here) then performAtomics s1 w qs else s1
      | .store => putReq (writeReq s w q) { q with done := true }

/-- Requests of a list are performed in the order in which they were sent. -/
def performAll (s : State) (qs : List Req) : State :=
  qs.foldl (fun s q => match findReq s q.id with | some q => performReq s q | none => s) s

/-- The loads that have joined a request take their data with it (R162). -/
def performRiders (s : State) (id : Nat) : State :=
  performAll s (s.reqs.filter fun x => x.joins == some id && !x.done)

/-- A load waits for the data of the request that it has joined (R162). -/
def waitsForRide (s : State) (q : Req) : Bool := q.joins.any fun o => s.reqs.any fun x => x.id == o && !x.done

/-- The form of a load or an atomic. -/
def returnForm : Op → Fields → MemForm
  | .vld, _ => .contiguous
  | .vlds, _ => .strided
  | .gath, _ => .gathered
  | op, f => if isAtomic op then atomicForm f else .uniform

/-- The last data of a load or an atomic arrives, and its instruction ends (R162, R171, R307). A fault of a speculative
load is raised only when the load commits (R297). -/
def returnGroup (s : State) (group : Nat) : State :=
  let mine (q : Req) : Bool := q.group == group && q.kind != .store
  match s.reqs.filter mine with
  | [] => s
  | q :: qs =>
    match waitingRun s q.part (· == .load group), codedOf q.instr with
    | some r, some (op, f) =>
      if (q :: qs).all (·.done) then
        let s0 : State := { s with reqs := s.reqs.filter fun x => !mine x }
        let s1 := if q.kind = .atomic then r.modGang s0 fun g => { g with acks := g.acks - 1 } else s0
        match (q :: qs).filterMap (·.poison) with
        | t :: ts =>
          let t := { t with base := t.base || ts.any (·.base), log := r.slice.issued }
          finishWaiting s1 r (deferTrap r s1 (.trap t s1))
        | [] =>
          let es := (q :: qs).flatMap (·.elems)
          let order := inOrder es
          if q.kind = .atomic then
            let s2 := applyEffects r s1 0 (Effects.sum ((q :: qs).map fun x => effectsOf x.moved))
            finishWaiting s1 r (deliverOld r s2 f (returnForm op f) (order.map fun e => (e.lane, e.data.getD 0 0)))
          else finishWaiting s1 r (deliver r s1 f (returnForm op f) (order.map fun e => (e.lane, e.data)))
      else s
    | _, _ => s

/-- Every store and atomic that a band has sent is performed and acknowledged, as before an eviction; an atomic commits
with its old elements (R82, R298). -/
def drainStores (s : State) (uid : Nat) : State :=
  let mine := s.reqs.filter fun q => q.part.band == uid && q.kind != .load
  let s1 := performAll s mine
  let s2 : State := { s1 with reqs := s1.reqs.filter fun (q : Req) => !(q.part.band == uid && q.kind == ReqKind.store) }
  let s3 := (distinct ((mine.filter (·.kind == .atomic)).map (·.group))).foldl returnGroup s2
  s3.modBand uid fun b => { b with gangs := b.gangs.map fun (g : Gang) => { g with
    acks := (g.parts.filter (·.wait == .capCommit)).length } }

/-- Accesses on their way to a band's scratchpad arrive before the band leaves its core (R152; log 88, DESIGN CHOICE).
-/
def landRequests (s : State) (uid : Nat) : State :=
  performAll s (s.reqs.filter fun q => !q.done && q.places.any fun p => match p with
    | .scr u _ _ => u == uid
    | _ => false)

/-- A home keeps the response to a request that it has performed, with its tag and, but for a load, what it returned
(R424). -/
def retainReq (s : State) (q : Req) : State :=
  match q.places.head? with
  | some (.dev j) => retain s (homeOf j) (planeOf s j) (dieOf q.core)
      { tag := .core q.core (q.entries.headD 0) q.id, value := if q.kind = .atomic then q.elems.flatMap (·.data) else [] }
  | _ => s

/-- The homes of some requests can send their responses (R424). -/
def canRespond (s : State) (qs : List Req) : Bool :=
  qs.all fun q => match q.places.head? with
    | some (.dev j) => roomFor s (homeOf j) (planeOf s j) (dieOf q.core)
    | _ => true

/-- The cluster port from which a request leaves (R12, R287). -/
def Req.cluster (q : Req) : Nat := q.core / Config.coresPerCluster

/-- A plane delivers the requests of one port to one home slice in the order they were sent, through a rehash too
(R287, R289): an earlier one has still to arrive. -/
def queuedBehind (s : State) (q : Req) (j : Nat) : Bool :=
  s.reqs.any fun x => decide (x.id < q.id) && !x.done && !x.here && !x.rides s && x.cluster == q.cluster && match x.places.head? with
    | some (.dev i) => homeOf i == homeOf j && planeOf s i == planeOf s j
    | _ => false

/-- HOME_ACCESS: a request reaches its line's home, and a store to a host or peer page its port. The home retains the
response, and sends none while its buffer for the die is full (R160, R424; log 79, DESIGN CHOICE). A load that has
joined an outstanding request takes its data with that one (R162; log 120, DESIGN CHOICE). -/
def execHomeAccess (req : Nat) (s : State) : Host.Outcome State Fault Refusal :=
  match findReq s req with
  | none => .next s
  | some q =>
    if waitsForRide s q then .next s
    else if q.rides s then .next (performReq s q)
    else match q.cls, q.places.head? with
    | 0, some (.dev j) =>
      let group := s.reqs.filter fun x => x.group == q.group && x.kind == q.kind && !x.done
      let mine := if q.kind = .atomic then group else [q]
      if q.done ∨ !canRespond s mine ∨ blockedReq s q ∨ queuedBehind s q j then .next s
      else
        let s1 := performRiders (performReq s q) q.id
        .next (mine.foldl (fun s x => match findReq s x.id with
          | some y => if y.done then retainReq s y else s
          | none => s) s1)
    | 2, _ => if q.kind = .store then .next (performReq s q) else .next s
    | _, _ => .next s

/-- CLUSTER_ACCESS: a scratchpad access arrives over the cluster network (R158). -/
def execClusterAccess (req : Nat) (s : State) : Host.Outcome State Fault Refusal :=
  match findReq s req with
  | some q => if q.cls = 1 then .next (performReq s q) else .next s
  | none => .next s

/-- The codes with which a host or peer answers, one for each nonet of a request; what is missing, and what a link
that is down cannot bring, is read as its memory stands. -/
def answerReq (s : State) (w : Who) (q : Req) (data : List Nat) : State :=
  let ps := distinct q.places
  let port := (ps.head?.bind (portOf s)).getD (hostPort s)
  if data.length = ps.length ∧ (s.port port).up = true then
    let codes := ps.zip (data.map (· % 65536))
    let code (p : Place) : Nat := (codes.lookup p).getD 0
    let bad (p : Place) : Bool := (nonetOfHalfword (code p)).isNone
    let out := (codes.filter fun x => bad x.1 && x.2 != poisonCode).length
    let es := q.elems.map fun e => { e with data := e.places.map fun p => (nonetOfHalfword (code p)).getD 0 }
    let ts := q.elems.filterMap fun e => if e.places.any bad then
        some (e.lane, { code := 15, sub := 1, addr := e.addr, base := true : TrapInfo }) else none
    putReq (s.modPort port fun x => { x with ingress := satCount (x.ingress + out) })
      { q with elems := es, done := true, poison := mergePoison (uniformInstr q.instr) ts }
  else readReq s w q

/-- HOST_READ_RESPONSE: a host or peer answers a device read (R33). -/
def execHostReadResponse (req : Nat) (data : List Nat) (s : State) : Host.Outcome State Fault Refusal :=
  match findReq s req with
  | none => .next s
  | some q => match s.who q.part.band q.part.gang with
    | none => .next s
    | some w =>
      if q.cls ≠ 2 ∨ q.kind = .store ∨ waitsForRide s q = true then .next s
      else if q.kind = .atomic then .next (performReq s q)
      else if q.done ∨ blockedReq s q then .next s
      else if q.rides s then .next (performReq s q)
      else .next (performRiders (answerReq s w q data) q.id)

/-- REMOTE_LOAD_RETURN: the last data of a load or an atomic arrives and is delivered (R162, R171, R307). -/
def execRemoteLoadReturn (req : Nat) (s : State) : Host.Outcome State Fault Refusal :=
  .next (returnGroup s (req / 100))

/-- STORE_ACK: an acknowledgement returns (R298). -/
def execStoreAck (band gang : Nat) (s : State) : Host.Outcome State Fault Refusal :=
  match s.reqs.find? fun q => q.kind == .store && q.done && q.part.band == band && q.part.gang == gang with
  | none => .next s
  | some q =>
    let s1 := { s with reqs := s.reqs.filter fun x => x.id != q.id }
    let more := s1.reqs.any fun x => x.group == q.group && x.kind == .store
    .next (if more then s1 else s1.modGang band gang fun g => { g with acks := g.acks - 1 })

/-! ### HBM -/

/-- What a memory controller makes of a sector that it reads: up to 3 wrong bytes are corrected and counted, more of
them or a bad tag poison the sector and count (R39). -/
def checkSector (s : State) (controller : Nat) (e : SectorError) : State :=
  if e.bytes = 0 ∧ !e.badTag then s
  else if e.bytes ≤ 3 ∧ !e.badTag then
    s.modController controller fun c => { c with corrected := satCount (c.corrected + 1) }
  else if s.poison.contains e.sector then s
  else (poisonSector s e.sector false).modController controller fun c => { c with poisoned := satCount (c.poisoned + 1) }

/-- The sector lies in one of the twelve stacks (R16). -/
def sectorExists (sec : Nat) : Bool := decide (sec < Config.controllers * Config.stackSectors)

/-- HBM_BURST_COMPLETE: a burst's sectors are decoded (R39, R163). -/
def execHbmBurstComplete (controller : Nat) (sectors : List SectorError) (s : State) : Host.Outcome State Fault Refusal :=
  if Config.controllers ≤ controller then .next s
  else .next ((sectors.filter fun e => sectorExists e.sector && controllerOf e.sector == controller).foldl (fun s e => checkSector s controller e) s)

/-- Sectors that a controller may scrub in a budget period (R336). -/
def scrubLimit (s : State) (c : Controller) : Nat := s.budget c.budget * 59049 / 81

/-- The payload of a sector. -/
def payload (s : State) (sec : Nat) : List Int := (List.range 27).map fun i => memNonet s.mem (27 * sec + i)

/-- The scrubber's read of the next sector of its stack, in address order and round again (R423). -/
def scrubNext (c : Controller) : Controller :=
  { c with used := c.used + 1, position := (c.position + 1) % Config.stackSectors }

/-- SCRUB_READ: the scrubber reads the next sector within its budget and finds an error; a corrected one is to be
written back (R423, R40, R336; log 57, DESIGN CHOICE). Reads that find none pass with the controller's cycles. -/
def execScrubRead (controller : Nat) (e : SectorError) (s : State) : Host.Outcome State Fault Refusal :=
  let c := s.controller controller
  if Config.controllers ≤ controller ∨ scrubLimit s c ≤ c.used ∨ e.sector ≠ sectorAt controller c.position then .next s
  else
    let s1 := checkSector s controller e
    let back := if e.bytes = 0 ∨ 3 < e.bytes ∨ e.badTag then none
      else some (e.sector, s.gen e.sector, payload s e.sector)
    .next (s1.modController controller fun c => { scrubNext c with
      scrub := back, scrubAt := if back.isSome then c.cycle else 0 })

/-- SCRUB_WRITEBACK: accepted only while the sector's scrub generation stands and within 4,096 cycles of the read, of
which `cycles` were spent on the way to the home (R40). It is no write of an agent, and advances no generation (R38,
R291). -/
def execScrubWriteback (controller cycles : Nat) (s : State) : Host.Outcome State Fault Refusal :=
  let c := s.controller controller
  match c.scrub with
  | none => .next s
  | some (sec, gen, vs) =>
    let s1 := s.modController controller fun c => { c with scrub := none, scrubAt := 0 }
    if s.gen sec = gen ∧ c.cycle - c.scrubAt + cycles ≤ 4096 then
      .next { s1 with mem := vs.zipIdx.foldl (fun m x => memPutNonet m (27 * sec + x.2) x.1) s1.mem }
    else .next s1

/-- A home slice reads a line, and its version lines, and corrects single errors in place (R423). -/
def scrubLine (s : State) (line : Nat) : State :=
  let s1 := (List.range 81).foldl (fun s i => correctWord s (.dev (81 * line + i))) s
  (s1.verFlips.filter fun x => x.2.1 / 81 == line).foldl (fun s x => correctVersionWord s x.1 x.2.1) s1

/-- HOME_LINE_SCRUB (R423). -/
def execHomeLineScrub (line : Nat) (s : State) : Host.Outcome State Fault Refusal := .next (scrubLine s line)

/-! ### Links and planes -/

/-- A module's weak lane moves onto the shadow lane; a module whose shadow lane is in use cannot be repaired, and its
plane dies (R410). -/
def rotateLane (s : State) (m : Nat) : State :=
  if (s.uci m).shadow then
    if s.deadPlanes.contains (m % 9) || s.dying.contains (m % 9) then s else { s with dying := s.dying ++ [m % 9] }
  else s.modUci m fun x => { x with shadow := true, rotations := satCount (x.rotations + 1), inPeriod := 0 }

/-- FLIT_RECEIVE: a flit that fails its CRC, or carries an out-of-range code other than poison, is replayed (R409,
R33). -/
def execFlitReceive (module : Nat) (crcFails : Bool) (payload : List Nat) (s : State) : Host.Outcome State Fault Refusal :=
  let bad := payload.any fun h => (nonetOfHalfword (h % 65536)).isNone && h % 65536 != poisonCode
  if module < Config.uciModules ∧ (crcFails ∨ bad) then .next (replayFlit s module)
  else .next s

/-- LANE_ROTATION: 9 replays within one budget period (R410). -/
def execLaneRotation (module : Nat) (s : State) : Host.Outcome State Fault Refusal :=
  if module < Config.uciModules ∧ 9 ≤ (s.uci module).inPeriod then
    .next ((rotateLane s module).modUci module fun x => { x with inPeriod := 0 })
  else .next s

/-- LANE_MARGIN_LOW: a lane below the threshold is rotated out at once (R410). -/
def execLaneMarginLow (module : Nat) (s : State) : Host.Outcome State Fault Refusal :=
  if module < Config.uciModules then .next (rotateLane s module) else .next s

/-- Planes in service, rising. -/
def livePlanes (s : State) : List Nat := (List.range Config.planes).filter fun p => !s.deadPlanes.contains p

/-- Buckets of dead planes go to the surviving ones round-robin, in increasing order (R425, step 4). -/
def reassign (live : List Nat) : Nat → List Nat → List Nat
  | _, [] => []
  | k, p :: ps => if live.contains p then p :: reassign live k ps else live.getD (k % live.length) 0 :: reassign live (k + 1) ps

/-- Every kernel stops when the last plane dies (R427). -/
def stopAll (s : State) : State := s.kernels.foldl (fun s k => stopKernel s k.uid 15 none) s

/-- PLANE_DEATH: the reel-in (R425 to R427). Retained responses of the plane have been resent, and no request is
performed twice (log 58, DEDUCED). -/
def execPlaneDeath (plane : Nat) (s : State) : Host.Outcome State Fault Refusal :=
  if Config.planes ≤ plane ∨ s.deadPlanes.contains plane then .next s
  else
    let s1 := { s with deadPlanes := setAdd s.deadPlanes plane, dying := s.dying.filter (· != plane)
                       retained := s.retained.filter fun x => x.plane != plane }
    match livePlanes s1 with
    | [] => .next (stopAll s1)
    | live => .next { s1 with planeMap := reassign live 0 s1.planeMap, rehash := satCount (s1.rehash + 1) }

/-- RESPONSE_CONFIRM: a die confirms 243 responses that it has received (R424). -/
def execResponseConfirm (home plane die : Nat) (s : State) : Host.Outcome State Fault Refusal :=
  if confirmable s home plane die then .next (setRetained s home plane die ((retainedOf s home plane die).drop 243))
  else .next s

end Sys2Proof.Machine
end

