-- ==== Sys2Proof/Machine/Fetch.lean ====
section
/-! DEFINITION. Fetching and decoding a part's next instruction (R83, R107 to R109, R154, R377), and when a part can
issue (R325). -/

namespace Sys2Proof.Machine

/-- What a part finds at its program counter. -/
inductive Fetched where
  | instr (i : Instr) (ws : Word × Word × Word)
  | trap (t : TrapInfo) (ws : Word × Word × Word)
deriving DecidableEq, Repr

/-- The nine nonets of the instruction that is centred on an address, or the first that cannot be fetched (R83,
R154). -/
def fetchPlaces (s : State) (r : Run) : Except TrapInfo (List Place × List Leaf) :=
  let mask := slicesMask r.part.slices
  let look (j : Nat) : Except TrapInfo (Place × Option Leaf) :=
    match resolve s r.who .fetch (wrap 27 (r.pc - 4 + j)) with
    | .ok p l => .ok (p, l)
    | .trap c n => .error { code := c, sub := n, addr := r.pc, lanes := mask }
    | .poisoned => .error { code := 15, sub := 9, addr := r.pc, lanes := mask, base := true }
    | .absent _ => .error { code := 4, sub := 11, addr := r.pc, lanes := mask }
  ((List.range 9).mapM look).map fun ps => (ps.map (·.1), ps.filterMap (·.2))

/-- The nonets of an instruction as the fetch gives them: while stores to it await their ICINV, the old instruction
(R315, R316). -/
def fetchedNonets (s : State) (r : Run) (ps : List Place) : List Int :=
  match ps.head? with
  | some p => (oldCode s r.id.band r.core (unitStart 9 p)).getD (ps.map (peek s r.who))
  | none => []

/-- Fetching: the words read through the band's version (R301, R315), or the trap that is due. A poisoned sector is
consumed by the instruction fetched from it (R412); R32's codes are no trits (log 25, DEDUCED). -/
def fetchFor (s : State) (r : Run) : Fetched :=
  match fetchPlaces s r with
  | .error t => .trap t (0, 0, 0)
  | .ok (ps, _) =>
    match ps.find? (isPoison s r.who) with
    | some p => .trap { code := 15, sub := 2, addr := r.pc, lanes := slicesMask r.part.slices,
                        base := ps.any (poisonInBase s r.who) || !(match p with | .dev _ => true | _ => false) } (0, 0, 0)
    | none =>
      let ws := wordsOfNonets (fetchedNonets s r ps)
      match decode { capsule := r.capsule, grant := r.gang.grant } ws.1 ws.2.1 ws.2.2 with
      | .ok i => .instr i ws
      | .error n => .trap { code := 1, sub := n, lanes := slicesMask r.part.slices } ws

/-- What the fetch does before it reads: a foreign version of the line is committed (R302), wrong words of the table and
the line are corrected (R407), the line enters the core's instruction cache (R14), and the page is marked accessed, also
where the fetch then fails its key check (R376). -/
def fetchEffects (s : State) (r : Run) : State :=
  let s := correctWalks s r.ctx ((List.range 9).map fun (j : Nat) => wrap 27 (r.pc - 4 + j))
  match fetchPlaces s r with
  | .error _ => touchWalk s r.ctx r.pc
  | .ok (ps, ls) =>
    let s1 := match ps.head?, ls.head? with
      | some p, some l =>
        let line : CodeLine := { start := unitStart 243 p, number := leafLine l r.pc }
        let s0 := serveRead s r.who ps
        if (s.core r.core).code.contains line then s0 else cacheLine (respondTo s0 r.who ps) r.core line
      | _, _ => s
    (toSet (ls.map (·.slot))).foldl (fun s slot => setPteTrit s slot 2) s1

/-- A vector instruction: it executes lane by lane and uses the vector pipe; BR.ANY and BR.ALL only test a mask (R52,
R127, R226; log 60, DEDUCED). -/
def isVector (op : Op) (f : Fields) : Bool :=
  (op.spec f.var).pred == .full && op != .brAny && op != .brAll || op == .vext

/-! ### Readiness -/

/-- The context has used up its issue share on the core in this budget period (R336, R337). -/
def throttled (s : State) (core : Nat) (c : Context) : Bool :=
  decide (s.budget c.issueShare * 1889568 / 81 ≤ smapGet 0 (s.core core).issued c.number)

/-- The band with an index of a kernel is resident, or has ended (R152, R332). -/
def targetArrived (s : State) (r : Run) (index : Nat) : Bool :=
  bandEnded r.kern index r.band.copy
    || s.bands.any fun b => b.kernel == r.kern.uid && b.index == index && b.copy == r.band.copy && b.core.isSome

/-- The wait of the part is over, so that it can issue its instruction (again). -/
def satisfied (s : State) (r : Run) : Bool :=
  match r.part.wait with
  | .ready => true
  | .acks => !owes s r && (specOf r.band r.id.gang).isNone
  | .nodes => decide (r.band.nodes.length < 243) || !r.band.nodes.any (·.state == .running)
  | .remote index => targetArrived s r index
  | _ => false

/-- The part is at a blocking point whose condition is not met (R332). -/
def blocked (s : State) (r : Run) : Bool :=
  r.part.wait.blocking && !satisfied s r && (match r.part.wait with | .tether _ woken => !woken | _ => true)

/-- The instruction that the part's next fetch gives. -/
def nextOp (s : State) (r : Run) : Option (Op × Fields) :=
  let s1 := fetchEffects s r
  match fetchFor s1 (r.again s1) with
  | .instr i _ => codedOf i
  | .trap _ _ => none

/-- The part's next instruction is a vector one. -/
def nextVector (s : State) (r : Run) : Bool := (nextOp s r).any fun x => isVector x.1 x.2

/-- An instruction of lookahead la lets a load behind it issue, while the part does not step (R86, R387). -/
def loadFollows (s : State) (r : Run) (la : Nat) : Bool :=
  let next (x : Slice) : Slice := { x with pc := wrap 27 (x.pc + 9) }
  decide (1 ≤ la) && r.part.stepping == 0
    && (let s1 := r.modSlices s next
        let q := r.again s1
        (nextOp s1 q).any fun x => remoteAhead q s1 x.1 x.2)

/-- A multiply whose lookahead lets a load behind it issue, so that its part is at that load's blocking point while
the multiply has not committed (R86, R262, R332; log 59, DEDUCED). -/
def loadBehind (s : State) (r : Run) : Bool := r.part.wait == .engine && loadFollows s r r.part.la

/-- The part of a command that begins to wait for the engine reaches the blocking point of the load behind it, which
resets the watchdog (R338; log 59). -/
def reachBehind (r : Run) (s : State) (la : Nat) : State :=
  if loadFollows s r la then r.modGang s fun g => { g with watchdog := 0 } else s

/-- The runs of a gang's parts. -/
def gangRuns (s : State) (b : Band) (gi : Nat) : List Run :=
  match b.gangs[gi]? with
  | some g => g.parts.filterMap fun p => s.run { band := b.uid, gang := gi, part := p.slices.headD 0 }
  | none => []

/-- Every live part of the gang is at a blocking point: the gang is Waiting (R62). -/
def gangWaiting (s : State) (b : Band) (gi : Nat) : Bool :=
  let rs := gangRuns s b gi
  !rs.isEmpty && rs.all fun r => blocked s r || loadBehind s r

/-- The watchdog count of the gang exceeds the launch's value (R338). -/
def watchdogDue (k : Kernel) (g : Gang) : Bool :=
  k.launch.watchdog != 0 && decide (k.launch.watchdog < g.watchdog) && g.residence == .resident

/-- Instructions that create a node (R178 to R196, R263). -/
def createsNode (op : Op) : Bool := [Op.copy, .cmpb, .bin, .mmulNode].contains op

/-- A speculative fence, outstanding acknowledgements, the limit on nodes, a full miss-status table or the other copy's
checkpoint hold the part's next instruction, as its entry states (R162, R180, R297, R325, R420). -/
def heldBack (s : State) (r : Run) : Bool :=
  let limit := decide (243 ≤ r.band.nodes.length) && r.band.nodes.any (·.state == .running)
  let full := decide (Config.missEntries < (usedEntries s r.core).length + 81)
  ((specOf r.band r.id.gang).isSome || decide (r.gang.acks ≠ 0) || owes s r || limit || full || r.band.pair.isSome)
    && (nextOp s r).any fun x => preWait r s x.1 == some .acks || preWait r s x.1 == some .undo
      || loadHeld r s x.1 x.2 || limit && createsNode x.1

/-- A part that can issue in this local cycle (R325); the register scoreboard never holds an instruction of a machine
that completes each one before the next (log 11, DESIGN CHOICE). -/
def readyPart (s : State) (r : Run) : Bool :=
  r.gang.residence == .resident && r.band.core.isSome && satisfied s r && !throttled s r.core r.ctx
    && !watchdogDue r.kern r.gang && !heldBack s r

/-- Resident parts of a partition, in age order (R324, R54). -/
def partitionRuns (s : State) (core p : Nat) : List Run :=
  (s.bands.filter fun b => b.core == some core).flatMap fun b =>
    (b.gangs.zipIdx.filter fun g => g.1.residence == .resident && g.1.partition == p).flatMap fun g => gangRuns s b g.2

/-- The fetch's trap ends the instruction that could not be decoded or fetched; under an incomplete speculative fence
it waits for the fence (R108, R297; log 78, DEDUCED). -/
def fetchTrap (s : State) (r : Run) (t : TrapInfo) (ws : Word × Word × Word) : State :=
  match specOf r.band r.id.gang with
  | some _ => freeSlot (setWait s r 0 .acks)
  | none => finish s r 0 ws (.trap t s)

end Sys2Proof.Machine
end

