-- ==== Sys2Proof/Machine/Sync.lean ====
section
/-! DEFINITION. Channels, barriers, DRAIN, parking, and register grants (R313, R341 to R351, R330). -/

namespace Sys2Proof.Machine

/-- The synchronisation trap (R343). -/
def syncTrap (sub : Int) : TrapInfo := { code := 8, sub := sub }

/-- Source operand of a system form: a word or a constant. -/
def sysA (r : Run) (s : State) (f : Fields) : Word := readWord r s 0 f.a
def sysB (r : Run) (s : State) (f : Fields) : Word := readWord r s 1 f.b

/-- Parts of a gang that wait, with their numbers. -/
def gangParts (b : Band) : List (Nat × Gang × Part) :=
  b.gangs.zipIdx.flatMap fun g => g.1.parts.map fun p => (g.2, g.1, p)

/-- The first part of a band, oldest first, whose wait satisfies p (R324). -/
def oldestPart (b : Band) (p : Nat → Gang → Part → Bool) : Option PartId :=
  ((gangParts b).find? fun x => p x.1 x.2.1 x.2.2).map fun x =>
    { band := b.uid, gang := x.1, part := x.2.2.slices.headD 0 }

/-! ### Channels -/

/-- The channel that imm27 names, or sub-code 1 or 2 (R343). -/
def channelOf (r : Run) (n : Int) (stageOf : Channel → Nat) : Except Int (Nat × Channel) :=
  if n < 0 then .error 1
  else match r.kern.launch.channels[n.toNat]? with
    | none => .error 1
    | some c => if stageOf c = r.gang.stage then .ok (n.toNat, c) else .error 2

/-- Words of a channel, oldest first, each with its sender (R345). -/
def channelWords (b : Band) (n : Nat) : List (Word × Nat) := b.channels.getD n []

def setChannel (b : Band) (n : Nat) (ws : List (Word × Nat)) : Band :=
  { b with channels := (b.channels ++ List.replicate (n + 1 - b.channels.length) []).set n ws }

/-- A word may be appended: a free slot and allowance above 0 (R344). -/
def canSend (b : Band) (g : Gang) (n : Nat) (c : Channel) : Bool :=
  decide ((channelWords b n).length < c.depth) && decide (0 < smapGet 0 g.allowance n)

/-- The word is appended and takes one unit of allowance (R344). -/
def sendWord (r : Run) (s : State) (n : Nat) (w : Word) : State :=
  let s1 := r.modBand s fun b => setChannel b n (channelWords b n ++ [(w, r.id.gang)])
  r.modGang s1 fun g => { g with allowance := smapSet 0 g.allowance n (smapGet 0 g.allowance n - 1) }

/-- SEND (R344). -/
def execSend (f : Fields) (s : State) : Host.Outcome State Fault Refusal :=
  runOp .send f s fun r =>
    match channelOf r f.imm Channel.producer with
    | .error n => .trap (syncTrap n) s
    | .ok (n, c) =>
      let w := sysB r s f
      if canSend r.band r.gang n c then .commit [] (sendWord r s n w) else .wait (.send n w) s

/-- The poisoned words of the channels once the oldest word of one has gone. -/
def shiftBad (bad : List (Nat × Nat)) (n : Nat) : List (Nat × Nat) :=
  (bad.filter fun x => x != (n, 0)).map fun x => if x.1 = n then (n, x.2 - 1) else x

/-- The oldest word is removed, and its sender's allowance rises (R345). -/
def takeWord (r : Run) (s : State) (n : Nat) (sender : Nat) (rest : List (Word × Nat)) : State :=
  let s1 := r.modBand s fun b => { setChannel b n rest with chanBad := shiftBad b.chanBad n }
  s1.modGang r.id.band sender fun g => { g with allowance := smapSet 0 g.allowance n (smapGet 0 g.allowance n + 1) }

/-- RECV reads the oldest word of a channel; a poisoned one, which has no address, is consumed (R344, R412, R413). -/
def receive (r : Run) (s : State) (n sender : Nat) (w : Word) (rest : List (Word × Nat)) (d : Opnd) : Result :=
  if r.band.chanBad.contains (n, 0) then .trap { code := 15, sub := 4 } s
  else writeUni r (takeWord r s n sender rest) d w

def waitsRecv (n : Nat) (p : Part) : Bool := match p.wait with | .recv m _ => m == n | _ => false

/-- RECV (R344, R345). -/
def execRecv (f : Fields) (s : State) : Host.Outcome State Fault Refusal :=
  runOp .recv f s fun r =>
    Result.orParted r s <|
      match channelOf r f.imm Channel.consumer with
      | .error n => .trap (syncTrap n) s
      | .ok (n, _) =>
        let dst := match f.d with | .uni k => k | _ => 0
        match channelWords r.band n, (gangParts r.band).any (fun x => waitsRecv n x.2.2) with
        | (w, g) :: rest, false => receive r s n g w rest f.d
        | _, _ => .wait (.recv n dst) s

/-- SEND_COMPLETE: the oldest waiting SEND that can proceed is performed (R344, R345). -/
def execSendComplete (band channel : Nat) (s : State) : Host.Outcome State Fault Refusal :=
  match s.band band with
  | none => .next s
  | some b =>
    let ready (g : Gang) (p : Part) : Bool := match p.wait, (s.kernel b.kernel).bind fun k => k.launch.channels[channel]? with
      | .send n _, some c => n == channel && canSend b g n c
      | _, _ => false
    match (oldestPart b fun _ g p => ready g p).bind s.run with
    | none => .next s
    | some r => match r.part.wait with
      | .send n w => .next (finishWaiting s r (.commit [] (sendWord r s n w)))
      | _ => .next s

/-- RECV_COMPLETE: the oldest waiting RECV takes the oldest word (R345). -/
def execRecvComplete (band channel : Nat) (s : State) : Host.Outcome State Fault Refusal :=
  match s.band band with
  | none => .next s
  | some b =>
    match channelWords b channel, (oldestPart b fun _ _ p => waitsRecv channel p).bind s.run with
    | (w, g) :: rest, some r => match r.part.wait with
      | .recv n dst => .next (finishWaiting s r (receive r s n g w rest (.uni dst)))
      | _ => .next s
    | _, _ => .next s

/-! ### Barriers -/

/-- The barrier of a level and number for the issuing band, or sub-code 3 or 4 (R343, R346; log 75, DESIGN CHOICE). With
both out of range the sub-code is the lower one: R343 gives no order (log 116, DESIGN CHOICE). -/
def barrierOf (r : Run) (level number : Int) : Except Int BarrierKey :=
  let n : Int := r.kern.launch.levels.length + 2
  if level < 1 ∨ n - 1 < level then .error 3
  else if number < 0 ∨ 8 < number then .error 4
  else .ok { level := level.toNat,
             group := if level = 1 then r.band.index else groupOf r.kern.launch level.toNat (gridIndex r.kern r.band.index),
             number := number.toNat, trailing := r.band.copy == .trailing }

def barrierAt (k : Kernel) (key : BarrierKey) : Barrier :=
  (k.barriers.find? fun b => b.key == key).getD { key := key, phase := 0, arrived := [] }

def putBarrier (k : Kernel) (b : Barrier) : Kernel :=
  { k with barriers := if k.barriers.any (fun x => x.key == b.key) then k.barriers.map fun x => if x.key = b.key then b else x
      else k.barriers ++ [b] }

/-- The part that begins with a slice is divided in two, each with a copy of the part's own state (R53). -/
def divideParts (g : Gang) (first now : Nat) (sl : List Nat) : Gang :=
  { g with parts := sortParts (g.parts.flatMap fun p =>
      if p.slices.head? = some first then
        [{ p with slices := p.slices.filter fun j => sl.contains j, formed := now },
         { p with slices := p.slices.filter fun j => !sl.contains j, formed := now }]
      else [p]) }

/-- Slices of a part arrive in the barrier's current phase; at a user level the band's version commits first (R302,
R347). -/
def arrive (r : Run) (s : State) (key : BarrierKey) (sl : List Nat) : State :=
  let s1 := releaseVersion r s (decide (2 ≤ key.level))
  s1.modKernel r.kern.uid fun k =>
    let b := barrierAt k key
    putBarrier k { b with arrived := b.arrived ++ sl.map fun j => (r.band.uid, r.id.gang, j) }

/-- The arrival of BAR (`wait`), BAR.ARR or DRAIN.BAR (R346). Slices that have already arrived in the phase arrive in
the next one; where only some have, they part from the others, which wait or go on by themselves (log 99, DEDUCED). -/
def arrival (r : Run) (s : State) (key : BarrierKey) (wait : Bool) : Result :=
  let b := barrierAt r.kern key
  let again := r.part.slices.filter fun j => b.arrived.contains (r.band.uid, r.id.gang, j)
  let fresh := r.part.slices.filter fun j => !again.contains j
  let s1 := arrive r s key fresh
  let now : Result := if wait then .wait (.barrier key b.phase .done []) s1 else .commit [] s1
  let later : Wait := .barrier key b.phase (if wait then .arriveAndWait else .arriveAndGo) again
  match again, fresh with
  | [], _ => now
  | _, [] => .wait later s1
  | i :: _, j :: _ =>
    let s2 := r.modGang s1 fun g => divideParts g r.id.part s.free again
    let s3 := match s2.run { r.id with part := i } with | some q => setWait s2 q r.part.la later | none => s2
    match s3.run { r.id with part := j } with
    | some q => .done (if wait then setWait s3 q r.part.la (.barrier key b.phase .done [])
        else r.modGang (q.modSlices (q.modPart s3 (retirePart q r.part.la [] s.free)) dropLog)
          fun g => modSlicesG g q.part.slices fun x => { x with pc := wrap 27 (x.pc + 9) })
    | none => .done s3

/-- A BAR form (R346). -/
def barForm (op : Op) (wait : Bool) (f : Fields) (s : State) : Host.Outcome State Fault Refusal :=
  runOp op f s fun r =>
    match barrierOf r (sysA r s f) f.imm with
    | .error n => .trap (syncTrap n) s
    | .ok key => arrival r s key wait

/-- BAR: arrive and wait (R346). -/
def execBar (f : Fields) (s : State) : Host.Outcome State Fault Refusal := barForm .bar true f s
/-- BAR.ARR: arrive and go on (R346). -/
def execBarArr (f : Fields) (s : State) : Host.Outcome State Fault Refusal := barForm .barArr false f s

/-- Live slices of a band, by gang. -/
def liveSlices (b : Band) : List (Nat × Nat × Nat) :=
  b.gangs.zipIdx.flatMap fun g => g.1.parts.flatMap fun p => p.slices.map fun j => (b.uid, g.2, j)

/-- Bands of a barrier's group, and how many of them the device holds (R43, R47, R346). -/
def groupSizes (k : Kernel) (key : BarrierKey) : Nat × Nat :=
  if key.level = 1 then (1, 1)
  else
    let size := ((k.launch.levels.take (key.level - 1)).map (·.extent)).foldl (· * ·) 1
    let base := k.launch.bandBase.toNat
    (size, min (size * (key.group + 1)) (base + ownBands k.launch) - max (size * key.group) base)

/-- The barrier's level is bound to the system domain, and the devices' launch records disagree (R47). R47 says that
barriers and releases of system scope are affected, and of the barriers how; releases go on as before (log 66, DESIGN
CHOICE). -/
def disagreed (s : State) (k : Kernel) (key : BarrierKey) : Bool :=
  s.disagree.contains k.uid && decide (2 ≤ key.level) && (k.launch.levels[key.level - 2]?).any (·.domain == 2)

/-- Every participant of a phase has arrived or exited (R346). A band not yet placed has not arrived. Where the group
reaches beyond the device, the other devices' participants arrive as an input says; a barrier of system scope never
completes where the devices' launch records disagree (R47; log 66). -/
def phaseComplete (s : State) (k : Kernel) (b : Barrier) : Bool :=
  let cp : Copy := if b.key.trailing then .trailing else if k.launch.paired then .leading else .unpaired
  let inGroup (i : Nat) : Bool :=
    if b.key.level = 1 then i == b.key.group else groupOf k.launch b.key.level (gridIndex k i) == b.key.group
  let size := groupSizes k b.key
  let done := (k.ended.filter fun e => inGroup e.1 && e.2 == b.key.trailing).length
  let placed := s.bands.filter fun x => x.kernel == k.uid && x.copy == cp && inGroup x.index && !x.gangs.isEmpty
  decide (size.2 ≤ done + placed.length) && (size.1 == size.2 || s.peerPhases.contains (k.uid, b.key, b.phase))
    && !disagreed s k b.key
    && placed.all fun x => (liveSlices x).all b.arrived.contains

/-- What a part does when the phase it waited for has completed. -/
def afterPhase (s : State) (p : PartId) (key : BarrierKey) : State :=
  match s.run p with
  | none => s
  | some r => match r.part.wait with
    | .barrier _ _ .done _ => finishWaiting s r (.commit [] s)
    | .barrier _ _ .arriveAndGo again => finishWaiting s r (.commit [] (arrive r s key again))
    | .barrier _ phase .arriveAndWait again =>
      finishWaiting s r (.wait (.barrier key (phase + 1) .done []) (arrive r s key again))
    | _ => s

/-- BARRIER_PHASE_COMPLETE: the phase ends and its waits complete (R346). -/
def execBarrierPhaseComplete (kernel : Nat) (key : BarrierKey) (s : State) : Host.Outcome State Fault Refusal :=
  match s.kernel kernel with
  | none => .next s
  | some k =>
    let b := barrierAt k key
    if !b.arrived.isEmpty && phaseComplete s k b then
      let s1 := s.modKernel kernel fun k => putBarrier k { b with phase := b.phase + 1, arrived := [] }
      let waits (w : Wait) : Bool := match w with | .barrier x n _ _ => x == key && n == b.phase | _ => false
      let parts := (s.bands.filter fun x => x.kernel == kernel).flatMap fun x =>
        ((gangParts x).filter fun y => waits y.2.2.wait).map fun y =>
          ({ band := x.uid, gang := y.1, part := y.2.2.slices.headD 0 } : PartId)
      .next (parts.foldl (fun s p => afterPhase s p key) s1)
    else .next s

/-! ### DRAIN -/

/-- What follows the draining: nothing, or an arrival (R313). -/
def drained (r : Run) (s : State) : Option (Int × Int) → Result
  | none => .commit [] s
  | some (level, number) => match barrierOf r level number with
    | .error n => .trap (syncTrap n) s
    | .ok key => arrival r s key false

/-- DRAIN waits until what the gang's acknowledgement count holds has been acknowledged (R313). -/
def drainForm (op : Op) (f : Fields) (s : State) (after : Run → Option (Int × Int)) : Host.Outcome State Fault Refusal :=
  runOp op f s fun r => if r.gang.acks ≠ 0 then .wait (.drain s.free (after r)) s else drained r s (after r)

/-- DRAIN (R313). -/
def execDrain (f : Fields) (s : State) : Host.Outcome State Fault Refusal := drainForm .drain f s fun _ => none
/-- DRAIN.BAR: DRAIN, then an arrival (R313). -/
def execDrainBar (f : Fields) (s : State) : Host.Outcome State Fault Refusal :=
  drainForm .drainBar f s fun r => some (sysA r s f, f.imm)

/-- DRAIN_COMPLETE: the last awaited acknowledgement has returned (R313). -/
def execDrainComplete (p : PartId) (s : State) : Host.Outcome State Fault Refusal :=
  match s.run p with
  | none => .next s
  | some r =>
    match r.part.wait with
    | .drain since after => if drains s r since then .next s else .next (finishWaiting s r (drained r s after))
    | _ => .next s

/-! ### Parking -/

/-- The operands of PARK or WAKE, which a replay takes from the operand log (R82, R386). -/
def parkLog (r : Run) (s : State) (f : Fields) : OpLog :=
  memOperands r s f (fun _ => List.replicate 27 f.imm) fun _ => List.replicate 27 (sysB r s f)

/-- The word that PARK or WAKE names: its device nonet, after the checks of R348 or R349. -/
def withParkWord (r : Run) (s : State) (f : Fields) (kind : AccKind) (k : State → Nat → Result) : Result :=
  let log := parkLog r s f
  let es := laneElements .uniform true log.base (lane log.offset 0) 0 (3 * r.id.part)
  if badLog .uniform log then .trap { code := 15, sub := 3 } s
  else withElems r s f kind true log (some (partLanes r)) es fun s ps _ =>
    match ps with
    | [.dev j :: _] =>
      let s1 := respondTo (prepare s r.who ps.flatten (kind == .park) false) r.who ps.flatten
      if kind = .park then
        match poisonOf s1 r.who true (es.zip ps) with
        | some t => .trap (withLog t log) s1
        | none => k s1 j
      else k s1 j
    | _ => .commit [] s

/-- Registrations at the home of a device nonet (R350). -/
def homeParks (s : State) (j : Nat) : Nat := (s.parks.filter fun x => homeOf x.1 == homeOf j).length

/-- The word that begins at a device nonet, as a band reads it. -/
def peekWord (s : State) (w : Who) (j : Nat) : Word :=
  wordOf (peek s w (.dev j)) (peek s w (.dev (j + 1))) (peek s w (.dev (j + 2)))

/-- PARK: compares and registers in one access (R348, R350). -/
def execPark (f : Fields) (s : State) : Host.Outcome State Fault Refusal :=
  runOp .park f s fun r =>
    let b := lane (parkLog r s f).data 0
    withParkWord r s f .park fun s j =>
      if peekWord s r.who j ≠ b then .commit [] s
      else if homeParks s j < 729 then .wait (.park j) { s with parks := s.parks ++ [(j, r.id)] }
      else .wait (.parkPoll j b 0) s

/-- WAKE: removes and wakes the oldest registrations on a word (R349, R414). -/
def execWake (f : Fields) (s : State) : Host.Outcome State Fault Refusal :=
  runOp .wake f s fun r =>
    Result.orParted r s <|
      let b := lane (parkLog r s f).data 0
      onceOp r s [(parkLog r s f).base, f.imm, b] fun _ =>
        withParkWord r s f .wake fun s j =>
          match trailing r with
          | some vs => writeUni r s f.d (vs.headD 0)
          | none =>
            let n := b.toNat
            let hit := (s.parks.filter fun x => x.1 == j).take n
            let s1 := { s with parks := s.parks.filter fun x => !hit.contains x }
            let s2 := hit.foldl (fun s x => match s.run x.2 with
              | some q => finishWaiting s q (.commit [] s)
              | none => s) s1
            let s3 := if hit.isEmpty then s2 else r.modBand s2 fun b => { b with settled := true }
            writeUni r (forward r s3 false [hit.length]) f.d hit.length

/-- The trap of a waiting PARK whose word reads as poison (R412). -/
def parkPoison (s : State) (r : Run) (j : Nat) : Option TrapInfo :=
  let ws := instrWords s r
  match decode { capsule := r.capsule, grant := r.gang.grant } ws.1 ws.2.1 ws.2.2 with
  | .ok (.park f) =>
    let log := parkLog r s f
    (poisonTrap s r.who (wordElem 0 log.base (lane log.offset 0)) [.dev j, .dev (j + 1), .dev (j + 2)]).map (withLog · log)
  | _ => none

/-- PARK_POLL: an unregistered PARK reads its word again, every 243 local cycles of its core (R350); a poisoned word is
consumed (R412). -/
def execParkPoll (p : PartId) (s : State) : Host.Outcome State Fault Refusal :=
  match s.run p with
  | none => .next s
  | some r => match r.part.wait with
    | .parkPoll j b c n =>
      if c / 243 ≤ n then .next s
      else
        let s1 := prepareRead s r.who [.dev j, .dev (j + 1), .dev (j + 2)]
        match parkPoison s1 r j with
        | some t => .next (finishWaiting s1 r (.trap t s1))
        | none =>
        if peekWord s1 r.who j ≠ b then .next (finishWaiting s1 r (.commit [] s1))
        else .next (r.modPart s1 fun q => { q with wait := .parkPoll j b c (c / 243) })
    | _ => .next s

/-- PARK_TIMEOUT: an unregistered PARK completes after 59,049 cycles (R350). -/
def execParkTimeout (p : PartId) (s : State) : Host.Outcome State Fault Refusal :=
  match s.run p with
  | none => .next s
  | some r => match r.part.wait with
    | .parkPoll _ _ c _ => if 59049 ≤ c then .next (finishWaiting s r (.commit [] s)) else .next s
    | _ => .next s

/-! ### Register grants -/

/-- Registers that gangs hold: those of a gang that is not evicted, until its band ends (R62, R330; log 33, DEDUCED). -/
def heldRegisters (g : Gang) : Nat := if g.residence = .evicted then 0 else g.grant

/-- Free registers of a core (R67, R330). -/
def freeRegisters (s : State) (core : Nat) : Nat :=
  Config.coreRegisters - (((s.bands.filter fun b => b.core == some core).flatMap (·.gangs)).map heldRegisters).sum

/-- Waiting GROW requests of a core, oldest first: the part, its gang, amount and destination (R330). The state
lists bands in the order of their first placement, which is age order (R324). -/
def growRequests (s : State) (core : Nat) : List (PartId × Gang × Nat × Nat) :=
  (s.bands.filter fun b => b.core == some core).flatMap fun b => (gangParts b).filterMap fun x => match x.2.2.wait with
    | .grow n d => some ({ band := b.uid, gang := x.1, part := x.2.2.slices.headD 0 }, x.2.1, n, d)
    | _ => none

/-- What a grant needs free: the amount, or the whole new grant of an evicted gang (R330, R331). -/
def growNeeds (g : Gang) (n : Nat) : Nat := if g.residence = .evicted then g.grant + n else n

/-- The gang's registers from `low` on read as zeros (R67, R351). -/
def dropRegisters (g : Gang) (low : Nat) : Gang :=
  { g with
    vregs := g.vregs.filter fun x => decide (x.1 < low)
    bad := g.bad.filter fun x => match x.1 with | .vec n => decide (n < low) | _ => true }

/-- The grant becomes larger, and D receives it (R351). -/
def grantResult (r : Run) (s : State) (n : Nat) (dst : Opnd) : Result :=
  let s1 := r.modGang s fun g => { dropRegisters g g.grant with grant := g.grant + n }
  writeUni r s1 dst (r.gang.grant + n)

/-- The amount of GROW or SHRINK (R351). -/
def grantAmount (r : Run) (s : State) (f : Fields) : Int := sysB r s f + f.imm

/-- GROW: granted at once when no request waits and the registers are free (R330, R351). Of several sub-codes that hold
it raises the lowest: R343 gives no order (log 116, DESIGN CHOICE). -/
def execGrow (f : Fields) (s : State) : Host.Outcome State Fault Refusal :=
  runOp .grow f s fun r =>
    Result.orParted r s <|
      let n := grantAmount r s f
      let dst := match f.d with | .uni k => k | _ => 0
      if n = 0 then writeUni r s f.d r.gang.grant
      else if n < 0 ∨ n % 9 ≠ 0 then .trap (syncTrap 5) s
      else if (1530 : Int) < r.gang.grant + n then .trap (syncTrap 6) s
      else if (Config.coreRegisters : Int) < (r.band.gangs.map (·.grant)).sum + n then .trap (syncTrap 7) s
      else if (growRequests s r.core).isEmpty ∧ n.toNat ≤ freeRegisters s r.core then grantResult r s n.toNat f.d
      else .wait (.grow n.toNat dst) s

/-- SHRINK (R351). -/
def execShrink (f : Fields) (s : State) : Host.Outcome State Fault Refusal :=
  runOp .shrink f s fun r =>
    Result.orParted r s <|
      let n := grantAmount r s f
      if n < 0 ∨ n % 9 ≠ 0 then .trap (syncTrap 5) s
      else if (r.gang.grant : Int) - n < 9 then .trap (syncTrap 8) s
      else
        let g' := r.gang.grant - n.toNat
        writeUni r (r.modGang s fun g => { dropRegisters g g' with grant := g' }) f.d g'

end Sys2Proof.Machine
end

