-- ==== Sys2Proof/Machine/Issue.lean ====
section
/-! DEFINITION. Local cycles and the choice of what issues (R325 to R327), stage shares (R328, R329), budget periods
(R335 to R337), watchdogs (R338), and the end of a REGANG (R55). -/

namespace Sys2Proof.Machine

/-! ### Dispatch order -/

/-- A band that waits for a core: a share's next band, or one that is placed again. -/
structure Candidate where
  kernel   : Nat
  index    : Nat
  copy     : Copy
  again    : Option Nat
  priority : Nat
  /-- Order within a priority: bands placed again by their order of re-placement, then launches as taken, then band
  indexes (R322). -/
  order    : Nat × Nat × Nat
deriving DecidableEq, Repr

def candidateBefore (a b : Candidate) : Bool :=
  if a.priority ≠ b.priority then decide (b.priority < a.priority)
  else if a.order.1 ≠ b.order.1 then decide (a.order.1 < b.order.1)
  else if a.order.2.1 ≠ b.order.2.1 then decide (a.order.2.1 < b.order.2.1)
  else decide (a.order.2.2 ≤ b.order.2.2)

def insertCandidate (c : Candidate) : List Candidate → List Candidate
  | [] => [c]
  | d :: ds => if candidateBefore c d then c :: d :: ds else d :: insertCandidate c ds

/-- The next bands of a die, in dispatch order: of each share of a launch the lowest-numbered (R46, R322). -/
def candidates (s : State) (die : Nat) : List Candidate :=
  let again := (s.bands.filter fun b => b.core.isNone && b.die == die).filterMap fun b =>
    (s.kernel b.kernel).map fun k =>
      ({ kernel := k.uid, index := b.index, copy := b.copy, again := some b.uid, priority := k.priority,
         order := (0, b.queuedAt, b.age) } : Candidate)
  let fresh := s.kernels.flatMap fun k => (k.pending.filter fun p => p.die == die && decide (p.lo < p.hi)).map fun p =>
    ({ kernel := k.uid, index := p.lo, copy := p.copy, again := none, priority := k.priority,
       order := (1, k.seq, p.lo) } : Candidate)
  (again ++ fresh).foldr insertCandidate []

/-- The cycles that a candidate has waited as its die's head band (R322). -/
def headWait (d : Die) (c : Candidate) : Nat :=
  ((d.waited.find? fun x => x.kernel == c.kernel && x.index == c.index && x.trailing == (c.copy == .trailing)).map
    (·.cycles)).getD 0

/-- The waits of a die with a candidate's own put in its place; 0 is not listed. -/
def putHeadWait (ws : List HeadWait) (c : Candidate) (n : Nat) : List HeadWait :=
  let rest := ws.filter fun x => !(x.kernel == c.kernel && x.index == c.index && x.trailing == (c.copy == .trailing))
  if n = 0 then rest
  else rest ++ [{ kernel := c.kernel, index := c.index, trailing := c.copy == .trailing, cycles := n }]

/-- A cycle of a die in which its head band waits; the waits of kernels that have ended go (R322). A band that another
displaces as head keeps the cycles it has waited and goes on counting from them when it is head again: R322 says neither
(log 109, DESIGN CHOICE). -/
def waitHead (s : State) (d : Die) : Die :=
  match candidates s d.number with
  | [] => d
  | c :: _ => { d with waited := (putHeadWait d.waited c (headWait d c + 1)).filter fun x => (s.kernel x.kernel).isSome }

/-! ### Local cycles -/

/-- The head of a die's dispatch order has to wait for a core: some band or share of a launch is pending there. -/
def diePending (s : State) (d : Nat) : Bool :=
  s.bands.any (fun b => b.core.isNone && b.die == d)
    || s.kernels.any fun k => k.pending.any fun p => p.die == d && decide (p.lo < p.hi)

/-- Dies at which a band waits for a core. -/
def waitingDies (s : State) : List Nat :=
  toSet ((s.bands.filter fun b => b.core.isNone).map (·.die) ++ s.kernels.flatMap fun k => k.pending.map (·.die))

/-- Dies whose cycles something of theirs counts: a band on one of their cores, or one that waits for a core. -/
def activeDies (s : State) : List Nat := toSet (waitingDies s ++ (s.bands.filterMap (·.core)).map dieOf)

/-- A part that polls its word has waited a cycle more (R350). -/
def pollCycle (p : Part) : Part :=
  match p.wait with
  | .parkPoll j b c n => { p with wait := .parkPoll j b (c + 1) n }
  | _ => p

/-- What hardware set in a local cycle is no longer of this cycle, in any copy of the gang that a rollback may restore
(R78). -/
def cycleCopy (g : Gang) : Gang := { g with stickyNow := false, locksNow := false }

/-- The gang waits at a barrier of a level bound to the system, and the devices' launch records disagree, so that the
barrier never completes: the kernel is stopped by its watchdog (R47). -/
def stuckAtPeers (s : State) (k : Kernel) (g : Gang) : Bool :=
  g.parts.any fun p => match p.wait with
    | .barrier key _ _ _ => disagreed s k key
    | _ => false

/-- A gang's watchdog count rises in a cycle in which the gang is Ready and its context is not throttled (R338). R47 has
the watchdog stop a kernel at a barrier that never completes, though a gang at a barrier is not Ready: of such a gang,
and of no other at a blocking point, the cycles count too (log 110, DESIGN CHOICE). -/
def watchGang (s : State) (b : Band) (i : Nat) (g : Gang) : Gang :=
  let counts (r : Run) : Bool := !throttled s r.core r.ctx && (!gangWaiting s b i || stuckAtPeers s r.kern g)
  let g := if b.core.isSome then { g with parts := g.parts.map pollCycle } else g
  if g.residence = .resident ∧ (gangRuns s b i).head?.any counts = true then { g with watchdog := g.watchdog + 1 } else g

/-- The gangs of a band after a local cycle of its die. -/
def cycleBand (s : State) (d : Nat) (b : Band) : Band :=
  if (b.core.map dieOf) = some d ∨ b.core.isNone ∧ b.die = d then
    { b with gangs := b.gangs.mapIdx (watchGang s b) }.mapGangs cycleCopy
  else b

/-- A part that is not ready loses its wait count; one that is starving is so until it issues (R326, R337). -/
def endWaits (s : State) (runs : List Run) : State :=
  (runs.filter fun r => decide (0 < r.part.waitCount) && !readyPart s r).foldl
    (fun s r => r.modPart s fun x => { x with waitCount := 0 }) s

/-- The runs of the resident parts of a die. -/
def dieRuns (s : State) (d : Nat) : List Run :=
  (s.bands.filter fun b => (b.core.map dieOf) == some d).flatMap fun b =>
    (b.gangs.zipIdx.filter (·.1.residence == .resident)).flatMap fun g => gangRuns s b g.2

/-- A core of a die at the beginning of a local cycle in which its counter reads `cycle`: pipes come free (R52), and a
rebalance or a budget period may be due (R328, R335). -/
def cycleCore (cycle : Int) (c : Core) : Core :=
  { c with
    busy := (c.busy.map fun x => (x.1, x.2 - 1)).filter fun x => decide (0 < x.2)
    rebalance := c.rebalance || cycle % 2187 == 0 && !c.shares.isEmpty
    period := c.period || cycle % 59049 == 0 }

/-- The clock of a die advances: in a cycle divisible by 59,049 a budget period of its UCIe modules begins (R335,
R410). -/
def clockDie (s : State) (d : Nat) : State :=
  let x := s.die d
  let cycle := wrap 27 (x.cycle + 1)
  let s1 := s.setDie { x with cycle := cycle, last := -1 }
  let s2 := ((s1.cores.map (·.number)).filter fun n => dieOf n == d).foldl
    (fun s n => s.modCore n fun c => cycleCore (wrap 27 (cycle + c.offset)) c) s1
  if cycle % 59049 = 0 then
    (List.range Config.planes).foldl (fun s p => s.modUci (moduleOf d p) fun m => { m with inPeriod := 0 }) s2
  else s2

/-- A local cycle of a memory controller: its scrubber reads the next sector within its budget, and a budget period may
begin (R335, R336, R423). -/
def cycleController (s : State) (c : Controller) : Controller :=
  let c1 := { c with cycle := c.cycle + 1, period := c.period || (c.cycle + 1) % Config.period == 0 }
  if c1.period || decide (scrubLimit s c ≤ c.used) then c1 else scrubNext c1

/-- The lines with altered trits whose home slices lie on a shell die. -/
def shellLines (s : State) (shell : Nat) : List Nat :=
  let words := (s.flips.filterMap fun x => match x.1 with | .dev k => some k | _ => none) ++ s.verFlips.map (·.2.1)
  toSet ((words.filter fun k => Config.shellOfHome (homeOf (3 * k)) == shell).map (· / 81))

/-- A local cycle of the shell dies' fabric domains: each home slice scrubs each of its lines once in 59,049 of them
(R423). -/
def cycleFabric (s : State) : State :=
  let s1 : State := { s with fabric := s.fabric.map (· + 1) }
  (s1.fabric.zipIdx.filter fun x => x.1 % 59049 == 0).foldl (fun s x => (shellLines s x.2).foldl scrubLine s) s1

/-- A local cycle of the shell dies' domains: the memory controllers', the management controller's and the fabric's
(R13). -/
def shellTick (s : State) : State :=
  let s1 := (List.range Config.controllers).foldl (fun s c => s.modController c (cycleController s)) s
  let n := s1.mgmtCycle + 1
  cycleFabric { s1 with mgmtCycle := n, mgmtPeriod := s1.mgmtPeriod || n % Config.period == 0 }

/-- The lowest of the dies whose cycles something counts. The dies where nothing does, and the shell dies, have their
cycles with it (log 8, DESIGN CHOICE). -/
def leads (s : State) (d : Nat) : Bool := (activeDies s).all fun x => decide (d ≤ x)

/-- The end of a die's local cycle: its clock and its cores' counters advance (R13, R146), watchdogs, polling parts,
wait counts and the waiting of the head band count (R338, R350, R326, R322). -/
def tick (s : State) (d : Nat) : State :=
  let s0 := endWaits s (dieRuns s d)
  let s1 : State := { s0 with bands := s0.bands.map (cycleBand s0 d), starveSeq := s0.starveSeq + 1 }
  let s2 := clockDie s1 d
  let s3 := if diePending s d then s2.setDie (waitHead s2 (s2.die d)) else s2
  if leads s d then
    let idle := (List.range Config.computeDies).filter fun x => x != d && !(activeDies s).contains x
    shellTick (idle.foldl clockDie s3)
  else s3

/-! ### Choice -/

/-- The share of a stage on a core; all of it for a single-stage launch (R328, R329). -/
def shareOf (s : State) (r : Run) : Nat :=
  if r.kern.launch.stages.length ≤ 1 then 82
  else match (s.core r.core).shares.find? fun x => x.kernel == r.kern.uid with
    | some x => x.sigma.getD r.gang.stage 0
    | none => 82

/-- Fewer of the partition's last 81 issues than its share were by the part's stage (R329). -/
def underShare (s : State) (p : Nat) (r : Run) : Bool :=
  decide ((((smapGet [] (s.core r.core).recent p).filter fun x => x == (r.kern.uid, r.gang.stage)).length) < shareOf s r)

/-- The class of a part in the order of R326, and within the starving ones the order in which they became so. -/
def issueClass (s : State) (p : Nat) (r : Run) : Nat × Nat :=
  match r.part.starving with
  | some n => (0, n)
  | none =>
    if 27 ≤ r.part.waitCount then (1, 0)
    else if r.capsule then (2, 0)
    else if underShare s p r then (3, 0)
    else (4, 0)

/-- The part's next instruction can issue in this cycle: a vector instruction needs the pipe (R325). -/
def canIssue (s : State) (p : Nat) (r : Run) : Bool :=
  smapGet 0 (s.core r.core).busy p == 0 || !nextVector s r

/-- The first of the runs, which are in age order, that has the least class. -/
def pickRun (s : State) (p : Nat) : List Run → Option Run
  | [] => none
  | r :: rs => match pickRun s p rs with
    | none => some r
    | some q =>
      let a := issueClass s p r
      let b := issueClass s p q
      if a.1 < b.1 ∨ a.1 = b.1 ∧ a.2 ≤ b.2 then some r else some q

/-- An event has to come first in this cycle of a die: a rebalance, or a new budget period. -/
def cycleDue (s : State) (d : Nat) : Bool := s.cores.any fun c => dieOf c.number == d && (c.rebalance || c.period)

/-- The part takes the issue slot; it holds the pipe for a cycle per slice when its instruction is a vector one
(R52), and every other ready part of the partition has waited a cycle more (R326). -/
def grantIssue (s : State) (p : Nat) (ready : List Run) (r : Run) : State :=
  let vector := nextVector s r
  let s1 := (ready.filter fun q => q.id != r.id).foldl
    (fun s q => q.modPart s fun x => { x with waitCount := x.waitCount + 1 }) s
  let s2 := r.modPart s1 fun x => { x with wait := .ready, waitCount := 0, starving := none }
  let s3 := s2.modCore r.core fun c => { c with
    issued := smapSet 0 c.issued r.ctx.number (smapGet 0 c.issued r.ctx.number + 1)
    recent := smapSet [] c.recent p (((r.kern.uid, r.gang.stage) :: smapGet [] c.recent p).take 81)
    busy := if vector then smapSet 0 c.busy p r.part.slices.length else c.busy }
  { s3 with issue := some { part := r.id } }

/-- PARTITION_ISSUE: a partition's turn in its die's local cycle. A part that is not ready loses its wait count
(R326). The partitions of a die are served in rising order; the turn of one that has been served in this cycle begins
the next cycle (log 8). -/
def execPartitionIssue (core partition : Nat) (s : State) : Host.Outcome State Fault Refusal :=
  let d := dieOf core
  let place : Nat := 32 * (core % Config.coresPerDie) + partition
  if s.issue.isSome ∨ Config.cores ≤ core ∨ Config.partitions ≤ partition ∨ cycleDue s d = true then .next s
  else
    let s0 := if (place : Int) ≤ (s.die d).last then tick s d else s
    if cycleDue s0 d then .next s0
    else
      let s1 : State := { s0.setDie { s0.die d with last := place } with turn := 32 * core + partition }
      let runs := partitionRuns s1 core partition
      let ready := runs.filter (readyPart s1)
      let s1 := endWaits s1 runs
      match pickRun s1 partition (ready.filter (canIssue s1 partition)) with
      | some r => .next (grantIssue s1 partition ready r)
      | none => .next (ready.foldl (fun s q => q.modPart s fun x => { x with waitCount := x.waitCount + 1 }) s1)

/-- PART_STARVING: a part that has waited 27 cycles is starving from that cycle on (R326). -/
def execPartStarving (p : PartId) (s : State) : Host.Outcome State Fault Refusal :=
  match s.run p with
  | none => .next s
  | some r =>
    if 27 ≤ r.part.waitCount ∧ r.part.starving = none ∧ s.issue = none then
      .next (r.modPart s fun x => { x with starving := some s.starveSeq })
    else .next s

/-! ### Stage shares -/

/-- The starting shares of S stages (R328). -/
def startShares (n : Nat) : List Nat := (List.range n).map fun i => 81 / n + (if i < 81 % n then 1 else 0)

/-- The score of a stage: an input channel more than half full, less an output channel that is full, in some resident
band (R328). -/
def stageScore (k : Kernel) (bands : List Band) (stage : Nat) : Int :=
  let chans := k.launch.channels.zipIdx
  let input := bands.any fun b => chans.any fun c =>
    c.1.consumer == stage && decide (c.1.depth < 2 * (channelWords b c.2).length)
  let output := bands.any fun b => chans.any fun c =>
    c.1.producer == stage && decide (c.1.depth ≤ (channelWords b c.2).length)
  (if input then 1 else 0) - (if output then 1 else 0)

/-- The stage of highest score, ties to the lowest number. -/
def hiStage (score : Nat → Int) (n : Nat) : Nat :=
  (List.range n).foldl (fun h i => if score h < score i then i else h) 0

/-- The stage of lowest score with a share of 2 or more, ties to the highest number. -/
def loStage (score : Nat → Int) (sigma : List Nat) (n : Nat) : Option Nat :=
  ((List.range n).filter fun i => decide (2 ≤ sigma.getD i 0)).foldl
    (fun l i => match l with
      | none => some i
      | some j => if score i ≤ score j then some i else some j) none

/-- One eighty-first moves from the lowest to the highest score (R328). -/
def moveShare (score : Nat → Int) (sigma : List Nat) : List Nat :=
  let hi := hiStage score sigma.length
  match loStage score sigma sigma.length with
  | none => sigma
  | some lo =>
    if score lo < score hi then (sigma.set hi (sigma.getD hi 0 + 1)).set lo (sigma.getD lo 0 - 1) else sigma

/-- STAGE_REBALANCE: every launch of two or more stages with a band on the core is rebalanced (R328). -/
def execStageRebalance (core : Nat) (s : State) : Host.Outcome State Fault Refusal :=
  if (s.core core).rebalance ∧ s.issue = none then
    .next (s.modCore core fun c => { c with
      rebalance := false
      shares := c.shares.map fun x => match s.kernel x.kernel with
        | some k =>
          let bands := s.bands.filter fun b => b.kernel == k.uid && b.core == some core
          { x with sigma := moveShare (stageScore k bands) x.sigma }
        | none => x })
  else .next s

/-! ### Budget periods and watchdogs -/

/-- BUDGET_PERIOD_START: the agent's counts of the period start again, and throttling ends (R335 to R337). -/
def execBudgetPeriodStart (agent : BudgetAgent) (s : State) : Host.Outcome State Fault Refusal :=
  match agent with
  | .core n =>
    if (s.core n).period ∧ s.issue = none then
      .next (s.modCore n fun c => { c with period := false, issued := [], copied := [] })
    else .next s
  | .controller n =>
    if n < Config.controllers ∧ (s.controller n).period = true then
      .next (s.modController n fun c => { c with used := 0, period := false })
    else .next s
  | .management => if s.mgmtPeriod then .next { s with mgmtUsed := 0, mgmtPeriod := false } else .next s

/-- WATCHDOG_EXPIRY: the gang takes the budget trap, which stops its kernel (R338, R382, R388). What the band has stored
is acknowledged before the record is written (R384). -/
def execWatchdogExpiry (band gang : Nat) (s : State) : Host.Outcome State Fault Refusal :=
  match (s.band band).bind fun b => (gangRuns s b gang).head? with
  | some r =>
    if watchdogDue r.kern r.gang ∧ s.issue = none then
      let s1 := drainStores s band
      let q := r.again s1
      .next (stopTrap s1 q { code := 12, sub := 1 } q.pc (instrWords s1 q))
    else .next s
  | none => .next s

/-! ### REGANG -/

/-- The part in which a mismatch at REGANG is raised: the one that arrived last, or after an exit the one with the
lowest-numbered slice (R55). -/
def mismatchPart (rs : List Run) : Option Run :=
  match rs.find? fun r => r.part.wait == .regang true with
  | some r => some r
  | none => rs.find? fun r => rs.all fun q => decide (r.id.part ≤ q.id.part)

/-- REGANG_REFORM: every live slice waits at a REGANG; the gang re-forms, or takes the trap (R55). -/
def execRegangReform (band gang : Nat) (s : State) : Host.Outcome State Fault Refusal :=
  match s.band band with
  | none => .next s
  | some b => match b.gangs[gang]? with
    | none => .next s
    | some g =>
      if allAtRegang g then
        if sameRegang g then .next (s.modGang band gang reform)
        else match mismatchPart (gangRuns s b gang) with
          | some r => .next (finishWaiting s r (.trap { code := 11, sub := 1, lanes := slicesMask r.part.slices } s))
          | none => .next s
      else .next s

end Sys2Proof.Machine
end

