-- ==== Sys2Proof/Machine/Order.lean ====
section
/-! DEFINITION. Fences, copy batches, instruction-cache invalidation and locks (R296, R297, R312, R314 to R318). -/

namespace Sys2Proof.Machine

/-- The engine-command trap (R186; log 77, DEDUCED). -/
def engineTrap (sub : Int) : TrapInfo := { code := 7, sub := sub }

/-! ### Fences -/

/-- The scope code of a fence (R305). -/
def fenceScope (f : Fields) : Int := field f.var 2 2

/-- FENCE of slice scope, or with nothing to await, completes at once; otherwise FENCE.NS, and a fence of a part,
waits, while FENCE opens a speculative window (R297, R312). A part awaits its own accesses and those from before it
formed. -/
def fenceForm (op : Op) (spec : Bool) (f : Fields) (s : State) : Host.Outcome State Fault Refusal :=
  runOp op f s fun r =>
    if fenceScope f = -3 ∨ !owes s r then .commit [] s
    else if !spec || r.gang.parted then .wait (.fence (fenceScope f)) s
    else
      let s1 := finishResult r f.la (0, 0, 0) (.commit [] s)
      .done (r.modBand s1 fun b =>
        match b.gangs[r.id.gang]? with
        | some g => { b with specs := b.specs ++
            [{ gang := r.id.gang, saved := g, counts := [], invalid := 0, lines := [], seen := [], held := [], issued := 0 }] }
        | none => b)

/-- FENCE (R297, R312; log 37, DEDUCED). -/
def execFence (f : Fields) (s : State) : Host.Outcome State Fault Refusal := fenceForm .fence true f s
/-- FENCE.NS (R297, R312). -/
def execFenceNs (f : Fields) (s : State) : Host.Outcome State Fault Refusal := fenceForm .fenceNs false f s

/-- Rollback of a speculative fence: the gang regains its registers, and what it counted, read and stored under the
fence is dropped (R297). What others have done to the gang meanwhile stands: acknowledgements, and allowance that a
RECV returned. -/
def rollbackSpec (s : State) (r : Run) (x : Spec1) : State :=
  let keep (g : Gang) : Gang := { x.saved with
    acks := g.acks, allowance := g.allowance, residence := g.residence, partition := g.partition, watchdog := g.watchdog
    parts := x.saved.parts.map fun p => { p with wait := .ready } }
  let s := { s with reqs := s.reqs.filter fun q =>
    !(q.kind == .load && q.part.band == r.id.band && q.part.gang == r.id.gang) }
  let s1 := r.modBand s fun b => { modGangB b r.id.gang keep with
    specs := b.specs.map fun y => if y.gang = x.gang then
      { y with counts := [], invalid := 0, lines := [], seen := [], held := [], issued := 0 } else y }
  { s1 with issue := match s.issue with
      | some i => if i.part.band = r.id.band ∧ i.part.gang = r.id.gang then none else some i
      | none => none }

/-- Adds counts held under a fence to the band's. -/
def mergeCounts (a b : SMap Counts) : SMap Counts :=
  b.foldl (fun m x => countInto m x.1 { sat := x.2.sat, flush := x.2.flush, nan := x.2.nan }) a

/-- A speculative fence completes: its counts count and its stores are performed in order (R297). -/
def completeSpec (s : State) (r : Run) (x : Spec1) : State :=
  let s1 := r.modBand s fun b => { b with
    specs := b.specs.filter fun y => y.gang != x.gang
    counts := mergeCounts b.counts x.counts }
  let s2 := if x.invalid = 0 then s1
    else s1.modContext r.ctx.number fun c => { c with invalid := satCount (c.invalid + x.invalid) }
  if r.band.pair.isSome then
    let own (h : HeldStore) : Bool := h.nonets.all fun n => placeClass n.1 == 1
    let s3 := holdPaired r s2 (x.held.filter fun h => !own h)
    poke s3 r.who ((x.held.filter own).flatMap (·.nonets)) true false
  else performHeldStores r.who s2 x.held

/-- A value read under a fence still stands: neither the band's view of the nonet nor the live version of another band,
which its next access would commit (R302), holds another one or poison (R296, R303, R411). -/
def readStands (s : State) (w : Who) (n : Nat × Int) : Bool :=
  let own := versionOf s ((s.band w.band.uid).getD w.band)
  verNonet s own.uid n.1 == n.2 && !isPoison s w (.dev n.1) && s.bands.all fun b => b.uid == own.uid
    || !b.verPoison.contains (sectorOf n.1) && match smapFind b.version n.1 with
      | some v => v.toInt == n.2
      | none => true

/-- The fence that a part's gang has outstanding completes once its acknowledgements have returned; if a value read
under it has changed meanwhile, the slice rolls back first (R296, R297). -/
def completeFence (s : State) (p : PartId) : State :=
  match s.run p with
  | none => s
  | some r =>
    match specOf r.band p.gang with
    | some x =>
      if r.gang.acks ≠ 0 then s
      else
        let s1 := if x.seen.all (readStands s r.who) then s else rollbackSpec s r x
        match (s1.run p).bind fun r => (specOf r.band p.gang).map fun x => (r, x) with
        | some (r, x) => completeSpec s1 r x
        | none => s1
    | none => match r.part.wait with
      | .fence _ => if owes s r then s else finishWaiting s r (.commit [] s)
      | _ => s

/-- FENCE_COMPLETE (R296, R297, R312). -/
def execFenceComplete (p : PartId) (s : State) : Host.Outcome State Fault Refusal := .next (completeFence s p)

/-- FENCE_ROLLBACK: an invalidation of a line read under the fence (R297). -/
def execFenceRollback (p : PartId) (line : Nat) (s : State) : Host.Outcome State Fault Refusal :=
  match s.run p with
  | none => .next s
  | some r => match specOf r.band p.gang with
    | some x => if x.lines.contains line then .next (rollbackSpec s r x) else .next s
    | none => .next s

/-! ### Copy batches -/

/-- Nodes of a gang's batch. -/
def batchNodes (b : Band) (gang seq : Nat) : List Node := b.nodes.filter fun n => n.gang == gang && n.batch == some seq

def unfinished (n : Node) : Bool := n.state != .finished

/-- BATCH.SEAL: the batch takes the next rolling number; it waits while that number names an unfinished batch
(R314). -/
def execBatchSeal (f : Fields) (s : State) : Host.Outcome State Fault Refusal :=
  runOp .batchSeal f s fun r =>
    Result.orParted r s <|
      let q := r.gang.batch
      let busy := r.band.nodes.any fun n => n.gang == r.id.gang && unfinished n && match n.batch with
        | some m => decide (m < q) && m % 81 == q % 81
        | none => false
      if busy then .wait .nodes s
      else writeUni r (r.modGang s fun g => { g with batch := q + 1 }) f.d (q % 81 : Nat)

/-- The batch a number names: the latest sealed one that carries it (R299). -/
def sealedBatch (g : Gang) (n : Nat) : Option Nat :=
  if g.batch = 0 ∨ g.batch - 1 < n then none else some (g.batch - 1 - (g.batch - 1 - n) % 81)

/-- The fault of the lowest-numbered stalled node of a batch (R192, R314). -/
def stalledFault (b : Band) (gang seq : Nat) : Option TrapInfo :=
  ((batchNodes b gang seq).find? fun n => n.state == .stalled).bind (·.fault)

/-- The fault that a wait on a batch raises. A trailing copy raises the one whose record the leading copy forwarded, as
soon as a node of its own that the record names has stalled too: a placeholder never does (R314, R418). -/
def waitFault (r : Run) (seq : Nat) : Option TrapInfo :=
  match r.part.forwarded with
  | some (true, _ :: ws) =>
    if (r.band.nodes.any fun n => (n.serial : Int) == ws.getD 15 (-1) && !n.stub && n.state != .stalled) = true then none
    else some { code := ws.getD 1 0, sub := ws.getD 2 0, lanes := ws.getD 9 0, addr := ws.getD 14 0,
                node := ws.getD 15 (-1), plane := ws.getD 16 0, row := ws.getD 17 0, elem := ws.getD 18 0 }
  | _ => stalledFault r.band r.id.gang seq

/-- BATCH.WAIT (R314, R192). -/
def execBatchWait (f : Fields) (s : State) : Host.Outcome State Fault Refusal :=
  runOp .batchWait f s fun r =>
    let n := readWord r s 0 f.a
    if n < 0 ∨ 80 < n then .trap (engineTrap 26) s
    else match sealedBatch r.gang n.toNat with
      | none => .commit [] s
      | some q =>
        match waitFault r q with
        | some t => .trap t s
        | none => if (batchNodes r.band r.id.gang q).any unfinished then .wait (.batch q) s else .commit [] s

/-- BATCH_WAIT_COMPLETE: the batch has finished; where a node of it has stalled, the wait issues again and raises the
fault (R314). -/
def execBatchWaitComplete (p : PartId) (s : State) : Host.Outcome State Fault Refusal :=
  match s.run p with
  | none => .next s
  | some r => match r.part.wait with
    | .batch q =>
      if (waitFault r q).isSome then .next (reissue s p)
      else if (batchNodes r.band p.gang q).any unfinished then .next s
      else .next (finishWaiting s r (.commit [] s))
    | _ => .next s

/-! ### Code modification -/

/-- The leaf of a translated address (R315, R317). -/
def codeLeaf (s : State) (c : Context) (a : Word) : Option Leaf :=
  if field a 25 2 < 0 then none
  else match walk s c a with
    | .leaf l => some l
    | _ => none

/-- The address of an ICINV. -/
def icinvAddr (r : Run) (s : State) (f : Fields) : Word := wrap 27 (readWord r s 0 f.a + f.imm)

/-- The lines that an ICINV names: its address's, or none where the address lies outside regions 0 to +4 or fails
translation (R315). -/
def icinvName (s : State) (r : Run) (op : Op) (f : Fields) : CodeName :=
  if op = .icinvAll then .all
  else
    let a := icinvAddr r s f
    match codeLeaf s r.ctx a with
    | some l => .line (unitStart 243 (leafPlace r.ctx l a))
    | none => .nothing

/-- The walk of an ICINV's address corrects what it reads and sets the accessed trit of the leaf it finds (R376,
R407). -/
def icinvWalk (s : State) (r : Run) (op : Op) (f : Fields) : State :=
  if op = .icinvAll then s
  else
    let s1 := correctWalks s r.ctx [icinvAddr r s f]
    touchLeaf s1 (codeLeaf s1 r.ctx (icinvAddr r s f))

/-- From here on the named lines are fetched as memory holds them (R315, R395; log 9). -/
def forgetLines (s : State) (named : Place → Bool) : State :=
  let s1 := dropLines s (fun _ => true) named
  { s1 with codeOld := s1.codeOld.filter fun u => !named u.unit }

/-- A place lies in the context's frame pool, or in a window of it (R371, R438). -/
def contextPlace (c : Context) (p : Place) : Bool :=
  let frame (j : Nat) : Int := trunc 7 ((j : Int) - 1093)
  match p with
  | .dev j => covered 82 c.pool (frame j) (frame j)
  | .host n => c.hostWins.any fun w => decide (w.2.base / 2 ≤ n) && decide (n < w.2.base / 2 + 2187 * w.2.count)
  | .peer q n _ => c.peerWins.any fun w => w.2.port == q && decide (w.2.base ≤ n) && decide (n < w.2.base + 2187 * w.2.count)
  | .scr _ _ _ => false

/-- Step 2 of R315. A context's lines are those of its frame pool and its windows. -/
def forgetCode (s : State) (c : Context) (name : CodeName) : State :=
  forgetLines s fun p => match name with
    | .all => contextPlace c p
    | .line start => unitStart 243 p == start
    | .nothing => false

/-- ICINV waits for the gang's stores and atomics, as DRAIN does, then until every core has confirmed (R315, R316). -/
def icinvForm (op : Op) (f : Fields) (s : State) : Host.Outcome State Fault Refusal :=
  runOp op f s fun r =>
    let s := icinvWalk s r op f
    let name := icinvName s r op f
    if s.slow ∨ r.gang.acks ≠ 0 then .wait (.icinv s.free name) s else .commit [] (forgetCode s r.ctx name)

/-- ICINV (R315). -/
def execIcinv (f : Fields) (s : State) : Host.Outcome State Fault Refusal := icinvForm .icinv f s
/-- ICINV.ALL (R315). -/
def execIcinvAll (f : Fields) (s : State) : Host.Outcome State Fault Refusal := icinvForm .icinvAll f s

/-- ICINV_COMPLETE: every core has removed the lines and confirmed (R315). -/
def execIcinvComplete (p : PartId) (s : State) : Host.Outcome State Fault Refusal :=
  match s.run p with
  | none => .next s
  | some r => match r.part.wait with
    | .icinv since name => if drains s r since then .next s else .next (finishWaiting s r (.commit [] (forgetCode s r.ctx name)))
    | _ => .next s

/-! ### Instruction-cache locks -/

/-- Some nonet of the line that holds an address reads as poison. A device line is looked at sector by sector. -/
def linePoisoned (s : State) (w : Who) (l : Leaf) (a : Word) : Bool :=
  let low := a - field a 0 5 - 121
  if l.loc = 0 then (List.range 9).any fun (i : Nat) => isPoison s w (leafPlace w.ctx l (low + 27 * i))
  else (List.range 243).any fun (i : Nat) => isPoison s w (leafPlace w.ctx l (low + i))

/-- The instruction line that holds an address, as a number. None when the line cannot be locked: its translation or its
execute permission fails, or it is poisoned as the band fetches it (R317). -/
def codeLine (s : State) (w : Who) (a : Word) : Option Nat :=
  match resolve s w .fetch a with
  | .ok _ (some l) => if linePoisoned s w l a then none else some (leafLine l a)
  | _ => none

/-- The line that holds an address is fetched as code: a foreign version of it commits and wrong words are corrected;
its page is not marked accessed (R302, R317, R407). -/
def openLine (s : State) (w : Who) (a : Word) : State :=
  let s := correctWalks s w.ctx [a]
  match resolve s w .fetch a with
  | .ok p _ =>
    let start := unitStart 243 p
    prepareRead s w ((List.range 243).map fun i => start.plus i)
  | _ => s

/-- The line that holds an address, once it has been fetched, is in the core's instruction cache (R14, R317). -/
def keepLine (s : State) (w : Who) (core : Nat) (a : Word) : State :=
  match resolve s w .fetch a with
  | .ok p (some l) => cacheLine s core { start := unitStart 243 p, number := leafLine l a }
  | _ => s

/-- Locks of one context on a core. -/
def locksOf (c : Core) (ctx : Nat) : List Nat := (c.locks.filter fun x => x.1 == ctx).map (·.2)

/-- The locking of n lines from an address, and how many were locked (R317). -/
def lockFrom (s : State) (w : Who) (core : Nat) (a : Word) : Nat → Nat → State × Nat
  | 0, k => (s, k)
  | n + 1, k =>
    let s := openLine s w a
    match codeLine s w a with
    | none => (s, k)
    | some line =>
      let held := locksOf (s.core core) w.ctx.number
      if held.contains line then lockFrom (keepLine s w core a) w core (wrap 27 (a + 243)) n (k + 1)
      else if 81 ≤ held.length then (s, k)
      else
        let s1 := s.modCore core fun c => { c with locks := c.locks ++ [(w.ctx.number, line)] }
        lockFrom (keepLine s1 w core a) w core (wrap 27 (a + 243)) n (k + 1)

/-- The freeing of locks on n lines from an address, and how many were freed; a line that could no longer be locked is
freed too (R317). -/
def unlockFrom (s : State) (w : Who) (core : Nat) (a : Word) : Nat → Nat → State × Nat
  | 0, k => (s, k)
  | n + 1, k =>
    match ((codeLeaf s w.ctx a).map fun l => leafLine l a).filter fun line => (locksOf (s.core core) w.ctx.number).contains line with
    | none => if (locksOf (s.core core) w.ctx.number).isEmpty then (s, k) else unlockFrom s w core (wrap 27 (a + 243)) n k
    | some line =>
      let s1 := s.modCore core fun c => { c with locks := c.locks.filter (· != (w.ctx.number, line)) }
      unlockFrom s1 w core (wrap 27 (a + 243)) n (k + 1)

def iclockForm (op : Op) (f : Fields) (s : State)
    (go : State → Who → Nat → Word → Nat → Nat → State × Nat) : Host.Outcome State Fault Refusal :=
  runOp op f s fun r =>
    Result.orParted r s <|
      let a := wrap 27 (readWord r s 0 f.a + f.imm)
      let x := go s r.who r.core a (readWord r s 1 f.b).toNat 0
      writeUni r x.1 f.d x.2

/-- ICLOCK (R317). -/
def execIclock (f : Fields) (s : State) : Host.Outcome State Fault Refusal := iclockForm .iclock f s lockFrom
/-- ICLOCK.UN (R317). -/
def execIclockUn (f : Fields) (s : State) : Host.Outcome State Fault Refusal := iclockForm .iclockUn f s unlockFrom

end Sys2Proof.Machine
end

