-- ==== Sys2Proof/Machine/Shapes.lean ====
section
/-! DEFINITION. Tensor shape records, their checks, and the reads and writes that a node makes of their elements
(R183 to R186, R191, R192). -/

namespace Sys2Proof.Machine

/-- Parts of a list of one length. -/
def groupsOf (k : Nat) : Nat → List Int → List (List Int)
  | 0, _ => []
  | n + 1, l => l.take k :: groupsOf k n (l.drop k)

/-! ### Formats -/

/-- IEEE format of a format field (R184). -/
def hostFmt (v : Int) : Option IeeeFmt :=
  if v = 2 then some binary16 else if v = -2 then some bfloat16 else if v = -3 then some binary32 else none

def isHostFmt (v : Int) : Bool := (hostFmt v).isSome

/-- Word formats: T27, F27 and L3, whose unit of access is a word (R184). -/
def isWordFmt (v : Int) : Bool := v == 0 || v == 3 || v == -1

/-- Float type of a format field. -/
def floatFmt (v : Int) : Option Fmt := if v = 3 then some fmt27 else if v = 4 then some fmt9 else none

/-- Nonets or slots of one unit of access: an element, or a word of nine L3 codes. -/
def unitWidth (v : Int) : Nat := if isWordFmt v then 3 else if v = -3 then 2 else 1

/-- Units of a row. -/
def Shape.rowUnits (x : Shape) : Nat := if x.format = -1 then x.len.toNat / 9 else x.len.toNat

/-- Row size in nonets (R184). -/
def Shape.rowSize (x : Shape) : Int := x.rowUnits * unitWidth x.format

/-- Units of a record. -/
def Shape.units (x : Shape) : Nat := x.planes.toNat * x.rows.toNat * x.rowUnits

/-- Elements of a record. -/
def Shape.elements (x : Shape) : Nat := x.planes.toNat * x.rows.toNat * x.len.toNat

/-- Plane, row and unit of the unit at a place in record order (R184). -/
def Shape.coords (x : Shape) (i : Nat) : Nat × Nat × Nat :=
  let n := x.rowUnits
  (i / (x.rows.toNat * n), i / n % x.rows.toNat, i % n)

/-- The offset of a unit from the base. -/
def Shape.offset (x : Shape) (i : Nat) : Int :=
  let c := x.coords i
  c.1 * x.planeStride + c.2.1 * x.rowStride + c.2.2 * unitWidth x.format

/-- The element of access at a unit. -/
def Shape.elem (x : Shape) (i : Nat) : Elem :=
  let o := x.offset i
  if isWordFmt x.format then wordElem 0 x.base o
  else { lane := 0, addr := wrap 27 (x.base + o), nonets := (List.range (unitWidth x.format)).map fun (j : Nat) => nonetAt x.base (o + j) }

/-! ### Reading and checking records -/

/-- The 9 words of a sector, as a shape (R183). -/
def shapeOf (ws : List Word) : Shape :=
  let w (i : Nat) : Word := ws.getD i 0
  { base := w 0, format := field (w 1) 25 2, len := field (w 1) 12 13, rows := w 2, rowStride := w 3, planes := w 4,
    planeStride := w 5 }

/-- Reserved trits of a record are 0, and the format is assigned (sub-code 2). -/
def recordClean (ws : List Word) : Bool :=
  let w (i : Nat) : Word := ws.getD i 0
  field (w 1) 25 2 != -4 && field (w 1) 0 12 == 0 && w 6 == 0 && w 7 == 0 && w 8 == 0

/-- The words of the sector that an address names, read as plain loads with the checks of R168. -/
def sectorElems (a : Word) : List Elem := (List.range 9).map fun (i : Nat) => wordElem 0 a (3 * (i : Int) - 12)

/-- The sub-codes 2 to 8 of R186 that one record raises. -/
def shapeFault (dest : Bool) (ws : List Word) : Option Int :=
  let x := shapeOf ws
  if !recordClean ws then some 2
  else if x.len < 0 ∨ x.rows < 0 ∨ x.rowStride < 0 ∨ x.planes < 0 ∨ x.planeStride < 0 then some 3
  else if isWordFmt x.format ∧ x.base % 3 ≠ 0 then some 4
  else if isWordFmt x.format ∧ (2 ≤ x.rows ∧ x.rowStride % 3 ≠ 0 ∨ 2 ≤ x.planes ∧ x.planeStride % 3 ≠ 0) then some 5
  else if x.format = -1 ∧ x.len % 9 ≠ 0 then some 6
  else if dest ∧ 2 ≤ x.rows ∧ x.rowStride < x.rowSize then some 7
  else if dest ∧ 2 ≤ x.planes ∧ x.planeStride < (x.rows - 1) * x.rowStride + x.rowSize then some 8
  else none

/-- The least of some optional sub-codes. -/
def leastFault (xs : List (Option Int)) : Option Int :=
  xs.foldl (fun a b => match a, b with
    | some x, some y => some (min x y)
    | none, y => y
    | x, none => x) none

/-- The aperture check of a record's base (R185). -/
def baseAperture (s : State) (w : Who) (x : Shape) (dest : Bool) : Option TrapInfo :=
  match resolve s w (if dest then .write else .read) x.base with
  | .trap 4 n => some { code := 4, sub := n, addr := x.base }
  | _ => none

/-- The translation of a host-format base: a precise trap, or sub-code 9 (R185, R186; log 35, DEDUCED). -/
def hostBase (s : State) (w : Who) (x : Shape) (dest : Bool) : Option TrapInfo × Option Int :=
  if !isHostFmt x.format then (none, none)
  else match resolve s w (if dest then .write else .read) x.base with
    | .trap c n => (some { code := c, sub := n, addr := x.base }, none)
    | .poisoned => (some { code := 15, sub := 9, addr := x.base, base := true }, none)
    | .ok (.host _) _ => (none, none)
    | _ => (none, some 9)

/-- The walks of the host-format bases (R185, R376). -/
def walkBases (s : State) (w : Who) (xs : List Shape) : State :=
  (xs.filter fun x => isHostFmt x.format).foldl (fun s x => touchWalk (correctWalks s w.ctx [x.base]) w.ctx x.base) s

/-- A record named by an instruction: its address and whether it is a destination. -/
structure Named where
  addr : Word
  dest : Bool
deriving DecidableEq, Repr

/-- Reads the records of an engine instruction and makes the checks of R185 up to sub-code 9: `misC` says that a
result or count address is not divisible by 3. The continuation gets the shapes in order and makes the rest. -/
def withRecords (r : Run) (s : State) (named : List Named) (misC : Bool) (k : State → List Shape → Result) : Result :=
  if named.any (fun n => n.addr % 27 ≠ 0) ∨ misC then .trap (engineTrap 1) s
  else
    let w := r.who
    let es := named.flatMap fun n => sectorElems n.addr
    let s := correctWalks s r.ctx (es.flatMap fun e => e.nonets.map (·.1))
    match checkElems s w none .read true es with
    | .trap t ls => .trap { t with lanes := partLanes r } (markLeaves s ls 2)
    | .absent i => .wait (.remote i) s
    | .ok ps ls =>
      let s1 := prepareRead (markLeaves s ls 2) w ps.flatten
      match poisonOf s1 w true (es.zip ps) with
      | some t => .trap { t with lanes := partLanes r } s1
      | none =>
        let ws := ps.map fun p => joinNonets (p.map (peek s1 w))
        let recs := named.zipIdx.map fun n => (n.1, (ws.drop (9 * n.2)).take 9)
        match leastFault (recs.map fun x => shapeFault x.1.dest x.2) with
        | some n => .trap (engineTrap n) s1
        | none =>
          let shapes := recs.map fun x => (x.1, shapeOf x.2)
          match shapes.findSome? fun x => baseAperture s1 w x.2 x.1.dest with
          | some t => .trap { t with lanes := partLanes r } s1
          | none =>
            let s2 := walkBases s1 w (shapes.map (·.2))
            let hb := shapes.map fun x => hostBase s2 w x.2 x.1.dest
            match hb.findSome? (·.1) with
            | some t => .trap { t with lanes := partLanes r } s2
            | none => if hb.any (·.2.isSome) then .trap (engineTrap 9) s2 else k s2 (shapes.map (·.2))

/-- Records of one extent (sub-code 10). -/
def sameExtent (a b : Shape) : Bool := a.len == b.len && a.rows == b.rows && a.planes == b.planes

/-! ### One access of a node -/

/-- How an access of a node ends. -/
inductive NodeStep (α : Type) where
  | ok (s : State) (v : α)
  /-- The node stalls (R192). -/
  | fault (t : TrapInfo) (s : State)
  /-- The node consumes poison (R191, R413). -/
  | poison (t : TrapInfo) (s : State)
  /-- The target band of a region −3 access is not resident. -/
  | wait (s : State)
  /-- The write would overfill the undo log of a paired copy: a checkpoint comes first (R420). -/
  | full (s : State)

def NodeStep.bind {α β : Type} (x : NodeStep α) (f : State → α → NodeStep β) : NodeStep β :=
  match x with
  | .ok s v => f s v
  | .fault t s => .fault t s
  | .poison t s => .poison t s
  | .wait s => .wait s
  | .full s => .full s

/-- Where the nonets of one element of a node lie, and the leaves that its walks found, now marked accessed. A host
format is reached through host pages alone. -/
def nodePlaces (s : State) (w : Who) (kind : AccKind) (word host : Bool) (e : Elem) :
    NodeStep (List Place × List Leaf) :=
  let s := correctWalks s w.ctx (e.nonets.map (·.1))
  match checkElems s w none kind word [e] with
  | .trap t ls =>
    let s1 := markLeaves s ls 2
    if t.code = 15 then .poison t s1 else .fault { t with lanes := 0 } s1
  | .absent _ => .wait s
  | .ok ps ls =>
    let s1 := markLeaves s ls 2
    let places := ps.flatten
    if host && places.any (fun p => match p with | .host _ => false | _ => true) then
      .fault { code := 7, sub := 9, addr := e.addr } s1
    else .ok s1 (places, ls)

/-- Poison as a node's read meets it; host formats have no range check (R184). -/
def nodePoison (s : State) (w : Who) (host : Bool) (p : Place) : Bool :=
  if host then !(s.port (hostPort s)).up else isPoison s w p

/-- The nonets of one element, or none where it is poisoned. -/
def nodeRead (s : State) (w : Who) (word host : Bool) (e : Elem) : NodeStep (Option (List Int) × List Place) :=
  (nodePlaces s w .read word host e).bind fun s x =>
    let ps := x.1
    let s1 := if host then prepare s w ps true false else prepareRead s w ps
    if ps.any (nodePoison s1 w host) then .ok s1 (none, ps) else .ok s1 (some (ps.map (peek s1 w)), ps)

/-- A read that consumes poison (sub-code 5 of R413). -/
def nodeLoad (s : State) (w : Who) (word host : Bool) (e : Elem) : NodeStep (List Int) :=
  (nodeRead s w word host e).bind fun s x => match x.1 with
    | some v => .ok s v
    | none => .poison { code := 15, sub := 5, addr := e.addr, base := x.2.any (poisonInBase s w) } s

/-- A node's write of some units would overfill the undo log of its copy (R420; log 48, DEDUCED). -/
def pairFull (s : State) (uid : Nat) (us : List (Nat × Nat)) : Bool :=
  ((s.band uid).bind (·.pair)).any fun p => !p.undo.isEmpty && undoOver p us

/-- A node's write to places that it has resolved, whose pages become written (R376, R420). -/
def nodePut (s : State) (w : Who) (x : List Place × List Leaf) (put : State → State) : NodeStep Unit :=
  if pairFull s w.band.uid (undoUnits x.1) then .full s else .ok (respondTo (put (markLeaves s x.2 1)) w x.1) ()

/-- Writes the nonets of one element. -/
def nodeWrite (s : State) (w : Who) (word host : Bool) (e : Elem) (vs : List Int) : NodeStep Unit :=
  (nodePlaces s w .write word host e).bind fun s x => nodePut s w x fun s => poke s w (x.1.zip vs) true false

/-- Units of the undo log, noted at their first write. -/
def noteUndo (b : Band) (us : List (Nat × Nat)) : Band :=
  { b with pair := b.pair.map fun p => { p with undo := us.foldl (fun u k => if u.contains k then u else u ++ [k]) p.undo } }

/-- A same-format copy of poison: the destination's units become poisoned; a version commits before a write to a host or
peer page (R191, R301, R411). -/
def pokeBad (s : State) (w : Who) (ps : List Place) : State :=
  let secs := toSet (ps.filterMap fun p => match p with | .dev j => some (sectorOf j) | _ => none)
  let s := countDropped (prepareStore s w ps false) ps
  let s1 := if secs.isEmpty then s else pokePoison s w secs false
  ps.foldl (fun s p => match p with
    | .scr u n _ => s.modBand u fun b => noteUndo { b with scrPoison := setAdd b.scrPoison (n / 3) } [(0, n / 27)]
    | .host n => writeHost s n (-32768)
    | .peer q n _ => writePeer s q n (-32768)
    | .dev _ => s) s1

/-- A write of a whole sector, some of whose units carry poison: the others are stored, and the sector is poisoned, in
one access (R34, R191). -/
def pokeMixed (s : State) (w : Who) (ws : List (Place × Int)) (bad : List Place) : State :=
  if bad.isEmpty then poke s w ws true false
  else if ws.isEmpty then pokeBad s w bad
  else
    let s1 := poke s w ws false false
    let secs := toSet (bad.filterMap fun p => match p with | .dev j => some (sectorOf j) | _ => none)
    if w.kern.launch.versioned || secs.isEmpty then pokeBad s1 w bad
    else secs.foldl (fun s sec => poisonSector s sec false) s1

def nodeWriteBad (s : State) (w : Who) (word host : Bool) (e : Elem) : NodeStep Unit :=
  (nodePlaces s w .write word host e).bind fun s x => nodePut s w x fun s => pokeBad s w x.1

/-- One word at an address, read or written by a node. -/
def nodeLoadWord (s : State) (w : Who) (a : Word) : NodeStep Word :=
  (nodeLoad s w true false (wordElem 0 a 0)).bind fun s v => .ok s (joinNonets v)

def nodeStoreWord (s : State) (w : Who) (a : Word) (v : Word) : NodeStep Unit :=
  nodeWrite s w true false (wordElem 0 a 0) [nonetOf v 0, nonetOf v 1, nonetOf v 2]

end Sys2Proof.Machine
end

