-- ==== Sys2Proof/Machine/Nodes.lean ====
section
/-! DEFINITION. Engine nodes and their graph: COPY, CMPB, LINK, BIN, RELS, and the events in which nodes run
(R178 to R182, R187 to R196). -/

namespace Sys2Proof.Machine

/-! ### The graph -/

/-- Decrements of a node (R181, R182): a queued node with all of them starts. -/
def decrementNode (n : Node) : Node :=
  let got := n.got + 1
  { n with got := got, state := if n.state = .queued ∧ n.need ≤ got then .running else n.state }

/-- The node of a serial is a multiply that runs. -/
def multiplies (s : State) (uid serial : Nat) : Bool :=
  match (s.band uid).bind fun b => nodeOf b serial with
  | some n => (match n.kind with | .matrix _ _ _ _ => true | _ => false) && n.state == .running && !n.stub
  | none => false

/-- A multiply that has started takes its place in the order of starting (R261). -/
def noteStart (s : State) (uid serial : Nat) : State :=
  if multiplies s uid serial then
    s.modBand uid fun b => { b with starts := if b.starts.contains serial then b.starts else b.starts ++ [serial] }
  else s

/-- A multiply that an instruction starts is ready for the engine of its core, after those that started before it
(R261). -/
def startNow (s : State) (uid serial : Nat) : State :=
  if multiplies s uid serial then queueStarts (noteStart s uid serial) uid else s

/-- One decrement that a copy engine or the walker delivers. A multiply that it starts joins the engine's queue with an
event of its own, NODE_FINISH of that multiply: a command of an instruction that a wait on the finished node released
may come before it, as R279 allows (log 93, DESIGN CHOICE). -/
def decrement (s : State) (uid serial : Nat) : State := noteStart (s.modNode uid serial decrementNode) uid serial

/-- The follow-on target of a copy node whose decrement has not been delivered (R190). -/
def pendingFollow (n : Node) : Option Nat :=
  match n.kind with
  | .copy _ _ _ follow _ => if n.followed then none else follow
  | _ => none

/-- A node of one band finishes: the follow-on decrement first, then its successors in link order (R182, R190; logs 92
and 93). A finished node leaves the list and the engine; what LINK asks of it later stays (R194). -/
def finishOne (s : State) (uid serial : Nat) : State :=
  match (s.band uid).bind fun b => nodeOf b serial with
  | none => s
  | some n =>
    let s1 := s.modBand uid fun b => { b with
      nodes := b.nodes.filter fun x => x.serial != serial
      starts := b.starts.filter (· != serial)
      openSlots := if n.linked < n.need then setAdd b.openSlots serial else b.openSlots
      succCounts := smapSet 0 b.succCounts serial n.succs.length }
    let s2 := match (s.band uid).bind (·.core) with
      | some c => s1.modCore c fun x => { x with engine := x.engine.filter (· != .node uid serial) }
      | none => s1
    let s3 := match pendingFollow n with
      | some t => decrement s2 uid t
      | none => s2
    n.succs.foldl (fun s i => decrement s uid i) s3

/-- A band's node finishes, and with it the trailing copy's placeholder (R418). -/
def finishNode (s : State) (uid serial : Nat) : State :=
  let s1 := finishOne s uid serial
  match (s.band uid).bind (·.pair) with
  | none => s1
  | some p =>
    match (s1.band p.mate).bind fun b => nodeOf b serial with
    | some n => if n.stub then finishOne s1 p.mate serial else s1
    | none => s1

/-- A node stalls at a fault, which its gang meets at its next wait on the batch; a gang that has exited stops the
kernel, once its stores are acknowledged, since the write of the record's word 0 is a release (R192, R384, R388). -/
def stallNode (s : State) (r : Run) (serial : Nat) (t : TrapInfo) : State :=
  if r.gang.residence = .exited ∧ r.gang.acks ≠ 0 then s
  else
  let s1 := s.modNode r.id.band serial fun n => { n with state := .stalled, fault := some t }
  let s2 := s1.modBand r.id.band fun b => { b with starts := b.starts.filter (· != serial) }
  let s3 := s2.modCore r.core fun x => { x with engine := x.engine.filter (· != .node r.id.band serial) }
  if r.gang.residence = .exited then
    stopWithRecord s3 r { t with code := 16, sub := 4 } r.slice.pc (0, 0, 0) (0, 0) none
  else s3

/-- How a node's run ends. -/
def endRun (r : Run) (serial : Nat) (x : NodeStep Unit) (after : State → State) : State :=
  match x with
  | .ok s _ => after s
  | .fault t s => stallNode s r serial { t with node := serial }
  | .poison t s => keepIssue s (poisonOut s r t fun t => if owes s r then s else takeTrap s r t r.slice.pc (0, 0, 0))
  | .wait s => s
  | .full s => s.modNode r.id.band serial fun n => { n with full := true }

/-! ### Creating a node -/

/-- The options of imm20 (R179). -/
structure NodeOpts where
  pred   : Int
  hold   : Int
  fp     : Int
  follow : Int
  dither : Int
  bins   : Int
  low    : Int
deriving DecidableEq, Repr

def nodeOpts (imm : Int) : NodeOpts :=
  { pred := field imm 17 3, hold := trit imm 16, fp := trit imm 15, follow := trit imm 14, dither := trit imm 13,
    bins := field imm 7 6, low := field imm 0 7 }

/-- The options that no node may carry: sub-code 12 (R179). -/
def badOpts (o : NodeOpts) : Bool :=
  decide (o.pred < 0) || o.hold == -1 || o.fp == -1 || o.follow == -1 || o.dither == -1 || o.low != 0

/-- A new node takes the next serial; one with no predecessors that is not held starts (R180, R181). A trailing
copy's node that the leading copy performs is a placeholder (R418). -/
def addNode (r : Run) (s : State) (o : NodeOpts) (batch : Bool) (kind : NodeKind) (tid : Nat) (stub : Bool) : State :=
  let s1 := r.modBand s fun b =>
    let n : Node := {
      serial := b.nextSerial, gang := r.id.gang, batch := if batch then some r.gang.batch else none, kind := kind,
      state := if o.hold = 1 then .held else if o.pred = 0 then .running else .queued,
      need := o.pred.toNat, got := 0, linked := 0, succs := [], progress := 0, acc := [], moved := false,
      followed := false, fault := none, tid := tid, stub := stub }
    { b with nodes := b.nodes ++ [n], nextSerial := b.nextSerial + 1 }
  startNow s1 r.id.band r.band.nextSerial

/-- The node limit: the instruction waits for a running node, or sub-code 17 (R180). -/
def nodeLimit (r : Run) (s : State) (k : Unit → Result) : Result :=
  if 243 ≤ r.band.nodes.length then
    if r.band.nodes.any (·.state == .running) then .wait .nodes s else .trap (engineTrap 17) s
  else k ()

/-- The leading copy's node has finished already, and with it the placeholder (R418). -/
def stubDone (r : Run) (s : State) : State :=
  match r.band.pair.bind fun p => s.band p.mate with
  | some b => if (nodeOf b r.band.nextSerial).isSome then s else finishOne s r.id.band r.band.nextSerial
  | none => s

/-- The node is created and D receives its serial; in a pair a node that writes translated memory is created once. -/
def createNode (r : Run) (s : State) (f : Fields) (o : NodeOpts) (kind : NodeKind) (batch once : Bool)
    (after : State → State) : Result :=
  nodeLimit r s fun _ =>
    let go (stub : Bool) : State := addNode r s o batch kind (tidOf f) stub
    if once then
      onceOp r s [readWord r s 0 f.a, readWord r s 1 f.b, readWord r s 2 f.c] fun _ =>
        match trailing r with
        | some vs => writeUni r (stubDone r (after (go true))) f.d (vs.headD 0)
        | none => writeUni r (forward r (after (go false)) false [r.band.nextSerial]) f.d r.band.nextSerial
    else writeUni r (after (go false)) f.d r.band.nextSerial

/-! ### LINK and RELS -/

/-- The node of a serial: none in the outer option when it has not been created (sub-code 13), none inside when it
has finished. -/
def serialNode (b : Band) (v : Int) : Option (Option Node) :=
  if v < 0 ∨ (b.nextSerial : Int) ≤ v then none else some (nodeOf b v.toNat)

/-- The checks of LINK on a successor: its p slots, and that it has not started (R186, R194). -/
def successorFault (b : Band) (serial : Nat) (n : Option Node) : Option Int :=
  match n with
  | none => if b.openSlots.contains serial then some 16 else some 15
  | some n => if n.need ≤ n.linked then some 15 else if n.state ≠ .held ∧ n.state ≠ .queued then some 16 else none

/-- A predecessor that already has 3 successors (R186). -/
def successorsFull (b : Band) (serial : Nat) (n : Option Node) : Bool :=
  match n with
  | none => decide (3 ≤ smapGet 0 b.succCounts serial)
  | some n => decide (3 ≤ n.succs.length)

/-- LINK (R194): checks in sub-code order. -/
def execLink (f : Fields) (s : State) : Host.Outcome State Fault Refusal :=
  runOp .link f s fun r =>
    let a := readWord r s 0 f.a
    let b := readWord r s 1 f.b
    match serialNode r.band a, serialNode r.band b with
    | some na, some nb =>
      if successorsFull r.band a.toNat na then .trap (engineTrap 14) s
      else match successorFault r.band b.toNat nb with
        | some n => .trap (engineTrap n) s
        | none =>
          let s1 := s.modNode r.id.band b.toNat fun n => { n with linked := n.linked + 1 }
          match na with
          | none =>
            let s2 := r.modBand s1 fun x => { x with succCounts := smapSet 0 x.succCounts a.toNat (smapGet 0 x.succCounts a.toNat + 1) }
            .commit [] (startNow (s2.modNode r.id.band b.toNat decrementNode) r.id.band b.toNat)
          | some _ => .commit [] (s1.modNode r.id.band a.toNat fun n => { n with succs := n.succs ++ [b.toNat] })
    | _, _ => .trap (engineTrap 13) s

/-- RELS: releases a held node (R195). -/
def execRels (f : Fields) (s : State) : Host.Outcome State Fault Refusal :=
  runOp .rels f s fun r =>
    Result.orParted r s <|
      let a := readWord r s 0 f.a
      match serialNode r.band a with
      | none => .trap (engineTrap 13) s
      | some (some n) =>
        if n.state = .held then
          let s1 := s.modNode r.id.band n.serial fun n =>
            { n with state := if n.need ≤ n.got then .running else .queued }
          writeUni r (startNow s1 r.id.band n.serial) f.d 1
        else writeUni r s f.d 0
      | some none => writeUni r s f.d 0

/-! ### COPY -/

/-- Device formats. -/
def deviceFmt (v : Int) : Bool := !isHostFmt v

/-- The format pairs of COPY (R188). -/
def copyPair (a b : Int) : Bool :=
  a == b || (a == 1 && b == 0) || (a == 0 && b == 1) || (a == 4 && b == 3) || (a == 3 && b == 4)
    || (isHostFmt a && (floatFmt b).isSome) || ((floatFmt a).isSome && isHostFmt b)

/-- The pairs that narrow a float, on which dither may stand (R188, R214). -/
def copyNarrows (a b : Int) : Bool := (a == 3 && b == 4) || (isHostFmt a && (floatFmt b).isSome)

/-- Raw bits of a host element: one slot, or two with the low half first (R184). -/
def hostBits (vs : List Int) : Nat := match vs with
  | [a, b] => halfword a + 65536 * halfword b
  | v :: _ => halfword v
  | [] => 0

/-- Slots of raw bits. -/
def hostSlots (fmt : Int) (bits : Nat) : List Int :=
  if fmt = -3 then [ofHalfword (bits % 65536), ofHalfword (bits / 65536)] else [ofHalfword (bits % 65536)]

/-- The nonets of a device element. -/
def fmtNonets (fmt : Int) (v : Int) : List Int :=
  if isWordFmt fmt then [nonetOf v 0, nonetOf v 1, nonetOf v 2] else [v]

/-- A NaN between F9 and F27 keeps its kind (R188). -/
def copyFloat (A B : Fmt) (x : Int) (dither : Int) : Int × Effects :=
  match fval A x with
  | .nan p m => (narrowNan B p m + trit m (p - 2) * (3 ^ (B.p - 2) : Nat), { nan := 1 })
  | v => narrow B v dither

/-- convert(x) of R187 for one element (R188). -/
def copyConvert (a b : Int) (vs : List Int) (dither : Int) : List Int × Effects :=
  if a = b then (vs, .none)
  else match floatFmt a, floatFmt b, hostFmt a, hostFmt b with
    | some A, some B, _, _ => let r := copyFloat A B (joinNonets vs) dither; (fmtNonets b r.1, r.2)
    | _, some B, some I, _ => let r := ofIeee I B (hostBits vs) dither; (fmtNonets b r.1, r.2)
    | some A, _, _, some I => let r := toIeee I A (joinNonets vs); (hostSlots b r.1, r.2)
    | _, _, _, _ =>
      let x := joinNonets vs
      let y := if b = 1 then sat 9 x else x
      (fmtNonets b y, if y = x then .none else { sat := 1 })

/-- One step of the fingerprint over an element's nonets (R189). -/
def fingerprint (f : Int) (vs : List Int) : Int := vs.foldl (fun f v => wrap 27 (f * 4782971 + v)) f

/-- Progress of a node after one element. -/
def notePlace (s : State) (uid serial i : Nat) (acc : List Int) : State :=
  s.modNode uid serial fun n => { n with progress := i + 1, acc := acc }

/-- Nonets read by a context's nodes count against its copy budget (R336). -/
def countCopied (r : Run) (s : State) (n : Nat) : State :=
  s.modCore r.core fun c => { c with copied := smapSet 0 c.copied r.ctx.number (smapGet 0 c.copied r.ctx.number + n) }

/-- The context's copy budget of this period is not used up (R336, R337). -/
def copyAllowed (s : State) (r : Run) : Bool :=
  decide (smapGet 0 (s.core r.core).copied r.ctx.number < s.budget r.ctx.copyShare * 4782969 / 81)

/-! ### Whole sectors of a copy's destination -/

/-- The record covers the nonet at an offset from its lowest (R184); for destinations, whose rows do not overlap. -/
def Shape.covers (x : Shape) (d : Int) : Bool :=
  let q := if 2 ≤ x.planes ∧ 0 < x.planeStride then min (x.planes - 1) (d / x.planeStride) else 0
  let d := d - q * x.planeStride
  let k := if 2 ≤ x.rows ∧ 0 < x.rowStride then min (x.rows - 1) (d / x.rowStride) else 0
  let d := d - k * x.rowStride
  decide (0 ≤ d) && decide (d < x.rowSize)

/-- Whether unit i of a destination belongs to a sector of translated memory that the record covers whole (R34), and is
its first or its last unit there; `inner` says that such a sector is open. -/
def sectorSide (d : Shape) (i : Nat) (inner : Bool) : Option (Bool × Bool) :=
  let low := if isWordFmt d.format then d.offset i - 1 else d.offset i
  let a := wrap 27 (d.base + low)
  let place := (a + 13) % 27
  if field a 25 2 < 0 ∨ isHostFmt d.format then none
  else
    let first := place = 0
    let lowest := if isWordFmt d.format then -1 else 0
    let whole := if first then (List.range 27).all fun (j : Nat) => d.covers (low - lowest + j) else inner
    if whole then some (first, decide (place + unitWidth d.format = 27)) else none

/-- The units of an open sector, as a copy's acc keeps them: 1 and the nonets, or 0 and zeros for poison. -/
def openUnit (u : Nat) : Option (List Int) → List Int
  | some v => 1 :: v
  | none => 0 :: List.replicate u 0

/-- Places of units i − n + 1 to i of a destination, and their leaves, with the checks of a write. -/
def unitPlaces (w : Who) (d : Shape) (i : Nat) : Nat → State → NodeStep (List (List Place × List Leaf))
  | 0, s => .ok s []
  | n + 1, s => (nodePlaces s w .write (isWordFmt d.format) false (d.elem (i - n))).bind fun s ps =>
      (unitPlaces w d i n s).bind fun s rest => .ok s (ps :: rest)

/-- A whole sector is written as one access (R34): what acc has kept of it, and its last unit. -/
def writeSector (w : Who) (d : Shape) (i : Nat) (kept : List Int) (last : List Int) (s : State) : NodeStep Unit :=
  let u := unitWidth d.format
  let units := groupsOf (u + 1) ((kept.length + last.length) / (u + 1)) (kept ++ last)
  (unitPlaces w d i units.length s).bind fun s ps =>
    let both := ps.zip units
    let good := both.flatMap fun x => if x.2.headD 0 = 1 then x.1.1.zip (x.2.drop 1) else []
    let bad := both.flatMap fun x => if x.2.headD 0 = 1 then [] else x.1.1
    nodePut s w (ps.flatMap (·.1), ps.flatMap (·.2)) fun s => pokeMixed s w good bad

/-- What a copy does with one converted unit: kept, with its checks made, while its sector is open, written with the
sector's last unit, or written by itself. The new kept units are the answer. -/
def storeUnit (w : Who) (d : Shape) (i : Nat) (kept : List Int) (v : Option (List Int)) (s : State) : NodeStep (List Int) :=
  let word := isWordFmt d.format
  let host := isHostFmt d.format
  match sectorSide d i (!kept.isEmpty) with
  | some (first, true) => (writeSector w d i (if first then [] else kept) (openUnit (unitWidth d.format) v) s).bind fun s _ => .ok s []
  | some (first, false) => (nodePlaces s w .write word host (d.elem i)).bind fun s _ =>
      .ok s ((if first then [] else kept) ++ openUnit (unitWidth d.format) v)
  | none => match v with
    | some v => (nodeWrite s w word host (d.elem i) v).bind fun s _ => .ok s []
    | none => (nodeWriteBad s w word host (d.elem i)).bind fun s _ => .ok s []

/-- One element of a copy (R187 to R191). acc holds the fingerprint, the count of nonets in it, and the units of the
destination sector that is open. What its conversion moves counts once it has been stored (R216). -/
def copyStep (r : Run) (n : Node) (src : Shape) (dst : Option Shape) (fp : Bool) (dither : Option Nat) (i : Nat)
    (acc : List Int) (s : State) : NodeStep (List Int) :=
  let w := r.who
  let host := isHostFmt src.format
  let e := src.elem i
  let raw := !fp && match dst with | some d => d.format == src.format | none => false
  let load : NodeStep (Option (List Int)) :=
    if raw then (nodeRead s w (isWordFmt src.format) host e).bind fun s x => .ok s x.1
    else (nodeLoad s w (isWordFmt src.format) host e).bind fun s v => .ok s (some v)
  load.bind fun s vs =>
    let s := countCopied r s e.nonets.length
    let dz := match dither with
      | some phase => dither27 (((src.coords i).2.2 % 27 + phase) % 27)
      | none => 0
    let store : NodeStep (List Int × Effects) := match dst with
      | some d =>
        let c := vs.map fun v => copyConvert src.format d.format v dz
        (storeUnit w d i (acc.drop 2) (c.map (·.1)) s).bind fun s kept => .ok s (kept, (c.map (·.2)).getD .none)
      | none => .ok s ([], .none)
    store.bind fun s x =>
      let f := acc.getD 0 0
      let m := acc.getD 1 0
      let v := vs.getD []
      .ok (applyEffects r s n.tid x.2) ((if fp then [fingerprint f v, m + v.length] else [f, m]) ++ x.1)

/-- Runs the elements of a node from its progress on; it pauses before one while its context is throttled (R337), or its
copy has to take a checkpoint first (R420), and a fault names the element's coordinates (R192). R187 leaves the order of
the elements open, and R191 which of two values a nonet that is both read and written gives: here each element is read
and written in record order, but for a covered sector, which is written with its last unit (log 112, DESIGN CHOICE). -/
def runElems (r : Run) (n : Node) (shape : Shape) (body : Nat → List Int → State → NodeStep (List Int)) :
    Nat → Nat → List Int → State → NodeStep (List Int)
  | 0, _, acc, s => .ok s acc
  | fuel + 1, i, acc, s =>
    if !copyAllowed s r then .wait s
    else match body i acc s with
    | .ok s acc => runElems r n shape body fuel (i + 1) acc (notePlace s r.id.band n.serial i acc)
    | .fault t s =>
      let c := shape.coords i
      .fault { t with plane := c.1, row := c.2.1, elem := if shape.format = -1 then 9 * c.2.2 else c.2.2 } s
    | .full _ => .full s
    | x => x

/-- The data of a copy moves, and its fingerprint is written. A copy of zero extent writes nothing (R187). -/
def runCopy (r : Run) (n : Node) (src : Shape) (dst : Option Shape) (fp : Option Word) (dither : Option Nat)
    (s : State) : NodeStep Unit :=
  (runElems r n src (copyStep r n src dst fp.isSome dither) (src.units - n.progress) n.progress n.acc s).bind fun s acc =>
    match fp with
    | some c => if src.units = 0 then .ok s () else nodeStoreWord s r.who c (wrap 27 (acc.getD 0 0 + acc.getD 1 0))
    | none => .ok s ()

/-- COPY (R187 to R190). -/
def execCopy (f : Fields) (s : State) : Host.Outcome State Fault Refusal :=
  runOp .copy f s fun r =>
    Result.orParted r s <|
      let o := nodeOpts f.imm
      let a := readWord r s 0 f.a
      let b := readWord r s 1 f.b
      let c := readWord r s 2 f.c
      let noDest := f.b == .uni 0
      let named := { addr := a, dest := false } :: if noDest then [] else [{ addr := b, dest := true }]
      withRecords r s named (o.fp == 1 && decide (c % 3 ≠ 0)) fun s shapes =>
        match shapes with
        | [] => .commit [] s
        | src :: rest =>
          let dst := rest.head?
          let narrows := match dst with | some d => copyNarrows src.format d.format | none => false
          let bad12 := badOpts o || o.bins != 0 || (noDest && o.fp != 1) || (o.follow == 1 && (o.fp == 1 || noDest))
            || (o.fp == 1 && isHostFmt src.format) || (o.dither == 1 && !narrows)
          if (dst.any fun d => !sameExtent src d) then .trap (engineTrap 10) s
          else if (dst.any fun d => !copyPair src.format d.format) then .trap (engineTrap 11) s
          else if bad12 then .trap (engineTrap 12) s
          else
            let target := serialNode r.band c
            let targetFault : Option Int :=
              if o.follow ≠ 1 then none
              else match target with
                | none => some 13
                | some t => successorFault r.band c.toNat t
            let matrix := match target with
              | some (some t) => (match t.kind with | .matrix _ _ _ _ => true | _ => false)
              | _ => false
            match targetFault with
            | some n => .trap (engineTrap n) s
            | none =>
              let kind : NodeKind := .copy src dst (if o.fp = 1 then some c else none)
                (if o.follow = 1 then some c.toNat else none) (if o.dither = 1 then some r.gang.dither else none)
              let once := (dst.any fun d => translatedAddr d.base) || (o.fp == 1 && translatedAddr c)
              if o.follow = 1 ∧ !matrix then nodeLimit r s fun _ => .trap (engineTrap 18) s
              else createNode r s f o kind true once fun s =>
                let s1 := if o.follow = 1 then s.modNode r.id.band c.toNat fun n => { n with linked := n.linked + 1 } else s
                if o.dither = 1 then r.modGang s1 fun g => { g with dither := (g.dither + 1) % 27 } else s1

/-! ### CMPB -/

/-- One unit compared: acc holds the answer and the number of nonets compared (R193; log 36, DEDUCED). -/
def cmpbStep (r : Run) (a b : Shape) (i : Nat) (acc : List Int) (s : State) : NodeStep (List Int) :=
  let word := isWordFmt a.format
  (nodeLoad s r.who word false (a.elem i)).bind fun s x =>
    (nodeLoad s r.who word false (b.elem i)).bind fun s y =>
      let s := countCopied r s (x.length + y.length)
      let ans := acc.getD 0 0
      let done := acc.getD 1 0
      let first := (x.zip y).zipIdx.find? fun p => p.1.1 ≠ p.1.2
      let ans' := if ans ≠ 0 then ans else match first with
        | some (p, j) => sgn (p.1 - p.2) * (done + j + 1)
        | none => 0
      .ok s [ans', done + x.length]

def runCmpb (r : Run) (n : Node) (a b : Shape) (result : Word) (s : State) : NodeStep Unit :=
  (runElems r n a (cmpbStep r a b) (a.units - n.progress) n.progress n.acc s).bind fun s acc =>
    nodeStoreWord s r.who result (acc.getD 0 0)

/-- CMPB (R193). -/
def execCmpb (f : Fields) (s : State) : Host.Outcome State Fault Refusal :=
  runOp .cmpb f s fun r =>
    Result.orParted r s <|
      let o := nodeOpts f.imm
      let c := readWord r s 2 f.c
      let named : List Named := [{ addr := readWord r s 0 f.a, dest := false }, { addr := readWord r s 1 f.b, dest := false }]
      withRecords r s named (decide (c % 3 ≠ 0)) fun s shapes =>
        match shapes with
        | [a, b] =>
          if !sameExtent a b then .trap (engineTrap 10) s
          else if isHostFmt a.format ∨ a.format ≠ b.format then .trap (engineTrap 11) s
          else if badOpts o ∨ o.bins ≠ 0 ∨ o.fp ≠ 0 ∨ o.follow ≠ 0 ∨ o.dither ≠ 0 then .trap (engineTrap 12) s
          else createNode r s f o (.cmpb a b c) true (translatedAddr c) id
        | _ => .commit [] s

/-! ### BIN -/

/-- acc holds count_0 to count_(n−1) and the count outside the range (R196). -/
def binStep (r : Run) (x : Shape) (bins : Nat) (i : Nat) (acc : List Int) (s : State) : NodeStep (List Int) :=
  (nodeLoad s r.who (isWordFmt x.format) false (x.elem i)).bind fun s vs =>
    let s := countCopied r s vs.length
    let v := joinNonets vs
    let acc := if acc.isEmpty then List.replicate (bins + 1) 0 else acc
    let j := if 0 ≤ v ∧ v < bins then v.toNat else bins
    .ok s (acc.set j (acc.getD j 0 + 1))

/-- The record counts set in a node by a patch; none where the patch does not apply (R196). -/
def patchKind (count : Int) : NodeKind → Option NodeKind
  | .copy src dst fp follow dither =>
    let ok (x : Shape) (dest : Bool) : Bool := x.planes == 1 &&
      (count < 2 || !dest || ((!isWordFmt x.format || x.rowStride % 3 == 0) && decide (x.rowSize ≤ x.rowStride)))
    if ok src false && (dst.all fun d => ok d true) then
      some (.copy { src with rows := count } (dst.map fun d => { d with rows := count }) fp follow dither)
    else none
  | .cmpb a b res =>
    if a.planes = 1 ∧ b.planes = 1 then some (.cmpb { a with rows := count } { b with rows := count } res) else none
  | _ => none

/-- One patch: the band after it, and whether it was skipped (R196). -/
def patchNode (b : Band) (v : Word) (count : Int) : Band × Bool :=
  match serialNode b v with
  | some (some n) =>
    if n.state = .held ∨ n.state = .queued then
      match patchKind count n.kind with
      | some k => (modNodeB b n.serial fun n => { n with kind := k }, false)
      | none => (b, true)
    else (b, true)
  | _ => (b, true)

/-- The words of a table, read in increasing order; a node reads them, and they count against its context's copy budget
(R336). -/
def readTable (r : Run) (a : Word) : Nat → Nat → State → NodeStep (List Word)
  | 0, _, s => .ok s []
  | n + 1, j, s => (nodeLoadWord s r.who (wrap 27 (a + 3 * j))).bind fun s v =>
      (readTable r a n (j + 1) (countCopied r s 3)).bind fun s vs => .ok s (v :: vs)

def writeTable (w : Who) (a : Word) : List Word → Nat → State → NodeStep Unit
  | [], _, s => .ok s ()
  | v :: vs, j, s => (nodeStoreWord s w (wrap 27 (a + 3 * j)) v).bind fun s _ => writeTable w a vs (j + 1) s

/-- BIN runs: it counts, then patches in increasing order, then writes its counts (R196). -/
def runBin (r : Run) (n : Node) (items : Shape) (table : Word) (area : Option Word) (bins : Nat) (s : State) :
    NodeStep Unit :=
  (runElems r n items (binStep r items bins) (items.units - n.progress) n.progress n.acc s).bind fun s acc =>
    let counts := if acc.isEmpty then List.replicate (bins + 1) 0 else acc
    (if copyAllowed s r then readTable r table bins 0 s else .wait s).bind fun s serials =>
      match s.band r.id.band with
      | none => .ok s ()
      | some b =>
        let x := (serials.zip counts).foldl (fun (p : Band × Nat) v =>
          let y := patchNode p.1 v.1 v.2
          (y.1, p.2 + if y.2 then 1 else 0)) (b, 0)
        let out := match area with
          | some c => writeTable r.who c (counts ++ [(x.2 : Int)]) 0 s
          | none => .ok s ()
        out.bind fun s _ => .ok (s.modBand r.id.band fun b => { b with nodes := b.nodes.map fun m =>
          ((x.1.nodes.find? fun y => y.serial == m.serial).map fun y => { m with kind := y.kind }).getD m }) ()

/-- BIN (R196). -/
def execBin (f : Fields) (s : State) : Host.Outcome State Fault Refusal :=
  runOp .bin f s fun r =>
    Result.orParted r s <|
      let o := nodeOpts f.imm
      let c := readWord r s 2 f.c
      let noArea := f.c == .uni 0
      withRecords r s [{ addr := readWord r s 0 f.a, dest := false }] (!noArea && decide (c % 3 ≠ 0)) fun s shapes =>
        match shapes with
        | [x] =>
          if x.format ≠ 0 ∧ x.format ≠ 1 then .trap (engineTrap 11) s
          else if badOpts o ∨ o.fp ≠ 0 ∨ o.follow ≠ 0 ∨ o.dither ≠ 0 then .trap (engineTrap 12) s
          else createNode r s f o (.bin x (readWord r s 1 f.b) (if noArea then none else some c) (o.bins + 365).toNat) true
            (!noArea && translatedAddr c) id
        | _ => .commit [] s

/-! ### Events -/

/-- The run of a node that no engine sequences (R181, R187, R193, R196). A multiply that the walker has started joins
its core's engine (R261); one whose progress equals its width finishes as soon as it starts (R263). -/
def runNode (r : Run) (n : Node) (s : State) : NodeStep Unit :=
  if n.moved then .ok s ()
  else match n.kind with
  | .copy src dst fp _ dither => runCopy r n src dst fp dither s
  | .cmpb a b res => runCmpb r n a b res s
  | .bin x table area bins => runBin r n x table area bins s
  | .matrix _ _ _ acc => if field acc 16 4 ≤ n.progress then .ok s () else .wait (queueStarts s r.id.band)

/-- A running node that is no placeholder, with its gang's records. -/
def runningNode (s : State) (band serial : Nat) : Option (Run × Node) :=
  match (s.band band).bind fun b => if b.core.isSome then nodeOf b serial else none with
  | some n => if n.state = .running && !n.stub then (gangRun s band n.gang).map fun r => (r, n) else none
  | none => none

/-- NODE_FINISH: the node's data moves; it finishes, stalls at a fault, or pauses (R181, R192, R337). -/
def execNodeFinish (band serial : Nat) (s : State) : Host.Outcome State Fault Refusal :=
  match runningNode s band serial with
  | some (r, n) =>
    .next (endRun r serial (runNode r n s) fun s => finishNode s band serial)
  | none => .next s

/-- NODE_FAULT: an element of a running node faults, and the node stalls there (R192). -/
def execNodeFault (band serial : Nat) (s : State) : Host.Outcome State Fault Refusal :=
  match runningNode s band serial with
  | some (r, n) =>
    match runNode r n s with
    | .fault t s1 => .next (stallNode s1 r serial { t with node := serial })
    | _ => .next s
  | none => .next s

/-- FOLLOW_ON_DECREMENT: a copy's last destination nonet has been performed, and the copy engine decrements the
follow-on target ahead of the walker (R190). -/
def execFollowOnDecrement (band serial : Nat) (s : State) : Host.Outcome State Fault Refusal :=
  match runningNode s band serial with
  | some (r, n) => match pendingFollow n with
    | some t =>
      .next (endRun r serial (runNode r n s) fun s =>
        decrement (s.modNode band serial fun n => { n with moved := true, followed := true }) band t)
    | none => .next s
  | none => .next s

end Sys2Proof.Machine
end

