-- ==== Sys2Proof/Machine/Matrix.lean ====
section
/-! DEFINITION. The matrix engine, the accumulator tiles and block quantisation (R252 to R271). -/

namespace Sys2Proof.Machine

/-! ### Handles and operands -/

/-- The values of n keys of a sparse map from lo on. -/
def smapRange (m : SMap Int) (lo : Nat) : Nat → List Int
  | 0 => []
  | n + 1 =>
    let m := m.dropWhile fun p => decide (p.1 < lo)
    (match m with
      | [] => 0
      | p :: _ => if p.1 = lo then p.2 else 0) :: smapRange m (lo + 1) n

/-- The map with a run of keys from lo on set. -/
def smapFill (m : SMap Int) (lo : Nat) (vs : List Int) : SMap Int :=
  m.filter (fun p => decide (p.1 < lo)) ++ (vs.zipIdx.filterMap fun v => if v.1 = 0 then none else some (lo + v.2, v.1))
    ++ m.filter fun p => decide (lo + vs.length ≤ p.1)

/-- The tile, N and progress of an accumulator handle (R79, R80). -/
def accHandle (b : Band) (v : Word) : Option (Nat × Nat × Nat) :=
  let t := field v 20 6
  let w := field v 16 4
  let p := field v 12 4
  match if t < 0 then none else b.tiles[t.toNat]? with
  | some x => if trit v 26 = 1 ∧ 27 * w = x.cols ∧ 0 ≤ p ∧ p ≤ w ∧ field v 0 12 = 0 then some (t.toNat, x.cols, p.toNat) else none
  | none => none

/-- The nonet offset of a scratchpad handle whose extent fits the allocation (R79, R80, R256; log 41, DEDUCED). -/
def scrHandle (alloc : Nat) (v : Word) (extent : Int) : Option Nat :=
  let sec := field v 16 10
  if trit v 26 = -1 ∧ 0 ≤ sec ∧ 27 * sec < alloc ∧ 27 * sec + extent ≤ alloc then some (27 * sec).toNat else none

/-- Nonets of one row, its scales included (R253). -/
def rowExtent : Ty → Nat
  | .t9 | .f9 => 81
  | .t27 | .f27 => 243
  | .l3 => 30

/-- Nonets of one row's elements. -/
def rowNonets : Ty → Nat
  | .l3 => 27
  | ty => rowExtent ty

def words3 : List Int → List Word
  | a :: b :: c :: t => wordOf a b c :: words3 t
  | _ => []

/-- The elements that nonets hold in a type (R253). -/
def elemsOf (ty : Ty) (ns : List Int) : List Int :=
  match ty with
  | .t9 | .f9 => ns
  | .t27 | .f27 => words3 ns
  | .l3 => (words3 ns).flatMap fun w => (List.range 9).map fun m => field w (3 * m) 3

/-- The nonets of elements. -/
def nonetsOf (ty : Ty) (vs : List Int) : List Int :=
  match ty with
  | .t9 | .f9 => vs
  | _ => vs.flatMap fun v => [nonetOf v 0, nonetOf v 1, nonetOf v 2]

/-- Rows r0 to r0 + n − 1 of an operand of R rows at h: the nonets of their elements, then their scales (R253). -/
def readRows (b : Band) (ty : Ty) (h R r0 n : Nat) : List Int :=
  smapRange b.scratch (h + rowNonets ty * r0) (rowNonets ty * n) ++
    if ty = .l3 then smapRange b.scratch (h + 27 * R + 3 * r0) (3 * n) else []

/-- The first poisoned nonet of a range of a scratchpad. -/
def scrPoisonAt (b : Band) (lo n : Nat) : Option Nat :=
  (b.scrPoison.find? fun k => decide (lo < 3 * k + 3) && decide (3 * k < lo + n)).map fun k => max lo (3 * k)

/-- The first poisoned nonet among the rows. -/
def rowsPoison (b : Band) (ty : Ty) (h R r0 n : Nat) : Option Nat :=
  (scrPoisonAt b (h + rowNonets ty * r0) (rowNonets ty * n)).orElse fun _ =>
    if ty = .l3 then scrPoisonAt b (h + 27 * R + 3 * r0) (3 * n) else none

/-! ### One step of a multiply -/

/-- A sum and a product under R206, first NaN first. -/
def addNan (F : Fmt) (x y : FVal) : FVal := withNan [x, y] (addVal F x y)
def mulNan (F : Fmt) (x y : FVal) : FVal := withNan [x, y] (mulVal F x y)

/-- A chunk of integer products (R213). -/
def chunkInt (a b : List Int) : Int := (a.zip b).foldl (fun acc p => acc + p.1 * p.2) 0

/-- A chunk of float products, summed in increasing k; its first NaN, whether made or met, is the chunk's (R213; log 42,
DEDUCED). -/
def chunkFloat (F : Fmt) (a b : List FVal) : FVal :=
  (a.zip b).foldl (fun acc p => addNan F acc (mulNan F p.1 p.2)) (.fin 0 1)

/-- A chunk of code products times its scales; a NaN chunk is the canonical quiet NaN (R208, R257). -/
def chunkL3 (a b : List Int) (sa sb : FVal) : FVal :=
  let c := (a.zip b).foldl (fun acc p => acc + l3Product p.1 p.2) 0
  let x := mulNan fmt9 (mulNan fmt9 (.fin c (3 ^ 18)) sa) sb
  if x.isNan then qnan fmt27 else x

/-- Rows of an operand in the form in which chunks use them: elements after the modifier, and scales. -/
structure Rows where
  ints   : List (List Int)
  floats : List (List FVal)
  scales : List (List FVal)
  /-- Signalling NaNs read (R218). -/
  signal : Nat
deriving DecidableEq, Repr

/-- n rows of nonets as an operand, modified (R254). -/
def rowsOf (ty : Ty) (m : Modifier) (n : Nat) (ns : List Int) : Rows :=
  let vs := (elemsOf ty (ns.take (rowNonets ty * n))).map (modElem ty m)
  let fs := if isFloat ty then vs.map (fval (fmtOf ty)) else []
  let sc := (ns.drop (rowNonets ty * n)).map (fval fmt9)
  let rows {α : Type} (k : Nat) (l : List α) : List (List α) := (List.range n).map fun i => (l.drop (k * i)).take k
  { ints := groupsOf 81 n vs, floats := rows 81 fs, scales := rows 3 sc,
    signal := signallers fs + signallers sc }

/-- An L3 chunk enters an accumulator element, which a NaN chunk makes the canonical quiet NaN (R257). -/
def addL3 (v ch : FVal) : FVal := if ch.isNan then qnan fmt27 else addNan fmt27 v ch

/-- The chunks of one accumulator element enter it in increasing q (R257, R213; log 42, DEDUCED). -/
def accElem (ty : Ty) (c : Clamp) (a b : Rows) (i n : Nat) (acc : Word) : Word × Effects :=
  let cut {α : Type} (l : List (List α)) (j q : Nat) : List α := ((l.getD j []).drop (27 * q)).take 27
  let r := [0, 1, 2].foldl (fun (x : Word × Effects) q =>
    let y := match ty with
      | .t27 | .t9 => intDest 27 c 0 (x.1 + chunkInt (cut a.ints i q) (cut b.ints n q))
      | _ =>
        let v := fval fmt27 x.1
        let sum := if ty = Ty.l3 then addL3 v (chunkL3 (cut a.ints i q) (cut b.ints n q)
              ((a.scales.getD i []).getD q (.fin 0 1)) ((b.scales.getD n []).getD q (.fin 0 1)))
          else addNan fmt27 v (chunkFloat (fmtOf ty) (cut a.floats i q) (cut b.floats n q))
        floatDest fmt27 c 0 sum (signallers [v])
    (y.1, x.2.add y.2)) (acc, Effects.none)
  (r.1, r.2.once)

/-- What a multiply names (R255, R257): the tile, N, its first step, and the operands' places and offsets. -/
structure MatArgs where
  tile : Nat
  n    : Nat
  skip : Nat
  ha   : Nat
  hb   : Nat
  pa   : Option Nat
  pb   : Option Nat
deriving DecidableEq, Repr

/-- The virtual address of nonet 0 of a place's allocation (R150, R152). -/
def placeBase : Option Nat → Word
  | none => regionLow (-4)
  | some m => regionLow (-3) + 531441 * (m : Int)

/-- The band of a place (R255), as a region −3 access resolves it. -/
def placeBand (s : State) (w : Who) : Option Nat → Resolved
  | none => .ok (.scr w.band.uid 0 false) none
  | some m => resolve s w .read (placeBase (some m))

/-- A place code: own allocation, member, or reserved (sub-code 21). -/
def placeCode (v : Int) : Option (Option Nat) :=
  if v = 0 then some none else if 1 ≤ v ∧ v ≤ 9 then some (some (v - 1).toNat) else none

/-- Trap sub-codes 22 and 23 of a place (R256). -/
def placeFault (s : State) (w : Who) (p : Option Nat) : Option Int :=
  match placeBand s w p with
  | .trap 4 4 => some 23
  | .trap _ _ => some 22
  | _ => none

/-- The checks of a multiply from sub-code 19 on (R256). -/
def matArgs (s : State) (r : Run) (f : Fields) (a b acc : Word) : Except Int MatArgs :=
  match accHandle r.band acc with
  | none => .error 19
  | some (t, n, p) =>
    match scrHandle r.kern.launch.scratch a (27 * rowExtent f.ty), scrHandle r.kern.launch.scratch b (n * rowExtent f.ty) with
    | some ha, some hb =>
      match placeCode (field f.imm 4 3), placeCode (field f.imm 1 3) with
      | some pa, some pb =>
        let faults := [placeFault s r.who pa, placeFault s r.who pb]
        if faults.contains (some 22) then .error 22
        else if faults.contains (some 23) then .error 23
        else .ok { tile := t, n := n, skip := p, ha := ha, hb := hb, pa := pa, pb := pb }
      | _, _ => .error 21
    | _, _ => .error 20

/-- The band index of a place that is not resident (R152, R259). -/
def absentPlace (s : State) (w : Who) (m : MatArgs) : Option Nat :=
  [m.pa, m.pb].findSome? fun p => match placeBand s w p with
    | .absent i => some i
    | _ => none

/-- The resident band whose allocation a place names. -/
def placeUid (s : State) (w : Who) (p : Option Nat) : Option Nat :=
  match placeBand s w p with
  | .ok (.scr u _ _) _ => some u
  | _ => none

/-- Before rows of another band are read, that band settles (R414). -/
def settlePlace (s : State) (w : Who) (uid : Nat) : State :=
  if uid = w.band.uid then s else s.modBand uid fun b => { b with settled := true }

/-- Rows of a place; a poisoned word among them is consumed (R259). -/
def loadRows (s : State) (w : Who) (ty : Ty) (p : Option Nat) (h R r0 n : Nat) : NodeStep (List Int) :=
  match placeUid s w p with
  | none => .wait s
  | some u =>
    let s1 := correctScratch (settlePlace s w u) u (h + rowNonets ty * r0) (rowNonets ty * n)
    let s1 := if ty = .l3 then correctScratch s1 u (h + 27 * R + 3 * r0) (3 * n) else s1
    match s1.band u with
    | none => .wait s1
    | some b => match rowsPoison b ty h R r0 n with
      | some j => .poison { code := 15, sub := 4, addr := wrap 27 (placeBase p + (3 * (j / 3) + 1 : Nat)) } s1
      | none => .ok s1 (readRows b ty h R r0 n)

/-- Units of 9 tile words that a write touches, for the undo log (R420). -/
def tileUnits (tile lo n : Nat) : List (Nat × Nat) :=
  if n = 0 then [] else (List.range ((lo + n - 1) / 9 - lo / 9 + 1)).map fun i => (tile + 1, lo / 9 + i)

/-- Whole words of a tile written from lo on; they lose their poison (R411). -/
def writeTile (s : State) (uid tile lo : Nat) (vs : List Word) : State :=
  s.modBand uid fun b => noteUndo { b with
    tiles := modAt b.tiles tile fun t => { t with
      words := smapFill t.words lo vs
      poison := t.poison.filter fun k => decide (k < lo) || decide (lo + vs.length ≤ k) } } (tileUnits tile lo vs.length)

def tileOf (b : Band) (t : Nat) : Tile := b.tiles.getD t { cols := 0, words := [], poison := [] }

/-- One step of a multiply: columns 27k to 27k + 26 (R257, R259). `a` holds operand A's nonets once they have been
read; one that was interrupted reads them again, and their signalling NaNs do not count twice (R218). -/
def matStep (r : Run) (f : Fields) (m : MatArgs) (k : Nat) (a : List Int) (s : State) : NodeStep (List Int) :=
  let w := r.who
  let first := a.isEmpty
  (if first then loadRows s w f.ty m.pa m.ha 27 0 27 else .ok s a).bind fun s a =>
    (loadRows s w f.ty m.pb m.hb m.n (27 * k) 27).bind fun s bn =>
      match s.band r.id.band with
      | none => .ok s a
      | some band =>
        let tile := tileOf band m.tile
        if tile.poison.any fun x => decide (729 * k ≤ x) && decide (x < 729 * (k + 1)) then .poison { code := 15, sub := 4 } s
        else
          let ra := rowsOf f.ty f.modA 27 a
          let rb := rowsOf f.ty f.modB 27 bn
          let old := smapRange tile.words (729 * k) 729
          let new := old.zipIdx.map fun x => accElem f.ty f.clamp ra rb (x.2 % 27) (x.2 / 27) x.1
          let e := Effects.sum (new.map (·.2))
          let e := { e with invalid := e.invalid + rb.signal + if first && r.part.mul.isNone then ra.signal else 0 }
          .ok (applyEffects r (writeTile s r.id.band m.tile (729 * k) (new.map (·.1))) (tidOf f) e) a

/-- The remaining steps of a multiply. -/
def matSteps (r : Run) (f : Fields) (m : MatArgs) : Nat → Nat → List Int → State → NodeStep (List Int)
  | 0, _, a, s => .ok s a
  | n + 1, k, a, s => (matStep r f m k a s).bind fun s a => matSteps r f m n (k + 1) a s

/-! ### The engine -/

def EngineCmd.isPart (p : PartId) : EngineCmd → Bool
  | .part q _ _ _ => q == p
  | .node _ _ => false

/-- A part's command leaves the engine. -/
def dropCommand (r : Run) (s : State) : State :=
  s.modCore r.core fun c => { c with engine := c.engine.filter fun e => !e.isPart r.id }

/-- An instruction's command is performed when it is the engine's next (R261): at once while the engine has none
and latencies are not shown (log 7), else when it is the first of the ready ones. A command that waits for a member band
stays the engine's next. The continuation gets the steps done and operand A of an interrupted wait; `la` is the
instruction's lookahead. -/
def engineOp (r : Run) (s : State) (la : Nat) (f : Option Fields) (start : Nat) (k : Nat → List Int → State → Result) : Result :=
  let q := (s.core r.core).engine
  let alone (s : State) : State := s.modCore r.core fun c => { c with engine := [EngineCmd.part r.id f start []] }
  let queued : State := s.modCore r.core fun c => { c with engine := q ++ [EngineCmd.part r.id f start []] }
  let x : Result := match q with
    | [] => if s.slow then .wait .engine (reachBehind r (alone s) la)
      else match k start [] s with
        | .wait (.remote i) s => .wait (.remote i) (alone s)
        | x => x
    | .part p _ n a :: _ =>
      if p = r.id then k n a s
      else if q.any (·.isPart r.id) then .wait .engine s
      else .wait .engine (reachBehind r queued la)
    | .node _ _ :: _ =>
      if q.any (·.isPart r.id) then .wait .engine s
      else .wait .engine (reachBehind r queued la)
  match x with
  | .wait w s => .wait w s
  | .commit d s => .commit d (dropCommand r s)
  | .branch d t s => .branch d t (dropCommand r s)
  | .step e s => .step e (dropCommand r s)
  | .trap t s => .trap t (dropCommand r s)
  | .done s => .done (dropCommand r s)

/-- A write that would overfill a paired copy's undo log is a checkpoint (R420; log 48, DEDUCED). -/
def undoFull (r : Run) (us : List (Nat × Nat)) : Bool :=
  match r.band.pair with
  | some p => !r.part.granted && !p.undo.isEmpty && undoOver p us
  | none => false

/-- The command runs unless a checkpoint comes first. -/
def withUndo (r : Run) (s : State) (us : List (Nat × Nat)) (x : Unit → Result) : Result :=
  if undoFull r us then .wait (.checkpoint false []) s else x ()

/-- A trap drops a command that waited. -/
def engineTrapOf (r : Run) (s : State) (sub : Int) : Result := .trap (engineTrap sub) (dropCommand r s)

/-! ### Multiplies -/

/-- MMUL (R257, R262, R264): the multiply, and D with progress 0. Trits [19:7] of imm20 are an unused field (R93). -/
def execMmul (f : Fields) (s : State) : Host.Outcome State Fault Refusal :=
  runOp .mmul f s fun r =>
    Result.orParted r s <|
      let acc := readWord r s 3 f.d
      if trit f.imm 0 ≠ 0 then engineTrapOf r s 12
      else match matArgs s r f (readWord r s 0 f.a) (readWord r s 1 f.b) acc with
        | .error n => engineTrapOf r s n
        | .ok m => withUndo r s (tileUnits m.tile (729 * m.skip) (27 * m.n - 729 * m.skip)) fun _ =>
          engineOp r s f.la (some f) m.skip fun done a s =>
            match if done < m.n / 27 then absentPlace s r.who m else none with
            | some i => .wait (.remote i) s
            | none => match matSteps r f m (m.n / 27 - done) done a s with
              | .ok s _ => writeUni r s f.d (setField acc 12 4 0)
              | .fault t s | .poison t s => .trap t s
              | .wait s | .full s => .wait .engine s

/-- MMUL.NODE (R257, R263). -/
def execMmulNode (f : Fields) (s : State) : Host.Outcome State Fault Refusal :=
  runOp .mmulNode f s fun r =>
    Result.orParted r s <|
      let o := nodeOpts f.imm
      let a := readWord r s 0 f.a
      let b := readWord r s 1 f.b
      let acc := readWord r s 2 f.c
      if badOpts { o with low := trit f.imm 0 } ∨ o.bins ≠ 0 ∨ o.fp ≠ 0 ∨ o.follow ≠ 0 ∨ o.dither ≠ 0 then .trap (engineTrap 12) s
      else nodeLimit r s fun _ =>
        match matArgs s r f a b acc with
        | .error n => .trap (engineTrap n) s
        | .ok m => createNode r s f o (.matrix f a b acc) false false fun s =>
            s.modNode r.id.band r.band.nextSerial fun n => { n with progress := m.skip }

/-- A node's multiply names what it named when it was created; a member that has ended since stalls the node
(log 51, DEDUCED). -/
def nodeArgs (s : State) (r : Run) (f : Fields) (a b acc : Word) : NodeStep MatArgs :=
  match matArgs s r f a b acc with
  | .ok m => match absentPlace s r.who m with
    | some _ => .wait s
    | none => .ok s m
  | .error n => .fault (engineTrap n) s

/-- Poison that a node reads has sub-code 5 (R413). -/
def NodeStep.asNode {α : Type} : NodeStep α → NodeStep α
  | .poison t s => .poison { t with sub := 5 } s
  | x => x

/-- Steps of a node's multiply, from step k on; a paired copy's node notes each step's tile units in the undo log (R263,
R420). -/
def matNodeSteps (r : Run) (f : Fields) (m : MatArgs) (serial : Nat) : Nat → Nat → List Int → State → NodeStep Unit
  | 0, _, _, s => .ok s ()
  | n + 1, k, a, s =>
    if pairFull s r.id.band (tileUnits m.tile (729 * k) 729) then .full s
    else ((matStep r f m k a s).asNode).bind fun s a => matNodeSteps r f m serial n (k + 1) a (notePlace s r.id.band serial k a)

/-- Up to `limit` steps of the node at the head of the engine; it finishes with its last, or at once where its progress
equals its width (R263). -/
def runMatrixNode (limit : Option Nat) (uid serial : Nat) (s : State) : State :=
  match runningNode s uid serial with
  | none => s
  | some (r, n) => match n.kind with
    | .matrix f a b acc =>
      let width := (field acc 16 4).toNat
      let left := width - n.progress
      let k := min left (limit.getD left)
      endRun r serial
        (if left = 0 then .ok s ()
          else (nodeArgs s r f a b acc).bind fun s m => matNodeSteps r f m serial k n.progress n.acc s)
        fun s => if n.progress + k < width then s else finishNode s uid serial
    | _ => s

/-- ENGINE_COMMAND_READY: the engine's next command is performed (R261). -/
def execEngineCommandReady (core : Nat) (s : State) : Host.Outcome State Fault Refusal :=
  match (s.core core).engine with
  | [] => .next s
  | .part p _ _ _ :: rest => match waitingRun s p (· == .engine) with
    | some _ => .next (reissue s p)
    | none => .next (if (s.run p).isSome then s else s.modCore core fun c => { c with engine := rest })
  | .node u n :: _ => .next (runMatrixNode none u n s)

/-- A step of the multiply of a part at the head of the engine. -/
def runMatrixPart (core : Nat) (p : PartId) (f : Fields) (done : Nat) (a : List Int) (s : State) : State :=
  match waitingRun s p (· == .engine) with
  | none => s
  | some r => match matArgs s r f (readWord r s 0 f.a) (readWord r s 1 f.b) (readWord r s 3 f.d) with
    | .error _ => reissue s p
    | .ok m =>
      if m.n / 27 ≤ done then reissue s p
      else if (absentPlace s r.who m).isSome then s
      else match matStep r f m done a s with
        | .ok s a => s.modCore core fun c => { c with engine := match c.engine with
            | .part q g _ _ :: t => .part q g (done + 1) a :: t
            | q => q }
        | .poison t s | .fault t s => finishWaiting (dropCommand r s) r (.trap t (dropCommand r s))
        | .wait s | .full s => s

/-- MMUL_STEP: the sequencer completes one step of the multiply that the engine performs (R257). -/
def execMmulStep (core : Nat) (s : State) : Host.Outcome State Fault Refusal :=
  match (s.core core).engine with
  | .part p (some f) done a :: _ => .next (runMatrixPart core p f done a s)
  | .node u n :: _ => .next (runMatrixNode (some 1) u n s)
  | _ => .next s

/-- The level-2 coordinates of the members whose allocations a multiply names (R255). -/
def namedMembers (f : Fields) : List Nat := [field f.imm 4 3, field f.imm 1 3].filterMap fun v => (placeCode v).join

/-- A multiply of band `b` that names some members names band `h`. -/
def namesBand (s : State) (b h : Band) (ms : List Nat) : Bool :=
  b.uid != h.uid && b.kernel == h.kernel && b.copy == h.copy
    && (s.kernel b.kernel).any fun k => ms.any fun m => memberIndex k b m == h.index

/-- A multiply that has read from another band's allocation holds it until it commits or its node finishes, also while
it is interrupted (R259; log 63, DEDUCED). -/
def heldByMultiply (s : State) (uid : Nat) : Bool :=
  let names (b : Band) (ms : List Nat) : Bool := (s.band uid).any fun h => namesBand s b h ms
  (s.cores.any fun c => c.engine.any fun e => match e with
    | .part p (some f) _ (_ :: _) => (s.band p.band).any fun b => names b (namedMembers f)
    | _ => false)
  || s.bands.any fun b =>
    (b.gangs.any fun g => g.parts.any fun p => p.mul.any (names b))
    || b.nodes.any fun n => match n.kind with
      | .matrix f _ _ _ => !n.acc.isEmpty && names b (namedMembers f)
      | _ => false

/-! ### Accumulator instructions -/

/-- The tile that A names, or sub-code 19. -/
def withTile (r : Run) (s : State) (f : Fields) (k : Nat → Nat → Result) : Result :=
  match accHandle r.band (readWord r s 0 f.a) with
  | some (t, n, _) => k t n
  | none => engineTrapOf r s 19

/-- AZERO (R265). -/
def execAzero (f : Fields) (s : State) : Host.Outcome State Fault Refusal :=
  runOp .azero f s fun r => withTile r s f fun t n => withUndo r s (tileUnits t 0 (27 * n)) fun _ =>
    engineOp r s f.la none 0 fun _ _ s => .commit [] (writeTile s r.id.band t 0 (List.replicate (27 * n) 0))

/-- Lanes of the part's slices. -/
def partLaneList (r : Run) : List Nat := (List.range 27).filter (lanesOf r.part.slices)

/-- ARD (R266). -/
def execArd (f : Fields) (s : State) : Host.Outcome State Fault Refusal :=
  runOp .ard f s fun r => withTile r s f fun t n =>
    let t0 := readWord r s 1 f.b
    let inside (l : Nat) : Bool := decide (0 ≤ t0 + l) && decide (t0 + l < 27 * n)
    engineOp r s f.la none 0 fun _ _ s =>
      let tile := tileOf r.band t
      let lanes := partLaneList r
      if lanes.any fun l => inside l && tile.poison.contains (t0 + l).toNat then .trap { code := 15, sub := 4 } s
      else
        let vs := (List.range 27).map fun l =>
          if !lanes.contains l then (0, Effects.none)
          else
            let x := if inside l then smapGet 0 tile.words (t0 + l).toNat else 0
            if f.ty = .f27 then let v := fval fmt27 x; floatDest fmt27 f.clamp f.scale v (signallers [v])
            else intDest 27 f.clamp f.scale x
        writeVec r (applyEffects r s (tidOf f) (Effects.sum (vs.map (·.2)))) f.d (lanesOf r.part.slices)
          fun l => (vs.getD l (0, .none)).1

/-- AWR moves raw words, and their poison (R267, R412). -/
def execAwr (f : Fields) (s : State) : Host.Outcome State Fault Refusal :=
  runOp .awr f s fun r => withTile r s f fun t n =>
    let t0 := readWord r s 1 f.b
    let c := readLanes r s .t27 2 f.c
    let lanes := (partLaneList r).filter fun (l : Nat) => decide (0 ≤ t0 + l) && decide (t0 + l < 27 * n)
    withUndo r s (lanes.map fun (l : Nat) => (t + 1, (t0 + l).toNat / 9)) fun _ =>
      engineOp r s f.la none 0 fun _ _ s =>
        .commit [] (lanes.foldl (fun s (l : Nat) =>
          let k := (t0 + l).toNat
          let s1 := writeTile s r.id.band t k [lane c l]
          if badWord r f.c l then
            s1.modBand r.id.band fun b => { b with tiles := modAt b.tiles t fun x => { x with poison := setAdd x.poison k } }
          else s1) s)

/-- Sectors of an own-scratchpad range, as undo units. -/
def sectorUnits (h n : Nat) : List (Nat × Nat) := (List.range ((n + 26) / 27)).map fun i => (0, h / 27 + i)

/-- The tile of A and the own-scratchpad extent of B that holds it (R268). -/
def withSaveArea (r : Run) (s : State) (f : Fields) (k : Nat → Nat → Nat → Result) : Result :=
  withTile r s f fun t n =>
    match scrHandle r.kern.launch.scratch (readWord r s 1 f.b) (81 * n) with
    | some h => k t n h
    | none => engineTrapOf r s 20

/-- Nonets written from an offset on; the words they cover take their value (R407). -/
def putScratch (s : State) (uid h : Nat) (ns : List Int) : State :=
  writeScratch { s with flips := s.flips.filter fun f => match f.1 with
    | .scr u k _ => !(u == uid && decide (h ≤ 3 * k) && decide (3 * k + 3 ≤ h + ns.length))
    | _ => true } uid (ns.zipIdx.map fun x => (h + x.2, x.1))

/-- ASAVE (R268). -/
def execAsave (f : Fields) (s : State) : Host.Outcome State Fault Refusal :=
  runOp .asave f s fun r => withSaveArea r s f fun t n h => withUndo r s (sectorUnits h (81 * n)) fun _ =>
    engineOp r s f.la none 0 fun _ _ s =>
      let tile := tileOf r.band t
      let s1 := putScratch s r.id.band h (nonetsOf .t27 (smapRange tile.words 0 (27 * n)))
      .commit [] (s1.modBand r.id.band fun b => { b with scrPoison := tile.poison.foldl (fun p k => setAdd p (h / 3 + k)) b.scrPoison })

/-- ARST (R268). -/
def execArst (f : Fields) (s : State) : Host.Outcome State Fault Refusal :=
  runOp .arst f s fun r => withSaveArea r s f fun t n h => withUndo r s (tileUnits t 0 (27 * n)) fun _ =>
    engineOp r s f.la none 0 fun _ _ s =>
      let s := correctScratch s r.id.band h (81 * n)
      let s1 := writeTile s r.id.band t 0 (words3 (smapRange r.band.scratch h (81 * n)))
      let bad := (((s.band r.id.band).map (·.scrPoison)).getD []).filter fun k => decide (h / 3 ≤ k) && decide (k < h / 3 + 27 * n)
      .commit [] (s1.modBand r.id.band fun b => { b with tiles := modAt b.tiles t fun x =>
        { x with poison := bad.foldl (fun p k => setAdd p (k - h / 3)) x.poison } })

/-! ### Block quantisation -/

/-- A block of 27 values quantised (R212): scale, codes, and effects. `dither` gives each position's. -/
def quantiseBlock (F : Fmt) (xs : List Int) (dither : Nat → Int) : Int × List Int × Effects :=
  let vs := xs.map (fval F)
  if vs.any FVal.isNan then
    (fqnan fmt9, List.replicate 27 0, { nan := (vs.filter FVal.isNan).length, invalid := signallers vs })
  else
    let amax := vs.foldl (fun m v => if cmpVal (absVal v) m > 0 then absVal v else m) (.fin 0 1)
    let sc : Int := match amax with
      | .fin n d => if n = 0 then fone fmt9 1
        else
          let q := (narrow fmt9 (.fin n (8 * d))).1
          if q = finf fmt9 1 then fmaxFin fmt9 1 else if q = 0 then fpack fmt9 (-40) 1 else q
      | _ => fmaxFin fmt9 1
    let cs := vs.zipIdx.map fun v => match v.1, fval fmt9 sc with
      | .fin n d, .fin m e =>
        if n = 0 then (0, Effects.none) else l3Quantise (sgn n) ((n.natAbs * e) ^ 2) ((m.natAbs * d) ^ 2) (dither v.2)
      | .inf t, _ => (t * 13, { sat := 1 })
      | _, _ => (0, Effects.none)
    (sc, cs.map (·.1), Effects.sum (cs.map (·.2)))

/-- Source and destination extents of BQNT and BDQ, or their sub-code (R256). -/
def blockArgs (r : Run) (s : State) (f : Fields) (src dst : Nat) : Except Int (Nat × Nat × Nat) :=
  let rows := readWord r s 2 f.c
  let alloc := r.kern.launch.scratch
  match scrHandle alloc (readWord r s 0 f.a) (rows * src), scrHandle alloc (readWord r s 1 f.b) (rows * dst) with
  | some a, some b =>
    if rows < 1 ∨ 729 < rows then .error 24
    else if (a : Int) < b + rows * dst ∧ (b : Int) < a + rows * src then .error 25
    else .ok (rows.toNat, a, b)
  | _, _ => .error 20

/-- A poisoned source of a block operation (R412). -/
def blockPoison (s : State) (r : Run) (lo n : Nat) : Option TrapInfo :=
  (scrPoisonAt ((s.band r.id.band).getD r.band) lo n).map fun j => { code := 15, sub := 4, addr := wrap 27 (regionLow (-4) + (3 * (j / 3) + 1 : Nat)) }

/-- L3 words of codes. -/
def codeWords (codes : List Int) : List Word := (groupsOf 9 (codes.length / 9) codes).map fun g =>
  g.foldr (fun c acc => c + 27 * acc) 0

/-- BQNT (R269). -/
def execBqnt (f : Fields) (s : State) : Host.Outcome State Fault Refusal :=
  runOp .bqnt f s fun r =>
    match blockArgs r s f (rowExtent f.ty) 30 with
    | .error n => engineTrapOf r s n
    | .ok (rows, a, b) => withUndo r s (sectorUnits b (30 * rows)) fun _ => engineOp r s f.la none r.gang.dither fun phase _ s =>
      let s := correctScratch s r.id.band a (rows * rowExtent f.ty)
      match blockPoison s r a (rows * rowExtent f.ty) with
      | some t => .trap t s
      | none =>
        let on := f.var == 1
        let src := elemsOf f.ty (smapRange r.band.scratch a (rows * rowExtent f.ty))
        let bs := (groupsOf 27 (3 * rows) src).map fun g => quantiseBlock (fmtOf f.ty) g (ditherFrom phase on)
        let codes := nonetsOf .t27 (codeWords (bs.flatMap (·.2.1)))
        let s1 := putScratch s r.id.band b (codes ++ bs.map (·.1))
        let s2 := applyEffects r s1 (tidOf f) (Effects.sum (bs.map (·.2.2)))
        .commit [] (if on then advancePhase r s2 else s2)

/-- BDQ (R270). -/
def execBdq (f : Fields) (s : State) : Host.Outcome State Fault Refusal :=
  runOp .bdq f s fun r =>
    match blockArgs r s f 30 (rowExtent f.ty) with
    | .error n => engineTrapOf r s n
    | .ok (rows, a, b) => withUndo r s (sectorUnits b (rows * rowExtent f.ty)) fun _ => engineOp r s f.la none 0 fun _ _ s =>
      let s := correctScratch s r.id.band a (30 * rows)
      match blockPoison s r a (30 * rows) with
      | some t => .trap t s
      | none =>
        let ns := smapRange r.band.scratch a (30 * rows)
        let codes := groupsOf 27 (3 * rows) (elemsOf .l3 (ns.take (27 * rows)))
        let scales := (ns.drop (27 * rows)).map (fval fmt9)
        let es := (codes.zip scales).flatMap fun x => x.1.map fun c => l3TimesFloat (fmtOf f.ty) f.clamp f.scale c x.2
        let e := { Effects.sum (es.map (·.2)) with invalid := signallers scales }
        .commit [] (applyEffects r (putScratch s r.id.band b (nonetsOf f.ty (es.map (·.1)))) (tidOf f) e)

end Sys2Proof.Machine
end

