-- ==== Sys2Proof/Machine/Place.lean ====
section
/-! DEFINITION. Placing bands on cores (R44, R46, R49, R50, R61, R322, R417), evicting and resuming gangs and bands
(R63, R81, R82, R323, R331, R333, R334), and the end of bands and kernels (R64, R217, R321, R388). -/

namespace Sys2Proof.Machine

/-! ### What a core holds -/

def coreBands (s : State) (core : Nat) : List Band := s.bands.filter fun b => b.core == some core

/-- Scratchpad nonets of a band: its allocation and three for each channel slot (R49). -/
def scratchDemand (l : Launch) : Nat := l.scratch + 3 * (l.channels.map (·.depth)).sum

/-- Tile words of a band (R48). -/
def tileDemand (l : Launch) : Nat := 27 * l.tiles.sum

/-- Register grants of the gangs that the band starts with, or holds, those of exited gangs too (R49, R62). -/
def registerDemand (l : Launch) (b : Option Band) : Nat :=
  match b with
  | some b => if b.gangs.isEmpty then (l.stages.map fun x => x.gangs * x.grant).sum else (b.gangs.map (·.grant)).sum
  | none => (l.stages.map fun x => x.gangs * x.grant).sum

/-- Gangs that need a place on a partition, exited ones too: they hold theirs until the band ends (R49, R62). -/
def gangDemand (l : Launch) (b : Option Band) : Nat :=
  match b with
  | some b => if b.gangs.isEmpty then (l.stages.map (·.gangs)).sum else b.gangs.length
  | none => (l.stages.map (·.gangs)).sum

/-- Resident gangs of a partition. -/
def partitionLoad (s : State) (core p : Nat) : Nat :=
  ((coreBands s core).map fun b =>
    (b.gangs.filter fun g => g.residence != .evicted && g.partition == p).length).sum

/-- The partition with the fewest resident gangs, the lowest-numbered on a tie (R50). -/
def leastLoaded (loads : List Nat) : Nat :=
  (List.range loads.length).foldl (fun b i => if loads.getD i 0 < loads.getD b 0 then i else b) 0

def partitionLoads (s : State) (core : Nat) : List Nat := (List.range Config.partitions).map (partitionLoad s core)

/-- Partitions for n more gangs, one after another (R50). -/
def placeGangs : Nat → List Nat → List Nat
  | 0, _ => []
  | n + 1, loads => let p := leastLoaded loads; p :: placeGangs n (loads.set p (loads.getD p 0 + 1))

def usedScratch (s : State) (core : Nat) : Nat :=
  ((coreBands s core).map fun b => match s.kernel b.kernel with | some k => scratchDemand k.launch | none => 0).sum

def usedTiles (s : State) (core : Nat) : Nat :=
  ((coreBands s core).map fun b => match s.kernel b.kernel with | some k => tileDemand k.launch | none => 0).sum

/-- An evicted gang whose wake condition is met: some part of it is at no blocking point (R334). -/
def resumable (s : State) (b : Band) (gi : Nat) : Bool :=
  match b.gangs[gi]? with
  | some g => g.residence == .evicted && b.core.isSome && !gangWaiting s b gi
  | none => false

/-- Evicted gangs of a core whose condition is met, oldest first. -/
def resumables (s : State) (core : Nat) : List (Band × Nat) :=
  (coreBands s core).flatMap fun b => ((List.range b.gangs.length).filter (resumable s b)).map fun i => (b, i)

/-! ### Dispatch -/

/-- The band of a candidate that is placed again. -/
def candidateBand (s : State) (c : Candidate) : Option Band := c.again.bind s.band

/-- The widest user level bound to a cluster, counted from 2; 1 when there is none (R42, R44). -/
def clusterLevel (l : Launch) : Nat := 1 + (l.levels.filter fun x => x.domain == -1).length

/-- The group of a band that has to lie in one cluster (R44, R46). -/
def clusterGroup (k : Kernel) (index : Nat) : Option Nat :=
  if clusterLevel k.launch = 1 then none else some (groupOf k.launch (clusterLevel k.launch) (gridIndex k index))

/-- The cluster that was chosen for the candidate's group. -/
def chosenCluster (k : Kernel) (c : Candidate) : Option Nat :=
  (clusterGroup k c.index).bind fun g =>
    (k.clusters.find? fun x => x.1 == g && x.2.1 == (c.copy == .trailing)).map (·.2.2)

/-- The core is one that the candidate's domains and its relaunch permit (R44, R46, R416, R417). -/
def permitted (s : State) (k : Kernel) (c : Candidate) (core : Nat) : Bool :=
  (match chosenCluster k c with
    | some x => core / Config.coresPerCluster == x
    | none => true)
  && (match (candidateBand s c).bind (·.avoid) with
    | some old => if (clusterGroup k c.index).isSome then core != old
        else core / Config.coresPerCluster != old / Config.coresPerCluster
    | none => true)

/-- The core has room for the candidate's whole demand (R49, R417), and no evicted gang that can resume waits there
(R334). -/
def hasRoom (s : State) (k : Kernel) (c : Candidate) (core : Nat) : Bool :=
  let b := candidateBand s c
  let ps := placeGangs (gangDemand k.launch b) (partitionLoads s core)
  let loads := partitionLoads s core
  decide (registerDemand k.launch b ≤ freeRegisters s core)
    && decide (scratchDemand k.launch + usedScratch s core ≤ Config.coreScratch)
    && decide (tileDemand k.launch + usedTiles s core ≤ Config.coreTileWords)
    && (List.range Config.partitions).all (fun p => ps.count p == 0 || decide (loads.getD p 0 + ps.count p ≤ 3))
    && (c.copy == .unpaired || (coreBands s core).all (·.copy == .unpaired))
    && (resumables s core).isEmpty

/-- A core that may take the candidate now. -/
def fits (s : State) (c : Candidate) (core : Nat) : Bool :=
  match s.kernel c.kernel with
  | some k => permitted s k c core && hasRoom s k c core
  | none => false

def dieCores (die : Nat) : List Nat := (List.range Config.coresPerDie).map (die * Config.coresPerDie + ·)

/-- Some core of the die may take the candidate. -/
def fitsSome (s : State) (c : Candidate) (die : Nat) : Bool := (dieCores die).any (fits s c)

/-! ### A band's start -/

/-- A slice at gang start (R61). -/
def Slice.start (pc : Word) : Slice :=
  { live := true, pc := pc, k := List.replicate 9 0, e := List.replicate 9 0, frec := List.replicate 27 0, cap := none,
    log := none }

/-- The uniform registers at gang start (R61). -/
def startUniforms (k : Kernel) (index stage gang : Nat) : SMap Int :=
  let b := gridIndex k index
  let coords := (List.range 6).map fun i =>
    (3 + i, if i < k.launch.levels.length then (coordOf k.launch.levels i b : Int) else 0)
  ([(1, (gang : Int)), (2, (stage : Int))] ++ coords ++ [(9, (b : Int))]).foldl (fun (m : SMap Int) (x : Nat × Int) => smapSet 0 m x.1 x.2) []

/-- The send allowance at gang start (R345). -/
def startAllowance (l : Launch) (stage gangs : Nat) : SMap Nat :=
  (l.channels.zipIdx).foldl (fun m c =>
    if c.1.producer = stage then smapSet 0 m c.2 (max 1 (c.1.depth / gangs)) else m) []

/-- A gang at its start (R61, R77, R81). -/
def Gang.start (k : Kernel) (index : Nat) (copy : Copy) (stage gang partition : Nat) (x : Stage) : Gang :=
  { stage := stage, index := gang, width := x.width, partition := partition, residence := .resident, grant := x.grant,
    vregs := [], oregs := [], uregs := startUniforms k index stage gang, masks := [],
    xregs := [],
    bad := [], trapEnable := 1,
    paired := match copy with | .leading => 1 | .trailing => -1 | .unpaired => 0,
    versioned := if k.launch.versioned then 1 else 0,
    locksLost := 0, sticky := 0, step := 0, dither := 0,
    allowance := startAllowance k.launch stage x.gangs, batch := 0, acks := 0, watchdog := 0,
    slices := List.replicate x.width (.start (wrap 27 (k.codeBase + 9 * x.entry))),
    parts := [{ Part.empty with slices := List.range x.width, hist := List.replicate 9 Lanes.zero }] }

/-- Every gang of a band: its stage, index and stage entry, in stage order. -/
def gangList (l : Launch) : List (Nat × Nat × Stage) :=
  l.stages.zipIdx.flatMap fun x => (List.range x.1.gangs).map fun i => (x.2, i, x.1)

/-- The gangs of a band at its start, on partitions chosen in turn (R50, R61). -/
def startGangs (k : Kernel) (index : Nat) (copy : Copy) (places : List Nat) : List Gang :=
  (gangList k.launch).zipIdx.map fun x => Gang.start k index copy x.1.1 x.1.2.1 (places.getD x.2 0) x.1.2.2

/-- A band's own storage at its start: zeroed tiles and empty channels (R372). -/
def startTiles (l : Launch) : List Tile := l.tiles.map fun n => { cols := n, words := [], poison := [] }

/-- The pair record of a copy; its start is its first checkpoint (R420), at which the pair has mismatched so many times
(R422). -/
def startPair (mate mismatches : Nat) (b : Band) : Pair :=
  { mate := mate, held := [], openGroup := [], signatures := [], received := [], snapshot := snapshotOf b,
    mismatches := mismatches, undo := [], inject := 0, sigs := 0, sigsSeen := 0 }

/-- Numbers of a new band and of its other copy: those that the copy placed first reserved, or two new ones. -/
def bandNumbers (s : State) (c : Candidate) : Nat × Nat × Nat :=
  if c.copy = .unpaired then (s.nextUid, 0, s.nextUid + 1)
  else match s.bands.find? fun b => b.kernel == c.kernel && b.index == c.index && b.copy != c.copy with
    | some m => match m.pair with
      | some p => (p.mate, m.uid, s.nextUid)
      | none => (s.nextUid, m.uid, s.nextUid + 1)
    | none => (s.nextUid, s.nextUid + 1, s.nextUid + 2)

/-- A band that is placed for the first time (R49, R61, R324). -/
def newBand (s : State) (k : Kernel) (c : Candidate) (die core : Nat) : Band :=
  let us := bandNumbers s c
  let places := placeGangs (gangDemand k.launch none) (partitionLoads s core)
  let b : Band :=
    { uid := us.1, kernel := k.uid, index := c.index, copy := c.copy, core := some core, die := die, queuedAt := 0,
      avoid := none, age := s.placed, gangs := startGangs k c.index c.copy places, scratch := [], scrPoison := [],
      tiles := startTiles k.launch, nodes := [], nextSerial := 0,
      channels := k.launch.channels.map fun _ => [], version := [], verPoison := [], verClean := [], committed := false,
      settled := false, relaunches := 0, counts := [], pair := none, specs := [] }
  if c.copy = .unpaired then b else 
    { b with pair := some (startPair us.2.1 ((((s.band us.2.1).bind (·.pair)).map (·.mismatches)).getD 0) b) }

/-- A gang takes a place on a partition of its core again: every claim in force ends (R86, R334). -/
def Gang.resume (g : Gang) (partition : Nat) : Gang :=
  { g with residence := .resident, partition := partition, watchdog := 0, parts := g.parts.map fun p => { p with claims := [] } }

/-- A relaunched band starts afresh; one evicted as a whole continues, each gang on a partition chosen anew (R63,
R416). -/
def placeAgain (s : State) (k : Kernel) (core : Nat) (b : Band) : Band :=
  let places := placeGangs (gangDemand k.launch (some b)) (partitionLoads s core)
  if b.gangs.isEmpty then
    { b with core := some core, avoid := none, gangs := startGangs k b.index b.copy places, tiles := startTiles k.launch,
             channels := k.launch.channels.map fun _ => [], chanBad := [] }
  else
    { b with
      core := some core
      gangs := b.gangs.mapIdx fun i g =>
        if g.residence = .exited then { g with partition := places.getD i 0 }
        else g.resume (places.getD i 0) }

/-- The core's shares for the launch of a band (R328). -/
def addShares (s : State) (core : Nat) (k : Kernel) : State :=
  if k.launch.stages.length < 2 then s
  else s.modCore core fun c =>
    if c.shares.any fun x => x.kernel == k.uid then c
    else { c with shares := c.shares ++ [{ kernel := k.uid, sigma := startShares k.launch.stages.length }] }

/-- The cluster of a group becomes that of its first band (R46). -/
def noteCluster (k : Kernel) (c : Candidate) (core : Nat) (x : Kernel) : Kernel :=
  match clusterGroup k c.index, chosenCluster k c with
  | some g, none => { x with clusters := x.clusters ++ [(g, c.copy == .trailing, core / Config.coresPerCluster)] }
  | _, _ => x

/-- The first band of a share has been placed. -/
def takePending (c : Candidate) (die : Nat) (ps : List Pending) : List Pending :=
  (ps.map fun p => if p.die = die ∧ p.copy = c.copy ∧ p.lo = c.index then { p with lo := p.lo + 1 } else p).filter
    fun p => decide (p.lo < p.hi)

/-- The candidate is placed; the multiplies of a band placed again go back to its core's engine (R263). -/
def placeCandidate (s : State) (k : Kernel) (c : Candidate) (die core : Nat) : State :=
  let s1 : State := match candidateBand s c with
    | some b => queueStarts (s.modBand b.uid (placeAgain s k core)) b.uid
    | none =>
      let s2 := s.modKernel k.uid fun x => { x with pending := takePending c die x.pending }
      { s2 with bands := s2.bands ++ [newBand s k c die core], placed := s2.placed + 1,
                nextUid := (bandNumbers s c).2.2 }
  addShares (s1.modKernel k.uid (noteCluster k c core)) core k

/-- A candidate is placed, and its own wait ends (R322). -/
def placeWaiter (s : State) (k : Kernel) (c : Candidate) (die core : Nat) : State :=
  let s1 := placeCandidate s k c die core
  let d := s1.die die
  s1.setDie { d with waited := putHeadWait d.waited c 0 }

/-- BAND_DISPATCH: the die places a band on a core that can hold its demand. It is the head band where that fits some
core; else a later one, unless the head band has waited 59,049 cycles (R322). -/
def execBandDispatch (die core : Nat) (s : State) : Host.Outcome State Fault Refusal :=
  if Config.cores ≤ core ∨ core / Config.coresPerDie ≠ die then .next s
  else match candidates s die with
    | [] => .next s
    | head :: later =>
      if fitsSome s head die then
        match s.kernel head.kernel with
        | some k => if fits s head core then .next (placeWaiter s k head die core) else .next s
        | none => .next s
      else if 59049 ≤ headWait (s.die die) head then
        match (later.filter fun c => decide (head.priority < c.priority)).find? fun c => fits s c core with
        | some c => match s.kernel c.kernel with
          | some k => .next (placeWaiter s k c die core)
          | none => .next s
        | none => .next s
      else match later.find? fun c => fits s c core with
        | some c => match s.kernel c.kernel with
          | some k => .next (placeWaiter s k c die core)
          | none => .next s
        | none => .next s

/-! ### Eviction -/

/-- A paired copy may be evicted once its checkpoint has been taken (R420). -/
def pairSettled (b : Band) : Bool := match b.pair with
  | some p => p.held.isEmpty && p.openGroup.isEmpty && p.signatures.isEmpty
  | none => true

/-- The command of an evicted part leaves the engine, for its instruction issues again (R82, R261). The steps that a
multiply has completed go into trits [15:12] of the register that D names (R262); once it has read operand A, its holds
stay (R259). -/
def saveProgress (r : Run) (s : State) : State :=
  match (s.core r.core).engine.find? (·.isPart r.id) with
  | some (.part _ (some f) n a) =>
    let s := if a.isEmpty then s else r.modPart s fun p => { p with mul := some (namedMembers f) }
    let s1 := match f.d with
      | .uni d => if n = 0 then s else r.modGang s fun g => uset g d (setField (uget g d) 12 4 n)
      | _ => s
    dropCommand r s1
  | _ => dropCommand r s

/-- A part's wait as eviction saves it: a remote load issues again on resumption (R82, R332). -/
def savedWait : Wait → Wait
  | .load _ | .engine => .ready
  | w => w

/-- A slice of an evicted gang: the operands of its uncommitted memory instruction stay in the log, from which the
reissue takes them (R81, R82, R334). A slice in a capsule body leaves it, and its record holds what it needs (R359). -/
def evictSlice (x : Slice) : Slice :=
  if x.cap.any (·.running) then { leaveBody x with issued := none }
  else { x with issued := x.issued.map fun l => { l with armed := true } }

/-- Eviction of a Waiting gang: every claim ends (R86), its stores drain, an incomplete fence settles, a held capsule
is marked descheduled, uncommitted loads are discarded, its multiply stops at a step, and its translation registers
become empty (R75, R81, R82, R359). -/
def evictGang (s : State) (uid gi : Nat) : State :=
  let s0 := drainStores s uid
  let s1 := match ((s0.band uid).bind fun b => (gangRuns s0 b gi).head?) with
    | some r => if (specOf r.band gi).isSome then completeFence s0 r.id else s0
    | none => s0
  match s1.band uid with
  | none => s1
  | some b =>
    let s2 := (gangRuns s1 b gi).foldl (fun s r => saveProgress r (markSlices s r.who r.gang r.part.slices)) s1
    let s3 : State := { s2 with reqs := s2.reqs.filter fun (q : Req) => !(q.part.band == uid && q.part.gang == gi) }
    s3.modGang uid gi fun g => { g with
      residence := .evicted
      watchdog := 0
      xregs := g.xregs.map fun x => (x.1, { x.2 with valid := false })
      slices := g.slices.map evictSlice
      parts := g.parts.map fun p => { p with wait := savedWait p.wait, waitCount := 0, starving := none, claims := [] } }

/-- A band of which no gang is left on the core leaves it as a whole, and loses its context's locks there (R63, R77,
R318; log 62, DEDUCED). -/
def leaveCore (s : State) (uid : Nat) : State :=
  match s.band uid with
  | none => s
  | some b =>
    if b.core.isSome ∧ b.gangs.any (·.residence == .evicted) = true ∧ b.gangs.all (·.residence != .resident) = true then
      let core := b.core.getD 0
      let s := landRequests s uid
      let s1 := s.modBand uid fun x => { x with core := none, queuedAt := nextQueued s }
      let s2 := s1.modCore core fun c => { c with engine := c.engine.filter fun e => match e with
        | .part p _ _ _ => p.band != uid
        | .node u _ => u != uid }
      let s3 := dropLocks s2
      let lost : Bool := ((s2.core core).locks.any fun l => (s.kernel b.kernel).any (·.context == l.1))
        && (s3.core core).locks != (s2.core core).locks
      let s4 := if lost then s3.modBand uid fun x => x.mapGangs fun g => { g with locksLost := 1, locksNow := true } else s3
      dropShares s4
    else s

def evictOne (s : State) (uid gi : Nat) : State := leaveCore (evictGang s uid gi) uid

/-- Eviction of every gang of a band. -/
def evictBand (s : State) (b : Band) : State :=
  leaveCore ((List.range b.gangs.length).foldl (fun s i =>
    if (b.gangs[i]?.map (·.residence)) = some .resident then evictGang s b.uid i else s) s) b.uid

/-- The oldest waiting request of a core cannot be granted (R330). -/
def oldestShort (s : State) (core : Nat) : Bool :=
  match growRequests s core with
  | (_, g, n, _) :: _ => decide (freeRegisters s core < growNeeds g n)
  | [] => false

/-- A resident gang waits in GROW, and the core's oldest waiting GROW cannot be granted while every resident gang waits
(R331; log 61, DEDUCED). -/
def growStuck (s : State) (core : Nat) : Bool :=
  oldestShort s core
    && ((coreBands s core).any fun b => (gangParts b).any fun x => x.2.1.residence == .resident
      && (match x.2.2.wait with | .grow _ _ => true | _ => false))
    && (coreBands s core).all fun b => b.gangs.zipIdx.all fun g => g.1.residence != .resident || gangWaiting s b g.2

/-- The youngest Waiting gang that R331 may evict: not the one that holds the oldest request. -/
def growVictim (s : State) (core : Nat) : Option (Nat × Nat) :=
  match growRequests s core with
  | (p, _, _, _) :: _ =>
    (((coreBands s core).flatMap fun b => (b.gangs.zipIdx.filter fun g => g.1.residence == .resident
      && !(p.band == b.uid && p.gang == g.2) && pairSettled b && gangWaiting s b g.2).map fun g => (b.uid, g.2))).getLast?
  | [] => none

/-- Evictions of R331, at most n, while the oldest request cannot be granted. -/
def evictForGrow (core : Nat) : Nat → State → State
  | 0, s => s
  | n + 1, s =>
    if oldestShort s core then
      match growVictim s core with
      | some v => evictForGrow core n (evictOne s v.1 v.2)
      | none => s
    else s

/-- The oldest evicted gang of a core whose condition is met resumes once its grant and a place are free, and it is the
one named (R334). -/
def resumeOldest (s : State) (core band gang : Nat) : State :=
  match (s.band band).bind fun b => b.gangs[gang]? with
  | some g =>
    let loads := partitionLoads s core
    let p := leastLoaded loads
    if ((resumables s core).head?.map fun x => (x.1.uid, x.2)) = some (band, gang)
        ∧ g.grant ≤ freeRegisters s core ∧ loads.getD p 0 < 3 then
      s.modGang band gang fun g => g.resume p
    else s
  | none => s

/-- The oldest waiting request is granted when the free registers cover it; an evicted gang resumes with its new grant
(R330, R331). -/
def grantOldest (s : State) (core : Nat) : State :=
  match growRequests s core with
  | (p, g, n, d) :: _ =>
    if growNeeds g n ≤ freeRegisters s core then
      match s.run p with
      | some r =>
        let s1 := finishWaiting s r (grantResult r s n (.uni d))
        if g.residence = .evicted then resumeOldest s1 core p.band p.gang else s1
      | none => s
    else s
  | [] => s

/-- GROW_GRANT: the oldest waiting request, once free registers cover it (R330). -/
def execGrowGrant (core : Nat) (s : State) : Host.Outcome State Fault Refusal := .next (grantOldest s core)

/-- GROW_EVICTION: Waiting gangs go, youngest first, until the oldest request can be granted, and it is (R331). -/
def execGrowEviction (core : Nat) (s : State) : Host.Outcome State Fault Refusal :=
  if growStuck s core ∧ s.issue = none then .next (grantOldest (evictForGrow core 96 s) core) else .next s

/-- GANG_EVICT: one gang's eviction, for the cause of R331 (R82, R333); where no resident gang then waits in GROW, the
others that have to go do so with it. -/
def execGangEvict (band gang : Nat) (s : State) : Host.Outcome State Fault Refusal :=
  match (s.band band).bind (·.core) with
  | some core =>
    if growStuck s core ∧ growVictim s core = some (band, gang) ∧ s.issue = none then
      let s1 := evictOne s band gang
      .next (if growStuck s1 core then s1 else evictForGrow core 96 s1)
    else .next s
  | none => .next s

/-- GANG_RESUME: the oldest evicted gang whose condition is met resumes once its grant and a place are free (R334). -/
def execGangResume (band gang : Nat) (s : State) : Host.Outcome State Fault Refusal :=
  match s.band band with
  | none => .next s
  | some b => match b.core with
    | some core => .next (resumeOldest s core band gang)
    | none => .next s

/-- Bands that R323 may evict for a head band, in its order: strictly lower priority, every gang Waiting; lowest
priority first, youngest first. A band whose allocation a multiply holds stays (R259). -/
def placementVictims (s : State) (die prio : Nat) : List Band :=
  let priority (b : Band) : Nat := match s.kernel b.kernel with | some k => k.priority | none => 9
  let ok := s.bands.filter fun b => (match b.core with | some c => c / Config.coresPerDie == die | none => false)
    && decide (priority b < prio) && pairSettled b && !heldByMultiply s b.uid
    && (List.range b.gangs.length).all (gangWaiting s b) && b.gangs.all (·.residence == .resident)
  (List.range 9).flatMap fun p => (ok.filter fun b => priority b == p).reverse

/-- Victims are evicted in order until the head band fits; the state in which it does. -/
def evictUntilFits (c : Candidate) (die : Nat) : List Band → State → Option State
  | [], _ => none
  | b :: bs, s =>
    let s1 := evictBand s b
    if fitsSome s1 c die then some s1 else evictUntilFits c die bs s1

/-- PLACEMENT_EVICTION: a head band has waited 59,049 cycles, and whole bands of lower priority make room (R323). -/
def execPlacementEviction (die : Nat) (s : State) : Host.Outcome State Fault Refusal :=
  match candidates s die with
  | [] => .next s
  | head :: _ =>
    if headWait (s.die die) head < 59049 ∨ s.issue.isSome ∨ fitsSome s head die = true then .next s
    else .next ((evictUntilFits head die (placementVictims s die head.priority) s).getD s)

/-! ### The end of a band and of a kernel -/

/-- One addition to the exception-counter area, saturating; skipped where a check fails or the word is poisoned
(R217). Software must place the area in device-location pages; R217 says nothing of one that passes the checks on a
peer's page or in a scratchpad region, and the addition is skipped there too (log 113, DESIGN CHOICE). -/
def addCount (w : Who) (s : State) (addr : Word) (n : Nat) : State :=
  let as := (List.range 3).map fun (i : Nat) => wrap 27 (addr - 1 + i)
  let s := if n = 0 then s else as.foldl (fun s a => touchWalk s w.ctx a) (correctWalks s w.ctx as)
  if n = 0 then s
  else match (List.range 3).mapM fun (i : Nat) => match resolve s w .atomic (wrap 27 (addr - 1 + i)) with
      | .ok p l => match p with
        | .dev j => some (j, l)
        | _ => none
      | _ => none with
    | some cells =>
      let ps := cells.map fun x => Place.dev x.1
      let s1 := prepare s w ps true true
      if ps.any (isPoison s1 w) then s1
      else
        let old : Int := match ps.map (peek s1 w) with | [x, y, z] => wordOf x y z | _ => 0
        let v : Int := min (old + n) (half 27 : Nat)
        let s2 := poke s1 w (ps.zip [nonetOf v 0, nonetOf v 1, nonetOf v 2]) false true
        respondTo (markLeaves s2 (cells.filterMap (·.2)) 1) w ps
    | none => s

/-- A band's counts are added into the kernel's area (R64, R217). -/
def addCounts (s : State) (b : Band) (k : Kernel) (c : Context) : State :=
  let w : Who := { band := b, gang := 0, kern := k, ctx := c }
  b.counts.foldl (fun s x =>
    let a (i : Nat) : Word := wrap 27 (k.launch.counters + 9 * x.1 + 3 * i)
    addCount w (addCount w (addCount w s (a 0) x.2.sat) (a 1) x.2.flush) (a 2) x.2.nan) s

/-- The band has nothing left to do (R60): every gang has exited, every node has finished, every store is
acknowledged, and no multiply holds its allocation (R259). -/
def bandDone (s : State) (b : Band) : Bool :=
  !b.gangs.isEmpty && b.gangs.all (fun g => g.residence == .exited && g.acks == 0) && b.nodes.isEmpty && b.specs.isEmpty
    && !(s.reqs.any fun q => q.part.band == b.uid) && !heldByMultiply s b.uid

/-- A band's resources are freed and its end is noted (R64). -/
def freeBand (s : State) (b : Band) : State :=
  let s1 : State := { dropFlips s (· == b.uid) with
    bands := s.bands.filter fun x => x.uid != b.uid
    parks := s.parks.filter fun p => p.2.band != b.uid
    codeOld := s.codeOld.filter fun u => u.owner != some b.uid }
  let s2 := s1.modKernel b.kernel fun k => { k with ended := k.ended ++ [(b.index, b.copy == .trailing)] }
  dropShares (dropLocks s2)

/-- The end of a kernel whose last band has ended: its token is posted and its status word becomes +2 (R64, R321,
R440). -/
def endKernel (s : State) (uid : Nat) : State :=
  match s.kernel uid with
  | none => s
  | some k =>
    if k.pending.isEmpty ∧ s.bands.all (·.kernel != uid) = true then
      let s1 := match k.post with
        | some t => s.modContext k.context fun c => { c with
            tokens := smapSet 0 c.tokens t (min (smapGet 0 c.tokens t + 1) (half 27))
            posters := smapSet [] c.posters t (toSet (smapGet [] c.posters t ++ k.dies)) }
        | none => s
      putStatus { s1 with kernels := s1.kernels.filter fun x => x.uid != uid } k.queue 2
    else s

/-- The version commits, the counts are added, the resources are freed (R64). -/
def endBand (s : State) (b : Band) (k : Kernel) (c : Context) : State :=
  let s := landRequests s b.uid
  let s1 := if k.launch.versioned && b.copy != .trailing then commitVersion s b.uid false else s
  let s2 := if b.copy = .trailing then s1 else addCounts s1 ((s1.band b.uid).getD b) k c
  freeBand s2 b

/-- BAND_END: a band that has nothing left to do ends; the two copies of a pair end together, after a checkpoint
(R64, R217, R420). -/
def execBandEnd (band : Nat) (s : State) : Host.Outcome State Fault Refusal :=
  match s.band band with
  | none => .next s
  | some b =>
    match s.kernel b.kernel, (s.kernel b.kernel).bind fun k => s.context k.context with
    | some k, some c =>
      match b.pair with
      | none => if bandDone s b then .next (endKernel (endBand s b k c) k.uid) else .next s
      | some _ => match copiesOf s band with
        | none => .next s
        | some (l, p, t, q) =>
          if bandDone s l && bandDone s t then
            match gangRun s l.uid 0 with
            | none => .next s
            | some r =>
              if groupsMatch (closeGroup p []) (closeGroup q []) then
                let s1 := performHeld s r p
                let s2 := endBand s1 ((s1.band l.uid).getD l) k c
                .next (endKernel (endBand s2 t k c) k.uid)
              else .next (mismatch s r)
          else .next s
    | _, _ => .next s

/-- KERNEL_STOP: a stop that no gang caused, by a host command (code 16, sub-code 3) or for want of a plane (code 15,
sub-code 8) (R388, R427). -/
def execKernelStop (kernel : Nat) (code sub : Int) (s : State) : Host.Outcome State Fault Refusal :=
  if code = 16 ∧ sub = 3 ∨ code = 15 ∧ sub = 8 ∧ (livePlanes s).isEmpty = true then
    .next (keepIssue s (stopKernel s kernel code none))
  else .next s

end Sys2Proof.Machine
end

