-- ==== Sys2Proof/Machine/Front.lean ====
section
/-! DEFINITION. The front end: launch packets and records, their checks, the taking of packets and the LAUNCH
instruction (R41 to R49, R320, R321, R352, R417, R440 to R443, R447, R449). -/

namespace Sys2Proof.Machine

/-! ### Reading -/

/-- A band that stands for the front end where an access is made on no band's behalf. -/
def frontBand (s : State) : Band :=
  { uid := s.nextUid, kernel := s.nextUid, index := 0, copy := .unpaired, core := none, die := 0, queuedAt := 0,
    avoid := none, age := 0, gangs := [], scratch := [], scrPoison := [], tiles := [], nodes := [], nextSerial := 0,
    channels := [], version := [], verPoison := [], verClean := [], committed := false, settled := false,
    relaunches := 0, counts := [], pair := none, specs := [] }

def noLaunch : Launch :=
  { levels := [], bandBase := 0, stages := [], channels := [], versioned := false, paired := false, scratch := 0,
    paramAddr := 0, paramLen := 0, counters := 0, watchdog := 0, tiles := [] }

/-- The agent as which the front end reads a context's memory. -/
def frontWho (s : State) (c : Context) : Who :=
  { band := frontBand s, gang := 0, ctx := c
    kern := { uid := s.nextUid, context := c.number, number := 0, queue := none, priority := 0, seq := 0,
              launch := noLaunch, codeBase := 0, codeLen := 0, pending := [], post := none, dies := [], ended := [],
              clusters := [], barriers := [] } }

/-- What the front end has read, with the state that its reads leave; or the code of a refusal (R443). -/
abbrev Read (α : Type) : Type := Except (Nat × State) (State × α)

/-- A virtual word of the context, read as a plain load: code 3 when a check of R168 fails or the word is poisoned
(R443; log 65, DEDUCED). -/
def frontWord (s : State) (c : Context) (a : Word) : Read Word :=
  let w := frontWho s c
  if field (wrap 27 (a - 1)) 25 2 < 0 ∨ field (wrap 27 (a + 1)) 25 2 < 0 then .error (3, s)
  else
    let s := correctWalks s c [wrap 27 (a - 1), a, wrap 27 (a + 1)]
    match checkElems s w none .read true [wordElem 0 a 0] with
    | .trap _ ls => .error (3, markLeaves s ls 2)
    | .absent _ => .error (3, s)
    | .ok ps ls =>
      let s1 := serveRead (markLeaves s ls 2) w ps.flatten
      if ps.flatten.any (isPoison s1 w) then .error (3, s1)
      else .ok (s1, match ps.flatten.map (peek s1 w) with | [x, y, z] => wordOf x y z | _ => 0)

/-- Words at a list of addresses. -/
def frontWords (c : Context) : List Word → State → Read (List Word)
  | [], s => .ok (s, [])
  | a :: as, s => match frontWord s c a with
    | .error n => .error n
    | .ok (s1, v) => (frontWords c as s1).map fun x => (x.1, v :: x.2)

/-- Words from an address on, centres 3 apart. -/
def wordRun (a : Word) (n : Nat) : List Word := (List.range n).map fun (i : Nat) => wrap 27 (a + 3 * (i : Int))

/-- A word of device memory by its first nonet, after a forced commit where a version holds its line; none when the
word lies beyond the memory or in a poisoned sector. -/
def physWord (s : State) (p : Int) : Option (State × Word) :=
  match physNonet p with
  | none => none
  | some j =>
    let ns := [j, j + 1, j + 2]
    let s1 := openWords s ns
    if ns.any fun n => s1.poison.contains (sectorOf n) then none else some (s1, devWord s1 j)

/-- Consecutive words of device memory, the first centred on physical address p. -/
def physWords (p : Int) : Nat → State → Option (State × List Word)
  | 0, s => some (s, [])
  | n + 1, s => match physWord s p with
    | none => none
    | some (s1, v) => (physWords (p + 3) n s1).map fun x => (x.1, v :: x.2)

/-! ### The record (R442) -/

/-- A stage word. -/
def stageOf (v : Word) : Stage :=
  { entry := field v 14 13, gangs := (field v 10 4 + 41).toNat, width := (field v 7 3).toNat,
    grant := (field v 0 7 + 1093).toNat }

/-- The first word of a channel. -/
def chanOf (v : Word) : Channel :=
  { producer := (field v 24 3).toNat, consumer := (field v 21 3).toNat, depth := (field v 0 21).toNat }

def levelOf (v : Word) : Level := { extent := (field v 2 25).toNat, domain := field v 0 2 }

/-- The words of a launch record with what follows them. -/
structure Record where
  ws     : List Word
  stages : List Word
  chans  : List Word
  tiles  : List Word
deriving DecidableEq, Repr

def Record.word (r : Record) (i : Nat) : Word := r.ws.getD i 0

/-- The launch that a record describes. -/
def Record.launch (r : Record) : Launch :=
  let w := r.word
  { levels := ((r.ws.drop 1).take (field (w 0) 24 3 - 2).toNat).map levelOf
    bandBase := w 7
    stages := r.stages.map stageOf
    channels := (List.range (r.chans.length / 2)).map fun i => chanOf (r.chans.getD (2 * i) 0)
    versioned := trit (w 0) 15 == 1
    paired := trit (w 0) 14 == 1
    scratch := (w 8).toNat
    paramAddr := w 9
    paramLen := w 10
    counters := w 11
    watchdog := (w 12).toNat
    tiles := r.tiles.map Int.toNat }

/-! ### Checks (R443) -/

def needs (s : State) (p : Bool) (code : Nat) : Except (Nat × State) Unit := if p then .ok () else .error (code, s)

/-- Reserved trits of a packet are 0 (R441). -/
def packetClean (ws : List Word) : Bool :=
  let w (i : Nat) : Word := ws.getD i 0
  field (w 1) 0 14 == 0 && trit (w 1) 20 != -1
    && [2, 4, 6].all fun i => field (w i) 0 20 == 0 && trit (w i) 20 != -1

/-- The token waits of a packet (R441). -/
def packetWaits (ws : List Word) : List (Nat × Word) :=
  [2, 4, 6].filterMap fun i =>
    let v := ws.getD i 0
    if trit v 20 = 1 then some ((field v 21 6 + 364).toNat, ws.getD (i + 1) 0) else none

/-- Reserved trits of a record's 27 words are 0 (R442). -/
def recordReserved (ws : List Word) : Bool :=
  let w (i : Nat) : Word := ws.getD i 0
  field (w 0) 0 14 == 0 && 0 ≤ trit (w 0) 15 && 0 ≤ trit (w 0) 14 && (ws.drop 14).all (· == 0)

/-- Levels: R41 to R43. -/
def levelsOk (l : Launch) : Bool :=
  let doms := l.levels.map (·.domain)
  l.levels.all (fun x => 1 ≤ x.extent && x.extent ≤ 19683 && -1 ≤ x.domain && x.domain ≤ 2)
    && ((doms.zip (doms.drop 1)).all fun p => p.1 ≤ p.2) && !(doms.dropLast.contains 2)
    && decide (l.bands ≤ 387420489)

/-- Bands in the widest group bound to a cluster or a die (R441). -/
def dieGroup (l : Launch) : Nat := ((l.levels.filter fun x => x.domain ≤ 0).map (·.extent)).foldl (· * ·) 1

/-- The even split (R441). -/
def evenSplit (l : Launch) : List Int :=
  let g := dieGroup l
  (List.range Config.computeDies).map fun (d : Nat) => ((g * ((d * (ownBands l / g)) / 27) : Nat) : Int)

/-- R45. -/
def cutsOk (l : Launch) (cuts : List Int) : Bool :=
  cuts.head? == some 0 && ((cuts.zip (cuts.drop 1)).all fun p => p.1 ≤ p.2)
    && cuts.all fun c => c ≤ (ownBands l : Int) && (c + l.bandBase) % (dieGroup l : Int) == 0

/-- The other limits of R48, and R217; a negative parameter length, and a band base outside 0 to B, are refused too
(log 91, DESIGN CHOICE). -/
def limitsOk (r : Record) (l : Launch) : Bool :=
  let s := l.stages.length
  (r.word 7 == 0 || (l.levels.getLast?.map (·.domain)) == some 2)
    && decide (0 ≤ r.word 7) && decide (r.word 7 ≤ (l.bands : Int))
    && l.stages.all (fun x => 1 ≤ x.gangs && x.gangs ≤ 81 && 1 ≤ x.width && x.width ≤ 9 && x.grant % 9 == 0
        && 9 ≤ x.grant && x.grant ≤ 1530)
    && r.stages.all (fun v => 1 ≤ field v 7 3)
    && decide (0 ≤ r.word 8) && decide (l.scratch ≤ 531441) && l.scratch % 243 == 0
    && decide (0 ≤ l.paramLen) && l.counters % 3 == 0
    && (r.word 12 == 0 || decide (2187 ≤ r.word 12) && decide (l.watchdog ≤ 3 ^ 26))
    && r.tiles.all (fun n => decide (27 ≤ n) && decide (n ≤ 729) && n % 27 == 0)
    && decide (tileDemand l ≤ Config.coreTileWords)
    && (List.range (r.chans.length / 2)).all fun i =>
        let v := r.chans.getD (2 * i) 0
        decide (0 ≤ field v 24 3) && decide (field v 24 3 < s) && decide (0 ≤ field v 21 3) && decide (field v 21 3 < s)
          && decide (1 ≤ field v 0 21) && decide (field v 0 21 ≤ 729)

/-- One band fits an empty core (R49). -/
def demandOk (l : Launch) : Bool :=
  decide (registerDemand l none ≤ Config.coreRegisters) && decide (gangDemand l none ≤ 3 * Config.partitions)
    && decide (scratchDemand l ≤ Config.coreScratch) && decide (tileDemand l ≤ Config.coreTileWords)

/-- A paired launch has one stage of one gang (R417). -/
def pairOk (l : Launch) : Bool := !l.paired || l.stages.length == 1 && l.stages.all fun x => x.gangs == 1

/-- The features that a packet uses are in effect (R447). -/
def featuresOk (s : State) (l : Launch) : Bool :=
  (!l.versioned || trit s.features 0 == 1) && (!l.paired || trit s.features 1 == 1)
    && (!(l.levels.any fun x => x.domain == 2) || trit s.features 2 == 1)

/-- Reads the record and what follows it, with the checks that reading needs (R442). -/
def readRecord (s : State) (c : Context) (a : Word) : Except (Nat × State) (State × Record) := do
  let (s1, ws) ← frontWords c (wordRun a 27) s
  let w0 := ws.getD 0 0
  let nL := field w0 24 3
  let nS := field w0 21 3
  let nC := field w0 16 5
  let nT := field (ws.getD 13 0) 21 6
  needs s1 (recordReserved ws) 1
  needs s1 (decide (2 ≤ nL) && decide (nL ≤ 8)) 4
  needs s1 (((ws.drop (nL.toNat - 1)).take (8 - nL.toNat)).all (· == 0)) 1
  needs s1 (decide (1 ≤ nS) && decide (nS ≤ 9) && decide (0 ≤ nC) && decide (nC ≤ 81)
    && decide (0 ≤ nT) && decide (nT ≤ 243)) 6
  let (s2, st) ← frontWords c (wordRun (wrap 27 (a + 81)) nS.toNat) s1
  let (s3, ch) ← frontWords c (wordRun (wrap 27 (a + 81 + 3 * nS)) (2 * nC.toNat)) s2
  let (s4, ti) ← frontWords c (wordRun (field (ws.getD 13 0) 0 21) nT.toNat) s3
  needs s4 ((List.range nC.toNat).all fun i => ch.getD (2 * i + 1) 0 == 0) 1
  .ok (s4, { ws := ws, stages := st, chans := ch, tiles := ti })

/-- The kernel-table entry of an index: a code base at which a line begins, and the length (R449). -/
def tableEntry (s : State) (c : Context) (i : Int) : Read (Word × Nat) :=
  match physWords (c.kernelTable + 6 * i) 2 s with
  | some (s1, [b, n]) =>
    if 1 ≤ n ∧ n ≤ 3 ^ 26 ∧ (b + 117) % 243 = 0 then .ok (s1, b, n.toNat) else .error (2, s1)
  | _ => .error (2, s)

/-- The first bands of the dies (R45, R441). -/
def cutsOf (s : State) (c : Context) (l : Launch) (v : Word) : Read (List Int) :=
  if v = 0 then .ok (s, evenSplit l)
  else if v % 81 ≠ 0 then .error (3, s)
  else frontWords c (wordRun (wrap 27 (v - 39)) 27) s

/-- Every stage begins within the code (R48). -/
def entriesOk (l : Launch) (len : Nat) : Bool := l.stages.all fun x => decide (0 ≤ x.entry) && decide (x.entry < (len : Int))

/-- The kernel-table entry that a packet names (R441). -/
def packetEntry (ws : List Word) : Int := field (ws.getD 1 0) 21 6 + 364

/-- The checks of a packet, with what it launches (R48, R443; log 64, DEDUCED). -/
def checkPacket (s : State) (c : Context) (ws : List Word) : Except (Nat × State) (State × Packet) := do
  needs s (packetClean ws) 1
  let w1 := ws.getD 1 0
  let (s1, base, len) ← tableEntry s c (packetEntry ws)
  let (s2, r) ← readRecord s1 c (ws.getD 0 0)
  let l := r.launch
  needs s2 (entriesOk l len) 2
  needs s2 (levelsOk l) 4
  let (s3, cuts) ← cutsOf s2 c l (ws.getD 8 0)
  needs s3 (cutsOk l cuts) 5
  needs s3 (limitsOk r l) 6
  needs s3 (demandOk l) 7
  needs s3 (pairOk l) 8
  needs s3 (featuresOk s l) 9
  .ok (s3, { launch := l, codeBase := base, codeLen := len,
             cuts := cuts.map Int.toNat ++ [ownBands l],
             post := if trit w1 20 = 1 then some (field w1 14 6 + 364).toNat else none,
             waits := packetWaits ws })

/-! ### Taking a packet -/

/-- The scope of a token: of one die where every band of the launches that posted it and of the one that waits lies
there, of the system where a launch lies on another device (R300; log 90, DEDUCED). -/
def tokenScope (c : Context) (dies : List Nat) (t : Nat) : TokenScope :=
  let all := toSet (smapGet [] c.posters t ++ dies)
  if all.contains Config.computeDies then .system else if all.length ≤ 1 then .die else .package

/-- A taken launch starts: its kernel gets a number, and each die its share (R45, R320, R383, R417); hardware computes
the scopes of the tokens it waited on (R300). -/
def startKernel (s : State) (c : Context) (priority : Nat) (queue : Option (Nat × Nat)) (k : Packet) : State :=
  let share (d : Nat) : Nat × Nat := (k.cuts.getD d 0, k.cuts.getD (d + 1) 0)
  let dies := (List.range Config.computeDies).filter fun d => (share d).1 < (share d).2
  let shares := dies.flatMap fun d =>
    let p : Pending := { die := d, lo := (share d).1, hi := (share d).2, copy := .unpaired }
    if k.launch.paired then [{ p with copy := .leading }, { p with copy := .trailing, die := (d + 9) % 27 }] else [p]
  let kern : Kernel :=
    { uid := s.nextUid, context := c.number, number := c.nextKernel, queue := queue, priority := priority,
      seq := s.takenSeq, launch := k.launch, codeBase := k.codeBase, codeLen := k.codeLen, pending := shares,
      post := k.post, dies := dies, ended := [], clusters := [], barriers := [],
      scopes := k.waits.map fun x => (x.1, tokenScope c dies x.1) }
  let s1 : State := { s with kernels := s.kernels ++ [kern], takenSeq := s.takenSeq + 1, nextUid := s.nextUid + 1 }
  let s2 := s1.modContext c.number fun c => { c with nextKernel := wrap 27 (c.nextKernel + 1) }
  if shares.isEmpty then endKernel s2 kern.uid else s2

/-- Every token wait is satisfied (R321). -/
def waitsMet (c : Context) (ws : List (Nat × Word)) : Bool :=
  ws.all fun x => decide (x.2 ≤ (smapGet 0 c.tokens x.1 : Int))

/-- Untaken packets of a queue. -/
def untaken (q : Queue) : Int := wrap 27 (q.tail - q.taken)

/-- The packet number as a position in the ring. -/
def packetSlot (q : Queue) : Nat := (q.taken % (q.size : Int)).toNat

/-- The words of a queue's head packet (R445), none when they cannot be read. -/
def headWords (s : State) (q : Queue) : Option (State × List Word) :=
  physWords ((q.base : Int) + 27 * packetSlot q + 1 - 1093) 9 s

/-- A head packet and the priority at which it would be taken: a bound queue's, or an accepted LAUNCH's. -/
inductive Head where
  | queue (q : Queue)
  | own (p : OwnPacket)
deriving DecidableEq, Repr

def Head.number : Head → Nat
  | .queue q => q.number
  | .own p => p.number
def Head.priority : Head → Nat
  | .queue q => q.priority
  | .own p => p.priority

/-- The front end looks at the head packets: versions that hold one commit first (R302, R320). -/
def lookHeads (s : State) : State :=
  s.queues.foldl (fun s q =>
    if 0 < untaken q then forceForeign s none [lineOf (q.base + 27 * packetSlot q)] else s) s

/-- The takeable heads: every token wait that a packet names is satisfied (R320, R321); a packet that cannot be read
names none. -/
def takeable (s : State) : List Head :=
  let queue (q : Queue) : Bool := decide (0 < untaken q) &&
    match s.context q.context with
    | none => false
    | some c => match headWords s q with
      | some (_, ws) => waitsMet c (packetWaits ws)
      | none => true
  let own (p : OwnPacket) : Bool := match s.context p.context with
    | some c => waitsMet c p.packet.waits
    | none => false
  ((s.queues.filter queue).map Head.queue) ++ (s.launches.filter own).map Head.own

/-- The head that the front end takes next: of the highest priority, and within it the first by queue number from the
level's pointer on, round-robin (R320). With no plane in service it takes none (R427). -/
def nextHead (s : State) : Option Head :=
  let hs := if (livePlanes s).isEmpty then [] else takeable s
  let top := (hs.map Head.priority).foldl max 0
  let level := hs.filter fun h => h.priority == top
  let start := smapGet 0 s.roundRobin top
  let least (l : List Head) : Option Head := (l.map Head.number).min?.bind fun n => l.find? fun h => h.number == n
  match least (level.filter fun h => start ≤ h.number) with
  | some h => some h
  | none => least level

/-- The status word of the queue's packet in turn: the queue, and the word's first nonet (R445). -/
def statusOf (q : Queue) : Nat × Nat := (q.number, q.base + 27 * q.size + 3 * packetSlot q)

/-- The head is taken: its checks are made, its launch starts or its queue's status word tells the refusal (R320,
R440, R443). The take of a LAUNCH's packet reads the kernel table's entry, and one whose entry has been replaced by one
that R443 refuses starts nothing (R449; log 67, DEDUCED). -/
def takeHead (s : State) (h : Head) : State :=
  let s0 := { s with roundRobin := smapSet 0 s.roundRobin h.priority (h.number + 1) }
  match h with
  | .own p =>
    let s1 := { s0 with launches := s0.launches.filter fun x => x.number != p.number }
    match s1.context p.context with
    | some c => match tableEntry s1 c p.entry with
      | .error (_, s2) => s2
      | .ok (s2, base, len) =>
        if entriesOk p.packet.launch len then
          startKernel s2 c p.priority none { p.packet with codeBase := base, codeLen := len }
        else s2
    | none => s1
  | .queue q =>
    let s1 := { s0 with queues := s0.queues.map fun x => if x.number = q.number then { x with taken := wrap 27 (x.taken + 1) } else x }
    match s1.context q.context with
    | none => s1
    | some c =>
      let read : Read (List Word) := match headWords s1 q with | some x => .ok x | none => .error (3, s1)
      match read.bind fun x => checkPacket x.1 c x.2 with
      | .error (n, s2) => putStatus s2 (some (statusOf q)) (-n)
      | .ok (s2, k) => startKernel (putStatus s2 (some (statusOf q)) 1) c q.priority (some (statusOf q)) k

/-- PACKET_TAKE: the front end takes the head whose turn it is; the event names its queue (R320). -/
def execPacketTake (queue : Nat) (s : State) : Host.Outcome State Fault Refusal :=
  match nextHead s with
  | some h => if h.number = queue then .next (takeHead (lookHeads s) h) else .next s
  | none => .next (lookHeads s)

/-! ### LAUNCH -/

/-- A number for a queue of its own (R320). -/
def ownNumber (s : State) : Nat := (s.launches.map (·.number)).foldl max 728 + 1

/-- The front end's answer to a LAUNCH: +1, or −c (R352, R443; log 67, DEDUCED). -/
def launchAnswer (r : Run) (s : State) (ws : List Word) : State × Int :=
  match checkPacket s r.ctx ws with
  | .error (n, s1) => (s1, -n)
  | .ok (s1, k) =>
    let p : OwnPacket :=
      { number := ownNumber s1, context := r.ctx.number, priority := r.kern.priority, packet := k, entry := packetEntry ws }
    ({ s1 with launches := s1.launches ++ [p] }, 1)

/-- LAUNCH: reads the packet's sector as plain loads, commits the band's version, and hands the packet to the front
end (R352). -/
def execLaunch (f : Fields) (s : State) : Host.Outcome State Fault Refusal :=
  runOp .launch f s fun r =>
    Result.orParted r s <|
      let a := wrap 27 (readWord r s 0 f.a + f.imm)
      if a % 27 ≠ 0 then .trap (syncTrap 9) s
      else
        let es := sectorElems a
        let s := correctWalks s r.ctx (es.flatMap fun e => e.nonets.map (·.1))
        match checkElems s r.who none .read true es with
        | .trap t ls => .trap { t with lanes := partLanes r } (markLeaves s ls 2)
        | .absent i => .wait (.remote i) s
        | .ok ps ls =>
          let s1 := prepareRead (markLeaves s ls 2) r.who ps.flatten
          match poisonOf s1 r.who true (es.zip ps) with
          | some t => .trap { t with lanes := partLanes r } s1
          | none =>
            onceOp r s1 [a] fun _ =>
              let ws := ps.map fun p => joinNonets (p.map (peek s1 r.who))
              match trailing r with
              | some vs => writeUni r s1 f.d (vs.headD 0)
              | none =>
                let x := launchAnswer r (releaseVersion r s1 true) ws
                writeUni r (forward r x.1 false [x.2]) f.d x.2

end Sys2Proof.Machine
end

