-- ==== Sys2Proof/Machine/Crypto.lean ====
section
/-! DEFINITION. The standards that R389 names: SHA-512 (FIPS 180-4), and RSASSA-PSS with RSA-4096, SHA-512 and a 64-byte
salt (RFC 8017). Their contents are those standards' (log 15, PRESUMED). Octet strings are lists of numbers below 256. -/

namespace Sys2Proof.Machine

/-- A number's bytes, the lowest first. -/
def bytesOf (n count : Nat) : List Nat := (List.range count).map fun i => n / 256 ^ i % 256

/-- A number's bytes, the highest first, and the number that such bytes denote. -/
def octetsOf (n count : Nat) : List Nat := (bytesOf n count).reverse
def octetsNat (l : List Nat) : Nat := l.foldl (fun n b => 256 * n + b) 0

/-! ### SHA-512 -/

/-- The largest r below 2^bits with r^k ≤ n. -/
def rootBelow (k n : Nat) : Nat → Nat → Nat
  | 0, r => r
  | bits + 1, r => rootBelow k n bits (if (r + 2 ^ bits) ^ k ≤ n then r + 2 ^ bits else r)

def isPrime (n : Nat) : Bool := decide (2 ≤ n) && (List.range n).all fun d => d < 2 || n % d != 0

/-- The first 64 bits of the fractional part of a number's k-th root. -/
def rootFraction (k n : Nat) : BitVec 64 := BitVec.ofNat 64 (rootBelow k (n * 2 ^ (64 * k)) 69 0)

/-- The constants of the 80 rounds, from the cube roots of the first 80 primes. -/
def shaConstants : List (BitVec 64) := ((List.range 410).filter isPrime).map (rootFraction 3)

/-- The working variables a to h; at first from the square roots of the first 8 primes. -/
structure ShaState where
  a : BitVec 64
  b : BitVec 64
  c : BitVec 64
  d : BitVec 64
  e : BitVec 64
  f : BitVec 64
  g : BitVec 64
  h : BitVec 64
deriving DecidableEq, Repr

def ShaState.initial : ShaState :=
  { a := rootFraction 2 2, b := rootFraction 2 3, c := rootFraction 2 5, d := rootFraction 2 7,
    e := rootFraction 2 11, f := rootFraction 2 13, g := rootFraction 2 17, h := rootFraction 2 19 }

def ShaState.add (x y : ShaState) : ShaState :=
  { a := x.a + y.a, b := x.b + y.b, c := x.c + y.c, d := x.d + y.d,
    e := x.e + y.e, f := x.f + y.f, g := x.g + y.g, h := x.h + y.h }

def ShaState.words (x : ShaState) : List (BitVec 64) := [x.a, x.b, x.c, x.d, x.e, x.f, x.g, x.h]

/-- One round, with the sum of its constant and its schedule word. -/
def shaRound (x : ShaState) (kw : BitVec 64) : ShaState :=
  let s1 := x.e.rotateRight 14 ^^^ x.e.rotateRight 18 ^^^ x.e.rotateRight 41
  let t1 := x.h + s1 + ((x.e &&& x.f) ^^^ (~~~x.e &&& x.g)) + kw
  let s0 := x.a.rotateRight 28 ^^^ x.a.rotateRight 34 ^^^ x.a.rotateRight 39
  let t2 := s0 + ((x.a &&& x.b) ^^^ (x.a &&& x.c) ^^^ (x.b &&& x.c))
  { a := t1 + t2, b := x.a, c := x.b, d := x.c, e := x.d + t1, f := x.e, g := x.f, h := x.g }

/-- The message schedule, latest word first, longer by some words. -/
def shaSchedule : Nat → List (BitVec 64) → List (BitVec 64)
  | 0, w => w
  | n + 1, w =>
    let x := w.getD 1 0
    let y := w.getD 14 0
    let s1 := x.rotateRight 19 ^^^ x.rotateRight 61 ^^^ x >>> 6
    let s0 := y.rotateRight 1 ^^^ y.rotateRight 8 ^^^ y >>> 7
    shaSchedule n ((s1 + w.getD 6 0 + s0 + w.getD 15 0) :: w)

/-- The parts of a list, of one length. -/
def chunksOf {α : Type} (k : Nat) : Nat → List α → List (List α)
  | 0, _ => []
  | n + 1, l => l.take k :: chunksOf k n (l.drop k)

/-- The state after one block of 128 bytes. -/
def shaBlock (x : ShaState) (block : List Nat) : ShaState :=
  let first := (chunksOf 8 16 block).map fun p => BitVec.ofNat 64 (octetsNat p)
  let w := (shaSchedule 64 first.reverse).reverse
  x.add (((shaConstants.zip w).map fun p => p.1 + p.2).foldl shaRound x)

/-- The message with its padding and its length in bits. -/
def shaPadded (m : List Nat) : List Nat :=
  m ++ 128 :: List.replicate ((239 - m.length % 128) % 128) 0 ++ octetsOf (8 * m.length) 16

/-- SHA-512: 64 bytes. -/
def sha512 (m : List Nat) : List Nat :=
  let p := shaPadded m
  (((chunksOf 128 (p.length / 128) p).foldl shaBlock .initial).words).flatMap fun w => octetsOf w.toNat 8

/-! ### RSASSA-PSS -/

/-- The mask of a seed: the hashes of the seed with a counter (MGF1). -/
def maskOf (seed : List Nat) (n : Nat) : List Nat :=
  ((List.range ((n + 63) / 64)).flatMap fun i => sha512 (seed ++ octetsOf i 4)).take n

def xorOctets (a b : List Nat) : List Nat := List.zipWith (fun x y => x ^^^ y) a b

/-- The highest bit of an octet string becomes 0. -/
def clearTop : List Nat → List Nat
  | [] => []
  | b :: rest => b % 128 :: rest

/-- The hash of a message digest and a salt. -/
def pssHash (digest salt : List Nat) : List Nat := sha512 (List.replicate 8 0 ++ digest ++ salt)

/-- 383 bytes that stand before the salt. -/
def pssLead : List Nat := List.replicate 382 0 ++ [1]

/-- The encoded message of 512 bytes for a digest and a salt of 64. -/
def pssEncode (digest salt : List Nat) : List Nat :=
  let h := pssHash digest salt
  clearTop (xorOctets (pssLead ++ salt) (maskOf h 447)) ++ h ++ [188]

/-- Whether an encoded message is one of a digest. -/
def pssVerify (digest em : List Nat) : Bool :=
  let masked := em.take 447
  let h := (em.drop 447).take 64
  let db := clearTop (xorOctets masked (maskOf h 447))
  decide (em.length = 512) && em.getLast? == some 188 && decide (masked.headD 0 < 128)
    && db.take 383 == pssLead && h == pssHash digest (db.drop 383)

/-- The bits of some octets, the highest first. -/
def bitsOf (l : List Nat) : List Bool := l.flatMap fun b => (List.range 8).map fun i => b.testBit (7 - i)

/-- A power modulo n, by the bits of its exponent. -/
def powMod (b n : Nat) (e : List Bool) : Nat :=
  e.foldl (fun x bit => let y := x * x % n; if bit then y * b % n else y) (1 % n)

/-- A public key's octets are its modulus, 512 of them with the highest bit set, and its exponent (log 15,
PRESUMED). -/
def verifySignature (key message signature : List Nat) : Bool :=
  let n := octetsNat (key.take 512)
  let x := octetsNat signature
  decide (signature.length = 512) && decide (128 ≤ key.headD 0) && decide (x < n)
    && pssVerify (sha512 message) (octetsOf (powMod x n (bitsOf (key.drop 512))) 512)

/-- The signature of a message under a private key and a salt. -/
def signMessage (modulus : Nat) (exponent salt message : List Nat) : List Nat :=
  octetsOf (powMod (octetsNat (pssEncode (sha512 message) salt)) modulus (bitsOf exponent)) 512

end Sys2Proof.Machine
end

