-- ==== Sys2Proof/Machine/HostPort.lean ====
section
/-! DEFINITION. What arrives at a port: host reads and writes of BAR0 (R33 to R36, R437), peer requests (R439), queue
tails, mailbox and doorbell (R440, R445, R446), links and roles (R410, R437), and the management controller's own
events: bring-up, firmware, attestation and heat (R389, R390, R451, R452). -/

namespace Sys2Proof.Machine

/-! ### Device memory from outside -/

def countIngressAt (s : State) (port n : Nat) : State :=
  if n = 0 then s else s.modPort port fun x => { x with ingress := satCount (x.ingress + n) }

def countEgress (s : State) (port n : Nat) : State :=
  if n = 0 then s else s.modPort port fun x => { x with egress := satCount (x.egress + n) }

/-- A write from outside is about to be performed: an instruction that it rewrites in part is fetched as it was, as a
whole; one that it rewrites whole, or of which it rewrites the last nonets, is fetched as it leaves it (R83, R316; log
9, DESIGN CHOICE). -/
def overwriteCode (s : State) (js : List Nat) : State :=
  let us := distinct (js.map fun j => Place.dev (9 * (j / 9)))
  let read (p : Place) : Int := memNonet s.mem p.nonet
  let s1 := us.foldl (noteUnit read none (js.map Place.dev)) s
  { s1 with codeOld := s1.codeOld.filter fun u => !(u.owner.isNone && us.contains u.unit && u.left.isEmpty) }

/-- Codes written to device nonets by one transaction (R33, R34, R36): nonets in range are stored, a sector with any
other code is poisoned, and the offending codes but 0x8000 count. Each sector's scrub generation advances once (R38). -/
def writeCodes (s : State) (port : Nat) (ws : List (Nat × Nat)) : State :=
  let bad := ws.filter fun w => (nonetOfHalfword w.2).isNone
  let good := ws.filterMap fun w => (nonetOfHalfword w.2).map fun v => (w.1, v)
  let s1 := forceForeign s none (toSet (ws.map fun w => lineOf w.1))
  let s2 := correctWords s1 none (partialPlaces (ws.map fun w => Place.dev w.1))
  let s3 := writeBase (overwriteCode s2 (good.map (·.1))) good true
  let s3 := poisonAfter s3 good (toSet (bad.map fun w => sectorOf w.1)) true
  countIngressAt s3 port (bad.filter fun w => w.2 != poisonCode).length

/-- A single byte of a nonet, merged with the other byte of its present code; nothing in a poisoned sector (R35). -/
def mergedCode (s : State) (byte value : Nat) : List (Nat × Nat) :=
  let j := byte / 2
  if s.poison.contains (sectorOf j) then []
  else
    let h := memHalf s.mem j
    [(j, if byte % 2 = 0 then h - h % 256 + value % 256 else h % 256 + 256 * (value % 256))]

/-- The bytes of a transaction that starts at a byte of BAR0: its whole nonets, and the odd bytes at its ends merged
with what is there (R35). R36 lets an access that spans lines be divided at their boundaries; here every access from
outside is performed as one (log 111, DESIGN CHOICE). -/
def writeBytes (s : State) (port byte : Nat) (data : List Nat) : State :=
  let lead := byte % 2
  let whole := (data.length - lead) / 2
  let ws := (List.range whole).map fun i =>
    ((byte + lead) / 2 + i, data.getD (lead + 2 * i) 0 % 256 + 256 * (data.getD (lead + 2 * i + 1) 0 % 256))
  let first := byte / 2
  let last := (byte + data.length - 1) / 2
  let s1 := openWords s [first, last]
  let tail := lead + 2 * whole
  let all := (if lead = 1 then mergedCode s1 byte (data.getD 0 0) else []) ++ ws
    ++ if tail < data.length then mergedCode s1 (byte + tail) (data.getD tail 0) else []
  if all.isEmpty then s1 else writeCodes s1 port all

/-- The port faces the host, its link is up and the device runs. -/
def hostFacing (s : State) (port : Nat) : Bool :=
  s.power == .up && (s.port port).role == .host && (s.port port).up

/-- HOST_WRITE: a host write to BAR0; one that reaches beyond device memory stores nothing (R437). It is performed at
its arrival, whatever its Relaxed Ordering attribute (R281; log 97, DESIGN CHOICE). -/
def execHostWrite (port byte : Nat) (data : List Nat) (s : State) : Host.Outcome State Fault Refusal :=
  if hostFacing s port ∧ !data.isEmpty ∧ byte + data.length ≤ 2 * Config.deviceNonets then
    .next (writeBytes s port byte data)
  else .next s

/-- Codes of device nonets as a host or peer reads them: 0x8000 for every nonet of a poisoned sector, counted
(R33). -/
def readCodes (s : State) (port first count : Nat) : State × List Nat :=
  let ns := (List.range count).map (first + ·)
  let s1 := openWords s ns
  let bad (j : Nat) : Bool := s1.poison.contains (sectorOf j)
  (countEgress s1 port (ns.filter bad).length, ns.map fun j => if bad j then poisonCode else memHalf s1.mem j)

def codeBytes (hs : List Nat) : List Nat := hs.flatMap fun h => [h % 256, h / 256]

/-- The nonets lie in the ranges that the port opens (R439). -/
def inbound (p : Port) (nonet count : Nat) : Bool :=
  covered (p.inbound.length + 1) p.inbound nonet ((nonet : Int) + count - 1)

/-- The operation code of an atomic. -/
def opOfAtomic : AtomicOp → Op
  | .aadd => .aadd
  | .amin => .amin
  | .amax => .amax
  | .afadd => .afadd
  | .afmin => .afmin
  | .afmax => .afmax
  | .axch => .axch
  | .acas => .acas

/-- The nonets of one element of a peer's atomic. -/
def peerElem (a : PeerAtomic) (j : Nat) : List Nat := if wordType a.fields.ty then [j, j + 1, j + 2] else [j]

/-- The device nonets of a peer's atomic. -/
def peerNonets (a : PeerAtomic) : List Nat := a.elems.flatMap fun e => peerElem a e.1

/-- A peer's atomic at this device's homes: its elements one after another, and the old nonets as the answer; where
one of them lies in a poisoned sector it writes nothing (R306, R307, R412, R439). -/
def serveAtomic (s : State) (port : Nat) (a : PeerAtomic) : State × List Nat :=
  let js := peerNonets a
  let s1 := openWords s js
  let bad (j : Nat) : Bool := s1.poison.contains (sectorOf j)
  if js.any bad then
    (countEgress s1 port (js.filter bad).length, js.map fun j => if bad j then poisonCode else memHalf s1.mem j)
  else a.elems.foldl (fun (y : State × List Nat) e =>
    let ps := (peerElem a e.1).map Place.dev
    let old := joinNonets ((peerElem a e.1).map (memNonet y.1.mem))
    let ws := devWrites (splitNonets ps (atomicNew (opOfAtomic a.op) a.fields e.2.1 e.2.2 old).1)
    (writeBase (overwriteCode y.1 (ws.map (·.1))) ws false, y.2 ++ (peerElem a e.1).map (memHalf y.1.mem))) (s1, [])

/-- HOST_BYTE_MERGE: a host writes one byte, or a peer inside the port's inbound ranges (R35, R439). -/
def execHostByteMerge (port byte value : Nat) (s : State) : Host.Outcome State Fault Refusal :=
  let p := s.port port
  if hostFacing s port ∧ byte < 2 * Config.deviceNonets then .next (writeBytes s port byte [value])
  else if s.power = .up ∧ p.role = .peer ∧ p.up = true then
    if inbound p (byte / 2) 1 ∧ byte < 2 * Config.deviceNonets then .next (writeBytes s port byte [value])
    else .next (countIngressAt s port 1)
  else .next s

/-- PEER_REQUEST: a peer's read, write or atomic of device nonets, inside the port's inbound ranges; outside them a
read answers 0x8000, a write is dropped and counted, and an atomic does both (R439, R306, R33). It is performed at its
arrival (R287; log 98, DESIGN CHOICE). R439 does not speak of one that lies partly inside the ranges: it is refused
whole, with one count (log 121, DESIGN CHOICE). -/
def execPeerRequest (port nonet count : Nat) (data : PeerData) (s : State) : Host.Outcome State Fault Refusal :=
  let p := s.port port
  if s.power ≠ .up ∨ p.role ≠ .peer ∨ !p.up then .next s
  else match data with
  | .atomic a =>
    let x := if (peerNonets a).all fun j => inbound p j 1 && decide (j < Config.deviceNonets) then serveAtomic s port a
      else (countIngressAt s port 1, List.replicate (peerNonets a).length poisonCode)
    .next { x.1 with replies := x.1.replies ++ [(port, codeBytes x.2)] }
  | .read =>
    let ok := inbound p nonet count && decide (nonet + count ≤ Config.deviceNonets)
    let x := if ok then readCodes s port nonet count else (s, List.replicate count poisonCode)
    .next { x.1 with replies := x.1.replies ++ [(port, codeBytes x.2)] }
  | .write hs =>
    if inbound p nonet hs.length ∧ nonet + hs.length ≤ Config.deviceNonets then
      .next (writeCodes s port (hs.zipIdx.map fun d => (nonet + d.2, d.1 % 65536)))
    else .next (countIngressAt s port 1)

/-! ### BAR2 -/

/-- The word that bytes 0 to 5 of a slot carry, when one transaction supplies them with in-range codes (R445). -/
def slotWord? (bytes : List Nat) : Option Word :=
  if bytes.length < 6 then none
  else
    let h (i : Nat) : Nat := bytes.getD (2 * i) 0 % 256 + 256 * (bytes.getD (2 * i + 1) 0 % 256)
    match nonetOfHalfword (h 0), nonetOfHalfword (h 1), nonetOfHalfword (h 2) with
    | some x, some y, some z => some (wordOf x y z)
    | _, _, _ => none

/-- A new tail of a queue: it may not fall, nor rise above taken + size (R445). -/
def setTail (s : State) (port queue : Nat) (v : Word) : State :=
  match s.queueAt queue with
  | none => countIngressAt s port 1
  | some q =>
    let ahead := wrap 27 (v - q.tail)
    let total := wrap 27 (v - q.taken)
    if 0 ≤ ahead ∧ 0 ≤ total ∧ total ≤ (q.size : Int) then
      { s with queues := s.queues.map fun x => if x.number = queue then { x with tail := v } else x }
    else countIngressAt s port 1

/-- TAIL_WRITE: the host submission of the packets before the new tail (R440, R445). -/
def execTailWrite (port queue : Nat) (bytes : List Nat) (s : State) : Host.Outcome State Fault Refusal :=
  if hostFacing s port ∧ queue < Config.queues then
    match slotWord? bytes with
    | some v => .next (setTail s port queue v)
    | none => .next (countIngressAt s port 1)
  else .next s

/-- The answer to a command: response words, the doorbell idle, and MSI-X vector 0 (R446). -/
def answerCommand (s : State) (port : Nat) (r0 r1 : Int) : State :=
  let s1 := s.modPort port fun x => { x with response := [r0, r1] ++ List.replicate 7 0, doorbell := 0 }
  { s1 with outbox := s1.outbox ++ [(port, 0)], commands := s1.commands.drop 1 }

/-- What refuses a command before its own rule is looked at: 4 once no plane is in service, 3 before the first
NEGOTIATE (R446, R427); on the recovery interface 2 (R452; log 68). -/
def earlyRefusal (s : State) (code : Int) : Option Int :=
  if code = 2 then none
  else if (livePlanes s).isEmpty then some 4
  else if s.power ≠ .up then some 2
  else if code ≠ 1 ∧ !s.negotiated then some 3
  else none

/-- Commands at the front whose code names none are refused (log 68). -/
def refuseUnknown : Nat → State → State
  | 0, s => s
  | n + 1, s => match s.commands with
    | c :: _ => if 1 ≤ c.code ∧ c.code ≤ 14 then s
        else refuseUnknown n (answerCommand s c.port (-((earlyRefusal s c.code).getD 1)) 0)
    | [] => s

/-- A doorbell write: +1 while it is idle starts a command, anything else is dropped and counted (R446). -/
def ringDoorbell (s : State) (port : Nat) (v : Word) : State :=
  let p := s.port port
  if v ≠ 1 ∨ p.doorbell = 1 then countIngressAt s port 1
  else
    let s1 := s.modPort port fun x => { x with doorbell := 1 }
    let c : HostCommand := { port := port, code := p.command.headD 0, args := p.command.drop 1 }
    refuseUnknown 1 { s1 with commands := s1.commands ++ [c] }

/-- What a slot of BAR2 is, by its byte offset (R445). -/
inductive Slot where
  | readOnly
  | tail (q : Nat)
  | command (i : Nat)
  | doorbell
  /-- The MSI-X table and its pending bits, which the PCI Express standard lays down, and offsets that no row names. -/
  | none
deriving DecidableEq, Repr

def slotAt (o : Nat) : Slot :=
  if o < 64 * Config.queues then
    if o % 64 = 32 then .tail (o / 64) else .readOnly
  else if 0xC000 ≤ o ∧ o < 0xC048 then .command ((o - 0xC000) / 8)
  else if o = 0xC080 then .doorbell
  else if 0xC100 ≤ o ∧ o < 0xC148 then .readOnly
  else .none

/-- One transaction's bytes for one slot: `lo` is the first byte's place in the slot (R445; log 73, DESIGN CHOICE). -/
def writeSlot (s : State) (port o lo : Nat) (bytes : List Nat) : State :=
  let v := if lo = 0 then slotWord? bytes else none
  match slotAt o, v with
  | .none, _ => s
  | _, none => countIngressAt s port 1
  | .readOnly, some _ => s
  | .tail q, some v => setTail s port q v
  | .command i, some v => s.modPort port fun x => { x with command := x.command.set i v }
  | .doorbell, some v => ringDoorbell s port v

/-- The slots that a write of BAR2 touches, in rising order: each one's offset, first byte and bytes. -/
def slotParts : Nat → Nat → List Nat → List (Nat × Nat × List Nat)
  | 0, _, _ => []
  | n + 1, o, bytes =>
    let k := 8 - o % 8
    (o / 8 * 8, o % 8, bytes.take k) :: (if bytes.length ≤ k then [] else slotParts n (o + k) (bytes.drop k))

/-- REGISTER_WRITE: a host write to BAR2 (R445, R446); on the recovery interface only port 0 takes one (R452). -/
def execRegisterWrite (port offset : Nat) (bytes : List Nat) (s : State) : Host.Outcome State Fault Refusal :=
  let open0 := s.power == .recovery && port == 0
  if (hostFacing s port ∨ open0) ∧ !bytes.isEmpty ∧ offset + bytes.length ≤ 65536 then
    .next ((slotParts bytes.length offset bytes).foldl (fun s x => writeSlot s port x.1 x.2.1 x.2.2) s)
  else .next s

/-- The word that a slot of BAR2 shows (R445); 0 at an offset that no row names. -/
def slotRead (s : State) (port o : Nat) : Word :=
  if o < 64 * Config.queues then
    match s.queueAt (o / 64) with
    | some q => [(q.context : Int), (q.priority : Int), (q.base : Int), (q.size : Int), q.tail, q.taken].getD (o % 64 / 8) 0
    | none => if o % 64 / 8 = 0 then -1 else 0
  else match slotAt o with
    | .command i => (s.port port).command.getD i 0
    | .doorbell => (s.port port).doorbell
    | .readOnly => (s.port port).response.getD ((o - 0xC100) / 8) 0
    | _ => 0

/-- The eight bytes of a slot: its word's three halfwords, and bytes 6 and 7, which read as 0 (R445). -/
def slotBytes (s : State) (port o : Nat) : List Nat :=
  codeBytes ((List.range 3).map fun m => halfword (nonetOf (slotRead s port o) m)) ++ [0, 0]

/-- HOST_READ: a host read of BAR0 (R33, R36, R437); byte addresses from the end of BAR0 on are those of BAR2 (R445;
log 94, DESIGN CHOICE). -/
def execHostRead (port byte count : Nat) (s : State) : Host.Outcome State Fault Refusal :=
  if Config.bar0 ≤ byte then
    let o := byte - Config.bar0
    if (hostFacing s port ∨ s.power = .recovery ∧ port = 0) ∧ o + count ≤ 65536 then
      let slots := (List.range ((o % 8 + count + 7) / 8)).flatMap fun i => slotBytes s port (8 * (o / 8 + i))
      .next { s with replies := s.replies ++ [(port, (slots.drop (o % 8)).take count)] }
    else .next s
  else if hostFacing s port ∧ 0 < count ∧ byte + count ≤ 2 * Config.deviceNonets then
    let first := byte / 2
    let last := (byte + count - 1) / 2
    let x := readCodes s port first (last + 1 - first)
    .next { x.1 with replies := x.1.replies ++ [(port, ((codeBytes x.2).drop (byte % 2)).take count)] }
  else .next s

/-! ### Links and roles -/

/-- PCIE_LINK_DOWN: reads through the port return poison, writes are dropped and counted (R410; log 74, DEDUCED). -/
def execPcieLinkDown (port : Nat) (s : State) : Host.Outcome State Fault Refusal :=
  .next (s.modPort port fun x => { x with up := false })

/-- PCIE_LINK_UP: a port with a role has trained again (R437). -/
def execPcieLinkUp (port : Nat) (s : State) : Host.Outcome State Fault Refusal :=
  .next (s.modPort port fun x => if x.role = .unassigned then x else { x with up := true })

/-- PORT_RESET: the port takes a role and trains; its two counts stand (R408, R437). What the port held otherwise, its
mailbox, its queued commands and its inbound ranges, is cleared (log 122, DESIGN CHOICE). -/
def execPortReset (port : Nat) (role : PortRole) (s : State) : Host.Outcome State Fault Refusal :=
  let s1 := s.modPort port fun x => { Port.reset role with ingress := x.ingress, egress := x.egress }
  .next { s1 with commands := s1.commands.filter fun c => c.port != port }

/-- INBOUND_RANGES: system software opens ranges of device nonets to a peer (R439). -/
def execInboundRanges (port : Nat) (ranges : List (Nat × Nat)) (s : State) : Host.Outcome State Fault Refusal :=
  .next (s.modPort port fun x => { x with inbound := ranges })

/-! ### The management controller -/

/-- The image carries a valid signature under the key whose digest is fused (R389; log 15). -/
def imageSigned (s : State) (i : Image) : Bool :=
  decide (sha512 i.key = s.firmware.keyDigest) && verifySignature i.key i.bytes i.signature

/-- An image that the controller may start (R389). -/
def imageOk (s : State) (i : Image) : Bool := imageSigned s i && decide (s.firmware.minimum ≤ i.security)

/-- The firmware registers once an image runs. -/
def Firmware.running (x : Firmware) (i : Image) : Firmware := { x with digest := sha512 i.bytes, version := i.security }

/-- The state of a device whose power has come up, or that has been reset, before its fate is known: no port has trained
(R452). -/
def cleared (s : State) : State :=
  { State.reset with
    hostMem := s.hostMem, peerMem := s.peerMem, firmware := s.firmware, slow := s.slow, free := s.free,
    ports := s.ports.map fun p => { Port.reset p.role with up := false } }

/-- BRING_UP: R452's steps; a refused image or a step that fails leaves the recovery interface (R389). A trip that
shut the device down before it is reported from here on (R451; log 72, DESIGN CHOICE). -/
def execBringUp (image : Image) (stepsPass : Bool) (s : State) : Host.Outcome State Fault Refusal :=
  let s1 : State := { cleared s with tripped := s.tripped && s.power == .shut }
  if imageOk s image ∧ stepsPass then
    .next { s1 with power := .up, firmware := s1.firmware.running image, ports := s.ports.map fun (p : Port) => Port.reset p.role }
  else .next { s1 with power := .recovery }

/-- FIRMWARE_UPDATE: through port 0 of the recovery interface (R389, R452). -/
def execFirmwareUpdate (port : Nat) (image : Image) (s : State) : Host.Outcome State Fault Refusal :=
  if s.power = .recovery ∧ port = 0 ∧ imageOk s image then
    .next { s with firmware := s.firmware.running image }
  else .next s

/-- Feature words 0 to 2 (R447). -/
def featureWords (s : State) : List Word :=
  let plane (j : Nat) : Int := if s.deadPlanes.contains j then -1 else 1
  [Config.generation * 3 ^ 21 + Config.stepping * 3 ^ 18 + ofTrits ((List.range Config.planes).map plane), s.features, 0]

/-- The plane-map register: nine entries of three trits a word, entry value plane − 4 (R288, R427's example). -/
def planeMapWords (s : State) : List Word :=
  (List.range 9).map fun k => ofTrits ((List.range 9).flatMap fun m => trits 3 ((s.planeMap.getD (9 * k + m) 0 : Int) - 4))

/-- What bytes 140 to 203 of the attestation report digest (R390). -/
def attestedWords (s : State) : List Word :=
  featureWords s ++ planeMapWords s ++ s.contexts.flatMap (·.installed)

/-- The bytes of a field of some octets. -/
def octetField (l : List Nat) (n : Nat) : List Nat := (List.range n).map fun i => l.getD i 0 % 256

/-- The bytes of some words in the packing of R30. -/
def packedWords (ws : List Word) : List Nat :=
  ws.flatMap fun v => [nonetOf v 0, nonetOf v 1, nonetOf v 2].flatMap fun n => bytesOf (halfword n) 2

/-- Bytes 0 to 203 of the attestation report (R390; log 14, DESIGN CHOICE). -/
def reportBody (s : State) (nonce : List Nat) : List Nat :=
  octetField s.firmware.digest 64 ++ octetField nonce 64 ++ bytesOf Config.serialNumber 8
    ++ bytesOf Config.stepping.toNat 2 ++ bytesOf s.firmware.version 2 ++ sha512 (packedWords (attestedWords s))

/-- The signature of a report's body in the manner of R389, with a fresh salt (R390; log 14, DESIGN CHOICE). -/
def reportSignature (s : State) (nonce : List Nat) : List Nat :=
  signMessage Config.attestModulus Config.attestExponent (octetField (Config.attestSalt s.free) 64) (reportBody s nonce)

/-- The attestation report (R390). -/
def report (s : State) (nonce : List Nat) : List Nat := reportBody s nonce ++ reportSignature s nonce

/-- ATTESTATION_REQUEST (R390); the recovery interface serves none (R389, R452). -/
def execAttestationRequest (nonce : List Nat) (s : State) : Host.Outcome State Fault Refusal :=
  if s.power ≠ .up then .next s
  else .next { s with attested := report s nonce, free := s.free + 1 }

/-- THERMAL_HIGH: a die above 105 degrees lowers every budget to 27 (R451). -/
def execThermalHigh (die : Nat) (s : State) : Host.Outcome State Fault Refusal :=
  .next (s.setDie { s.die die with hot := true })

/-- THERMAL_COOL: it has cooled below 100 degrees (R451). -/
def execThermalCool (die : Nat) (s : State) : Host.Outcome State Fault Refusal :=
  .next (s.setDie { s.die die with hot := false })

/-- THERMAL_TRIP: a die at 115 degrees shuts the device down (R451). -/
def execThermalTrip (_die : Nat) (s : State) : Host.Outcome State Fault Refusal :=
  .next { cleared s with power := .shut, tripped := true }

end Sys2Proof.Machine
end

