-- ==== Sys2Proof/Machine/Mapping.lean ====
section
/-! DEFINITION. Mapping, keys and the trap instructions (R391 to R402, R192, R314). -/

namespace Sys2Proof.Machine

/-- The mapping trap (R394, R396); a walk's fault address is the address walked (log 20). -/
def mapTrap (sub : Int) (a : Word) : TrapInfo := { code := 17, sub := sub, addr := a }

/-! ### MAP and UNMAP -/

/-- The level a variant names: small, large or huge (R391). -/
def mapLevel (f : Fields) : Nat := if f.var = 1 then 2 else if f.var = -1 then 1 else 3

inductive MapWalk where
  /-- The device nonet at which the target entry begins. -/
  | entry (slot : Nat)
  | bad (sub : Int)
  | poisoned
deriving DecidableEq, Repr

/-- The walk below the top table to the target level (R394; log 53, DEDUCED). -/
def mapWalkFrom (s : State) (c : Context) (a : Word) (target : Nat) : Nat → Nat → Int → MapWalk
  | 0, _, _ => .bad 2
  | fuel + 1, level, f =>
    match entryAt (2187 * f + 3 * field a (25 - 6 * level) 6) with
    | none => .bad 2
    | some j =>
      if entryBad s j then .poisoned
      else if level = target then .entry j
      else
        let v := devWord s j
        if pteKind v = -1 then .bad 2
        else if pteKind v = 1 then match leafResult c level j v a with
          | .bad n => if n ≤ 4 then .bad 2 else .bad 3
          | _ => .bad 3
        else if !tableClean v ∨ covered 82 c.pool (pteFrame v) (pteFrame v) then .bad 2
        else mapWalkFrom s c a target fuel (level + 1) (pteFrame v)

/-- The walk of MAP and UNMAP (R394). -/
def mapWalk (s : State) (c : Context) (a : Word) (target : Nat) : MapWalk :=
  match entryAt (c.topTable - 12 + 3 * field a 25 2) with
  | none => .bad 2
  | some j =>
    if entryBad s j then .poisoned
    else
      let v := devWord s j
      if pteKind v ≠ 0 then .bad 2
      else if !tableClean v ∨ covered 82 c.pool (pteFrame v) (pteFrame v) then .bad 2
      else mapWalkFrom s c a target 3 1 (pteFrame v)

/-- The entries that the walk reads are corrected (R394, R407). -/
def correctMapWalk (s : State) (c : Context) (a : Word) (target : Nat) : State :=
  if s.flips.isEmpty then s else correctWords s none (((walkEntries s c a).take (target + 1)).map Place.dev)

/-- The checks of MAP's new entry (R394, sub-codes 5 to 7). -/
def newEntryFault (c : Context) (level : Nat) (v : Word) : Option Int :=
  let f := pteFrame v
  let h := frameHalf level
  if pteKind v ≠ 1 ∨ trit v 0 ≠ 0 ∨ trit v 1 ≠ 0 ∨ trit v 2 ≠ 0 ∨ trit v 3 = -1 then some 5
  else if level = 2 ∧ field f 0 6 ≠ 0 ∨ level = 1 ∧ field f 0 12 ≠ 0 then some 6
  else if !covered 82 c.pool (f - h) (f + h) then some 7
  else none

/-- A locked line lies on the page of a leaf (log 52, DEDUCED). -/
def onPage (l : Leaf) (line : Nat) : Bool :=
  let h : Int := half (offsetTrits l.level)
  let lo := leafLine l (-h)
  let hi := leafLine l h
  decide (lo ≤ line) && decide (line ≤ hi) && line % 3 == lo % 3

/-- Locks of a context on a page fall, and its gangs on the cores that held them show it, in their saved status words
too (R318, R395). -/
def dropPageLocks (s : State) (c : Context) (l : Leaf) : State :=
  let hit (x : Core) : Bool := x.locks.any fun k => k.1 == c.number && onPage l k.2
  let cores := (s.cores.filter hit).map (·.number)
  let lose (g : Gang) : Gang := { g with locksLost := 1, locksNow := true }
  { s with
    cores := s.cores.map fun x => { x with locks := x.locks.filter fun k => !(k.1 == c.number && onPage l k.2) }
    bands := s.bands.map fun b =>
      if (b.core.any fun n => cores.contains n) && ((s.kernel b.kernel).any fun k => k.context == c.number) then
        b.mapGangs lose
      else b }

/-- The translation registers of every gang of a context become empty, those that a rollback would restore too (R75,
R395). -/
def emptyXregs (s : State) (ctx : Nat) : State :=
  let clear (g : Gang) : Gang := { g with xregs := g.xregs.map fun x => (x.1, { XReg.zero with base := x.2.base }) }
  { s with bands := s.bands.map fun b =>
      if (s.kernel b.kernel).any fun k => k.context == ctx then b.mapGangs clear else b }

/-- A place lies on the page of a leaf (R156, R438). -/
def onLeaf (c : Context) (l : Leaf) (p : Place) : Bool :=
  let inPage (q : Int) : Bool := decide (2187 * l.frame - half (offsetTrits l.level) ≤ q)
    && decide (q ≤ 2187 * l.frame + half (offsetTrits l.level))
  let inWindow (f n base count : Nat) : Bool := decide (base ≤ n) && decide (n < base + 2187 * count)
    && inPage (2187 * f + ((n : Int) - base) - 1093)
  match p with
  | .dev j => l.loc == 0 && inPage ((j : Int) - 1093)
  | .host n => l.loc == -1 && c.hostWins.any fun w => inWindow w.2.frame n (w.2.base / 2) w.2.count
  | .peer q n _ => l.loc == 1 && c.peerWins.any fun w => w.2.port == q && inWindow w.2.frame n w.2.base w.2.count
  | .scr _ _ _ => false

/-- The shoot-down of an old leaf: its code is fetched anew, and its locks fall (R315, R318, R395). -/
def dropLeaf (s : State) (c : Context) (l : Leaf) : State := forgetLines (dropPageLocks s c l) (onLeaf c l)

/-- The read-modify-write of the target entry, read afresh, the shoot-down, and D (R395). An entry that has been
poisoned since the walk is consumed and not given to D (R373, R411, R412). -/
def mapDone (r : Run) (s : State) (level slot : Nat) (new : Word) (dst : Nat) (a : Word) : Result :=
  let s0 := openWords s [slot, slot + 1, slot + 2]
  if entryBad s0 slot then .trap { code := 15, sub := 9, addr := a, base := true } s0
  else
  let old := devWord s0 slot
  let s1 := emptyXregs (respond (writeBase s0 (wordCells slot new) false) r.core s.free [(.dev slot, [old])]) r.ctx.number
  let s2 := if pteKind old = 1 then dropLeaf s1 r.ctx (leafOf level slot old) else s1
  writeUni r (forward r s2 false [old]) (.uni dst) old

/-- MAP and UNMAP; `new` gives the entry to write or a trap's sub-code (R394). Once its checks have passed, the version
commits, with the stores of the gang that are still on their way, and the entry is rewritten when the gang's accesses
have been acknowledged (R395). -/
def mapForm (op : Op) (f : Fields) (s : State) (new : Run → Except Int Word) : Host.Outcome State Fault Refusal :=
  runOp op f s fun r =>
    Result.orParted r s <|
      let a := readWord r s 0 f.a
      let level := mapLevel f
      let dst := match f.d with | .uni n => n | _ => 0
      if field a 25 2 < 0 then .trap (mapTrap 1 a) s
      else
      let s := correctMapWalk s r.ctx a level
      match mapWalk s r.ctx a level with
        | .poisoned => .trap { code := 15, sub := 9, addr := a, base := true } s
        | .bad n => .trap (mapTrap n a) s
        | .entry slot =>
          if pteKind (devWord s slot) = 0 then .trap (mapTrap 4 a) s
          else match new r with
            | .error n => .trap (mapTrap n a) s
            | .ok v =>
              onceOp r s [a, v] fun _ => match trailing r with
                | some vs => writeUni r s f.d (vs.headD 0)
                | none =>
                  let landed := decide (r.gang.acks = 0)
                  let s1 := if landed then commitVersion s r.id.band false else s
                  if s.slow ∨ !landed then .wait (.map level slot v dst a landed) s1 else mapDone r s1 level slot v dst a

/-- MAP (R394, R395). -/
def execMap (f : Fields) (s : State) : Host.Outcome State Fault Refusal :=
  mapForm .map f s fun r =>
    let v := readWord r s 1 f.b
    match newEntryFault r.ctx (mapLevel f) v with
    | some n => .error n
    | none => .ok v

/-- UNMAP writes the invalid entry (R394, R395). -/
def execUnmap (f : Fields) (s : State) : Host.Outcome State Fault Refusal := mapForm .unmap f s fun _ => .ok (-81)

/-- MAP_COMPLETE: the gang's accesses have been acknowledged, the entry is rewritten and every core has confirmed
(R395). -/
def execMapComplete (p : PartId) (s : State) : Host.Outcome State Fault Refusal :=
  match s.run p with
  | none => .next s
  | some r => match r.part.wait with
    | .map level slot v dst a committed =>
      if r.gang.acks ≠ 0 then .next s
      else
        let s1 := if committed then s else commitVersion s r.id.band false
        .next (finishWaiting s1 (r.again s1) (mapDone (r.again s1) s1 level slot v dst a))
    | _ => .next s

/-! ### Protection keys -/

/-- The permission register changes on every core (R378); the band settles (R414). -/
def setKey (r : Run) (s : State) (k : Nat) (p : Int) : State :=
  let s1 := s.modContext r.ctx.number fun c => { c with perms := smapSet 1 c.perms k p }
  r.modBand s1 fun b => { b with settled := true }

/-- PKSET (R396). -/
def execPkset (f : Fields) (s : State) : Host.Outcome State Fault Refusal :=
  runOp .pkset f s fun r =>
    let k := readWord r s 0 f.a + f.imm
    let p := readWord r s 1 f.b
    if k < 0 ∨ 80 < k then .trap (mapTrap 8 0) s
    else if p < -1 ∨ 1 < p then .trap (mapTrap 9 0) s
    else onceOp r s [k, p] fun _ => match trailing r with
      | some _ => .commit [] s
      | none =>
        let s1 := setKey r s k.toNat p
        if s.slow then .wait (.pkset k.toNat p) s1 else .commit [] (forward r s1 false [])

/-- PKSET_COMPLETE: every core's copy has changed (R378); the issuing gang has used the new permission since the PKSET
issued. -/
def execPksetComplete (p : PartId) (s : State) : Host.Outcome State Fault Refusal :=
  match s.run p with
  | none => .next s
  | some r => match r.part.wait with
    | .pkset _ _ => .next (finishWaiting s r (.commit [] (forward r s false [])))
    | _ => .next s

/-- PKRD: 27 permissions as one word (R397). -/
def execPkrd (f : Fields) (s : State) : Host.Outcome State Fault Refusal :=
  runOp .pkrd f s fun r =>
    let w := readWord r s 0 f.a + f.imm
    let v : Word := ofTrits ((List.range 27).map fun i => permOf r.ctx (27 * w.toNat + i))
    let bad : Result := .trap (mapTrap 8 0) s
    match f.d with
    | .uni _ => Result.orParted r s (if w < 0 ∨ 2 < w then bad else writeEither r s f.d v fun _ => v)
    | _ => if w < 0 ∨ 2 < w then bad else writeEither r s f.d v fun _ => v

/-! ### Trapping and returning -/

/-- TRAP (R398). -/
def execTrap (f : Fields) (s : State) : Host.Outcome State Fault Refusal :=
  runOp .trap f s fun r =>
    .trap { code := 13, sub := f.imm, addr := readWord r s 0 f.a, lanes := partLanes r } s

/-- The serial of the node whose fault a record reports, if it is one (R383, word 15). -/
def faultNode (r : Run) : Option Nat :=
  let n := r.slice.frec.getD 15 (-1)
  if r.slice.frec.isEmpty ∨ n < 0 ∨ r.slice.frec.getD 0 0 = 0 then none else some n.toNat

/-- A stalled node runs again at the faulting element (R181, R192). -/
def resumeNode (s : State) (uid serial : Nat) : State :=
  startNow (s.modNode uid serial fun n => { n with state := .running, fault := none }) uid serial

/-- Return from a trap, by TRET or by host resolution (R386, R399). Of a batch wait, a replay resumes the stalled node
and a skip finishes it, where no other part's return has yet done so, and the wait issues again (R314). -/
def returnTrap (s : State) (r : Run) (skip : Bool) : State :=
  match faultNode r with
  | some n =>
    let stalled : Bool := (nodeOf r.band n).any fun x => x.state == .stalled
    let s1 := if !stalled then s else if skip then finishNode s r.id.band n else resumeNode s r.id.band n
    returnPart s1 (r.again s1) false
  | none => returnPart s r skip

/-- TRET's checks (R393; log 50, DEDUCED). -/
def tretFault (r : Run) : Option Int :=
  if r.gang.trapEnable = 1 then some 19
  else if r.part.handling.isNone ∨ r.part.trapped ≠ r.part.slices then some 20
  else none

/-- TRET and TRET.SKIP (R399); a record that cannot be written stops the kernel (R384). -/
def tretForm (op : Op) (skip : Bool) (f : Fields) (s : State) : Host.Outcome State Fault Refusal :=
  runOp op f s fun r =>
    match tretFault r with
    | some n => .trap { code := 1, sub := n } s
    | none => match closeOpen s r (if skip then -1 else 1) with
      | .ok s1 => .done (returnTrap s1 r skip)
      | .error s => .done (stopKernel s r.kern.uid 16 none)

/-- TRET (R399). -/
def execTret (f : Fields) (s : State) : Host.Outcome State Fault Refusal := tretForm .tret false f s
/-- TRET.SKIP (R399). -/
def execTretSkip (f : Fields) (s : State) : Host.Outcome State Fault Refusal := tretForm .tretSkip true f s

/-- The kill of a part's kernel: its open record closes with outcome +2 first, and where that cannot be written the stop
writes none either (R384, R388, R400). The record that the two copies of a pair share closes once, whichever of them is
killed first (R418). -/
def killKernel (s : State) (r : Run) (pc : Word) (ws : Word × Word × Word) : State :=
  match openRecord r.part with
  | none => stopWithRecord s r { code := 16, sub := 2 } pc ws (0, 0) none
  | some a => match closeRecord s r.who a 2 with
    | .ok s1 => stopWithRecord s1 (r.again s1) { code := 16, sub := 2 } pc ws (0, 0) (some a)
    | .error s => stopKernel s r.kern.uid 16 none

/-- TKILL (R400). -/
def execTkill (f : Fields) (s : State) : Host.Outcome State Fault Refusal :=
  runOp .tkill f s fun r => .done (killKernel s r r.pc (encodeW0 .tkill f, encodeW1 f, encodeW2 .tkill f))

/-- FREC: a word of the slice's copy of its latest record (R401). -/
def execFrec (f : Fields) (s : State) : Host.Outcome State Fault Refusal :=
  runOp .frec f s fun r =>
    let i := readWord r s 0 f.a + f.imm
    let word (x : Slice) : Word := if i < 0 ∨ 26 < i then 0 else x.frec.getD i.toNat 0
    writeEither r s f.d (word r.slice) fun l => match r.gang.slices[l / 3]? with
      | some x => word x
      | none => 0

def setStep (op : Op) (v : Int) (f : Fields) (s : State) : Host.Outcome State Fault Refusal :=
  runOp op f s fun r => Result.orParted r s (.commit [] (r.modGang s fun g => { g with step := v }))

/-- DSTEP.ON (R402). -/
def execDstepOn (f : Fields) (s : State) : Host.Outcome State Fault Refusal := setStep .dstepOn 1 f s
/-- DSTEP.OFF (R402). -/
def execDstepOff (f : Fields) (s : State) : Host.Outcome State Fault Refusal := setStep .dstepOff 0 f s

/-- FAULT_SLOT_FREED: a slot has closed, and the waiting part takes its trap (R384). -/
def execFaultSlotFreed (p : PartId) (s : State) : Host.Outcome State Fault Refusal :=
  match s.run p with
  | none => .next s
  | some r => match r.part.wait with
    | .faultSlot t pc ws => .next (keepIssue s { takeTrap s r t pc ws with issue := s.issue })
    | _ => .next s

end Sys2Proof.Machine
end

