-- ==== Sys2Proof/Machine/HostCommand.lean ====
section
/-! DEFINITION. The host commands, which the management controller performs one at a time in doorbell order (R370,
R371, R385, R388, R438, R444 to R449). -/

namespace Sys2Proof.Machine

/-- What a command's own rule gives: the refusal code, or the new state and response word 1. -/
abbrev Answer := Except Int (State × Word)

/-- The management controller has cycles left in this budget period; RESYNC needs none (R336, R444). Each command
takes one (log 68, DEDUCED). -/
def mgmtReady (s : State) (code : Int) : Bool := code == 2 || decide (s.mgmtUsed < s.budget s.mgmtBudget * 59049 / 81)

/-- A command is performed when it is the next in doorbell order (R444, R446). Response word 1 of a refused command is
0, and operand words that the command does not name are not looked at (log 123, DESIGN CHOICE). -/
def hostCommand (code : Int) (port : Nat) (args : List Int) (s : State) (body : (Nat → Int) → Answer) :
    Host.Outcome State Fault Refusal :=
  match s.commands with
  | [] => .next s
  | c :: _ =>
    if c.port = port ∧ c.code = code ∧ c.args = args ∧ mgmtReady s code = true then
      let out : State × Int × Word := match earlyRefusal s code with
        | some n => (s, -n, 0)
        | none => match body fun i => args.getD i 0 with
          | .error n => (s, -n, 0)
          | .ok (s1, v) => (s1, 1, v)
      let s1 := answerCommand out.1 port out.2.1 out.2.2
      let s2 := if code = 2 then s1 else { s1 with mgmtUsed := s1.mgmtUsed + 1 }
      .next (keepIssue s (refuseUnknown s2.commands.length s2))
    else .next s

/-- An operand in a range. -/
def within (v lo hi : Int) : Bool := decide (lo ≤ v) && decide (v ≤ hi)

/-- The installed context that an operand names; −1 when there is none (R446; log 68). -/
def namedContext (s : State) (v : Int) : Except Int Context :=
  if v < 0 then .error 1
  else match s.context v.toNat with
    | some c => .ok c
    | none => .error 1

def must (p : Bool) (code : Int) : Except Int Unit := if p then .ok () else .error code

/-! ### NEGOTIATE and RESYNC -/

/-- NEGOTIATE: the accepted trits take effect (R447). -/
def execNegotiate (port : Nat) (args : List Int) (s : State) : Host.Outcome State Fault Refusal :=
  hostCommand 1 port args s fun a => do
    must (!((trits 27 (a 0)).contains (-1))) 1
    must (((trits 27 (a 0)).drop Config.offered).all (· == 0)) 2
    .ok ({ s with features := a 0, negotiated := true }, a 0)

/-- A context's nine words (R448). -/
def contextWords (s : State) (n : Nat) : List Word :=
  match s.context n with
  | none => List.replicate 9 0
  | some c => [1, c.descriptor, c.invalid, c.relaunches, c.forced, c.mismatches, c.stops,
      (c.issueShare : Int) * 3 ^ 22 + (c.copyShare : Int) * 3 ^ 17 + c.inject, c.lastRecord]

def queueWords (s : State) (n : Nat) : List Word :=
  match s.queueAt n with
  | some q => [(q.context : Int) * 3 ^ 21 + (q.priority : Int), q.tail, q.taken]
  | none => [-(3 ^ 21), 0, 0]

/-- Running kernels: their total, and the oldest 729 in the order in which they were taken (R448). -/
def kernelWords (s : State) : List Word :=
  let one (k : Kernel) : List Word := [(k.context : Int), k.number, match k.queue with | some q => (q.1 : Int) | none => -1]
  let ws := (s.kernels.take 729).flatMap one
  (s.kernels.length : Int) :: (ws ++ List.replicate (2187 - ws.length) 0)

def portWords (s : State) (n : Nat) : List Word :=
  let p := s.port n
  let role : Int := match p.role with | .host => 1 | .peer => -1 | .unassigned => 0
  [(p.ingress : Int), (p.egress : Int), (if p.up then 1 else 0) + 3 * role]

/-- The summary, 11,814 words (R448). R451 has it report a thermal trip, for which R448 lists no place: here it is
trit [26] of the last word (log 72, DESIGN CHOICE). -/
def summary (s : State) : List Word :=
  featureWords s ++ [(s.rehash : Int)] ++ planeMapWords s
  ++ (List.range Config.contexts).flatMap (contextWords s)
  ++ (List.range Config.queues).flatMap (queueWords s)
  ++ kernelWords s
  ++ ((List.range Config.cores).flatMap fun n => [((s.core n).corrected : Int), ((s.core n).poisoned : Int)])
  ++ ((List.range Config.homes).flatMap fun n => [((s.home n).corrected : Int), ((s.home n).poisoned : Int)])
  ++ ((List.range Config.controllers).flatMap fun n =>
      let c := s.controller n
      [(c.corrected : Int), (c.poisoned : Int), (c.budget : Int)])
  ++ ((List.range Config.uciModules).flatMap fun n => [((s.uci n).replays : Int), ((s.uci n).rotations : Int)])
  ++ (List.range Config.ports).flatMap (portWords s)
  ++ [(s.mgmtBudget : Int) + if s.tripped then 3 ^ 26 else 0]

/-- RESYNC: the summary goes to host memory in the packing of R30 (R448). -/
def execResync (port : Nat) (args : List Int) (s : State) : Host.Outcome State Fault Refusal :=
  hostCommand 2 port args s fun a => do
    must (decide (0 ≤ a 0) && a 0 % 2 == 0) 1
    let ns := (summary s).flatMap fun v => [nonetOf v 0, nonetOf v 1, nonetOf v 2]
    let base := (a 0 / 2).toNat
    .ok ({ s with hostMem := ns.zipIdx.foldl (fun m x => memPutNonet m (base + x.2) x.1) s.hostMem }, 11814)

/-! ### Contexts -/

/-- The pool's extents: first frame and count of each (R371). -/
def extentsOf : List Word → List (Int × Int)
  | f :: n :: rest => (f, n) :: extentsOf rest
  | _ => []

def disjoint (x y : Int × Int) : Bool := decide (x.1 + x.2 ≤ y.1) || decide (y.1 + y.2 ≤ x.1) || x.2 == 0 || y.2 == 0

/-- Every extent is disjoint from the others and from those of other installed contexts, and names device frames
(R371). -/
def poolOk (s : State) (n : Nat) (es : List (Int × Int)) : Bool :=
  let others := (s.contexts.filter fun c => c.number != n).flatMap fun c => c.pool.map fun e => ((e.1 : Int), (e.2 : Int))
  es.all (fun e => decide (0 ≤ e.1) && decide (0 ≤ e.2) && decide (e.1 + e.2 ≤ (Config.frames : Int)))
    && (es.zipIdx.all fun x => es.zipIdx.all fun y => x.2 == y.2 || disjoint x.1 y.1)
    && es.all fun e => others.all (disjoint e)

/-- The checks of a descriptor's words (R370). -/
def descriptorOk (n : Nat) (ws : List Word) : Bool :=
  let w (i : Nat) : Word := ws.getD i 0
  field (w 0) 21 6 == n && field (w 0) 0 21 == 0 && w 1 % 27 == 0 && w 2 % 3 == 0
    && within (field (w 3) 22 5) 0 81 && trit (w 3) 21 != -1 && trit (w 3) 20 != -1 && field (w 3) 0 20 == 0
    && w 4 % 9 == 0 && w 5 % 81 == 0 && within (w 6) 1 729 && w 7 % 3 == 0 && w 8 == 0

/-- Reads a descriptor and its pool table (R370, R371, R444). -/
def readDescriptor (s : State) (n : Nat) (p : Int) : Except Int (State × List Word × List (Int × Int)) :=
  match physWords (p - 12) 9 s with
  | none => .error 2
  | some (s1, ws) =>
    if !descriptorOk n ws then .error 2
    else match physWords (ws.getD 2 0) (2 * (field (ws.getD 3 0) 22 5).toNat) s1 with
      | none => .error 2
      | some (s2, ts) => if poolOk s n (extentsOf ts) then .ok (s2, ws, extentsOf ts) else .error 2

/-- A context as its descriptor describes it, with the fields that the descriptor does not give taken from `c`. -/
def describe (c : Context) (p : Int) (ws : List Word) (es : List (Int × Int)) : Context :=
  let w (i : Nat) : Word := ws.getD i 0
  { c with
    descriptor := p, topTable := w 1, pool := es.map fun e => (e.1.toNat, e.2.toNat),
    transHost := trit (w 3) 21 == 1, protHost := trit (w 3) 20 == 1, handler := w 4, faultArea := w 5,
    slots := (w 6).toNat, kernelTable := w 7, installed := ws }

/-- A context at its installation (R218, R321, R377, R383, R408, R431, R336). -/
def Context.fresh (n : Nat) : Context :=
  { number := n, descriptor := 0, topTable := 0, pool := [], transHost := false, protHost := false, handler := 0,
    faultArea := 0, slots := 1, kernelTable := 0, perms := [], hostWins := [], peerWins := [], tokens := [],
    nextKernel := 0, nextRecord := 1, lastSlot := none, lastRecord := 0, invalid := 0, relaunches := 0, forced := 0,
    mismatches := 0, stops := 0, issueShare := 81, copyShare := 81, inject := 0 }

/-- A physical address of device memory that names a sector (R156, R444). -/
def sectorAddress (p : Int) : Bool := p % 27 == 0 && within (p + 1093) 0 (Config.deviceNonets - 1)

/-- Before frames leave a pool, what gangs with an access on its way to their nonets have sent is performed, a held
store loses what it would write there, and a wait on a word there ends (R350, R369, R371; log 114, DESIGN CHOICE). -/
def settleFrames (s : State) (within : Nat → Bool) : State :=
  let hit (p : Place) : Bool := match p with | .dev j => within j | _ => false
  let gangs := (s.reqs.filter fun q => !q.done && q.places.any hit).map fun q => (q.part.band, q.part.gang)
  let s1 := performAll s (s.reqs.filter fun q => gangs.contains (q.part.band, q.part.gang))
  let less (h : HeldStore) : HeldStore := { h with nonets := h.nonets.filter fun x => !hit x.1 }
  let s2 : State := { s1 with
    parks := s1.parks.filter fun x => !within x.1
    bands := s1.bands.map fun b => { b with
      specs := b.specs.map fun x => { x with held := x.held.map less }
      pair := b.pair.map fun p => { p with held := p.held.map less, openGroup := p.openGroup.map less } } }
  let parts := s2.bands.flatMap fun b => (gangParts b).map fun x =>
    ({ band := b.uid, gang := x.1, part := x.2.2.slices.headD 0 : PartId }, x.2.2.wait)
  parts.foldl (fun s x => match x.2 with
    | .park j | .parkPoll j _ _ _ => if within j then
        match s.run x.1 with | some r => finishWaiting s r (.commit [] s) | none => s
      else s
    | .tether j _ => if within j then s.modPart x.1 fun p => { p with wait := .tether j true } else s
    | _ => s) s2

/-- Device nonets of some extents of small-page frames are zeroed, with their sectors unpoisoned (R371); live versions
of their lines commit first (R302). The zeroing is a write of each of their sectors (R38). -/
def zeroFrames (s : State) (es : List (Nat × Nat)) : State :=
  let within (j : Nat) : Bool := es.any fun e => decide (2187 * e.1 ≤ j) && decide (j < 2187 * (e.1 + e.2))
  let s0 := settleFrames s within
  let live := s0.bands.filter fun b => (b.version.any fun w => within w.1) || b.verPoison.any fun sec => within (27 * sec)
  let s1 := live.foldl (fun s b => commitVersion s b.uid true) s0
  { dropLines s1 (fun _ => true) (fun p => match p with | .dev j => within j | _ => false) with
    mem := s1.mem.filter fun c => !within (c.1 / 2)
    poison := s1.poison.filter fun sec => !within (27 * sec)
    zeroed := s1.zeroed ++ (es.filter fun e => e.2 != 0).map fun e => (81 * e.1, 81 * e.2)
    verTags := s1.verTags.filter fun sec => !within (27 * sec)
    flips := s1.flips.filter fun f => match f.1 with | .dev k => !within (3 * k) | _ => true
    codeOld := s1.codeOld.filter fun u => match u.unit with | .dev j => !within j | _ => true }

/-- The part of an extent outside a range of frames. -/
def extentLess (lo hi : Nat) (e : Nat × Nat) : List (Nat × Nat) :=
  let a := (e.1, min (e.1 + e.2) lo - e.1)
  let b := (max e.1 hi, e.1 + e.2 - max e.1 hi)
  [a, b].filter fun x => decide (0 < x.2)

/-- The frames of a pool that a second pool lacks. -/
def poolLess (es fs : List (Nat × Nat)) : List (Nat × Nat) :=
  fs.foldl (fun es f => es.flatMap (extentLess f.1 (f.1 + f.2))) es

/-- INSTALL: a context is installed from its descriptor (R370, R371, R444). -/
def execInstall (port : Nat) (args : List Int) (s : State) : Host.Outcome State Fault Refusal :=
  hostCommand 3 port args s fun a => do
    must (within (a 0) 0 242 && sectorAddress (a 1)) 1
    let n := (a 0).toNat
    must (s.context n).isNone 2
    let x ← readDescriptor s n (a 1)
    .ok ({ x.1 with contexts := x.1.contexts ++ [describe (.fresh n) (a 1) x.2.1 x.2.2] }, 0)

/-- CHANGE: an installed context's descriptor is read again; frames that leave its pool are zeroed (R370, R371)
(log 70, DEDUCED). -/
def execChange (port : Nat) (args : List Int) (s : State) : Host.Outcome State Fault Refusal :=
  hostCommand 4 port args s fun a => do
    must (within (a 0) 0 242 && sectorAddress (a 1)) 1
    match s.context (a 0).toNat with
    | none => .error 2
    | some c =>
      let x ← readDescriptor s c.number (a 1)
      let d := describe ((x.1.context c.number).getD c) (a 1) x.2.1 x.2.2
      .ok (zeroFrames (emptyXregs (x.1.modContext c.number fun _ => d) c.number) (poolLess c.pool d.pool), 0)

/-- REMOVE: the context's kernels stop, its queues are unbound, its pool is zeroed, and it is gone (R444). -/
def execRemove (port : Nat) (args : List Int) (s : State) : Host.Outcome State Fault Refusal :=
  hostCommand 5 port args s fun a => do
    let c ← namedContext s (a 0)
    let ks := s.kernels.filter fun k => k.context == c.number
    let s1 := ks.foldl (fun s k => stopKernel s k.uid 16 none) s
    let s2 := dropLocks { s1 with
      queues := s1.queues.filter fun q => q.context != c.number
      launches := s1.launches.filter fun p => p.context != c.number
      contexts := s1.contexts.filter fun x => x.number != c.number }
    .ok (zeroFrames s2 c.pool, 0)

/-- RELEASE: frames are zeroed and leave their pool (R371). -/
def execRelease (port : Nat) (args : List Int) (s : State) : Host.Outcome State Fault Refusal :=
  hostCommand 6 port args s fun a => do
    must (decide (0 ≤ a 0) && decide (0 ≤ a 1) && decide (a 0 + a 1 ≤ (Config.frames : Int))) 1
    let lo := (a 0).toNat
    let n := (a 1).toNat
    let s1 : State := { s with contexts := s.contexts.map fun c => { c with pool := c.pool.flatMap (extentLess lo (lo + n)) } }
    .ok (zeroFrames s1 [(lo, n)], 0)

/-- Frames of a context's windows, but for one: whether it is a host window, and its index. -/
def otherWindows (c : Context) (host : Bool) (i : Nat) : List (Int × Int) :=
  ((c.hostWins.filter fun w => !(host && w.1 == i)).map fun w => ((w.2.frame : Int), (w.2.count : Int)))
    ++ (c.peerWins.filter fun w => !(!host && w.1 == i)).map fun w => ((w.2.frame : Int), (w.2.count : Int))

/-- WINDOW: a host or peer window of a context (R438; log 71, DEDUCED). -/
def execWindow (port : Nat) (args : List Int) (s : State) : Host.Outcome State Fault Refusal :=
  hostCommand 7 port args s fun a => do
    let c ← namedContext s (a 0)
    let host := a 1 == 1
    must ((host || a 1 == -1) && within (a 2) 0 8 && decide (0 ≤ a 3) && decide (0 ≤ a 4)
      && decide (a 3 + a 4 ≤ (half 18 : Int) + 1)) 1
    must (if host then decide (0 ≤ a 5) && a 5 % 4374 == 0 else within (a 5) 0 5 && decide (0 ≤ a 6)) 1
    let i := (a 2).toNat
    must ((otherWindows c host i).all (disjoint (a 3, a 4))) 2
    let f := (a 3).toNat
    let m := (a 4).toNat
    let s1 := s.modContext c.number fun c =>
      if host then { c with hostWins := smapPut c.hostWins i { frame := f, count := m, base := (a 5).toNat } }
      else { c with peerWins := smapPut c.peerWins i { frame := f, count := m, port := (a 5).toNat, base := (a 6).toNat } }
    .ok (s1, 0)

/-- QUEUE: a queue is bound to a context, empty; refused while it holds untaken packets (R440, R444, R445). A ring that
with its status words would reach beyond device memory is refused with −1 (log 124, DESIGN CHOICE). -/
def execQueue (port : Nat) (args : List Int) (s : State) : Host.Outcome State Fault Refusal :=
  hostCommand 8 port args s fun a => do
    must (within (a 0) 0 728 && within (a 2) 0 8 && within (a 4) 1 729 && decide (0 ≤ a 3) && a 3 % 27 == 0
      && decide (a 3 + 30 * a 4 ≤ (Config.deviceNonets : Int))) 1
    let c ← namedContext s (a 1)
    let n := (a 0).toNat
    must (match s.queueAt n with | some q => untaken q == 0 | none => true) 2
    let q : Queue := { number := n, context := c.number, priority := (a 2).toNat, base := (a 3).toNat,
                       size := (a 4).toNat, tail := 0, taken := 0 }
    .ok ({ s with queues := s.queues.filter (fun x => x.number != n) ++ [q] }, 0)

/-! ### Running kernels -/

/-- Parts of a context that wait for the host at a fault record. -/
def faultParts (s : State) (c : Context) (record : Word) : List Run :=
  (s.bands.flatMap fun b => (List.range b.gangs.length).flatMap fun i => gangRuns s b i).filter fun r =>
    r.ctx.number == c.number && (match r.part.wait with | .fault a _ => a == record | _ => false)

/-- The host resolves a part's fault with the effects of TRET, TRET.SKIP or TKILL (R385). -/
def resolveFault (s : State) (r : Run) (outcome : Int) : State :=
  if outcome = 2 then killKernel s r (r.slice.e.getD 2 0) (r.slice.e.getD 5 0, r.slice.e.getD 6 0, r.slice.e.getD 7 0)
  else match closeOpen s r outcome with
    | .ok s1 => returnTrap s1 r (decide (outcome = -1))
    | .error s => stopKernel s r.kern.uid 16 none

/-- An address in a context's fault area (R370, R383). -/
def inFaultArea (c : Context) (a : Word) : Bool := within (wrap 27 (a - c.faultArea)) (-40) (81 * (c.slots : Int) - 41)

/-- RESOLVE: a record of host-service disposition is resolved (R385, R444); both copies of a pair wait at one. -/
def execResolve (port : Nat) (args : List Int) (s : State) : Host.Outcome State Fault Refusal :=
  hostCommand 9 port args s fun a => do
    let c ← namedContext s (a 0)
    must ((a 2 == 1 || a 2 == -1 || a 2 == 2) && inFaultArea c (a 1)) 1
    match faultParts s c (a 1) with
    | [] => .error 2
    | rs => .ok (rs.foldl (fun s r => match s.run r.id with
        | some q => resolveFault s q (a 2)
        | none => s) s, 0)

/-- STOP: a running kernel stops, with code 16, sub-code 3 (R388, R444). -/
def execStop (port : Nat) (args : List Int) (s : State) : Host.Outcome State Fault Refusal :=
  hostCommand 10 port args s fun a => do
    let c ← namedContext s (a 0)
    match s.kernels.find? fun k => k.context == c.number && k.number == a 1 with
    | some k => .ok (stopKernel s k.uid 16 none, 1)
    | none => .ok (s, 0)

/-- BUDGET: an activity's budget (R336, R444). -/
def execBudget (port : Nat) (args : List Int) (s : State) : Host.Outcome State Fault Refusal :=
  hostCommand 11 port args s fun a => do
    must (within (a 0) 1 4 && within (a 2) 1 81) 1
    let b := (a 2).toNat
    if a 0 = 1 ∨ a 0 = 2 then
      let c ← namedContext s (a 1)
      .ok (s.modContext c.number fun c => if a 0 = 1 then { c with issueShare := b } else { c with copyShare := b }, 0)
    else if a 0 = 3 then
      must (within (a 1) 0 11) 1
      .ok (s.modController (a 1).toNat fun c => { c with budget := b }, 0)
    else
      must (a 1 == 0) 1
      .ok ({ s with mgmtBudget := b }, 0)

/-- INJECT: a context's injection permission (R431, R444). -/
def execInject (port : Nat) (args : List Int) (s : State) : Host.Outcome State Fault Refusal :=
  hostCommand 12 port args s fun a => do
    let c ← namedContext s (a 0)
    must (within (a 1) 0 1) 1
    .ok (s.modContext c.number fun c => { c with inject := a 1 }, 0)

/-! ### REPLACE and TOKEN -/

/-- Deprecated instructions of a code range: SHUF3 (R103, R106); none when a word of the range cannot be read. -/
def countDeprecated (c : Context) : Nat → Word → State → Option (State × Nat)
  | 0, _, s => some (s, 0)
  | n + 1, a, s => match frontWords c (wordRun (wrap 27 (a - 3)) 3) s with
    | .error _ => none
    | .ok (s1, ws) =>
      let old : Bool := match decode { capsule := false, grant := 1530 } (ws.getD 0 0) (ws.getD 1 0) (ws.getD 2 0) with
        | .ok i => (match codedOf i with | some (op, _) => op == .shuf3 | none => false)
        | .error _ => false
      (countDeprecated c n (wrap 27 (a + 9)) s1).map fun x => (x.1, if old then x.2 + 1 else x.2)

/-- REPLACE: the new code is read, and both words of the kernel-table entry are written in one step (R449)
(log 69, DEDUCED). -/
def execReplace (port : Nat) (args : List Int) (s : State) : Host.Outcome State Fault Refusal :=
  hostCommand 13 port args s fun a => do
    let c ← namedContext s (a 0)
    must (within (a 1) 0 728 && within (a 3) 0 (3 ^ 26) && (a 2 + 117) % 243 == 0) 1
    match countDeprecated c (a 3).toNat (a 2) s, physNonet (c.kernelTable + 6 * a 1), physNonet (c.kernelTable + 6 * a 1 + 3) with
    | some (s0, n), some i, some j =>
      let s1 := forceForeign s0 none (toSet [lineOf i, lineOf (i + 2), lineOf j, lineOf (j + 2)])
      .ok (writeBase s1 (wordCells i (a 2) ++ wordCells j (a 3)) false, (n : Int))
    | _, _, _ => .error 2

/-- An untaken packet waits on the token: one in the ring of a queue bound to the context, or a LAUNCH's (R321). -/
def tokenAwaited (s : State) (c : Context) (t : Nat) : Bool :=
  let ring (q : Queue) : Bool := (List.range (untaken q).toNat).any fun i =>
    match headWords s { q with taken := wrap 27 (q.taken + i) } with
    | some (_, ws) => (packetWaits ws).any fun x => x.1 == t
    | none => false
  (s.queues.any fun q => q.context == c.number && ring q)
    || s.launches.any fun p => p.context == c.number && p.packet.waits.any fun x => x.1 == t

/-- TOKEN: sets a queue token's count, but lowers none that an untaken packet waits on (R321, R444). -/
def execToken (port : Nat) (args : List Int) (s : State) : Host.Outcome State Fault Refusal :=
  hostCommand 14 port args s fun a => do
    let c ← namedContext s (a 0)
    must (within (a 1) 0 728 && decide (0 ≤ a 2)) 1
    let t := (a 1).toNat
    let old := smapGet 0 c.tokens t
    must (!(decide (a 2 < (old : Int)) && tokenAwaited s c t)) 2
    .ok (s.modContext c.number fun c => { c with
      tokens := smapSet 0 c.tokens t (a 2).toNat
      posters := smapSet [] c.posters t (setAdd (smapGet [] c.posters t) Config.computeDies) }, (old : Int))

end Sys2Proof.Machine
end

