-- ==== Sys2Proof/Machine/Uniform.lean ====
section
/-! DEFINITION. Uniform arithmetic and trit logic, UADD to ULEA (R128 to R133). -/

namespace Sys2Proof.Machine

/-- A two-source uniform instruction whose value is bounded by R87. -/
def uniR87 (op : Op) (f : Fields) (s : State) (g : Int → Int → Int) : Host.Outcome State Fault Refusal :=
  runOp op f s fun r => uniform r s f (intDest 27 f.clamp f.scale (g (uniA r s f) (uniB r s f)))

/-- A two-source uniform instruction whose value always fits. -/
def uniExact (op : Op) (f : Fields) (s : State) (g : Int → Int → Int) : Host.Outcome State Fault Refusal :=
  runOp op f s fun r => uniform r s f (exact (g (uniA r s f) (uniB r s f)))

/-- UADD: a + b (R130). -/
def execUadd (f : Fields) (s : State) : Host.Outcome State Fault Refusal := uniR87 .uadd f s fun a b => a + b
/-- USUB: a − b (R130). -/
def execUsub (f : Fields) (s : State) : Host.Outcome State Fault Refusal := uniR87 .usub f s fun a b => a - b
/-- UMUL: a × b (R130). -/
def execUmul (f : Fields) (s : State) : Host.Outcome State Fault Refusal := uniR87 .umul f s fun a b => a * b
/-- UMUL.H: the high word of a × b (R130). -/
def execUmulH (f : Fields) (s : State) : Host.Outcome State Fault Refusal := uniExact .umulH f s fun a b => trunc 27 (a * b)
/-- UDIV: the nearest quotient, scaled inside the division (R131). -/
def execUdiv (f : Fields) (s : State) : Host.Outcome State Fault Refusal :=
  runOp .udiv f s fun r => uniform r s f (divDest 27 f.clamp f.scale (uniA r s f) (uniB r s f))
/-- UDIV.R: the remainder of the nearest division (R131). -/
def execUdivR (f : Fields) (s : State) : Host.Outcome State Fault Refusal := uniExact .udivR f s remNear
/-- UMIN (R130). -/
def execUmin (f : Fields) (s : State) : Host.Outcome State Fault Refusal := uniExact .umin f s min
/-- UMAX (R130). -/
def execUmax (f : Fields) (s : State) : Host.Outcome State Fault Refusal := uniExact .umax f s max
/-- UCMP: sign(a − b) (R130). -/
def execUcmp (f : Fields) (s : State) : Host.Outcome State Fault Refusal := uniExact .ucmp f s cmpInt
/-- USEL: a, b or the old destination by the sign of c (R132). -/
def execUsel (f : Fields) (s : State) : Host.Outcome State Fault Refusal :=
  runOp .usel f s fun r =>
    let c := uniC r s f
    uniform r s f (exact (if 0 < c then uniA r s f else if c < 0 then uniB r s f else readWord r s 3 f.d))
/-- USHF: a shift by a signed count, bounded by the clamp (R133). -/
def execUshf (f : Fields) (s : State) : Host.Outcome State Fault Refusal :=
  runOp .ushf f s fun r => uniform r s f (shiftDest 27 f.clamp (uniA r s f) (uniB r s f))
/-- USHF.ROT: rotation by the count mod 27 (R133). -/
def execUshfRot (f : Fields) (s : State) : Host.Outcome State Fault Refusal := uniExact .ushfRot f s fun a b => rotate 27 a b
/-- UTMIN: trit by trit (R130). -/
def execUtmin (f : Fields) (s : State) : Host.Outcome State Fault Refusal := uniExact .utmin f s (tritwise 27 min)
/-- UTMAX: trit by trit (R130). -/
def execUtmax (f : Fields) (s : State) : Host.Outcome State Fault Refusal := uniExact .utmax f s (tritwise 27 max)
/-- UTCON: consensus, trit by trit (R130). -/
def execUtcon (f : Fields) (s : State) : Host.Outcome State Fault Refusal := uniExact .utcon f s (tritwise 27 consensus)
/-- UMOV: the register or the immediate, bounded by R87 (R130). -/
def execUmov (f : Fields) (s : State) : Host.Outcome State Fault Refusal :=
  runOp .umov f s fun r =>
    uniform r s f (intDest 27 f.clamp f.scale (if isImm f then uniB r s f else uniA r s f))
/-- ULEA: a + b × c (R130). -/
def execUlea (f : Fields) (s : State) : Host.Outcome State Fault Refusal :=
  runOp .ulea f s fun r => uniform r s f (intDest 27 f.clamp f.scale (uniA r s f + uniB r s f * uniC r s f))

end Sys2Proof.Machine
end

