-- ==== Sys2Proof/Machine/VectorFloat.lean ====
section
/-! DEFINITION. Vector float arithmetic, group −2 (R234 to R238). -/

namespace Sys2Proof.Machine

/-- A two-source float instruction: the exact result under R206, scaled, narrowed and clamped (R234). -/
def floatBinary (op : Op) (f : Fields) (s : State) (g : FVal → FVal → FVal) : Host.Outcome State Fault Refusal :=
  runOp op f s fun r =>
    let F := fmtOf f.ty
    binary r s f (tidOf f) fun a b =>
      let x := fval F a
      let y := fval F b
      floatDest F f.clamp f.scale (withNan [x, y] (g x y)) (signallers [x, y])

/-- FADD: a + b (R234). -/
def execFadd (f : Fields) (s : State) : Host.Outcome State Fault Refusal := floatBinary .fadd f s (addVal (fmtOf f.ty))
/-- FSUB: a − b (R234). -/
def execFsub (f : Fields) (s : State) : Host.Outcome State Fault Refusal :=
  floatBinary .fsub f s fun x y => addVal (fmtOf f.ty) x (negVal y)
/-- FMUL: a × b (R234). -/
def execFmul (f : Fields) (s : State) : Host.Outcome State Fault Refusal := floatBinary .fmul f s (mulVal (fmtOf f.ty))

/-- FMA: a × b + c with one narrowing (R234). -/
def execFma (f : Fields) (s : State) : Host.Outcome State Fault Refusal :=
  runOp .fma f s fun r =>
    let F := fmtOf f.ty
    let a := vecA r s f.ty f
    let b := vecB r s f.ty f
    let c := vecC r s f.ty f
    perElem r s f (tidOf f) fun l i =>
      let x := fval F (elem f.ty (lane a l) i)
      let y := fval F (elem f.ty (lane b l) i)
      let z := fval F (elem f.ty (lane c l) i)
      floatDest F f.clamp f.scale (withNan [x, y, z] (addVal F (mulVal F x y) z)) (signallers [x, y, z])

/-- FMIN by value, canonical (R235). -/
def execFmin (f : Fields) (s : State) : Host.Outcome State Fault Refusal :=
  floatBinary .fmin f s fun x y => if cmpVal x y ≤ 0 then x else y
/-- FMAX by value, canonical (R235). -/
def execFmax (f : Fields) (s : State) : Host.Outcome State Fault Refusal :=
  floatBinary .fmax f s fun x y => if 0 ≤ cmpVal x y then x else y

/-- FCMP on one lane (R237). -/
def fcmpLane (ty : Ty) (v : Int) (a b : Word) : Int × Effects :=
  let F := fmtOf ty
  let idx := if v = 0 then (List.range (elems ty)).reverse else [(v - 1).toNat]
  let pairs := idx.map fun i => (fval F (elem ty a i), fval F (elem ty b i))
  let t := ((pairs.map fun p => cmpVal p.1 p.2).find? (· ≠ 0)).getD 0
  (t, { invalid := signallers (pairs.map (·.1)) + signallers (pairs.map (·.2)) })

/-- FCMP: a mask trit in the total order of R237. -/
def execFcmp (f : Fields) (s : State) : Host.Outcome State Fault Refusal :=
  runOp .fcmp f s fun r => compare r s f (tidOf f) (fcmpLane f.ty (field f.var 0 3))

/-- A finite value narrowed with p − 1 significand trits, or a special value, then clamped (R236). -/
def approxDest (F : Fmt) (c : Clamp) (narrowed : Int × Effects) (nan : Nat) (invalid : Nat) : Int × Effects :=
  let d := clampFloat F c narrowed
  (d.1, d.2.add { nan := nan, invalid := invalid })

/-- FRCP of one element (R236). -/
def recipElem (F : Fmt) (c : Clamp) (k : Int) (x : Int) : Int × Effects :=
  match fval F x with
  | .nan p m => floatDest F c k (.nan p m) (signallers [.nan p m])
  | .inf _ => approxDest F c (0, .none) 0 0
  | .fin n d =>
    if n = 0 then approxDest F c (finf F 1, { sat := 1 }) 0 0
    else match scaleFloat k (.fin (sgn n * d) n.natAbs) with
      | .fin m e => approxDest F c (narrowBy F (F.p - 1) (sgn m) fun j => nearScaled m e j 0) 0 0
      | _ => (0, .none)

/-- FRSQ of one element (R236). -/
def rootElem (F : Fmt) (c : Clamp) (k : Int) (x : Int) : Int × Effects :=
  match fval F x with
  | .nan p m => floatDest F c k (.nan p m) (signallers [.nan p m])
  | .inf s => if 0 < s then approxDest F c (0, .none) 0 0 else approxDest F c (fqnan F, .none) 1 0
  | .fin n d =>
    if n = 0 then approxDest F c (finf F 1, { sat := 1 }) 0 0
    else if n < 0 then approxDest F c (fqnan F, .none) 1 0
    else
      let num := if 0 ≤ k then d * 9 ^ k.toNat else d
      let den := if 0 ≤ k then n.toNat else n.toNat * 9 ^ (-k).toNat
      approxDest F c (narrowRoot F (F.p - 1) 1 num den) 0 0

/-- FRCP: the approximate reciprocal (R236). -/
def execFrcp (f : Fields) (s : State) : Host.Outcome State Fault Refusal :=
  runOp .frcp f s fun r => unary r s f (tidOf f) (recipElem (fmtOf f.ty) f.clamp f.scale)
/-- FRSQ: the approximate reciprocal square root (R236). -/
def execFrsq (f : Fields) (s : State) : Host.Outcome State Fault Refusal :=
  runOp .frsq f s fun r => unary r s f (tidOf f) (rootElem (fmtOf f.ty) f.clamp f.scale)

/-- FSCL's scale limited to a range beyond which every finite result saturates or flushes, so that the limit
changes nothing. -/
def scaleLimit (j : Int) : Int := max (-1600) (min 1600 j)

/-- FSCL: a × 3^j, j the matching element of B as an integer (R234). -/
def execFscl (f : Fields) (s : State) : Host.Outcome State Fault Refusal :=
  runOp .fscl f s fun r =>
    let F := fmtOf f.ty
    let ti : Ty := if f.ty = .f9 then .t9 else .t27
    let a := vecA r s f.ty f
    let b := vecB r s ti f
    perElem r s f (tidOf f) fun l i =>
      let x := fval F (elem f.ty (lane a l) i)
      floatDest F f.clamp f.scale (scaleFloat (scaleLimit (elem ti (lane b l) i)) x) (signallers [x])

/-- FCLS: a class code (R238). -/
def execFcls (f : Fields) (s : State) : Host.Outcome State Fault Refusal :=
  runOp .fcls f s fun r => unary r s f (tidOf f) fun a => exact (fclass (fmtOf f.ty) a)

end Sys2Proof.Machine
end

