-- ==== Sys2Proof/Machine/VectorInt.lean ====
section
/-! DEFINITION. Vector integer arithmetic and trit logic, group −3 (R219 to R233). -/

namespace Sys2Proof.Machine

/-- A two-source integer instruction whose elements are bounded by R87 (R227). -/
def vecR87 (op : Op) (f : Fields) (s : State) (g : Int → Int → Int) : Host.Outcome State Fault Refusal :=
  runOp op f s fun r => binary r s f 0 fun a b => intDest (etrits f.ty) f.clamp f.scale (g a b)

/-- A two-source integer instruction whose elements always fit (R227). -/
def vecExact (op : Op) (f : Fields) (s : State) (g : Int → Int → Int) : Host.Outcome State Fault Refusal :=
  runOp op f s fun r => binary r s f 0 fun a b => exact (g a b)

/-- VADD: a + b (R227). -/
def execVadd (f : Fields) (s : State) : Host.Outcome State Fault Refusal := vecR87 .vadd f s fun a b => a + b
/-- VSUB: a − b (R227). -/
def execVsub (f : Fields) (s : State) : Host.Outcome State Fault Refusal := vecR87 .vsub f s fun a b => a - b
/-- VMUL: a × b (R227). -/
def execVmul (f : Fields) (s : State) : Host.Outcome State Fault Refusal := vecR87 .vmul f s fun a b => a * b
/-- VMULH: the high half of a × b (R227). -/
def execVmulh (f : Fields) (s : State) : Host.Outcome State Fault Refusal :=
  vecExact .vmulh f s fun a b => trunc (etrits f.ty) (a * b)

/-- VMAC: a × b + c, exact, bounded once (R228). -/
def execVmac (f : Fields) (s : State) : Host.Outcome State Fault Refusal :=
  runOp .vmac f s fun r =>
    let a := vecA r s f.ty f
    let b := vecB r s f.ty f
    let c := vecC r s f.ty f
    perElem r s f 0 fun l i => intDest (etrits f.ty) f.clamp f.scale
      (elem f.ty (lane a l) i * elem f.ty (lane b l) i + elem f.ty (lane c l) i)

/-- VDOT3: three packed products added to a word (R229). -/
def execVdot3 (f : Fields) (s : State) : Host.Outcome State Fault Refusal :=
  runOp .vdot3 f s fun r =>
    let a := vecA r s .t9 f
    let b := vecB r s .t9 f
    let c := vecC r s .t27 f
    let p (l i : Nat) : Int := elem .t9 (lane a l) i * elem .t9 (lane b l) i
    perLane r s f 0 fun l => intDest 27 f.clamp f.scale (lane c l + p l 0 + p l 1 + p l 2)

/-- VDIV: the nearest quotient (R230, R131). -/
def execVdiv (f : Fields) (s : State) : Host.Outcome State Fault Refusal :=
  runOp .vdiv f s fun r => binary r s f 0 (divDest (etrits f.ty) f.clamp f.scale)
/-- VDIV.R: the remainder of the nearest division (R230). -/
def execVdivR (f : Fields) (s : State) : Host.Outcome State Fault Refusal := vecExact .vdivR f s remNear
/-- VMIN (R227). -/
def execVmin (f : Fields) (s : State) : Host.Outcome State Fault Refusal := vecExact .vmin f s min
/-- VMAX (R227). -/
def execVmax (f : Fields) (s : State) : Host.Outcome State Fault Refusal := vecExact .vmax f s max
/-- VSHF: a shift by the matching element of B (R231, R133). -/
def execVshf (f : Fields) (s : State) : Host.Outcome State Fault Refusal :=
  runOp .vshf f s fun r => binary r s f 0 (shiftDest (etrits f.ty) f.clamp)
/-- VSHF.ROT: a rotation of each element (R231, R133). -/
def execVshfRot (f : Fields) (s : State) : Host.Outcome State Fault Refusal := vecExact .vshfRot f s (rotate (etrits f.ty))
/-- VTMIN: trit by trit (R227, R130). -/
def execVtmin (f : Fields) (s : State) : Host.Outcome State Fault Refusal := vecExact .vtmin f s (tritwise (etrits f.ty) min)
/-- VTMAX: trit by trit (R227, R130). -/
def execVtmax (f : Fields) (s : State) : Host.Outcome State Fault Refusal := vecExact .vtmax f s (tritwise (etrits f.ty) max)
/-- VTCON: consensus, trit by trit (R227, R130). -/
def execVtcon (f : Fields) (s : State) : Host.Outcome State Fault Refusal :=
  vecExact .vtcon f s (tritwise (etrits f.ty) consensus)

/-- VCMP: the sign of a difference of words, sub-elements or codes (R232). -/
def execVcmp (f : Fields) (s : State) : Host.Outcome State Fault Refusal :=
  runOp .vcmp f s fun r => compare r s f 0 fun a b =>
    let v := field f.var 0 3
    if v = 0 then exact (cmpInt a b)
    else exact (cmpInt (elem f.ty a (v - 1).toNat) (elem f.ty b (v - 1).toNat))

/-- The sign of an element as VSEL reads it (R233). -/
def elemSign (ty : Ty) (x : Int) : Int := if isFloat ty then fsign (fmtOf ty) x else sgn x

/-- VSEL: a, b or the destination's old element by the sign of c, copied unchanged (R233). -/
def execVsel (f : Fields) (s : State) : Host.Outcome State Fault Refusal :=
  runOp .vsel f s fun r =>
    let a := vecA r s f.ty f
    let b := vecB r s f.ty f
    let c := vecC r s f.ty f
    let old := regLanes r f.ty f.d
    let g (l i : Nat) : Int := elemSign f.ty (elem f.ty (lane c l) i)
    let keeps (l : Nat) : Bool := activeLanes r s f l && (List.range (elems f.ty)).any fun i => g l i == 0
    keepsOld r s f.d keeps <| perElem r s f 0 fun l i =>
      exact (elem f.ty (lane (if 0 < g l i then a else if g l i < 0 then b else old) l) i)

/-- VMOV of one element: bounded, or canonicalised for F types, or narrowed for L3 (R227, R204, R209). -/
def moveElem (f : Fields) (x : Int) : Int × Effects :=
  match f.ty with
  | .t27 | .t9 => intDest (etrits f.ty) f.clamp f.scale x
  | .f27 | .f9 =>
    let v := fval (fmtOf f.ty) x
    floatDest (fmtOf f.ty) f.clamp f.scale v (signallers [v])
  | .l3 => l3Dest f.clamp f.scale (sgn x) (l3Square x).1 (l3Square x).2

/-- VMOV (R227). -/
def execVmov (f : Fields) (s : State) : Host.Outcome State Fault Refusal :=
  runOp .vmov f s fun r =>
    let v := if isImm f then vecB r s f.ty f else vecA r s f.ty f
    perElem r s f 0 fun l i => moveElem f (elem f.ty (lane v l) i)

/-- VCNT: nonzero, plus or minus trits of each element (R227). -/
def execVcnt (f : Fields) (s : State) : Host.Outcome State Fault Refusal :=
  runOp .vcnt f s fun r => unary r s f 0 fun a =>
    let v := field f.var 0 2
    exact (countTrits (etrits f.ty) (fun t => if v = 0 then t != 0 else t == v) a)

/-- VLEAD: the signed position of the lead trit (R227). -/
def execVlead (f : Fields) (s : State) : Host.Outcome State Fault Refusal :=
  runOp .vlead f s fun r => unary r s f 0 fun a => exact (leadPos (etrits f.ty) a)

end Sys2Proof.Machine
end

