-- ==== Sys2Proof/Machine/Dispatch.lean ====
section
/-! DEFINITION. One arm for each constructor of `Instr`. -/

namespace Sys2Proof.Machine

/-- The meaning of an instruction, or of a step of the device. -/
def exec (i : Instr) (s : State) : Host.Outcome State Fault Refusal :=
  match i with
  | .uadd f => Sys2Proof.Machine.execUadd f s
  | .usub f => Sys2Proof.Machine.execUsub f s
  | .umul f => Sys2Proof.Machine.execUmul f s
  | .umulH f => Sys2Proof.Machine.execUmulH f s
  | .udiv f => Sys2Proof.Machine.execUdiv f s
  | .udivR f => Sys2Proof.Machine.execUdivR f s
  | .umin f => Sys2Proof.Machine.execUmin f s
  | .umax f => Sys2Proof.Machine.execUmax f s
  | .ucmp f => Sys2Proof.Machine.execUcmp f s
  | .usel f => Sys2Proof.Machine.execUsel f s
  | .ushf f => Sys2Proof.Machine.execUshf f s
  | .ushfRot f => Sys2Proof.Machine.execUshfRot f s
  | .utmin f => Sys2Proof.Machine.execUtmin f s
  | .utmax f => Sys2Proof.Machine.execUtmax f s
  | .utcon f => Sys2Proof.Machine.execUtcon f s
  | .umov f => Sys2Proof.Machine.execUmov f s
  | .ulea f => Sys2Proof.Machine.execUlea f s
  | .brAny f => Sys2Proof.Machine.execBrAny f s
  | .brAll f => Sys2Proof.Machine.execBrAll f s
  | .brU f => Sys2Proof.Machine.execBrU f s
  | .call f => Sys2Proof.Machine.execCall f s
  | .ret f => Sys2Proof.Machine.execRet f s
  | .regang f => Sys2Proof.Machine.execRegang f s
  | .regangReform band gang => Sys2Proof.Machine.execRegangReform band gang s
  | .exit f => Sys2Proof.Machine.execExit f s
  | .mlogMin f => Sys2Proof.Machine.execMlogMin f s
  | .mlogMax f => Sys2Proof.Machine.execMlogMax f s
  | .mlogCon f => Sys2Proof.Machine.execMlogCon f s
  | .mmov f => Sys2Proof.Machine.execMmov f s
  | .mmovIn f => Sys2Proof.Machine.execMmovIn f s
  | .mmovOut f => Sys2Proof.Machine.execMmovOut f s
  | .mcnt f => Sys2Proof.Machine.execMcnt f s
  | .laneid f => Sys2Proof.Machine.execLaneid f s
  | .cycle f => Sys2Proof.Machine.execCycle f s
  | .statr f => Sys2Proof.Machine.execStatr f s
  | .statc f => Sys2Proof.Machine.execStatc f s
  | .treg f => Sys2Proof.Machine.execTreg f s
  | .vadd f => Sys2Proof.Machine.execVadd f s
  | .vsub f => Sys2Proof.Machine.execVsub f s
  | .vmul f => Sys2Proof.Machine.execVmul f s
  | .vmulh f => Sys2Proof.Machine.execVmulh f s
  | .vmac f => Sys2Proof.Machine.execVmac f s
  | .vdot3 f => Sys2Proof.Machine.execVdot3 f s
  | .vdiv f => Sys2Proof.Machine.execVdiv f s
  | .vdivR f => Sys2Proof.Machine.execVdivR f s
  | .vmin f => Sys2Proof.Machine.execVmin f s
  | .vmax f => Sys2Proof.Machine.execVmax f s
  | .vshf f => Sys2Proof.Machine.execVshf f s
  | .vshfRot f => Sys2Proof.Machine.execVshfRot f s
  | .vtmin f => Sys2Proof.Machine.execVtmin f s
  | .vtmax f => Sys2Proof.Machine.execVtmax f s
  | .vtcon f => Sys2Proof.Machine.execVtcon f s
  | .vcmp f => Sys2Proof.Machine.execVcmp f s
  | .vsel f => Sys2Proof.Machine.execVsel f s
  | .vmov f => Sys2Proof.Machine.execVmov f s
  | .vcnt f => Sys2Proof.Machine.execVcnt f s
  | .vlead f => Sys2Proof.Machine.execVlead f s
  | .fadd f => Sys2Proof.Machine.execFadd f s
  | .fsub f => Sys2Proof.Machine.execFsub f s
  | .fmul f => Sys2Proof.Machine.execFmul f s
  | .fma f => Sys2Proof.Machine.execFma f s
  | .fmin f => Sys2Proof.Machine.execFmin f s
  | .fmax f => Sys2Proof.Machine.execFmax f s
  | .fcmp f => Sys2Proof.Machine.execFcmp f s
  | .frcp f => Sys2Proof.Machine.execFrcp f s
  | .frsq f => Sys2Proof.Machine.execFrsq f s
  | .fscl f => Sys2Proof.Machine.execFscl f s
  | .fcls f => Sys2Proof.Machine.execFcls f s
  | .cvt f => Sys2Proof.Machine.execCvt f s
  | .pack f => Sys2Proof.Machine.execPack f s
  | .unpk f => Sys2Proof.Machine.execUnpk f s
  | .lmul f => Sys2Proof.Machine.execLmul f s
  | .lexp f => Sys2Proof.Machine.execLexp f s
  | .lqnt f => Sys2Proof.Machine.execLqnt f s
  | .lcmp f => Sys2Proof.Machine.execLcmp f s
  | .slide f => Sys2Proof.Machine.execSlide f s
  | .slideEdge f => Sys2Proof.Machine.execSlideEdge f s
  | .slideFill f => Sys2Proof.Machine.execSlideFill f s
  | .perm f => Sys2Proof.Machine.execPerm f s
  | .bcast f => Sys2Proof.Machine.execBcast f s
  | .red f => Sys2Proof.Machine.execRed f s
  | .scan f => Sys2Proof.Machine.execScan f s
  | .vext f => Sys2Proof.Machine.execVext f s
  | .vins f => Sys2Proof.Machine.execVins f s
  | .shuf3 f => Sys2Proof.Machine.execShuf3 f s
  | .ldn f => Sys2Proof.Machine.execLdn f s
  | .ldw f => Sys2Proof.Machine.execLdw f s
  | .stn f => Sys2Proof.Machine.execStn f s
  | .stw f => Sys2Proof.Machine.execStw f s
  | .vld f => Sys2Proof.Machine.execVld f s
  | .vst f => Sys2Proof.Machine.execVst f s
  | .vlds f => Sys2Proof.Machine.execVlds f s
  | .vsts f => Sys2Proof.Machine.execVsts f s
  | .gath f => Sys2Proof.Machine.execGath f s
  | .scat f => Sys2Proof.Machine.execScat f s
  | .xld f => Sys2Proof.Machine.execXld f s
  | .pref f => Sys2Proof.Machine.execPref f s
  | .prefSc f => Sys2Proof.Machine.execPrefSc f s
  | .aadd f => Sys2Proof.Machine.execAadd f s
  | .amin f => Sys2Proof.Machine.execAmin f s
  | .amax f => Sys2Proof.Machine.execAmax f s
  | .afadd f => Sys2Proof.Machine.execAfadd f s
  | .afmin f => Sys2Proof.Machine.execAfmin f s
  | .afmax f => Sys2Proof.Machine.execAfmax f s
  | .axch f => Sys2Proof.Machine.execAxch f s
  | .acas f => Sys2Proof.Machine.execAcas f s
  | .drain f => Sys2Proof.Machine.execDrain f s
  | .drainBar f => Sys2Proof.Machine.execDrainBar f s
  | .drainComplete p => Sys2Proof.Machine.execDrainComplete p s
  | .batchSeal f => Sys2Proof.Machine.execBatchSeal f s
  | .batchWait f => Sys2Proof.Machine.execBatchWait f s
  | .batchWaitComplete p => Sys2Proof.Machine.execBatchWaitComplete p s
  | .icinv f => Sys2Proof.Machine.execIcinv f s
  | .icinvAll f => Sys2Proof.Machine.execIcinvAll f s
  | .icinvComplete p => Sys2Proof.Machine.execIcinvComplete p s
  | .iclock f => Sys2Proof.Machine.execIclock f s
  | .iclockUn f => Sys2Proof.Machine.execIclockUn f s
  | .fence f => Sys2Proof.Machine.execFence f s
  | .fenceNs f => Sys2Proof.Machine.execFenceNs f s
  | .fenceComplete p => Sys2Proof.Machine.execFenceComplete p s
  | .fenceRollback p line => Sys2Proof.Machine.execFenceRollback p line s
  | .copy f => Sys2Proof.Machine.execCopy f s
  | .cmpb f => Sys2Proof.Machine.execCmpb f s
  | .link f => Sys2Proof.Machine.execLink f s
  | .bin f => Sys2Proof.Machine.execBin f s
  | .rels f => Sys2Proof.Machine.execRels f s
  | .nodeFinish band serial => Sys2Proof.Machine.execNodeFinish band serial s
  | .nodeFault band serial => Sys2Proof.Machine.execNodeFault band serial s
  | .followOnDecrement band serial => Sys2Proof.Machine.execFollowOnDecrement band serial s
  | .mmul f => Sys2Proof.Machine.execMmul f s
  | .mmulNode f => Sys2Proof.Machine.execMmulNode f s
  | .engineCommandReady core => Sys2Proof.Machine.execEngineCommandReady core s
  | .mmulStep core => Sys2Proof.Machine.execMmulStep core s
  | .azero f => Sys2Proof.Machine.execAzero f s
  | .ard f => Sys2Proof.Machine.execArd f s
  | .awr f => Sys2Proof.Machine.execAwr f s
  | .asave f => Sys2Proof.Machine.execAsave f s
  | .arst f => Sys2Proof.Machine.execArst f s
  | .bqnt f => Sys2Proof.Machine.execBqnt f s
  | .bdq f => Sys2Proof.Machine.execBdq f s
  | .send f => Sys2Proof.Machine.execSend f s
  | .sendComplete band channel => Sys2Proof.Machine.execSendComplete band channel s
  | .recv f => Sys2Proof.Machine.execRecv f s
  | .recvComplete band channel => Sys2Proof.Machine.execRecvComplete band channel s
  | .bar f => Sys2Proof.Machine.execBar f s
  | .barArr f => Sys2Proof.Machine.execBarArr f s
  | .barrierPhaseComplete kernel key => Sys2Proof.Machine.execBarrierPhaseComplete kernel key s
  | .park f => Sys2Proof.Machine.execPark f s
  | .parkPoll p => Sys2Proof.Machine.execParkPoll p s
  | .parkTimeout p => Sys2Proof.Machine.execParkTimeout p s
  | .wake f => Sys2Proof.Machine.execWake f s
  | .grow f => Sys2Proof.Machine.execGrow f s
  | .growGrant core => Sys2Proof.Machine.execGrowGrant core s
  | .shrink f => Sys2Proof.Machine.execShrink f s
  | .launch f => Sys2Proof.Machine.execLaunch f s
  | .capEnter f => Sys2Proof.Machine.execCapEnter f s
  | .capRetry p => Sys2Proof.Machine.execCapRetry p s
  | .capStepCommit p => Sys2Proof.Machine.execCapStepCommit p s
  | .capStoreApply p => Sys2Proof.Machine.execCapStoreApply p s
  | .capLeave f => Sys2Proof.Machine.execCapLeave f s
  | .capMarkDescheduled p => Sys2Proof.Machine.execCapMarkDescheduled p s
  | .rejoin p => Sys2Proof.Machine.execRejoin p s
  | .map f => Sys2Proof.Machine.execMap f s
  | .unmap f => Sys2Proof.Machine.execUnmap f s
  | .mapComplete p => Sys2Proof.Machine.execMapComplete p s
  | .pkset f => Sys2Proof.Machine.execPkset f s
  | .pksetComplete p => Sys2Proof.Machine.execPksetComplete p s
  | .pkrd f => Sys2Proof.Machine.execPkrd f s
  | .trap f => Sys2Proof.Machine.execTrap f s
  | .faultSlotFreed p => Sys2Proof.Machine.execFaultSlotFreed p s
  | .tret f => Sys2Proof.Machine.execTret f s
  | .tretSkip f => Sys2Proof.Machine.execTretSkip f s
  | .tkill f => Sys2Proof.Machine.execTkill f s
  | .frec f => Sys2Proof.Machine.execFrec f s
  | .dstepOn f => Sys2Proof.Machine.execDstepOn f s
  | .dstepOff f => Sys2Proof.Machine.execDstepOff f s
  | .commit f => Sys2Proof.Machine.execCommit f s
  | .pairCk f => Sys2Proof.Machine.execPairCk f s
  | .einjCorr f => Sys2Proof.Machine.execEinjCorr f s
  | .einjUnc f => Sys2Proof.Machine.execEinjUnc f s
  | .einjLink f => Sys2Proof.Machine.execEinjLink f s
  | .einjSig f => Sys2Proof.Machine.execEinjSig f s
  | .partitionIssue core partition => Sys2Proof.Machine.execPartitionIssue core partition s
  | .partStarving p => Sys2Proof.Machine.execPartStarving p s
  | .stageRebalance core => Sys2Proof.Machine.execStageRebalance core s
  | .budgetPeriodStart agent => Sys2Proof.Machine.execBudgetPeriodStart agent s
  | .watchdogExpiry band gang => Sys2Proof.Machine.execWatchdogExpiry band gang s
  | .packetTake queue => Sys2Proof.Machine.execPacketTake queue s
  | .bandDispatch die core => Sys2Proof.Machine.execBandDispatch die core s
  | .placementEviction die => Sys2Proof.Machine.execPlacementEviction die s
  | .growEviction core => Sys2Proof.Machine.execGrowEviction core s
  | .gangEvict band gang => Sys2Proof.Machine.execGangEvict band gang s
  | .gangResume band gang => Sys2Proof.Machine.execGangResume band gang s
  | .remoteLoadReturn req => Sys2Proof.Machine.execRemoteLoadReturn req s
  | .storeAck band gang => Sys2Proof.Machine.execStoreAck band gang s
  | .homeAccess req => Sys2Proof.Machine.execHomeAccess req s
  | .hbmBurstComplete controller sectors => Sys2Proof.Machine.execHbmBurstComplete controller sectors s
  | .clusterAccess req => Sys2Proof.Machine.execClusterAccess req s
  | .scrubRead controller e => Sys2Proof.Machine.execScrubRead controller e s
  | .scrubWriteback controller cycles => Sys2Proof.Machine.execScrubWriteback controller cycles s
  | .homeLineScrub line => Sys2Proof.Machine.execHomeLineScrub line s
  | .bandEnd band => Sys2Proof.Machine.execBandEnd band s
  | .kernelStop kernel code sub => Sys2Proof.Machine.execKernelStop kernel code sub s
  | .pairedCheckpoint band => Sys2Proof.Machine.execPairedCheckpoint band s
  | .signatureReceive band => Sys2Proof.Machine.execSignatureReceive band s
  | .pairedMismatch band => Sys2Proof.Machine.execPairedMismatch band s
  | .flitReceive module crcFails payload => Sys2Proof.Machine.execFlitReceive module crcFails payload s
  | .laneRotation module => Sys2Proof.Machine.execLaneRotation module s
  | .laneMarginLow module => Sys2Proof.Machine.execLaneMarginLow module s
  | .planeDeath plane => Sys2Proof.Machine.execPlaneDeath plane s
  | .responseConfirm home plane die => Sys2Proof.Machine.execResponseConfirm home plane die s
  | .pcieLinkDown port => Sys2Proof.Machine.execPcieLinkDown port s
  | .hostWrite port byte data => Sys2Proof.Machine.execHostWrite port byte data s
  | .hostByteMerge port byte value => Sys2Proof.Machine.execHostByteMerge port byte value s
  | .hostRead port byte count => Sys2Proof.Machine.execHostRead port byte count s
  | .hostReadResponse req data => Sys2Proof.Machine.execHostReadResponse req data s
  | .peerRequest port nonet count data => Sys2Proof.Machine.execPeerRequest port nonet count data s
  | .tailWrite port queue bytes => Sys2Proof.Machine.execTailWrite port queue bytes s
  | .registerWrite port offset bytes => Sys2Proof.Machine.execRegisterWrite port offset bytes s
  | .negotiate port args => Sys2Proof.Machine.execNegotiate port args s
  | .resync port args => Sys2Proof.Machine.execResync port args s
  | .install port args => Sys2Proof.Machine.execInstall port args s
  | .change port args => Sys2Proof.Machine.execChange port args s
  | .remove port args => Sys2Proof.Machine.execRemove port args s
  | .release port args => Sys2Proof.Machine.execRelease port args s
  | .window port args => Sys2Proof.Machine.execWindow port args s
  | .queue port args => Sys2Proof.Machine.execQueue port args s
  | .resolve port args => Sys2Proof.Machine.execResolve port args s
  | .stop port args => Sys2Proof.Machine.execStop port args s
  | .budget port args => Sys2Proof.Machine.execBudget port args s
  | .inject port args => Sys2Proof.Machine.execInject port args s
  | .replace port args => Sys2Proof.Machine.execReplace port args s
  | .token port args => Sys2Proof.Machine.execToken port args s
  | .attestationRequest nonce => Sys2Proof.Machine.execAttestationRequest nonce s
  | .bringUp image stepsPass => Sys2Proof.Machine.execBringUp image stepsPass s
  | .thermalHigh die => Sys2Proof.Machine.execThermalHigh die s
  | .thermalCool die => Sys2Proof.Machine.execThermalCool die s
  | .thermalTrip die => Sys2Proof.Machine.execThermalTrip die s
  | .firmwareUpdate port image => Sys2Proof.Machine.execFirmwareUpdate port image s
  | .portReset port role => Sys2Proof.Machine.execPortReset port role s
  | .pcieLinkUp port => Sys2Proof.Machine.execPcieLinkUp port s
  | .inboundRanges port ranges => Sys2Proof.Machine.execInboundRanges port ranges s

end Sys2Proof.Machine
end

