-- ==== Sys2Proof/Machine/Schedule.lean ====
section
/-! DEFINITION. What a step does: the part that holds the issue slot runs its next instruction; else the next of the
inputs that have arrived is performed, after erased trits and what begins the local cycle; else the event that the device performs next, where the spec leaves the order
of independent agents open (log 8). -/

namespace Sys2Proof.Machine

/-! ### Events that may be performed -/

/-- Names of a band's parts. -/
def bandParts (b : Band) : List PartId :=
  b.gangs.zipIdx.flatMap fun g => g.1.parts.map fun p => { band := b.uid, gang := g.2, part := p.slices.headD 0 }

def allParts (s : State) : List PartId := s.bands.flatMap bandParts

/-- The event that ends a part's wait. -/
def waitEvents (s : State) (p : PartId) : List Instr :=
  match (s.run p).map fun (r : Run) => r.part.wait with
  | some (.drain _ _) => [.drainComplete p]
  | some (.batch _) => [.batchWaitComplete p]
  | some (.icinv _ _) => [.icinvComplete p]
  | some (.fence _) => [.fenceComplete p]
  | some .capCommit => [.capStepCommit p]
  | some .capApply => [.capStoreApply p]
  | some (.tether _ true) => [.capRetry p]
  | some (.map ..) => [.mapComplete p]
  | some (.pkset _ _) => [.pksetComplete p]
  | some (.faultSlot _ _ _) => [.faultSlotFreed p]
  | some (.parkPoll _ _ _ _) => [.parkPoll p, .parkTimeout p]
  | _ => []

/-- Speculative fences of a band complete when their gang's first part is named (R297). -/
def specEvents (b : Band) : List Instr :=
  b.specs.flatMap fun x => ((bandParts b).filter fun p => p.gang == x.gang).map Instr.fenceComplete

/-- Events with which a local cycle of an agent begins: whatever else happens in the cycle comes after them, and counts
in the new budget period (R328, R335). -/
def cycleStarts (s : State) : List Instr :=
  (s.cores.flatMap fun c => (if c.rebalance then [Instr.stageRebalance c.number] else [])
      ++ (if c.period then [Instr.budgetPeriodStart (.core c.number)] else []))
  ++ ((s.controllers.filter (·.period)).map fun c => Instr.budgetPeriodStart (.controller c.number))
  ++ (if s.mgmtPeriod then [Instr.budgetPeriodStart .management] else [])

/-- Events of a core's local cycle that come before anything issues. -/
def dueEvents (s : State) : List Instr :=
  (s.bands.flatMap fun b => (List.range b.gangs.length).map fun i => Instr.watchdogExpiry b.uid i)
  ++ ((allParts s).filter fun p => match s.run p with
      | some r => decide (27 ≤ r.part.waitCount) && r.part.starving.isNone
      | none => false).map Instr.partStarving

/-- The host command that is next. -/
def commandEvents (s : State) : List Instr :=
  match s.commands with
  | [] => []
  | c :: _ => match c.code with
    | 1 => [.negotiate c.port c.args]
    | 2 => [.resync c.port c.args]
    | 3 => [.install c.port c.args]
    | 4 => [.change c.port c.args]
    | 5 => [.remove c.port c.args]
    | 6 => [.release c.port c.args]
    | 7 => [.window c.port c.args]
    | 8 => [.queue c.port c.args]
    | 9 => [.resolve c.port c.args]
    | 10 => [.stop c.port c.args]
    | 11 => [.budget c.port c.args]
    | 12 => [.inject c.port c.args]
    | 13 => [.replace c.port c.args]
    | _ => [.token c.port c.args]

/-- Events of a paired band. -/
def pairEvents (b : Band) : List Instr :=
  if b.pair.isSome ∧ b.copy = .leading then [.signatureReceive b.uid, .pairedMismatch b.uid, .pairedCheckpoint b.uid] else []

/-- Events of a band's gangs, channels and nodes. -/
def bandEvents (s : State) (b : Band) : List Instr :=
  ((List.range b.gangs.length).map fun i => Instr.regangReform b.uid i)
  ++ pairEvents b ++ specEvents b ++ (bandParts b).flatMap (waitEvents s)
  ++ ((b.nodes.filter fun n => n.state == .running).map fun n => Instr.nodeFinish b.uid n.serial)
  ++ ((List.range b.channels.length).flatMap fun c => [Instr.sendComplete b.uid c, .recvComplete b.uid c])
  ++ [.bandEnd b.uid]

/-- Events of a core's engine and its register grants. -/
def coreEvents (s : State) : List Instr :=
  (toSet (s.bands.filterMap (·.core))).flatMap fun c => [.mmulStep c, .engineCommandReady c, .growGrant c, .growEviction c]

/-- Events of requests on their way. -/
def requestEvents (s : State) : List Instr :=
  (s.reqs.flatMap fun q => match q.kind, q.done with
    | .store, true => [Instr.storeAck q.part.band q.part.gang]
    | .store, false => [.homeAccess q.id, .clusterAccess q.id]
    | _, true => [.remoteLoadReturn q.id]
    | _, false => if q.cls = 2 then [.hostReadResponse q.id []] else [.homeAccess q.id, .clusterAccess q.id])
  ++ s.retained.map fun x => .responseConfirm x.home x.plane x.die

/-- The first core of a die that may take a candidate (log 81, DESIGN CHOICE). -/
def firstCore (s : State) (die : Nat) (c : Candidate) : Option Nat := (dieCores die).find? (fits s c)

/-- Events of a die's dispatcher. -/
def dieEvents (s : State) (die : Nat) : List Instr :=
  match (candidates s die).findSome? (firstCore s die) with
  | some core => [.bandDispatch die core, .placementEviction die]
  | none => [.placementEviction die]

/-- Every event that the device itself may perform now, but for what the partitions issue. -/
def deviceEvents (s : State) : List Instr :=
  dueEvents s ++ s.dying.map Instr.planeDeath ++ commandEvents s
  ++ s.bands.flatMap (bandEvents s)
  ++ coreEvents s ++ requestEvents s
  ++ (s.kernels.flatMap fun k => k.barriers.map fun b => Instr.barrierPhaseComplete k.uid b.key)
  ++ (s.bands.flatMap fun b => (List.range b.gangs.length).map fun i => Instr.gangResume b.uid i)
  ++ (match nextHead s with | some h => [Instr.packetTake h.number] | none => if s.queues.isEmpty then [] else [.packetTake 0])
  ++ (waitingDies s).flatMap (dieEvents s)
  ++ ((s.modules.filter fun m => decide (9 ≤ m.inPeriod)).map fun m => Instr.laneRotation m.number)
  ++ ((s.controllers.filter (·.scrub.isSome)).map fun c => Instr.scrubWriteback c.number 0)

/-- Partitions of the cores that hold a band and have a part that can issue, as 32 · core + partition, rising. -/
def readyPlaces (s : State) : List Nat :=
  toSet ((allParts s).filterMap fun p => (s.run p).bind fun r =>
    if readyPart s r then some (32 * r.core + r.gang.partition) else none)

/-- The first element after a number, in a circle. -/
def afterInCircle (n : Nat) (l : List Nat) : Option Nat :=
  match l.find? fun x => decide (n < x) with
  | some x => some x
  | none => l.head?

def issueEvent (n : Nat) : Instr := .partitionIssue (n / 32) (n % 32)

/-- The first partition of every die whose cycles something counts, whether or not a part there is ready: it has a
turn in each of the die's local cycles, so that each die's clock goes on (R13, R322, R335, R337, R338, R350). -/
def clockPlaces (s : State) : List Nat := (activeDies s).map (32 * Config.coresPerDie * ·)

/-- What happens when the device has nothing else to do: a partition with a ready part, or the first one of a die whose
clock runs, has its turn. -/
def idleEvents (s : State) : List Instr :=
  ((afterInCircle s.turn (toSet (readyPlaces s ++ clockPlaces s))).map issueEvent).toList

/-- An event changes the state. -/
def changes (s : State) (i : Instr) : Bool :=
  match exec i s with
  | .next t => decide (t ≠ s)
  | _ => false

/-- The event that the device performs next. -/
def nextEvent (s : State) : Instr :=
  match (deviceEvents s).find? (changes s) with
  | some i => i
  | none => match (idleEvents s).find? (changes s) with
    | some i => i
    | none => .partitionIssue 0 0

/-! ### A step -/

/-- The part that holds the issue slot: a debug step's trap is due (R387), or its next instruction is fetched, once the
fetch has had its effects on what it reads (R302, R407), and performed (log 17, DEDUCED). -/
def issueStep (s : State) (r : Run) : Host.Outcome State Fault Refusal :=
  if r.part.stepping = 1 then .next (finish s r 0 (instrWords s r) (.trap { code := 14, sub := 1 } s))
  else
    let s1 := fetchEffects s r
    let r1 := r.again s1
    match fetchFor s1 r1 with
    | .trap t ws => .next (fetchTrap s1 r1 t ws)
    | .instr i _ => exec i s1

/-- One step of the device: a part that holds the issue slot, then erased trits, then what begins the local cycle, then
the inputs, then what the device does of itself (log 8). -/
def runStep (s : State) : Host.Outcome State Fault Refusal :=
  match s.issue with
  | some i => match s.run i.part with
    | some r => issueStep s r
    | none => .next { s with issue := none }
  | none => match s.upsets with
    | u :: rest => .next (meetUpset { s with upsets := rest } u)
    | [] => match (cycleStarts s).find? (changes s) with
      | some i => exec i s
      | none => match s.agenda with
        | e :: rest => if (codedOf e).isSome then .next { s with agenda := rest } else exec e { s with agenda := rest }
        | [] => exec (nextEvent s) s

end Sys2Proof.Machine
end

