-- ==== Sys2Proof/Machine/Boot.lean ====
section
/-! DEFINITION. A context, a kernel and a resident band with one program page, as a loader and the front end leave
them: what it takes for a given instruction to be the next that runs (log 13). -/

namespace Sys2Proof.Machine

/-- Frames 797,162 to 1,328,602 are one huge page (R156); frame 1 holds its level-1 table, and the sector at
physical address 0 the top table. -/
def bootFrame : Int := 1062882

/-- The page's leaf: key 0, executable, accessed and written, in device memory (R374). -/
def bootLeaf : Word := bootFrame * 3 ^ 9 - 40 * 3 ^ 5 + 3 ^ 4 + 3 ^ 3 + 3 ^ 2 + 3

/-- Both tables: the top table's entry for region 0 names frame 1, whose entry for index 0 is the leaf (R373). -/
def bootTables (m : List Host.Cell) : List Host.Cell :=
  let put (m : List Host.Cell) (c : Nat × Int) : List Host.Cell := memPutNonet m c.1 c.2
  (wordCells 1080 (3 ^ 9) ++ wordCells 3279 bootLeaf).foldl put m

/-- The first nonet of the program's first instruction, which is centred on virtual address 0. -/
def bootNonet : Nat := 2187 * 1062882 + 1093 - 4

/-- A context with that page: handler at 9,000, nine fault slots from 8,100 on. -/
def bootContext (n : Nat) : Context :=
  { Context.fresh n with
    topTable := 0, pool := [(797162, 531441)], handler := 9000, faultArea := 8100, slots := 9, inject := 1 }

/-- One stage of one gang of nine slices with the largest grant, two tiles, a scratchpad and a channel. -/
def bootLaunch : Launch :=
  { levels := [], bandBase := 0, stages := [{ entry := 0, gangs := 1, width := 9, grant := 1530 }],
    channels := [{ producer := 0, consumer := 0, depth := 9 }], versioned := false, paired := false, scratch := 19683,
    paramAddr := 0, paramLen := 81, counters := 0, watchdog := 0, tiles := [27, 27] }

def bootKernel (uid ctx : Nat) : Kernel :=
  { uid := uid, context := ctx, number := 0, queue := none, priority := 0, seq := 0, launch := bootLaunch, codeBase := 0,
    codeLen := 729, pending := [], post := none, dies := [0], ended := [], clusters := [], barriers := [] }

/-- The band of that kernel, on core 0, its gang as R61 starts it. -/
def bootBand (s : State) (uid kernel ctx : Nat) : Band :=
  { newBand s (bootKernel kernel ctx)
      { kernel := kernel, index := 0, copy := .unpaired, again := none, priority := 0, order := (0, 0, 0) } 0 0 with uid := uid }

/-- A context number that is not installed. -/
def freeContext (s : State) : Nat := (s.contexts.map fun c => c.number + 1).foldl max 0

/-- Halfwords as they lie in device memory from a nonet on. -/
def putHalfwords (m : List Host.Cell) (j : Nat) (hs : List Nat) : List Host.Cell :=
  hs.zipIdx.foldl (fun m x => memPutHalf m (j + x.2) x.1) m

/-- The nine halfwords of an instruction's bits, the first word's least significant bit first (R30). -/
def halfwordsOf (nbits w : Nat) : List Nat := (List.range 9).map fun j => w % 2 ^ nbits / 2 ^ (16 * j) % 65536

/-- A state in which a fresh band of a fresh context holds the issue slot, and its first instruction is given by its
halfwords; a code that is no nonet poisons the sector (R33). -/
def placeInstr (s : State) (hs : List Nat) : State :=
  let ctx := freeContext s
  let k := s.nextUid
  let mem := putHalfwords (bootTables s.mem) bootNonet hs
  { s with
    mem := mem
    poison := if hs.all fun h => (nonetOfHalfword h).isSome then s.poison
      else toSet (s.poison ++ [sectorOf bootNonet])
    codeOld := s.codeOld.filter fun u => u.unit != .dev bootNonet
    contexts := s.contexts ++ [bootContext ctx]
    kernels := s.kernels ++ [bootKernel k ctx]
    bands := s.bands ++ [bootBand s (k + 1) k ctx]
    placed := s.placed + 1
    nextUid := k + 2
    issue := some { part := { band := k + 1, gang := 0, part := 0 } } }

end Sys2Proof.Machine
end

