-- ==== Sys2Proof/Machine/Step.lean ====
section
/-! DEFINITION. The step of the machine. -/

namespace Sys2Proof.Machine

/-- One step: an instruction of the part that holds the issue slot, or an event. -/
def step (s : State) : Host.Outcome State Fault Refusal := runStep s

/-- A state whose next step fetches and runs the instruction whose bits are w, as the table numbers them (log 13). -/
def State.withFetchWord (s : State) (nbits w : Nat) : State := placeInstr s (halfwordsOf nbits w)

end Sys2Proof.Machine
end

