-- ==== Sys2Proof/Safety.lean ====
section
/-! DEFINITION. The terms in which statements about runs are made: when an instruction performs its own effect, what
it leaves unchanged, and what memory a state may have. -/

namespace Sys2Proof.Machine

/-! ### The instruction that is next -/

/-- r holds the records of the part that holds the issue slot. -/
structure Holds (s : State) (r : Run) : Prop where
  slot : s.issue = some { part := r.id }
  run  : s.run r.id = some r

/-- Nothing comes before the effect of an instruction of the part: the part runs no capsule body and takes no forwarded
outcome, the instruction does not wait, and no speculative fence of its gang is incomplete. -/
structure Unhindered (s : State) (r : Run) (op : Op) : Prop extends Holds s r where
  outside : r.body = false
  noWait  : preWait r s op = none
  noFence : specOf r.band r.id.gang = none
  own     : r.part.forwarded = none ∧ r.part.granted = false

/-- Nothing comes before or instead of a capsule's body step: the limits of the body allow it, it does not wait, and it
reads no poisoned register (R357). -/
structure InBody (s : State) (r : Run) (op : Op) (f : Fields) : Prop extends Holds s r where
  body    : r.body = true
  allowed : capsuleTrap r op f = none
  noWait  : preWait r s op = none
  noFence : specOf r.band r.id.gang = none
  sound   : poisonedRead r s op f = false
  own     : r.part.forwarded = none ∧ r.part.granted = false

/-- Nothing comes before or instead of the effect of an instruction of the part: it is not hindered, and it reads no
poisoned register. -/
structure Clear (s : State) (r : Run) (op : Op) (f : Fields) : Prop extends Unhindered s r op where
  sound   : poisonedRead r s op f = false

/-! ### Frames -/

/-- A slice behind its instruction: at the next address, its operand-log entries free (R82). -/
def Slice.next (x : Slice) : Slice :=
  { x with pc := wrap 27 (x.pc + 9), log := x.log.filter fun l => !l.armed, issued := none }

/-- The part has committed an instruction that left the slot: it is ready, and no other band, gang or part of the gang
has changed. -/
structure Committed (s t : State) (r r' : Run) : Prop where
  slot  : t.issue = none
  run   : t.run r.id = some r'
  bands : ∀ u, u ≠ r.id.band → t.band u = s.band u
  gangs : ∀ g, g ≠ r.id.gang → r'.band.gangs[g]? = r.band.gangs[g]?
  parts : ∀ p, p ≠ r.id.part → partOf r'.gang p = partOf r.gang p
  part  : r'.part.slices = r.part.slices ∧ r'.part.wait = .ready

/-- Every slice of the part goes on at the next instruction; nothing else of any slice changes. -/
def SlicesStep (r r' : Run) : Prop :=
  ∀ j, r'.gang.slices[j]? = (r.gang.slices[j]?).map fun x => if j ∈ r.part.slices then x.next else x

/-- Outside the bands only the issue slot and the free counter differ: base memory, host and peer memory, poison,
contexts, kernels, queues, cores, ports and every other unit are the same. -/
def DeviceKept (s t : State) : Prop := { t with bands := s.bands, issue := s.issue, free := s.free } = s

/-- Every nonet that the part's band can read reads as before. -/
def ReadsKept (s t : State) (r r' : Run) : Prop := ∀ p, peek t r'.who p = peek s r.who p

/-- Of the band only its gangs differ. -/
def BandKept (r r' : Run) : Prop := { r'.band with gangs := r.band.gangs } = r.band

/-- Every register outside d, the last-result file included, reads as before. -/
def RegsKept (d : Opnd) (r r' : Run) : Prop := ∀ o, o ≠ d → regLanes r' .t27 o = regLanes r .t27 o

/-! ### Uniform arithmetic -/

/-- The value and the effects of a uniform instruction of R130 to R133, and of VEXT (R249), from its sources. -/
def uniformValue (i : Instr) (r : Run) (s : State) : Option (Int × Effects) :=
  let r87 (f : Fields) (x : Int) : Option (Int × Effects) := some (intDest 27 f.clamp f.scale x)
  let fits (x : Int) : Option (Int × Effects) := some (x, .none)
  match i with
  | .uadd f => r87 f (uniA r s f + uniB r s f)
  | .usub f => r87 f (uniA r s f - uniB r s f)
  | .umul f => r87 f (uniA r s f * uniB r s f)
  | .umulH f => fits (trunc 27 (uniA r s f * uniB r s f))
  | .udiv f => some (divDest 27 f.clamp f.scale (uniA r s f) (uniB r s f))
  | .udivR f => fits (remNear (uniA r s f) (uniB r s f))
  | .umin f => fits (min (uniA r s f) (uniB r s f))
  | .umax f => fits (max (uniA r s f) (uniB r s f))
  | .ucmp f => fits (sgn (uniA r s f - uniB r s f))
  | .usel f => fits (if 0 < uniC r s f then uniA r s f else if uniC r s f < 0 then uniB r s f else readWord r s 3 f.d)
  | .ushf f => some (shiftDest 27 f.clamp (uniA r s f) (uniB r s f))
  | .ushfRot f => fits (rotate 27 (uniA r s f) (uniB r s f))
  | .utmin f => fits (tritwise 27 min (uniA r s f) (uniB r s f))
  | .utmax f => fits (tritwise 27 max (uniA r s f) (uniB r s f))
  | .utcon f => fits (tritwise 27 consensus (uniA r s f) (uniB r s f))
  | .umov f => r87 f (if isImm f then uniB r s f else uniA r s f)
  | .ulea f => r87 f (uniA r s f + uniB r s f * uniC r s f)
  | .vext f => fits (elemOr0 f.ty (readLanes r s f.ty 0 f.a) (windowSize r f.ty) (indexB r s f))
  | _ => none

/-- The field names a uniform register. -/
def isUni : Opnd → Bool
  | .uni _ => true
  | _ => false

/-- The field names one of k0 to k8. -/
def isK : Opnd → Bool
  | .kreg _ => true
  | _ => false

/-- Exception counts of a band after an instruction (R216). -/
def countsAfter (b : Band) (tid : Nat) (e : Effects) : SMap Counts :=
  if e.sat = 0 ∧ e.flush = 0 ∧ e.nan = 0 then b.counts else countInto b.counts tid e

/-- A gang's sticky saturation trit, and whether it has been set in the local cycle (R77, R78). -/
def stickyOf (g : Gang) : Int × Bool := (g.sticky, g.stickyNow)

/-- The sticky saturation trit after an instruction (R77, R78, R198). -/
def stickyAfter (g : Gang) (e : Effects) : Int × Bool := if e.sticky then (1, true) else stickyOf g

/-- A context's invalid count after an instruction has met n signalling NaNs (R218). -/
def invalidAfter (c : Context) (n : Nat) : Context :=
  if n = 0 then c else { c with invalid := satCount (c.invalid + n) }

/-! ### Destinations -/

/-- Slices of the part go on, their k registers as kf gives them. -/
def SlicesWith (kf : Nat → Slice → List Int) (r r' : Run) : Prop :=
  ∀ j, r'.gang.slices[j]? = (r.gang.slices[j]?).map fun x =>
    if j ∈ r.part.slices then { x.next with k := kf j x } else x

/-- Of the gang only registers, their poison marks, sticky saturation, slices and parts may differ. -/
def GangKept (sticky : Int × Bool) (r r' : Run) : Prop :=
  r'.gang = { r.gang with
    vregs := r'.gang.vregs, oregs := r'.gang.oregs, uregs := r'.gang.uregs, masks := r'.gang.masks, bad := r'.gang.bad,
    sticky := sticky.1, stickyNow := sticky.2, dither := r'.gang.dither, slices := r'.gang.slices, parts := r'.gang.parts }

/-- Outside the bands and the invalid count of one context nothing but the issue slot and the free counter differs. -/
def DeviceCounted (s t : State) (r r' : Run) (invalid : Nat) : Prop :=
  { t with bands := s.bands, contexts := s.contexts, issue := s.issue, free := s.free } = s
    ∧ (∀ n, n ≠ r.ctx.number → t.context n = s.context n) ∧ r'.ctx = invalidAfter r.ctx invalid

/-- The lowest lane of slice j for which p holds. -/
def sliceLane (p : Nat → Bool) (j : Nat) : Option Nat := [3 * j, 3 * j + 1, 3 * j + 2].find? p

/-- A destination of vector class has been written: a vector or operand register takes v in the lanes p and keeps the
others (R73), and the last-result file shifts the register's new value in (R69); a k register of each issuing slice
takes v of the slice's lowest lane in p (R74). -/
def VectorWritten (d : Opnd) (p : Nat → Bool) (v : Nat → Int) (r r' : Run) : Prop :=
  (∀ o, o ≠ d → (∀ n, o ≠ .hist n) → regLanes r' .t27 o = regLanes r .t27 o)
    ∧ match d with
      | .kreg n => r'.part.hist = r.part.hist ∧ SlicesWith (fun j x => match sliceLane p j with
          | some l => x.k.set n (v l)
          | none => x.k) r r'
      | _ => regLanes r' .t27 d = updLanes (regLanes r .t27 d) p v
          ∧ r'.part.hist = regLanes r' .t27 d :: r.part.hist.take 8 ∧ SlicesStep r r'

/-- The field names a destination of vector class. -/
def isVectorDest : Opnd → Bool
  | .vec _ | .opr _ | .kreg _ => true
  | _ => false

/-- Effects of the lanes that execute. -/
def laneEffects (p : Nat → Bool) (v : Nat → Int × Effects) : Effects :=
  Effects.sum ((List.range 27).map fun l => if p l then (v l).2 else .none)

/-! ### Vector arithmetic, lane by lane -/

/-- The word and effects of a lane whose elements are g of the matching elements of A, B and C (R220, R222). -/
def eachElem (r : Run) (s : State) (f : Fields) (g : Int → Int → Int → Int × Effects) (l : Nat) : Int × Effects :=
  laneElems f.ty fun i => g (elem f.ty (lane (vecA r s f.ty f) l) i) (elem f.ty (lane (vecB r s f.ty f) l) i)
    (elem f.ty (lane (vecC r s f.ty f) l) i)

/-- Integer and raw vector instructions: what each executing lane of D receives (R144, R227 to R233, R241). -/
def vectorValue (i : Instr) (r : Run) (s : State) : Option (Nat → Int × Effects) :=
  let r87 (f : Fields) (g : Int → Int → Int → Int) : Option (Nat → Int × Effects) :=
    some (eachElem r s f fun a b c => intDest (etrits f.ty) f.clamp f.scale (g a b c))
  let fits (f : Fields) (g : Int → Int → Int) : Option (Nat → Int × Effects) :=
    some (eachElem r s f fun a b _ => (g a b, .none))
  match i with
  | .vadd f => r87 f fun a b _ => a + b
  | .vsub f => r87 f fun a b _ => a - b
  | .vmul f => r87 f fun a b _ => a * b
  | .vmac f => r87 f fun a b c => a * b + c
  | .vmulh f => fits f fun a b => trunc (etrits f.ty) (a * b)
  | .vdot3 f => some fun l =>
      let p (i : Nat) : Int := elem .t9 (lane (vecA r s .t9 f) l) i * elem .t9 (lane (vecB r s .t9 f) l) i
      intDest 27 f.clamp f.scale (lane (vecC r s .t27 f) l + p 0 + p 1 + p 2)
  | .vdiv f => some (eachElem r s f fun a b _ => divDest (etrits f.ty) f.clamp f.scale a b)
  | .vdivR f => fits f remNear
  | .vmin f => fits f min
  | .vmax f => fits f max
  | .vshf f => some (eachElem r s f fun a b _ => shiftDest (etrits f.ty) f.clamp a b)
  | .vshfRot f => fits f (rotate (etrits f.ty))
  | .vtmin f => fits f (tritwise (etrits f.ty) min)
  | .vtmax f => fits f (tritwise (etrits f.ty) max)
  | .vtcon f => fits f (tritwise (etrits f.ty) consensus)
  | .vsel f => some fun l => laneElems f.ty fun i =>
      let c := elemSign f.ty (elem f.ty (lane (vecC r s f.ty f) l) i)
      (elem f.ty (lane (if 0 < c then vecA r s f.ty f else if c < 0 then vecB r s f.ty f else regLanes r f.ty f.d) l) i, .none)
  | .vcnt f => fits f fun a _ => countTrits (etrits f.ty)
      (fun t => if field f.var 0 2 = 0 then t != 0 else t == field f.var 0 2) a
  | .vlead f => fits f fun a _ => leadPos (etrits f.ty) a
  | .laneid f =>
      let a := if isImm f then List.replicate 27 f.imm else readLanes r s f.ty 0 f.a
      some fun l => laneElems f.ty fun i => match f.ty with
        | .t9 => (wrap 9 (elem .t9 (lane a l) i + 3 * l + i), .none)
        | _ => (wrap 27 (lane a l + l), .none)
  | .pack f => some fun l => (wordOf (nonetOf (lane (vecA r s f.ty f) l) 0) (nonetOf (lane (vecB r s f.ty f) l) 0)
      (nonetOf (lane (vecC r s f.ty f) l) 0), .none)
  | .unpk f => some fun l =>
      (elem f.ty (lane (readLanes r s f.ty 0 f.a) l) (field f.var 2 2 + if f.ty = .l3 then 4 else 1).toNat, .none)
  | .lcmp f => fits f fun a b => sgn (a - b)
  | _ => none

/-- Instructions that move elements across lanes: what element x of the window receives (R246 to R251). -/
def movedElem (i : Instr) (r : Run) (s : State) : Option (Nat → Int) :=
  match i with
  | .slide f => some fun x =>
      let y := (x : Int) + indexB r s f
      let a := readLanes r s f.ty 0 f.a
      let c := readLanes r s f.ty 2 f.c
      let e := windowSize r f.ty
      if 0 ≤ y ∧ y < e then elemAt f.ty a y.toNat else elemOr0 f.ty c e (if (e : Int) ≤ y then y - e else y + e)
  | .slideEdge f => some fun x =>
      let y := (x : Int) + indexB r s f
      let a := readLanes r s f.ty 0 f.a
      let e := windowSize r f.ty
      if 0 ≤ y ∧ y < e then elemAt f.ty a y.toNat else if y < 0 then elemAt f.ty a 0 else elemAt f.ty a (e - 1)
  | .slideFill f => some fun x =>
      let y := (x : Int) + indexB r s f
      if 0 ≤ y ∧ y < windowSize r f.ty then elemAt f.ty (readLanes r s f.ty 0 f.a) y.toNat
      else elemAt f.ty (readLanes r s f.ty 2 f.c) x
  | .perm f => some fun x => elemOr0 f.ty (readLanes r s f.ty 0 f.a) (windowSize r f.ty)
      (elemAt (indexTy f.ty) (readLanes r s (indexTy f.ty) 1 f.b) x)
  | .bcast f => some fun _ => elemOr0 f.ty (readLanes r s f.ty 0 f.a) (windowSize r f.ty) (indexB r s f)
  | .shuf3 f => some fun x =>
      let b := if isImm f then List.replicate 27 f.imm else readLanes r s .t27 1 f.b
      elem f.ty (lane (readLanes r s f.ty 0 f.a) (x / elems f.ty))
        ((((x % elems f.ty : Nat) : Int) - lane b (x / elems f.ty)) % 3).toNat
  | _ => none

/-- Float, conversion and block instructions: what each executing lane of D receives (R227, R234 to R245). -/
def floatValue (i : Instr) (r : Run) (s : State) : Option (Nat → Int × Effects) :=
  let two (f : Fields) (g : FVal → FVal → FVal) : Option (Nat → Int × Effects) :=
    some (eachElem r s f fun a b _ =>
      let x := fval (fmtOf f.ty) a
      let y := fval (fmtOf f.ty) b
      floatDest (fmtOf f.ty) f.clamp f.scale (withNan [x, y] (g x y)) (signallers [x, y]))
  match i with
  | .fadd f => two f (addVal (fmtOf f.ty))
  | .fsub f => two f fun x y => addVal (fmtOf f.ty) x (negVal y)
  | .fmul f => two f (mulVal (fmtOf f.ty))
  | .fmin f => two f fun x y => if cmpVal x y ≤ 0 then x else y
  | .fmax f => two f fun x y => if 0 ≤ cmpVal x y then x else y
  | .fma f => some (eachElem r s f fun a b c =>
      let F := fmtOf f.ty
      let x := fval F a
      let y := fval F b
      let z := fval F c
      floatDest F f.clamp f.scale (withNan [x, y, z] (addVal F (mulVal F x y) z)) (signallers [x, y, z]))
  | .frcp f => some (eachElem r s f fun a _ _ => recipElem (fmtOf f.ty) f.clamp f.scale a)
  | .frsq f => some (eachElem r s f fun a _ _ => rootElem (fmtOf f.ty) f.clamp f.scale a)
  | .fscl f => some fun l => laneElems f.ty fun i =>
      let ti : Ty := if f.ty = .f9 then .t9 else .t27
      let x := fval (fmtOf f.ty) (elem f.ty (lane (vecA r s f.ty f) l) i)
      floatDest (fmtOf f.ty) f.clamp f.scale (scaleFloat (scaleLimit (elem ti (lane (vecB r s ti f) l) i)) x) (signallers [x])
  | .fcls f => some (eachElem r s f fun a _ _ => (fclass (fmtOf f.ty) a, .none))
  | .vmov f => some fun l => laneElems f.ty fun i =>
      moveElem f (elem f.ty (lane (if isImm f then vecB r s f.ty f else vecA r s f.ty f) l) i)
  | .lmul f => some (eachElem r s f fun a b _ => l3Mul f.clamp f.scale a b)
  | .lexp f =>
      let v := field f.var 0 4
      let first := if f.ty = .f9 then 3 * (v + 1).toNat else (v + 4).toNat
      some fun l => laneElems f.ty fun j => l3TimesFloat (fmtOf f.ty) f.clamp f.scale
        (elem .l3 (lane (vecA r s .l3 f) l) (first + j)) (fval (fmtOf f.ty) (elem f.ty (lane (vecB r s f.ty f) l) j))
  | .cvt f =>
      let src := cvtSrc f
      let sub := (trit f.var 2 + 1).toNat
      let a := vecA r s src f
      let conv (x : Int) (pos : Nat) : Int × Effects :=
        convertElem src f.ty f.clamp f.scale (ditherAt r (trit f.var 3 == 1) pos) x
      some fun l =>
        if elems src = elems f.ty then
          laneElems f.ty fun i => conv (elem src (lane a l) i) (if elems f.ty = 1 then l else 3 * l + i)
        else if elems f.ty = 1 then conv (elem src (lane a l) sub) (3 * l + sub)
        else
          let v := conv (lane a l) (3 * l + sub)
          (putElem f.ty (lane (regLanes r f.ty f.d) l) sub v.1, v.2)
  | .lqnt f =>
      let v := field f.var 0 3
      let n := elems f.ty
      let first := if f.ty = .f9 then 3 * (v + 1).toNat else (v + 4).toNat
      some fun l => (List.range n).foldl (fun (acc : Int × Effects) j =>
        let q := quantiseElem (fmtOf f.ty) (ditherAt r (trit f.var 3 == 1) (if n = 1 then l else 3 * l + j))
          (elem f.ty (lane (vecA r s f.ty f) l) j) (elem f.ty (lane (vecB r s f.ty f) l) j)
        (putElem .l3 acc.1 (first + j) q.1, acc.2.add q.2)) (lane (regLanes r .l3 f.d) l, .none)
  | _ => none

/-- The gang's dither phase after an instruction: CVT and LQNT advance it where they dither (R211). -/
def phaseAfter (i : Instr) (g : Gang) : Nat :=
  match i with
  | .cvt f | .lqnt f => if trit f.var 3 = 1 then (g.dither + 1) % 27 else g.dither
  | _ => g.dither

/-- RED and SCAN: the lanes that lane l's combination takes (R250). -/
def reduceLanes (i : Instr) (l j : Nat) : Bool :=
  match i with
  | .scan _ => decide (j ≤ l)
  | _ => true

/-- RED and SCAN: what each executing lane receives (R250). -/
def reduceValue (i : Instr) (f : Fields) (r : Run) (s : State) (l : Nat) : Int × Effects :=
  laneElems f.ty fun e => combine f.ty f.clamp f.scale (field f.var 0 2)
    ((((List.range 27).filter (activeLanes r s f)).filter (reduceLanes i l)).map fun j => elem f.ty (lane (vecA r s f.ty f) j) e)

/-- Signalling NaNs among the elements that RED and SCAN combine, each met once (R250). -/
def reduceInvalid (f : Fields) (r : Run) (s : State) : Nat :=
  if isFloat f.ty then
    signallers (((List.range 27).filter (activeLanes r s f)).flatMap fun l =>
      (List.range (elems f.ty)).map fun e => fval (fmtOf f.ty) (elem f.ty (lane (vecA r s f.ty f) l) e))
  else 0

/-! ### Masks and words of machine state -/

/-- Instructions that write a mask: the lanes they write, and each one's trit with its effects (R141, R142, R232,
R237). -/
def maskValue (i : Instr) (r : Run) (s : State) : Option ((Nat → Bool) × (Nat → Int × Effects)) :=
  let logic (f : Fields) (g : Int → Int → Int) : Option ((Nat → Bool) × (Nat → Int × Effects)) :=
    some (lanesOf r.part.slices, fun l => (g (lane (maskSrc r s 0 f.a f.modA) l) (lane (maskB r s f) l), .none))
  match i with
  | .mlogMin f => logic f min
  | .mlogMax f => logic f max
  | .mlogCon f => logic f consensus
  | .mmov f => logic f fun a _ => a
  | .mmovIn f =>
      let w := if isImm f then modMask f.modB (mkLanes fun l => trit f.imm l)
        else modMask f.modA (mkLanes fun l => trit (readWord r s 0 f.a) l)
      some (lanesOf r.part.slices, fun l => (lane w l, .none))
  | .vcmp f => some (activeLanes r s f, fun l =>
      let a := lane (vecA r s f.ty f) l
      let b := lane (vecB r s f.ty f) l
      let v := field f.var 0 3
      (if v = 0 then sgn (a - b) else sgn (elem f.ty a (v - 1).toNat - elem f.ty b (v - 1).toNat), .none))
  | .fcmp f => some (activeLanes r s f, fun l =>
      fcmpLane f.ty (field f.var 0 3) (lane (vecA r s f.ty f) l) (lane (vecB r s f.ty f) l))
  | _ => none

/-- Instructions that give one word to a uniform register, or a word of each lane to a register of vector class (R142,
R143, R146, R147, R149, R397, R401). -/
def stateWord (i : Instr) (r : Run) (s : State) : Option (Word × (Nat → Word)) :=
  match i with
  | .mmovOut f =>
      let w := ofTrits ((List.range 27).map fun l =>
        if lanesOf r.part.slices l then lane (maskSrc r s 0 f.a f.modA) l else 0)
      some (w, fun _ => w)
  | .mcnt f =>
      let n : Int := ((List.range 27).filter fun l =>
        lanesOf r.part.slices l && condHolds (mcntCond f) (lane (maskSrc r s 0 f.a f.modA) l)).length
      some (n, fun _ => n)
  | .cycle _ => some (s.cycle r.core, fun _ => s.cycle r.core)
  | .statr _ => some (statusWord r, fun _ => statusWord r)
  | .treg f =>
      let n := (field f.var 0 2 + 4).toNat
      some (r.slice.e.getD n 0, sliceWord r fun x => x.e.getD n 0)
  | .frec f =>
      let i := readWord r s 0 f.a + f.imm
      let word (x : Slice) : Word := if 0 ≤ i ∧ i ≤ 26 then x.frec.getD i.toNat 0 else 0
      some (word r.slice, sliceWord r word)
  | .pkrd f =>
      let w := readWord r s 0 f.a + f.imm
      let v : Word := ofTrits ((List.range 27).map fun i => permOf r.ctx (27 * w.toNat + i))
      if 0 ≤ w ∧ w ≤ 2 then some (v, fun _ => v) else none
  | _ => none

/-! ### Branches -/

/-- Branches: the target, and the slices that take it (R134 to R137). -/
def branchOf (i : Instr) (r : Run) (s : State) : Option (Word × (Nat → Bool)) :=
  match i with
  | .brAny f => some (wrap 27 (branchBase r s f + 9 * f.imm), fun j => (sliceLanes r s f j).any id)
  | .brAll f => some (wrap 27 (branchBase r s f + 9 * f.imm), fun j => (sliceLanes r s f j).all id)
  | .brU f => some (wrap 27 (r.pc + 9 * f.imm), fun _ => condHolds f.cond (sgn (uniA r s f)))
  | .call f => some (wrap 27 (branchBase r s f + 9 * f.imm), fun _ => true)
  | .ret f => some (wrap 27 (readWord r s 0 f.a + 9 * f.imm), fun _ => true)
  | _ => none

/-- Where slice j goes on after a branch. -/
def continuesAt (r : Run) (target : Word) (taken : Nat → Bool) (j : Nat) : Word :=
  if taken j then target else wrap 27 (r.pc + 9)

/-- The gang of the part in another state. -/
def gangIn (t : State) (r : Run) : Option Gang := (t.band r.id.band).bind fun b => b.gangs[r.id.gang]?

/-! ### Accesses to memory -/

/-- Two places name one nonet: the way to a scratchpad does not matter. -/
def sameNonet : Place → Place → Bool
  | .scr u n _, .scr v m _ => u == v && n == m
  | .peer a n _, .peer b m _ => a == b && n == m
  | p, q => decide (p = q)

/-- Operands of a load or a store, from the operand log after a replay, else from the registers (R82, R166). -/
def accessLog (i : Instr) (r : Run) (s : State) : Option (OpLog × Fields × MemForm × Bool) :=
  let uni (f : Fields) (word : Bool) (data : Unit → Lanes) : Option (OpLog × Fields × MemForm × Bool) :=
    some (memOperands r s f (fun _ => List.replicate 27 (readWord r s 1 f.b)) data, f, .uniform, word)
  let vec (f : Fields) (form : MemForm) (data : Unit → Lanes) : Option (OpLog × Fields × MemForm × Bool) :=
    some (memOperands r s f (fun _ => offsetLanes r s f form) data, f, form, wordType f.ty)
  match i with
  | .ldn f => uni f false fun _ => []
  | .ldw f => uni f true fun _ => []
  | .stn f => uni f false fun _ => List.replicate 27 (readWord r s 2 f.c)
  | .stw f => uni f true fun _ => List.replicate 27 (readWord r s 2 f.c)
  | .vld f => vec f .contiguous fun _ => []
  | .vlds f => vec f .strided fun _ => []
  | .gath f => vec f .gathered fun _ => []
  | .vst f => vec f .contiguous fun _ => readLanes r s f.ty 2 f.c
  | .vsts f => vec f .strided fun _ => readLanes r s f.ty 2 f.c
  | .scat f => vec f .gathered fun _ => readLanes r s f.ty 2 f.c
  | _ => none

/-- The elements that a load or a store accesses, in order (R171 to R175). -/
def accessElems (r : Run) (f : Fields) (form : MemForm) (word : Bool) (log : OpLog) : List Elem :=
  match form with
  | .uniform => laneElements .uniform word log.base (lane log.offset 0) f.imm (3 * r.id.part)
  | _ => vectorElems f form log log.active

/-- The walks of some elements have corrected the table entries that they read (R407). -/
def walkedState (s : State) (r : Run) (es : List Elem) : State := correctWalks s r.ctx (es.flatMap fun e => e.nonets.map (·.1))

/-- The access is aligned, mapped, permitted and present: each element's places, and the leaves that walks found. No
operand of it is poisoned, and no stride is crooked (R168, R174). -/
def accessOk (s : State) (r : Run) (f : Fields) (form : MemForm) (word : Bool) (log : OpLog) (kind : AccKind)
    (ps : List (List Place)) (ls : List Leaf) : Prop :=
  badLog form log = false ∧ (form ≠ .uniform → strideTrap f form log log.active = none)
    ∧ checkElems (walkedState s r (accessElems r f form word log)) r.who (memXreg r f) kind word (accessElems r f form word log)
      = .ok ps ls

/-- What an access does beside moving its data: it marks its pages accessed (R376), resets its gang's watchdog where
its data is remote (R338), commits the versions of other bands that hold its lines (R302), corrects single wrong trits
(R407), and counts codes that are no trits (R33). -/
def afterReads (s : State) (r : Run) (ps : List Place) (ls : List Leaf) : State :=
  prepareRead (touchRemote r (markLeaves s ls 2) ps) r.who ps

/-- A gang after a load of some places (R338). -/
def gangTouched (g : Gang) (ps : List Place) : Gang := if ps.any isRemote then { g with watchdog := 0 } else g

/-- Nonets of the page-table entries that an access marks. -/
def pteNonet (ls : List Leaf) (p : Place) : Bool :=
  ls.any fun l => [l.slot, l.slot + 1, l.slot + 2].any fun j => p == .dev j

/-- The state in which n lines from an address on have been fetched as code (R317). -/
def linesOpened (s : State) (w : Who) (a : Word) : Nat → State
  | 0 => s
  | n + 1 => openLine (linesOpened s w a n) w (wrap 27 (a + 243 * n))

/-- Another band's uncommitted version holds the nonet (R301). -/
def foreignNonet (s : State) (u : Nat) (p : Place) : Bool :=
  match p with
  | .dev j => s.bands.any fun b => b.uid != u && (smapFind b.version j).isSome
  | _ => false

/-- Host and peer ports through which an access goes are up. -/
def portsUp (s : State) (ps : List Place) : Prop :=
  ∀ p ∈ ps, (∀ n, p = .host n → (s.port (hostPort s)).up = true) ∧ ∀ q n b, p = .peer q n b → (s.port q).up = true

/-- The value and the effects by which an atomic replaces an element, from C, the element expected and the old one (R307
to R309). -/
def atomicValue : Instr → Option (Fields × (Int → Int → Int → Int × Effects))
  | .aadd f => some (f, fun c _ old => clampInt (etrits f.ty) f.clamp (old + c))
  | .amin f => some (f, fun c _ old => (min old c, .none))
  | .amax f => some (f, fun c _ old => (max old c, .none))
  | .axch f => some (f, fun c _ _ => (c, .none))
  | .acas f => some (f, fun c e old => (if old = e then c else old, .none))
  | .afadd f => some (f, fun c _ old =>
      let F := fmtOf f.ty
      let x := fval F old
      let y := fval F c
      floatDest F .off 0 (withNan [x, y] (addVal F x y)) (signallers [x, y]))
  | .afmin f => some (f, fun c _ old => floatExtreme (fmtOf f.ty) (fun x y => if cmpVal x y ≤ 0 then x else y) old c)
  | .afmax f => some (f, fun c _ old => floatExtreme (fmtOf f.ty) (fun x y => if 0 ≤ cmpVal x y then x else y) old c)
  | _ => none

/-! ### Waiting and going on -/

/-- Outside bands, slot and free counter all is kept; what the band reads, its other records, its gang beside slices and
parts, and every register are kept; the slices go on: the instruction's only effect is to have been performed. -/
structure OnlyAdvances (s t : State) (r r' : Run) : Prop where
  committed : Committed s t r r'
  device    : DeviceKept s t
  reads     : ReadsKept s t r r'
  band      : BandKept r r'
  gang      : r'.gang = { r.gang with slices := r'.gang.slices, parts := r'.gang.parts }
  hist      : r'.part.hist = r.part.hist
  slices    : SlicesStep r r'

/-- The state in which an instruction or a completion only goes on: ICINV has walked its address and let go of its lines
(R315, R376), and every other leaves the state as it is. -/
def goingOn (i : Instr) (r : Run) (s : State) : State :=
  match i with
  | .icinv f => forgetCode (icinvWalk s r .icinv f) r.ctx (icinvName (icinvWalk s r .icinv f) r .icinv f)
  | .icinvAll _ => forgetCode s r.ctx .all
  | .icinvComplete _ => match r.part.wait with
    | .icinv _ name => forgetCode s r.ctx name
    | _ => s
  | _ => s

/-- Instructions that wait for something of their gang or part, and have nothing to wait for (R55, R297, R312 to R315,
R299), PAIR.CK, and COMMIT of an unversioned launch (R429, R430). -/
def nothingToAwait (i : Instr) (r : Run) (s : State) : Prop :=
  match i with
  | .regang _ => r.gang.parted = false
  | .fence f | .fenceNs f => fenceScope f = -3 ∨ owes s r = false
  | .drain _ => r.gang.acks = 0
  | .icinv _ | .icinvAll _ => s.slow = false ∧ r.gang.acks = 0
  | .pairCk _ => True
  | .commit _ => r.kern.launch.versioned = false
  | .batchWait f => 0 ≤ readWord r s 0 f.a ∧ readWord r s 0 f.a ≤ 80 ∧
      ∀ q, sealedBatch r.gang (readWord r s 0 f.a).toNat = some q →
        ∀ n ∈ r.band.nodes, n.gang = r.id.gang → n.batch = some q → n.state = .finished
  | _ => False

/-- A part waits at an instruction of its own, nobody holds the slot, and nothing has been forwarded to it. -/
structure Waits (s : State) (r : Run) (w : Wait) : Prop where
  run  : s.run r.id = some r
  slot : s.issue = none
  wait : r.part.wait = w
  own  : r.part.forwarded = none ∧ r.part.granted = false

/-- The event ends a wait that has no further effect: the awaited acknowledgements, batch, confirmations or cycles have
come (R299, R313, R315, R297, R350). -/
def endsWait (e : Instr) (s : State) (r : Run) : Prop :=
  match e with
  | .drainComplete p => p = r.id ∧ (∃ since, Waits s r (.drain since none) ∧ drains s r since = false)
  | .icinvComplete p => p = r.id ∧ ∃ since name, Waits s r (.icinv since name) ∧ drains s r since = false
  | .fenceComplete p => p = r.id ∧ (∃ c, Waits s r (.fence c)) ∧ owes s r = false ∧ specOf r.band r.id.gang = none
  | .batchWaitComplete p => p = r.id ∧ ∃ q, Waits s r (.batch q)
      ∧ ∀ n ∈ r.band.nodes, n.gang = r.id.gang → n.batch = some q → n.state = .finished
  | .parkTimeout p => p = r.id ∧ ∃ j b c n, Waits s r (.parkPoll j b c n) ∧ 59049 ≤ c
  | _ => False

/-- A uniform register has been written and no other register. -/
def UniWritten (d : Opnd) (v : Word) (r r' : Run) : Prop :=
  RegsKept d r r' ∧ SlicesStep r r' ∧ ∀ n, d = .uni n → uget r'.gang n = if n = 0 then 0 else v

/-- The words of every channel but one are the same. -/
def OtherChannels (n : Nat) (b b' : Band) : Prop := ∀ m, m ≠ n → channelWords b' m = channelWords b m

/-- The allowance of a gang of a band on a channel (R345). -/
def allowanceOf (b : Band) (g n : Nat) : Nat := ((b.gangs[g]?).map fun x => smapGet 0 x.allowance n).getD 0

/-- No part holds an outcome that a leading copy forwarded. -/
def NoForward (s : State) : Prop := ∀ b ∈ s.bands, ∀ g ∈ b.gangs, ∀ p ∈ g.parts, p.forwarded = none

/-- Operands and element of PARK and WAKE (R348, R349). -/
def parkElems (f : Fields) (r : Run) (s : State) : List Elem :=
  laneElements .uniform true (parkLog r s f).base (lane (parkLog r s f).offset 0) 0 (3 * r.id.part)

/-- The value or the number that PARK and WAKE take from B (R348, R349, R386). -/
def parkB (f : Fields) (r : Run) (s : State) : Word := lane (parkLog r s f).data 0

/-! ### Capsules -/

/-- A body step has gone to its record: the part waits for its commit, which is one more outstanding access of the gang,
and no register has changed (R298, R358). `s` is the state that the step's own access leaves. -/
structure StepSent (s t : State) (r r' : Run) (e : CapEffect) : Prop where
  slot   : t.issue = none
  run    : t.run r.id = some r'
  wait   : r'.part.wait = .capCommit
  slices : ∀ j, r'.gang.slices[j]? = (r.gang.slices[j]?).map fun x => if j ∈ r.part.slices then
             { x with cap := x.cap.map fun c => { c with pending := some e, sent := s.free } } else x
  acks   : r'.gang.acks = r.gang.acks + 1
  regs   : ∀ o, regLanes r' .t27 o = regLanes r .t27 o
  memory : t.mem = s.mem

/-- The slices of the part run a body with these k registers, and know this of its record; nothing else of the gang but
poison marks and parts has changed (R356, R361). -/
structure BodyEntered (t : State) (r r' : Run) (k : List Int) (c : Capsule) : Prop where
  run    : t.run r.id = some r'
  slices : ∀ j, r'.gang.slices[j]? = (r.gang.slices[j]?).map fun x =>
             if j ∈ r.part.slices then { x with k := k, cap := some c } else x
  gang   : r'.gang = { r.gang with bad := r'.gang.bad, slices := r'.gang.slices, parts := r'.gang.parts }

/-- A slice in capsule mode has come back to its CAP.ENTER, and its rejoin has read its record, with `s1` the state
after that read (R361). -/
structure AtRejoin (s : State) (r : Run) (own : Capsule) (f : Fields) (s1 : State) (c : CapRecord) : Prop where
  run    : s.run r.id = some r
  slot   : s.issue = none
  wait   : r.part.wait = .ready
  free   : r.part.forwarded = none ∧ r.part.granted = false
  cap    : r.slice.cap = some own
  out    : own.running = false
  pc     : r.slice.pc = own.enter
  instr  : decode { capsule := true, grant := r.gang.grant } (instrWords s r).1 (instrWords s r).2.1 (instrWords s r).2.2
             = .ok (.capEnter f)
  record : recordVia [.read] (correctCapsule { s with issue := none } r.who (recordAddr own.record 0 :: slotAddrs own.slot))
             r.who own.record = .ok (s1, c)
  sound  : recordPoison s1 own.record c = none

/-- The rejoin of a part ends as a result says. -/
def rejoined (s : State) (r : Run) (f : Fields) (x : Result) : Host.Outcome State Fault Refusal :=
  .next (keepIssue s (finish { s with issue := none } r f.la (instrWords s r) x))

/-! ### Machine state of a gang, and hints -/

/-- STATC, DSTEP.ON and DSTEP.OFF: what they do to the gang status word (R148, R402). What hardware has set in the local
cycle is not cleared in it (R78). -/
def gangChange : Instr → Option (Gang → Gang)
  | .statc f => some fun g => { g with
      sticky := if trit f.imm 1 = 1 ∧ ¬ g.stickyNow then 0 else g.sticky
      locksLost := if trit f.imm 4 = 1 ∧ ¬ g.locksNow then 0 else g.locksLost }
  | .dstepOn _ => some fun g => { g with step := 1 }
  | .dstepOff _ => some fun g => { g with step := 0 }
  | _ => none

/-- What XLD of an address leaves in its translation register (R176): the page, where the walk finds a leaf whose key
the context may read, else an empty register. -/
def xldValue (s : State) (r : Run) (t : Word) : XReg :=
  match if field t 25 2 < 0 then none else some (walk s r.ctx t) with
  | some (.leaf l) => if permOf r.ctx l.key = -1 then { XReg.zero with base := t } else fillXreg t l
  | _ => { XReg.zero with base := t }

/-- The leaf that XLD marks accessed (R176, R376). -/
def xldLeaf (s : State) (r : Run) (t : Word) : List Leaf :=
  match if field t 25 2 < 0 then none else some (walk s r.ctx t) with
  | some (.leaf l) => [l]
  | _ => []

/-! ### Traps -/

/-- No version of any band holds the device nonet. -/
def unversioned (s : State) (n : Nat) : Prop := ∀ b ∈ s.bands, smapFind b.version n = none

/-- A kernel has stopped (R388): neither it nor a band of it is left, other kernels are, and its queue's status word is
+3. -/
structure Stopped (s t : State) (k : Kernel) : Prop where
  kernel : t.kernel k.uid = none
  bands  : ∀ b ∈ t.bands, b.kernel ≠ k.uid
  others : ∀ u, u ≠ k.uid → t.kernel u = s.kernel u
  status : ∀ q j, k.queue = some (q, j) → devWord t j = 3

/-! ### Mapping, keys, recovery -/

/-- The entry that MAP and UNMAP write, where its checks pass (R394, R395). -/
def mapEntry (i : Instr) (r : Run) (s : State) : Option Word :=
  match i with
  | .map f => if newEntryFault r.ctx (mapLevel f) (readWord r s 1 f.b) = none then some (readWord r s 1 f.b) else none
  | .unmap _ => some (-81)
  | _ => none

/-- A page-table entry has been replaced: `s0` is the state in which it was read, `s` the one before the instruction
(R395). -/
structure Mapped (s0 s t : State) (r r' : Run) (slot : Nat) (v : Word) (d : Opnd) : Prop where
  old    : UniWritten d (devWord s0 slot) r r'
  entry  : ∀ m, m < 3 → memNonet t.mem (slot + m) = nonetOf v m
  memory : ∀ n, n < slot ∨ slot + 3 ≤ n → memNonet t.mem n = memNonet s0.mem n
  empty  : ∀ b ∈ t.bands, (t.kernel b.kernel).any (·.context == r.ctx.number) = true →
             ∀ g ∈ b.gangs, ∀ x ∈ g.xregs, x.2.valid = false
  others : ∀ p q, p.band ≠ r.id.band ∨ p.gang ≠ r.id.gang → s.run p = some q →
             ∃ q', t.run p = some q' ∧ q'.part = q.part ∧ ∀ o, regLanes q' .t27 o = regLanes q .t27 o
  device : { t with mem := s.mem, gens := s.gens, poison := s.poison, verTags := s.verTags, bands := s.bands,
                    cores := s.cores, contexts := s.contexts, codeOld := s.codeOld, retained := s.retained,
                    homes := s.homes, flips := s.flips, verFlips := s.verFlips, issue := s.issue, free := s.free } = s

/-- A key of the context has its permission (R378, R396); the band has settled (R414). -/
structure KeySet (s t : State) (r r' : Run) (k : Nat) (v : Int) : Prop where
  keys   : ∀ n, permOf r'.ctx n = if n = k then v else permOf r.ctx n
  others : ∀ c, c ≠ r.ctx.number → t.context c = s.context c
  gang   : r'.gang = { r.gang with slices := r'.gang.slices, parts := r'.gang.parts }
  hist   : r'.part.hist = r.part.hist
  band   : r'.band = { r.band with gangs := r'.band.gangs, settled := true }
  device : { t with bands := s.bands, contexts := s.contexts, issue := s.issue, free := s.free } = s

/-- The word that EINJ names. -/
def einjElems (f : Fields) (r : Run) (s : State) : List Elem := [wordElem 0 (wrap 27 (readWord r s 0 f.a + f.imm)) 0]

/-- What an injection leaves alone: registers, and every nonet but the page-table entries that it marks and those of
which another band's version held a newer value. -/
structure Injected (s t : State) (r r' : Run) (ls : List Leaf) : Prop where
  slices : SlicesStep r r'
  gang   : r'.gang = { r.gang with slices := r'.gang.slices, parts := r'.gang.parts }
  hist   : r'.part.hist = r.part.hist
  reads  : ∀ p, pteNonet ls p = false → foreignNonet s r.id.band p = false → peek t r'.who p = peek s r.who p

/-! ### Nodes -/

/-- The records that COPY, CMPB and BIN name, and whether another address of theirs is misaligned (R185). -/
def namedRecords (i : Instr) (r : Run) (s : State) : Option (List Named × Bool) :=
  let a (f : Fields) : Named := { addr := readWord r s 0 f.a, dest := false }
  let b (f : Fields) (dest : Bool) : Named := { addr := readWord r s 1 f.b, dest := dest }
  let mis (f : Fields) : Bool := decide (readWord r s 2 f.c % 3 ≠ 0)
  match i with
  | .copy f => some (a f :: (if f.b = .uni 0 then [] else [b f true]), (nodeOpts f.imm).fp == 1 && mis f)
  | .cmpb f => some ([a f, b f false], mis f)
  | .bin f => some ([a f], f.c != .uni 0 && mis f)
  | _ => none

/-- A follow-on target: a multiply that has not started, with a p slot that is free (R190). -/
def followable (r : Run) (v : Word) : Bool :=
  match serialNode r.band v with
  | some (some n) => (successorFault r.band v.toNat (some n)).isNone && (match n.kind with | .matrix _ _ _ _ => true | _ => false)
  | _ => false

/-- The options and the kind of the node that COPY, CMPB and BIN create from their records, where the checks of R186
from sub-code 10 on pass. -/
def nodeRequest (i : Instr) (r : Run) (s : State) (shapes : List Shape) : Option (NodeOpts × NodeKind) :=
  match i, shapes with
  | .copy f, src :: rest =>
    let o := nodeOpts f.imm
    let c := readWord r s 2 f.c
    let none' := f.b = .uni 0
    let pairOk := ∀ d, rest.head? = some d → sameExtent src d = true ∧ copyPair src.format d.format = true
    let dithers := ∃ d, rest.head? = some d ∧ copyNarrows src.format d.format = true
    if pairOk ∧ badOpts o = false ∧ o.bins = 0 ∧ (none' → o.fp = 1) ∧ (o.follow = 1 → o.fp ≠ 1 ∧ ¬ none')
        ∧ (o.fp = 1 → isHostFmt src.format = false) ∧ (o.dither = 1 → dithers) ∧ (o.follow = 1 → followable r c = true) then
      some (o, .copy src rest.head? (if o.fp = 1 then some c else none) (if o.follow = 1 then some c.toNat else none)
        (if o.dither = 1 then some r.gang.dither else none))
    else none
  | .cmpb f, [a, b] =>
    let o := nodeOpts f.imm
    if sameExtent a b = true ∧ isHostFmt a.format = false ∧ a.format = b.format ∧ badOpts o = false ∧ o.bins = 0 ∧ o.fp = 0
        ∧ o.follow = 0 ∧ o.dither = 0 then
      some (o, .cmpb a b (readWord r s 2 f.c))
    else none
  | .bin f, [x] =>
    let o := nodeOpts f.imm
    if (x.format = 0 ∨ x.format = 1) ∧ badOpts o = false ∧ o.fp = 0 ∧ o.follow = 0 ∧ o.dither = 0 then
      some (o, .bin x (readWord r s 1 f.b) (if f.c = .uni 0 then none else some (readWord r s 2 f.c)) (o.bins + 365).toNat)
    else none
  | _, _ => none

/-- A node as its instruction creates it (R180, R181). -/
def freshNode (r : Run) (f : Fields) (o : NodeOpts) (kind : NodeKind) (batch : Option Nat) : Node :=
  { serial := r.band.nextSerial, gang := r.id.gang, batch := batch, kind := kind,
    state := if o.hold = 1 then .held else if o.pred = 0 then .running else .queued,
    need := o.pred.toNat, got := 0, linked := 0, succs := [], progress := 0, acc := [], moved := false,
    followed := false, fault := none, tid := tidOf f, stub := false }

/-- A node after d decrements (R181): a queued one that has all of them starts. -/
def decremented (d : Nat) (x : Node) : Node :=
  { x with got := x.got + d, state := if 0 < d ∧ x.state = .queued ∧ x.need ≤ x.got + d then .running else x.state }

/-! ### The matrix engine -/

/-- The engine takes the part's command now (R261): it has none, and latencies are not shown, or the part's is first. -/
def EngineReady (s : State) (r : Run) : Prop :=
  s.slow = false ∧ (s.core r.core).engine = [] ∨ ∃ f n a rest, (s.core r.core).engine = .part r.id f n a :: rest

/-- The steps that the part's multiply has completed, and operand A's nonets once read. -/
def engineAt (s : State) (r : Run) (start : Nat) : Nat × List Int :=
  match (s.core r.core).engine with
  | .part _ _ n a :: _ => (n, a)
  | _ => (start, [])

/-- An instruction of the engine has committed: its command has left the core's engine; outside the bands and one
context's invalid count nothing else differs. -/
structure EngineDone (s t : State) (r r' : Run) (invalid : Nat) : Prop where
  committed : Committed s t r r'
  core      : t.core r.core = { s.core r.core with engine := (s.core r.core).engine.filter fun e => !e.isPart r.id }
  cores     : ∀ k, k ≠ r.core → t.core k = s.core k
  ctx       : r'.ctx = invalidAfter r.ctx invalid ∧ ∀ n, n ≠ r.ctx.number → t.context n = s.context n
  device    : { t with bands := s.bands, cores := s.cores, contexts := s.contexts, issue := s.issue, free := s.free } = s

/-- As `EngineDone`, where a write of the engine's may have covered words whose wrong trits are forgotten (R407). -/
def EngineWrote (s t : State) (r r' : Run) (invalid : Nat) : Prop :=
  EngineDone { s with flips := t.flips } t r r' invalid ∧ ∀ x ∈ t.flips, x ∈ s.flips

/-- The word of an accumulator tile. -/
def tileWord (b : Band) (t k : Nat) : Word := smapGet 0 (tileOf b t).words k

/-- No register has changed. -/
def AllRegsKept (r r' : Run) : Prop :=
  r'.part.hist = r.part.hist ∧ r'.gang.vregs = r.gang.vregs ∧ r'.gang.oregs = r.gang.oregs ∧ r'.gang.uregs = r.gang.uregs
    ∧ r'.gang.masks = r.gang.masks ∧ r'.gang.xregs = r.gang.xregs ∧ SlicesStep r r'

/-- ARD's value of a lane (R266). -/
def ardValue (f : Fields) (b : Band) (t n : Nat) (t0 : Int) (l : Nat) : Int × Effects :=
  let x := if 0 ≤ t0 + l ∧ t0 + l < 27 * n then tileWord b t (t0 + l).toNat else 0
  if f.ty = .f27 then floatDest fmt27 f.clamp f.scale (fval fmt27 x) (signallers [fval fmt27 x])
  else intDest 27 f.clamp f.scale x

/-! ### Host commands -/

/-- The command is next, the management controller may perform it, and nothing refuses it before its own rule is looked
at; the commands behind it are known ones (R444, R446). -/
structure Commanded (s : State) (port : Nat) (code : Int) (args : List Int) : Prop where
  first : ∃ cs, s.commands = { port := port, code := code, args := args } :: cs ∧ ∀ c ∈ cs, 1 ≤ c.code ∧ c.code ≤ 14
  ready : mgmtReady s code = true
  early : earlyRefusal s code = none
  port  : port < s.ports.length

/-- The command has been answered: its response words, the idle doorbell and the vector (R446). `s1` is the state that
its own effect leaves. -/
structure Answered (s1 t : State) (port : Nat) (r0 r1 : Int) : Prop where
  response : (t.port port).response = [r0, r1, 0, 0, 0, 0, 0, 0, 0] ∧ (t.port port).doorbell = 0
  outbox   : t.outbox = s1.outbox ++ [(port, 0)]
  commands : t.commands = s1.commands.drop 1
  ports    : ∀ p, p ≠ port → t.port p = s1.port p
  rest     : { t with ports := s1.ports, outbox := s1.outbox, commands := s1.commands, mgmtUsed := s1.mgmtUsed,
                      issue := s1.issue } = s1

/-- Every memory's list of cells is in its canonical form: rising addresses, no zero byte (log 3). -/
def MemoryForm (s : State) : Prop :=
  Memory.wf s.mem = true ∧ Memory.wf s.hostMem = true ∧ ∀ x ∈ s.peerMem, Memory.wf x.2 = true

end Sys2Proof.Machine
end

