-- ==== Sys2Proof/Certificates/Slice0/Obligations.lean ====
section
/-! DEFINITION. The statements for the provers. -/

open Sys2Proof Sys2Proof.Machine

/-! ### Uniform arithmetic -/

/-- R129, R130 to R133: a uniform instruction writes the value its entry computes into D, sets sticky saturation and
counts where the destination rule says so, and changes nothing else. A write to s0 is discarded (R70); a k register
is written in the issuing slices (R74, R129). -/
def Obligations.UniformResult : Prop :=
  ∀ (i : Instr) (op : Op) (f : Fields) (s : State) (r : Run) (v : Int × Effects),
    codedOf i = some (op, f) → uniformValue i r s = some v → Clear s r op f →
    (isUni f.d = true ∧ r.gang.parted = false) ∨ isK f.d = true →
    ∃ t r', exec i s = .next t ∧ Committed s t r r' ∧ DeviceKept s t ∧ ReadsKept s t r r' ∧ RegsKept f.d r r'
      ∧ r'.band = { r.band with gangs := r'.band.gangs, counts := countsAfter r.band 0 v.2 }
      ∧ r'.gang = { r.gang with
          uregs := r'.gang.uregs, bad := r'.gang.bad, sticky := (stickyAfter r.gang v.2).1,
          stickyNow := (stickyAfter r.gang v.2).2, slices := r'.gang.slices, parts := r'.gang.parts }
      ∧ (∀ n, f.d = .uni n → uget r'.gang n = if n = 0 then 0 else v.1)
      ∧ ∀ j, r'.gang.slices[j]? = (r.gang.slices[j]?).map fun x =>
          if j ∈ r.part.slices then { x.next with k := match f.d with | .kreg n => x.k.set n v.1 | _ => x.k } else x

/-! ### Vector arithmetic -/

/-- R219, R220, R222: an integer or raw vector instruction gives each lane that its predicate selects the word that its
entry computes, keeps the other lanes, shifts the last-result file (R69), and counts what its results moved.
Of the model's choice: log 21. -/
def Obligations.VectorResult : Prop :=
  ∀ (i : Instr) (op : Op) (f : Fields) (s : State) (r : Run) (v : Nat → Int × Effects),
    codedOf i = some (op, f) → vectorValue i r s = some v → Clear s r op f → isVectorDest f.d = true →
    ∃ t r', exec i s = .next t ∧ Committed s t r r' ∧ DeviceKept s t ∧ ReadsKept s t r r'
      ∧ VectorWritten f.d (activeLanes r s f) (fun l => (v l).1) r r'
      ∧ r'.band = { r.band with
          gangs := r'.band.gangs, counts := countsAfter r.band 0 (laneEffects (activeLanes r s f) v) }
      ∧ GangKept (stickyAfter r.gang (laneEffects (activeLanes r s f) v)) r r' ∧ r'.gang.dither = r.gang.dither

/-- R234 to R245: a float, conversion or block instruction does the same under its tensor identifier; signalling NaNs
raise its context's invalid count (R218), and dithering advances the gang's phase (R211). Of the model's choice: log
21, 43, 96. -/
def Obligations.FloatResult : Prop :=
  ∀ (i : Instr) (op : Op) (f : Fields) (s : State) (r : Run) (v : Nat → Int × Effects),
    codedOf i = some (op, f) → floatValue i r s = some v → Clear s r op f → isVectorDest f.d = true →
    ∃ t r', exec i s = .next t ∧ Committed s t r r' ∧ ReadsKept s t r r'
      ∧ DeviceCounted s t r r' (laneEffects (activeLanes r s f) v).invalid
      ∧ VectorWritten f.d (activeLanes r s f) (fun l => (v l).1) r r'
      ∧ r'.band = { r.band with
          gangs := r'.band.gangs
          counts := countsAfter r.band (if i = .vmov f then 0 else tidOf f) (laneEffects (activeLanes r s f) v) }
      ∧ GangKept (stickyAfter r.gang (laneEffects (activeLanes r s f) v)) r r' ∧ r'.gang.dither = phaseAfter i r.gang

/-- R250: RED gives every executing lane the combination over all of them, SCAN over those up to its own, bounded or
narrowed once. What clamp and scale do in the MAX and MIN forms is the model's choice: log 21. -/
def Obligations.ReduceResult : Prop :=
  ∀ (i : Instr) (op : Op) (f : Fields) (s : State) (r : Run),
    (i = .red f ∨ i = .scan f) → codedOf i = some (op, f) → Clear s r op f → isVectorDest f.d = true →
    ∃ t r', exec i s = .next t ∧ Committed s t r r' ∧ ReadsKept s t r r' ∧ DeviceCounted s t r r' (reduceInvalid f r s)
      ∧ VectorWritten f.d (activeLanes r s f) (fun l => (reduceValue i f r s l).1) r r'
      ∧ r'.band = { r.band with
          gangs := r'.band.gangs
          counts := countsAfter r.band (tidOf f) (laneEffects (activeLanes r s f) (reduceValue i f r s)) }
      ∧ GangKept (stickyAfter r.gang (laneEffects (activeLanes r s f) (reduceValue i f r s))) r r'
      ∧ r'.gang.dither = r.gang.dither

/-- R246 to R251: SLIDE in its three modes, PERM, BCAST and SHUF3 give each element of the executing lanes one element
of their sources, raw, with no effects; VINS puts element 0 of A into element k of D if k lies in an executing lane,
and every other element keeps its value. -/
def Obligations.MoveResult : Prop :=
  (∀ (i : Instr) (op : Op) (f : Fields) (s : State) (r : Run) (g : Nat → Int),
    codedOf i = some (op, f) → movedElem i r s = some g → Clear s r op f → isVectorDest f.d = true →
    ∃ t r', exec i s = .next t ∧ Committed s t r r' ∧ DeviceKept s t ∧ ReadsKept s t r r' ∧ BandKept r r'
      ∧ VectorWritten f.d (activeLanes r s f)
          (fun l => ofElems f.ty ((List.range (elems f.ty)).map fun e => g (l * elems f.ty + e))) r r'
      ∧ GangKept (stickyOf r.gang) r r' ∧ r'.gang.dither = r.gang.dither)
    ∧ (∀ (f : Fields) (s : State) (r : Run), Clear s r .vins f → isVectorDest f.d = true →
    ∃ t r', exec (.vins f) s = .next t ∧ Committed s t r r' ∧ DeviceKept s t ∧ ReadsKept s t r r' ∧ BandKept r r'
      ∧ VectorWritten f.d
          (fun l => activeLanes r s f l && decide (0 ≤ indexB r s f) && l == (indexB r s f).toNat / elems f.ty)
          (fun l => putElem f.ty (lane (regLanes r f.ty f.d) l) ((indexB r s f).toNat % elems f.ty)
            (elem f.ty (lane (readLanes r s f.ty 0 f.a) 0) 0)) r r'
      ∧ GangKept (stickyOf r.gang) r r' ∧ r'.gang.dither = r.gang.dither)

/-! ### Masks and machine state -/

/-- R71, R140 to R142, R232, R237: an instruction with a mask destination writes the lanes that its entry names and
keeps the others; a write to m0 is discarded. FCMP counts signalling NaNs. -/
def Obligations.MaskResult : Prop :=
  ∀ (i : Instr) (op : Op) (f : Fields) (s : State) (r : Run) (p : Nat → Bool) (v : Nat → Int × Effects) (n : Nat),
    codedOf i = some (op, f) → maskValue i r s = some (p, v) → Clear s r op f → f.d = .mask n →
    ∃ t r', exec i s = .next t ∧ Committed s t r r' ∧ ReadsKept s t r r' ∧ BandKept r r' ∧ RegsKept f.d r r'
      ∧ DeviceCounted s t r r' (laneEffects p v).invalid ∧ SlicesStep r r'
      ∧ GangKept (stickyOf r.gang) r r' ∧ r'.gang.dither = r.gang.dither
      ∧ mget r'.gang n = if n = 0 then mget r.gang 0 else updLanes (mget r.gang n) p fun l => (v l).1

/-- R142, R143, R146, R147, R149, R397, R401: MMOV.OUT, MCNT, CYCLE, STATR, TREG, PKRD and FREC give their word to a
uniform register, or each
lane's word to the lanes of the issuing slices of a register of vector class. -/
def Obligations.StateWordResult : Prop :=
  ∀ (i : Instr) (op : Op) (f : Fields) (s : State) (r : Run) (w : Word) (g : Nat → Word),
    codedOf i = some (op, f) → stateWord i r s = some (w, g) → Clear s r op f →
    (isUni f.d = true ∧ r.gang.parted = false) ∨ isVectorDest f.d = true →
    ∃ t r', exec i s = .next t ∧ Committed s t r r' ∧ DeviceKept s t ∧ ReadsKept s t r r' ∧ BandKept r r'
      ∧ (if isUni f.d = true then RegsKept f.d r r' ∧ SlicesStep r r' ∧ ∀ n, f.d = .uni n → uget r'.gang n = if n = 0 then 0 else w
        else VectorWritten f.d (lanesOf r.part.slices) g r r')
      ∧ GangKept (stickyOf r.gang) r r' ∧ r'.gang.dither = r.gang.dither

/-! ### Branches -/

/-- R53, R107, R134 to R137: a branch whose taken target is the centre of an instruction sends each issuing slice to
the target or to the next instruction, parts the set by where its slices go on, and writes nothing but CALL's link PC
+ 9. A taken branch to any other address raises trap 2, sub-code 1, with the target in e3 and the lanes of the slices
that take it in e4, once the part's stores are acknowledged (R384). Slices that continue at one address form one part,
in their order, and the gang has no part but these and its other parts. Of the model's choice: log 20, 86. -/
def Obligations.BranchResult : Prop :=
  (∀ (i : Instr) (op : Op) (f : Fields) (s : State) (r : Run) (target : Word) (taken : Nat → Bool),
    codedOf i = some (op, f) → branchOf i r s = some (target, taken) → Clear s r op f →
    (target % 9 = 0 ∨ ∀ j ∈ r.part.slices, taken j = false) →
    (i = .call f → r.gang.parted = false ∧ isUni f.d = true) →
    ∃ t g, exec i s = .next t ∧ t.issue = none ∧ DeviceKept s t ∧ (∀ u, u ≠ r.id.band → t.band u = s.band u)
      ∧ gangIn t r = some g
      ∧ (∀ j, g.slices[j]? = (r.gang.slices[j]?).map fun x =>
          if j ∈ r.part.slices then { x.next with pc := continuesAt r target taken j } else x)
      ∧ (∀ sl ∈ groupTargets (continuesAt r target taken) r.part.slices, ∃ q ∈ g.parts,
          q.slices = sl ∧ q.wait = .ready ∧ q.hist = r.part.hist)
      ∧ (∀ q ∈ r.gang.parts, q.slices.head? ≠ some r.id.part → q ∈ g.parts)
      ∧ (∀ q ∈ g.parts, q ∈ r.gang.parts ∧ q.slices.head? ≠ some r.id.part
          ∨ q.slices ∈ groupTargets (continuesAt r target taken) r.part.slices)
      ∧ (∀ n, uget g n = if i = .call f ∧ f.d = .uni n ∧ n ≠ 0 then wrap 27 (r.pc + 9) else uget r.gang n)
      ∧ g = { r.gang with uregs := g.uregs, bad := g.bad, slices := g.slices, parts := g.parts })
    ∧ (∀ (i : Instr) (op : Op) (f : Fields) (s : State) (r : Run) (target : Word) (taken : Nat → Bool),
    codedOf i = some (op, f) → branchOf i r s = some (target, taken) → Clear s r op f → r.band.pair = none → owes s r = false →
    target % 9 ≠ 0 → (∃ j ∈ r.part.slices, taken j = true) → (i = .call f → r.gang.parted = false) →
    exec i s = .next (takeTrap s r { code := 2, sub := 1, addr := target, lanes := slicesMask (r.part.slices.filter taken) }
      r.pc (encodeW0 op f, encodeW1 f, encodeW2 op f)))
    ∧ (∀ (dest : Nat → Word) (sl : List Nat),
    (∀ j, j ∈ sl ↔ ∃ p ∈ groupTargets dest sl, j ∈ p)
      ∧ (∀ p ∈ groupTargets dest sl, p ≠ [] ∧ p.Sublist sl ∧ ∀ j ∈ p, ∀ k ∈ p, dest j = dest k)
      ∧ (groupTargets dest sl).Pairwise fun p q => ∀ j ∈ p, ∀ k ∈ q, dest j ≠ dest k)

/-! ### Loads and stores -/

/-- R171, R173 to R175: a load whose access passes its checks, reads no poison and is performed at once gives D the
words made of the nonets that it reads; it changes nothing else but what every access does. Of the model's choice: log
6, 7, 9. -/
def Obligations.LoadResult : Prop :=
  ∀ (i : Instr) (op : Op) (f : Fields) (s : State) (r : Run) (log : OpLog) (form : MemForm) (word : Bool)
    (ps : List (List Place)) (ls : List Leaf),
    codedOf i = some (op, f) → [Op.ldn, .ldw, .vld, .vlds, .gath].contains op = true →
    accessLog i r s = some (log, f, form, word) → Clear s r op f → accessOk s r f form word log .read ps ls →
    (if form = .uniform then (isUni f.d = true ∧ r.gang.parted = false) ∨ isK f.d = true else isVectorDest f.d = true) →
    (s.slow = false ∨ ps.flatten.any isRemote = false) → pendingStore s r ps.flatten = false →
    let s1 := afterReads (walkedState s r (accessElems r f form word log)) r ps.flatten ls
    poisonOf s1 r.who (form == .uniform) ((accessElems r f form word log).zip ps) = none →
    let vs := ((accessElems r f form word log).zip ps).map fun x => (x.1.lane, x.2.map (peek s1 r.who))
    ∃ r1 t r', s1.run r.id = some r1 ∧ r1.gang = gangTouched r.gang ps.flatten ∧ r1.part = r.part ∧ exec i s = .next t
      ∧ Committed s1 t r1 r' ∧ DeviceKept s1 t ∧ ReadsKept s1 t r1 r' ∧ BandKept r1 r' ∧ GangKept (stickyOf r.gang) r1 r'
      ∧ r'.gang.dither = r.gang.dither
      ∧ if form = .uniform then
          RegsKept f.d r r' ∧ (∀ n, f.d = .uni n → uget r'.gang n = if n = 0 then 0 else loadedWord vs (3 * r.id.part))
            ∧ SlicesWith (fun _ x => match f.d with | .kreg n => x.k.set n (loadedWord vs (3 * r.id.part)) | _ => x.k) r r'
        else VectorWritten f.d (fun l => vs.any fun x => x.1 == l) (loadedWord vs) r r'

/-- R168, R302, R376, R407: what every access does beside moving data changes no nonet that its band reads, but the
page-table entries it marks and nonets of which another band's version held a newer value; the correction of wrong
trits that walks meet (R407) changes none. A word element at an address that is not divisible by 3 raises trap 3,
sub-code 1, before every other check; e3 names the first such element, e4 marks the lanes of all of them. Of the
model's choice: log 18, 40. -/
def Obligations.AccessRules : Prop :=
  (∀ (s : State) (r : Run) (ps : List Place) (ls : List Leaf) (p : Place), s.run r.id = some r →
    pteNonet ls p = false → foreignNonet s r.id.band p = false →
    peek (afterReads s r ps ls) r.who p = peek s r.who p)
    ∧ (∀ (s : State) (r : Run) (es : List Elem) (p : Place), peek (walkedState s r es) r.who p = peek s r.who p)
    ∧ (∀ (s : State) (w : Who) (x : Option XReg) (kind : AccKind) (es : List Elem) (e : Elem),
    es.find? (fun e => decide (e.addr % 3 ≠ 0)) = some e →
    checkElems s w x kind true es
      = .trap { code := 3, sub := 1, addr := e.addr,
                lanes := lanesWord fun l => es.any fun e => e.lane == l && decide (e.addr % 3 ≠ 0) } [])

/-- R172 to R175: a store whose access passes its checks and that is performed at once stores each element's nonets, a
later element prevailing, at the addresses its operands give; every nonet outside them reads as before, but the
page-table entries it marks (R376) and nonets of which another band's version held a newer value (R302); no register
changes. Of the model's choice: log 6, 7. -/
def Obligations.StoreResult : Prop :=
  ∀ (i : Instr) (op : Op) (f : Fields) (s : State) (r : Run) (log : OpLog) (form : MemForm) (word : Bool)
    (ps : List (List Place)) (ls : List Leaf),
    codedOf i = some (op, f) → [Op.stn, .stw, .vst, .vsts, .scat].contains op = true →
    accessLog i r s = some (log, f, form, word) → Clear s r op f → accessOk s r f form word log .write ps ls →
    s.slow = false → r.band.pair = none → portsUp s ps.flatten →
    let data := if form = .uniform then
        [if word then [nonetOf (lane log.data 0) 0, nonetOf (lane log.data 0) 1, nonetOf (lane log.data 0) 2]
          else [nonetOf (lane log.data 0) 0]]
      else log.active.flatMap fun l => laneData word (lane log.data l)
    let cells := ((ps.zip data).flatMap fun x => x.1.zip x.2)
    ∃ t r', exec i s = .next t ∧ t.issue = none ∧ t.run r.id = some r' ∧ r'.gang = { r.gang with
          slices := r'.gang.slices, parts := r'.gang.parts }
      ∧ SlicesStep r r' ∧ r'.part.wait = .ready ∧ r'.part.hist = r.part.hist
      ∧ (∀ g, g ≠ r.id.gang → r'.band.gangs[g]? = r.band.gangs[g]?)
      ∧ (∀ p, cells.any (fun c => sameNonet c.1 p) = false → pteNonet ls p = false → foreignNonet s r.id.band p = false →
          peek t r'.who p = peek s r.who p)
      ∧ ∀ pre p v post, cells = pre ++ (p, v) :: post → post.any (fun c => sameNonet c.1 p) = false → peek t r'.who p = v

/-! ### Atomics -/

/-- R302, R304 to R310, R338: one element of an atomic reads what its band reads there and leaves the new value, and
every other nonet outside other bands' versions reads as before; an atomic whose access passes its checks and meets no
poison performs its elements one after another in lane order and gives D their old values; a releasing one commits its
band's version first. Of the model's choice: log 6, 7, 83, 87, 107. -/
def Obligations.AtomicResult : Prop :=
  (∀ (s : State) (r : Run) (p : Place) (fn : Int → Int × Effects), s.run r.id = some r → r.band.pair = none →
    specOf r.band r.id.gang = none → placeClass p ≠ 2 → (∀ u n far, p = .scr u n far → (s.band u).isSome = true) →
    foreignNonet s r.id.band p = false → (∀ x, inTrits 9 (fn x).1 = true) →
    let y := readModifyWrite s r.who [p] fn
    y.2.1 = peek s r.who p ∧ y.2.2 = (fn (peek s r.who p)).2 ∧ peek y.1 r.who p = (fn (peek s r.who p)).1
      ∧ ∀ q, sameNonet p q = false → foreignNonet s r.id.band q = false → peek y.1 r.who q = peek s r.who q)
    ∧ (∀ (i : Instr) (op : Op) (f : Fields) (s : State) (r : Run) (fn : Int → Int → Int → Int × Effects)
    (ps : List (List Place)) (ls : List Leaf),
    codedOf i = some (op, f) → atomicValue i = some (f, fn) → Clear s r op f → r.band.pair = none →
    r.band.copy = .unpaired →
    let form : MemForm := if trit f.var 4 = 1 then .uniform else .gathered
    let word := wordType f.ty
    let log := memOperands r s f (fun _ => offsetLanes r s f form) fun _ =>
      readLanes r s f.ty 2 f.c ++ readLanes r s .t27 3 f.d
    let act := if form = .uniform then [3 * r.id.part] else log.active
    let es := act.flatMap fun l => laneElements form word log.base (lane log.offset l) f.imm l
    let cs := (act.flatMap (elemOperands f.ty form (log.data.take 27))).map (modElem f.ty f.modC)
    let want := act.flatMap (elemOperands f.ty form (log.data.drop 27))
    let flat := (es.zip ps).flatMap (·.2)
    let s0 := releaseVersion r (markLeaves (walkedState s r es) ls 2) (releasesOut f)
    let s1 := prepare (countIngress (touchRemote r s0 flat) flat) r.who flat true true
    let s2 := markLeaves s1 ls 1
    let x := rmwAll r.who none (ps.zip ((cs.zip want).map fun p => fn p.1 p.2)) 0 s2
    let vs := (es.zip x.2.1).map fun p =>
      (p.1.lane, if word then [nonetOf p.2 0, nonetOf p.2 1, nonetOf p.2 2] else [p.2])
    let expects (x : LogWord) : Bool := op == .acas || match x with | .data l => decide (l < 27) | _ => true
    badLog form { log with bad := log.bad.filter expects } = false →
    checkElems (walkedState s r es) r.who (memXreg r f) .atomic word es = .ok ps ls →
    (s.slow = false ∨ ps.flatten.any isRemote = false) → poisonOf s1 r.who (form == .uniform) (es.zip ps) = none →
    (if form = .uniform then isUni f.d = true ∧ r.gang.parted = false else isVectorDest f.d = true) →
    ∃ r1 t r', x.1.run r.id = some r1 ∧ r1.gang = gangTouched r.gang flat ∧ r1.part = r.part ∧ exec i s = .next t ∧ Committed x.1 t r1 r'
      ∧ r'.band = { r1.band with gangs := r'.band.gangs, counts := countsAfter r1.band 0 x.2.2 }
      ∧ GangKept (stickyAfter r.gang x.2.2) r1 r' ∧ r'.gang.dither = r.gang.dither ∧ r'.ctx = invalidAfter r1.ctx x.2.2.invalid
      ∧ if form = .uniform then
          RegsKept f.d r r' ∧ SlicesStep r r'
            ∧ ∀ n, f.d = .uni n → uget r'.gang n = if n = 0 then 0 else loadedWord vs (3 * r.id.part)
        else VectorWritten f.d (fun l => vs.any fun x => x.1 == l) (loadedWord vs) r r')

/-! ### Waits, channels, barriers and grants -/

/-- R55, R297, R299, R312 to R315, R350, R429, R430: REGANG of a gang that is not parted, FENCE, FENCE.NS, DRAIN,
ICINV, ICINV.ALL and BATCH.WAIT with nothing to wait for, PAIR.CK, and COMMIT of an unversioned launch, only go on; so
does a part whose wait at DRAIN, ICINV, FENCE, BATCH.WAIT or PARK an event ends. ICINV also lets go of the lines that
it names. With acknowledgements outstanding, DRAIN, ICINV.ALL, and FENCE.NS and a part's FENCE of more than slice scope,
make the part wait, and no register changes. Of the model's choice: log 7, 9, 37. -/
def Obligations.WaitResult : Prop :=
  (∀ (i : Instr) (op : Op) (f : Fields) (s : State) (r : Run),
    codedOf i = some (op, f) → Clear s r op f → nothingToAwait i r s →
    ∃ t r', exec i s = .next t ∧ OnlyAdvances (goingOn i r s) t r r')
    ∧ (∀ (e : Instr) (s : State) (r : Run), endsWait e s r → ∃ t r', exec e s = .next t ∧ OnlyAdvances (goingOn e r s) t r r')
    ∧ (∀ (i : Instr) (op : Op) (f : Fields) (s : State) (r : Run) (w : Wait),
    codedOf i = some (op, f) → (i = .drain f ∧ r.gang.acks ≠ 0 ∧ w = .drain s.free none
      ∨ i = .icinvAll f ∧ (s.slow = true ∨ r.gang.acks ≠ 0) ∧ w = .icinv s.free .all
      ∨ (i = .fenceNs f ∨ i = .fence f ∧ r.gang.parted = true) ∧ fenceScope f ≠ -3 ∧ owes s r = true ∧ w = .fence (fenceScope f)) →
    Clear s r op f →
    ∃ t r', exec i s = .next t ∧ t.issue = none ∧ t.run r.id = some r' ∧ r'.part.wait = w ∧ DeviceKept s t ∧ ReadsKept s t r r'
      ∧ BandKept r r' ∧ r'.gang = { r.gang with parts := r'.gang.parts } ∧ r'.part.hist = r.part.hist)

/-- R344, R345, R412: SEND appends its word behind those of its channel as a word of its gang and takes one unit of
the gang's allowance; RECV of a channel that has words and no part waiting gives D the oldest, removes it and returns
a unit of allowance to its sender, or consumes its poison. SEND_COMPLETE and RECV_COMPLETE do so for the oldest that
waited. -/
def Obligations.ChannelResult : Prop :=
  ((∀ (f : Fields) (s : State) (r : Run) (n : Nat) (c : Channel), Clear s r .send f →
    channelOf r f.imm Channel.producer = .ok (n, c) → (channelWords r.band n).length < c.depth →
    0 < allowanceOf r.band r.id.gang n →
    ∃ t r', exec (.send f) s = .next t ∧ Committed s t r r' ∧ DeviceKept s t ∧ ReadsKept s t r r' ∧ SlicesStep r r'
      ∧ (∀ o, regLanes r' .t27 o = regLanes r .t27 o)
      ∧ channelWords r'.band n = channelWords r.band n ++ [(readWord r s 1 f.b, r.id.gang)] ∧ OtherChannels n r.band r'.band
      ∧ allowanceOf r'.band r.id.gang n + 1 = allowanceOf r.band r.id.gang n
      ∧ r'.band = { r.band with gangs := r'.band.gangs, channels := r'.band.channels }
      ∧ r'.gang = { r.gang with allowance := r'.gang.allowance, slices := r'.gang.slices, parts := r'.gang.parts })
    ∧ ∀ (s : State) (r : Run) (n : Nat) (w : Word) (c : Channel), Waits s r (.send n w) →
      r.kern.launch.channels[n]? = some c → canSend r.band r.gang n c = true →
      (gangParts r.band).find? (fun x => match x.2.2.wait with | .send m _ => m == n && canSend r.band x.2.1 n c | _ => false)
        = some (r.id.gang, r.gang, r.part) →
      ∃ t r', exec (.sendComplete r.id.band n) s = .next t ∧ Committed s t r r' ∧ SlicesStep r r'
        ∧ channelWords r'.band n = channelWords r.band n ++ [(w, r.id.gang)] ∧ OtherChannels n r.band r'.band)
    ∧ ((∀ (f : Fields) (s : State) (r : Run) (n : Nat) (c : Channel) (w : Word) (g : Nat) (rest : List (Word × Nat)),
    Clear s r .recv f → r.gang.parted = false → isUni f.d = true → channelOf r f.imm Channel.consumer = .ok (n, c) →
    channelWords r.band n = (w, g) :: rest → (gangParts r.band).any (fun x => waitsRecv n x.2.2) = false →
    g < r.band.gangs.length →
    (r.band.chanBad.contains (n, 0) = false →
    ∃ t r', exec (.recv f) s = .next t ∧ t.issue = none ∧ t.run r.id = some r' ∧ r'.part.wait = .ready ∧ DeviceKept s t
      ∧ ReadsKept s t r r' ∧ UniWritten f.d w r r'
      ∧ channelWords r'.band n = rest ∧ OtherChannels n r.band r'.band
      ∧ allowanceOf r'.band g n = allowanceOf r.band g n + 1
      ∧ r'.band = { r.band with gangs := r'.band.gangs, channels := r'.band.channels, chanBad := shiftBad r.band.chanBad n })
    ∧ (r.band.chanBad.contains (n, 0) = true → r.band.pair = none → relaunchable r.kern r.band = false → owes s r = false →
      exec (.recv f) s = .next (takeTrap s r { code := 15, sub := 4 } r.pc (encodeW0 .recv f, encodeW1 f, encodeW2 .recv f))))
    ∧ ∀ (s : State) (r : Run) (n d : Nat) (w : Word) (g : Nat) (rest : List (Word × Nat)), Waits s r (.recv n d) →
      channelWords r.band n = (w, g) :: rest → r.band.chanBad.contains (n, 0) = false →
      (gangParts r.band).find? (fun x => waitsRecv n x.2.2) = some (r.id.gang, r.gang, r.part) →
      ∃ t r', exec (.recvComplete r.id.band n) s = .next t ∧ t.run r.id = some r' ∧ r'.part.wait = .ready
        ∧ UniWritten (.uni d) w r r' ∧ channelWords r'.band n = rest ∧ OtherChannels n r.band r'.band)

/-- R346: BAR and BAR.ARR, and DRAIN.BAR with no acknowledgement outstanding, add the issuing slices to the arrivals
of the barrier's current phase; BAR then waits for the phase, the others go on. When every participant has arrived or
exited, the phase ends, and a part that waited for it goes on. -/
def Obligations.BarrierResult : Prop :=
  (∀ (i : Instr) (op : Op) (f : Fields) (s : State) (r : Run) (key : BarrierKey),
    codedOf i = some (op, f) → (i = .bar f ∨ i = .barArr f ∨ i = .drainBar f ∧ r.gang.acks = 0) → Clear s r op f →
    barrierOf r (readWord r s 0 f.a) f.imm = .ok key →
    (∀ j ∈ r.part.slices, (r.band.uid, r.id.gang, j) ∉ (barrierAt r.kern key).arrived) →
    ∃ t r', exec i s = .next t ∧ t.issue = none ∧ t.run r.id = some r'
      ∧ (∀ o, regLanes r' .t27 o = regLanes r .t27 o)
      ∧ (if i = .bar f then r'.part.wait = .barrier key (barrierAt r.kern key).phase .done [] ∧ r'.gang.slices = r.gang.slices
        else r'.part.wait = .ready ∧ SlicesStep r r')
      ∧ barrierAt r'.kern key = { barrierAt r.kern key with
          arrived := (barrierAt r.kern key).arrived ++ r.part.slices.map fun j => (r.band.uid, r.id.gang, j) }
      ∧ ∀ k, k ≠ key → barrierAt r'.kern k = barrierAt r.kern k)
    ∧ (∀ (s : State) (k : Kernel) (key : BarrierKey), s.kernel k.uid = some k → s.issue = none → NoForward s →
    (barrierAt k key).arrived ≠ [] → phaseComplete s k (barrierAt k key) = true →
    ∃ t k', exec (.barrierPhaseComplete k.uid key) s = .next t ∧ t.kernel k.uid = some k'
      ∧ (barrierAt k' key).phase = (barrierAt k key).phase + 1
      ∧ ∀ r, Waits s r (.barrier key (barrierAt k key).phase .done []) → r.kern = k →
          ∃ r', t.run r.id = some r' ∧ r'.part.wait = .ready)

/-- R330, R351: GROW of nothing answers the grant and changes nothing else; GROW that is granted at once, and SHRINK
of a valid amount, change the grant by their amount and give D the new one. Registers below the smaller of both grants
keep their values, and those from it on read as zeros, with no poison. A valid GROW that cannot be granted at once
waits. GROW_GRANT grants the oldest waiting request of a core once the free registers cover it; an evicted gang then
resumes. Of the model's choice: log 33, 81. -/
def Obligations.GrantResult : Prop :=
  (∀ (i : Instr) (op : Op) (f : Fields) (s : State) (r : Run) (g' : Nat),
    codedOf i = some (op, f) → Clear s r op f → r.gang.parted = false → isUni f.d = true → grantAmount r s f % 9 = 0 →
    (i = .grow f ∧ grantAmount r s f = 0 ∧ g' = r.gang.grant
      ∨ i = .grow f ∧ 0 < grantAmount r s f ∧ (g' : Int) = r.gang.grant + grantAmount r s f ∧ g' ≤ 1530
        ∧ ((r.band.gangs.map (·.grant)).sum : Int) + grantAmount r s f ≤ 6561 ∧ growRequests s r.core = []
        ∧ grantAmount r s f ≤ freeRegisters s r.core
      ∨ i = .shrink f ∧ 0 ≤ grantAmount r s f ∧ (g' : Int) = r.gang.grant - grantAmount r s f ∧ 9 ≤ g') →
    ∃ t r', exec i s = .next t ∧ Committed s t r r' ∧ DeviceKept s t ∧ ReadsKept s t r r' ∧ BandKept r r' ∧ SlicesStep r r'
      ∧ r'.gang.grant = g' ∧ (∀ n, f.d = .uni n → uget r'.gang n = if n = 0 then 0 else g')
      ∧ (∀ n, vget r'.gang n = if n < min r.gang.grant g' ∨ i = .grow f ∧ grantAmount r s f = 0 then vget r.gang n else Lanes.zero)
      ∧ (∀ o, o ≠ f.d → (∀ n, o ≠ .vec n) → regLanes r' .t27 o = regLanes r .t27 o)
      ∧ (grantAmount r s f ≠ 0 → ∀ x ∈ r'.gang.bad, ∀ n, x.1 = .vec n → n < min r.gang.grant g')
      ∧ r'.gang = { r.gang with
          grant := g', vregs := r'.gang.vregs, uregs := r'.gang.uregs, bad := r'.gang.bad, slices := r'.gang.slices,
          parts := r'.gang.parts })
    ∧ (∀ (f : Fields) (s : State) (r : Run) (d : Nat), Clear s r .grow f → r.gang.parted = false → f.d = .uni d →
      grantAmount r s f % 9 = 0 → 0 < grantAmount r s f → (r.gang.grant : Int) + grantAmount r s f ≤ 1530 →
      ((r.band.gangs.map (·.grant)).sum : Int) + grantAmount r s f ≤ 6561 →
      (growRequests s r.core ≠ [] ∨ (freeRegisters s r.core : Int) < grantAmount r s f) →
      ∃ t r', exec (.grow f) s = .next t ∧ t.issue = none ∧ t.run r.id = some r' ∧ DeviceKept s t
        ∧ r'.part.wait = .grow (grantAmount r s f).toNat d ∧ r'.gang.grant = r.gang.grant
        ∧ ∀ o, regLanes r' .t27 o = regLanes r .t27 o)
    ∧ (∀ (s : State) (r : Run) (core n d : Nat) (rest : List (PartId × Gang × Nat × Nat)), Waits s r (.grow n d) →
    growRequests s core = (r.id, r.gang, n, d) :: rest → growNeeds r.gang n ≤ freeRegisters s core →
    (r.gang.residence = .evicted → exec (.growGrant core) s
      = .next (resumeOldest (finishWaiting s r (grantResult r s n (.uni d))) core r.id.band r.id.gang))
    ∧ (r.gang.residence ≠ .evicted →
    ∃ t r', exec (.growGrant core) s = .next t ∧ Committed s t r r' ∧ DeviceKept s t ∧ ReadsKept s t r r' ∧ BandKept r r'
      ∧ SlicesStep r r' ∧ r'.gang.grant = r.gang.grant + n
      ∧ uget r'.gang d = (if d = 0 then 0 else ((r.gang.grant + n : Nat) : Int))
      ∧ (∀ m, vget r'.gang m = if m < r.gang.grant then vget r.gang m else Lanes.zero)
      ∧ ∀ o, o ≠ .uni d → (∀ m, o ≠ .vec m) → regLanes r' .t27 o = regLanes r .t27 o))

/-- R348 to R350: PARK of a word that differs from its operand goes on; of an equal word it registers the part as a
waiter, in the same access, where its home holds fewer than 729 registrations, and otherwise waits unregistered and
reads again every 243 local cycles; poison that it reads there it consumes (R412). WAKE removes the oldest
registrations on its word, at most as many as its operand says, lets their parts go on and gives D their number. Of
the model's choice: log 12, 103. -/
def Obligations.ParkResult : Prop :=
  ((∀ (f : Fields) (s : State) (r : Run) (j : Nat) (rest : List Place) (ls : List Leaf), Clear s r .park f →
    badLog .uniform (parkLog r s f) = false →
    let s0 := walkedState s r (parkElems f r s)
    checkElems s0 r.who (memXreg r f) .park true (parkElems f r s) = .ok [.dev j :: rest] ls →
    let s1 := respondTo (prepare (markLeaves s0 ls 2) r.who (.dev j :: rest) true false) r.who (.dev j :: rest)
    poisonOf s1 r.who true ((parkElems f r s).zip [.dev j :: rest]) = none →
    ∃ t r', exec (.park f) s = .next t ∧ t.issue = none ∧ t.run r.id = some r'
      ∧ (∀ o, regLanes r' .t27 o = regLanes r .t27 o) ∧ t.mem = s1.mem
      ∧ if peekWord s1 r.who j ≠ parkB f r s then r'.part.wait = .ready ∧ SlicesStep r r' ∧ t.parks = s.parks
        else r'.gang.slices = r.gang.slices ∧
          if homeParks s j < 729 then r'.part.wait = .park j ∧ t.parks = s.parks ++ [(j, r.id)]
          else r'.part.wait = .parkPoll j (parkB f r s) 0 0 ∧ t.parks = s.parks)
    ∧ ∀ (s : State) (r : Run) (j c n : Nat) (b : Word), Waits s r (.parkPoll j b c n) → n < c / 243 →
      let s1 := prepareRead s r.who [.dev j, .dev (j + 1), .dev (j + 2)]
      (∀ ti, parkPoison s1 r j = some ti → exec (.parkPoll r.id) s = .next (finishWaiting s1 r (.trap ti s1)))
      ∧ (parkPoison s1 r j = none → ∃ t r', exec (.parkPoll r.id) s = .next t ∧ t.run r.id = some r'
        ∧ if peekWord s1 r.who j ≠ b then r'.part.wait = .ready ∧ SlicesStep r r'
          else r'.part.wait = .parkPoll j b c (c / 243) ∧ r'.gang.slices = r.gang.slices))
    ∧ (∀ (f : Fields) (s : State) (r : Run) (j : Nat) (rest : List Place) (ls : List Leaf), Clear s r .wake f →
    r.gang.parted = false → r.band.pair = none → r.band.copy = .unpaired → isUni f.d = true → NoForward s →
    badLog .uniform (parkLog r s f) = false →
    checkElems (walkedState s r (parkElems f r s)) r.who (memXreg r f) .wake true (parkElems f r s)
      = .ok [.dev j :: rest] ls →
    let hit := (s.parks.filter fun x => x.1 == j).take (parkB f r s).toNat
    ∃ t r', exec (.wake f) s = .next t ∧ t.issue = none ∧ t.run r.id = some r' ∧ RegsKept f.d r r'
      ∧ (∀ n, f.d = .uni n → uget r'.gang n = if n = 0 then 0 else hit.length)
      ∧ t.parks = s.parks.filter (fun x => !hit.contains x)
      ∧ ∀ x ∈ hit, ∀ q, s.run x.2 = some q → ∃ q', t.run x.2 = some q' ∧ q'.part.wait = .ready)

/-- R314: BATCH.SEAL of a gang whose next rolling number names no unfinished batch gives D that number and opens the
next batch. -/
def Obligations.BatchSealResult : Prop :=
  ∀ (f : Fields) (s : State) (r : Run), Clear s r .batchSeal f → r.gang.parted = false → isUni f.d = true →
    (∀ n ∈ r.band.nodes, ∀ m, n.gang = r.id.gang → n.batch = some m → m < r.gang.batch → m % 81 = r.gang.batch % 81 →
      n.state = .finished) →
    ∃ t r', exec (.batchSeal f) s = .next t ∧ Committed s t r r' ∧ DeviceKept s t ∧ ReadsKept s t r r' ∧ BandKept r r'
      ∧ UniWritten f.d ((r.gang.batch % 81 : Nat) : Int) r r' ∧ r'.gang.batch = r.gang.batch + 1
      ∧ r'.gang.sticky = r.gang.sticky

/-- R317: ICLOCK locks, for the issuing context on its core, the lines of an address and of the next ones 243 apart,
in order, and gives D the number locked before the first that it cannot lock: one whose line cannot be fetched as
sound code, or one that finds 81 places taken. A line locked already counts and takes no new place. Beside the core's
locks nothing changes but what the fetch of those lines does. ICLOCK.UN frees the context's locks on the lines that
those addresses translate to, and gives D how many; nothing but the core's locks changes. Of the model's choice: log
9. -/
def Obligations.CodeLockResult : Prop :=
  (∀ (f : Fields) (s : State) (r : Run), Clear s r .iclock f → r.gang.parted = false → isUni f.d = true →
    let a := wrap 27 (readWord r s 0 f.a + f.imm)
    let line (i : Nat) : Option Nat := codeLine (linesOpened s r.who a (i + 1)) r.who (wrap 27 (a + 243 * i))
    let count := (readWord r s 1 f.b).toNat
    ∃ t r1 r' n new, let x := linesOpened s r.who a (if n < count then n + 1 else n)
      x.run r.id = some r1 ∧ r1.gang = r.gang ∧ exec (.iclock f) s = .next t ∧ Committed x t r1 r' ∧ BandKept r1 r'
      ∧ ReadsKept x t r1 r' ∧ UniWritten f.d ((n : Nat) : Int) r1 r' ∧ n ≤ count
      ∧ locksOf (t.core r.core) r.ctx.number = locksOf (s.core r.core) r.ctx.number ++ new
      ∧ (∀ i, i < n → ∃ l, line i = some l ∧ l ∈ locksOf (t.core r.core) r.ctx.number)
      ∧ (∀ l ∈ new, l ∉ locksOf (s.core r.core) r.ctx.number ∧ ∃ i, i < n ∧ line i = some l) ∧ new.Nodup
      ∧ (n < count → line n = none ∨ 81 ≤ (locksOf (t.core r.core) r.ctx.number).length
          ∧ ∃ l, line n = some l ∧ l ∉ locksOf (t.core r.core) r.ctx.number)
      ∧ ((locksOf (s.core r.core) r.ctx.number).length ≤ 81 → (locksOf (t.core r.core) r.ctx.number).length ≤ 81)
      ∧ (∀ c, c ≠ r.ctx.number → locksOf (t.core r.core) c = locksOf (s.core r.core) c)
      ∧ t.core r.core = { x.core r.core with locks := (t.core r.core).locks, code := (t.core r.core).code }
      ∧ (∀ k, k ≠ r.core → t.core k = x.core k)
      ∧ { t with cores := x.cores, codeOld := x.codeOld, bands := x.bands, issue := x.issue, free := x.free } = x)
    ∧ ∀ (f : Fields) (s : State) (r : Run), Clear s r .iclockUn f → r.gang.parted = false → isUni f.d = true →
      let named (l : Nat) : Prop := ∃ i, i < (readWord r s 1 f.b).toNat ∧
        (codeLeaf s r.ctx (wrap 27 (wrap 27 (readWord r s 0 f.a + f.imm) + 243 * i))).map
          (fun x => leafLine x (wrap 27 (wrap 27 (readWord r s 0 f.a + f.imm) + 243 * i))) = some l
      ∃ t r' gone, exec (.iclockUn f) s = .next t ∧ Committed s t r r' ∧ BandKept r r' ∧ ReadsKept s t r r'
        ∧ UniWritten f.d ((gone : List Nat).length : Int) r r' ∧ gone.Nodup
        ∧ (∀ l, l ∈ gone ↔ l ∈ locksOf (s.core r.core) r.ctx.number ∧ named l)
        ∧ locksOf (t.core r.core) r.ctx.number = (locksOf (s.core r.core) r.ctx.number).filter (fun l => !gone.contains l)
        ∧ (∀ c, c ≠ r.ctx.number → locksOf (t.core r.core) c = locksOf (s.core r.core) c)
        ∧ t.core r.core = { s.core r.core with locks := (t.core r.core).locks }
        ∧ (∀ k, k ≠ r.core → t.core k = s.core k)
        ∧ { t with cores := s.cores, bands := s.bands, issue := s.issue, free := s.free } = s

/-! ### Gang state and hints -/

/-- R148, R402: STATC, DSTEP.ON and DSTEP.OFF change their trits of the gang status word and nothing else. -/
def Obligations.GangStateResult : Prop :=
  ∀ (i : Instr) (op : Op) (f : Fields) (s : State) (r : Run) (g : Gang → Gang),
    codedOf i = some (op, f) → gangChange i = some g → Clear s r op f → r.gang.parted = false →
    ∃ t r', exec i s = .next t ∧ Committed s t r r' ∧ DeviceKept s t ∧ ReadsKept s t r r' ∧ BandKept r r' ∧ SlicesStep r r'
      ∧ r'.part.hist = r.part.hist ∧ r'.gang = { g r.gang with slices := r'.gang.slices, parts := r'.gang.parts }

/-- R176, R177, R407: XLD fills its translation register with the page that a walk finds, or empties it where no
translation is to be had, never traps for that, and marks the page accessed; PREF and PREF.SC change nothing but the
core's count of dropped lanes, whatever poison their operand registers hold; they leave the entries of the tables as
they are. Of the model's choice: log 32, 39. -/
def Obligations.HintResult : Prop :=
  (∀ (f : Fields) (s0 : State) (r : Run) (n : Nat), Clear s0 r .xld f → r.gang.parted = false → f.d = .xreg n →
    let log := memOperands r s0 f (fun _ => List.replicate 27 (readWord r s0 1 f.b)) fun _ => []
    let t := wrap 27 (log.base + lane log.offset 0 + f.imm)
    badLog .uniform log = false →
    let s := correctWalks s0 r.ctx [t]
    ∃ t' r', exec (.xld f) s0 = .next t' ∧ Committed s t' r r' ∧ BandKept r r' ∧ SlicesStep r r' ∧ r'.part.hist = r.part.hist
      ∧ (∀ o, regLanes r' .t27 o = regLanes r .t27 o)
      ∧ (∀ m, smapGet XReg.zero r'.gang.xregs m = if m = n then xldValue s r t else smapGet XReg.zero r.gang.xregs m)
      ∧ r'.gang = { r.gang with xregs := r'.gang.xregs, slices := r'.gang.slices, parts := r'.gang.parts }
      ∧ (∀ p, pteNonet (xldLeaf s r t) p = false → peek t' r'.who p = peek s r.who p)
      ∧ { t' with bands := s.bands, mem := s.mem, gens := s.gens, verTags := s.verTags, flips := s.flips,
                  issue := s.issue, free := s.free } = s)
    ∧ ∀ (i : Instr) (op : Op) (f : Fields) (s : State) (r : Run), codedOf i = some (op, f) → (i = .pref f ∨ i = .prefSc f) →
      Unhindered s r op →
      let base := match baseXreg r f with | some x => x.base | none => readWord r s 0 f.a
      let addr (l : Nat) : Word := wrap 27 (base + lane (readLanes r s .t27 1 f.b) l + f.imm)
      let lanes := (List.range 27).filter (lanesOf r.part.slices)
      let n := (lanes.filter fun l => prefDropped s r (addr l)).length
      ∃ t r', exec i s = .next t ∧ Committed s t r r' ∧ ReadsKept s t r r' ∧ BandKept r r' ∧ SlicesStep r r'
        ∧ r'.part.hist = r.part.hist ∧ (∀ o, regLanes r' .t27 o = regLanes r .t27 o)
        ∧ r'.gang = { r.gang with slices := r'.gang.slices, parts := r'.gang.parts }
        ∧ t.core r.core = { s.core r.core with dropped := satCount ((s.core r.core).dropped + n) }
        ∧ (∀ k, k ≠ r.core → t.core k = s.core k)
        ∧ { t with bands := s.bands, cores := s.cores, issue := s.issue, free := s.free } = s

/-! ### Traps -/

/-- R76, R77, R381 to R385, R401: taking a trap with a handler writes the record into the slot chosen, gives every
slice of the part e0 to e8 and the record's copy, sends it to the handler and clears trap-enable; no other register
changes. Where no version of a band and no wrong trit is about, the search for a slot changes nothing but accessed trits
of the fault area's pages (R376). A trap while trap-enable is 0, or of code 12, 15 or 16, stops the kernel. Of the
model's choice: log 20, 25, 29, 76, 78. -/
def Obligations.TrapTaken : Prop :=
  (∀ (s s1 : State) (r : Run) (ti : TrapInfo) (pc : Word) (ws : Word × Word × Word) (j n : Nat) (leaf : Option Leaf),
    s.run r.id = some r → r.band.pair = none → r.band.copy = .unpaired → r.gang.trapEnable = 1 →
    dispositionOf r.ctx ti.code = 1 → (∀ x ∈ r.gang.slices, x.cap = none) →
    chooseSlot { s with issue := none } r.who = (s1, some (some j)) →
    resolve (correctWalks s1 r.ctx [wrap 27 (slotAddr r.ctx j - 40)]) r.who .write (wrap 27 (slotAddr r.ctx j - 40))
      = .ok (.dev n) leaf →
    let x := ti.atPart r
    let words := recordWords r s x pc ws (0, 0) 1 1 0
    let t := takeTrap s r ti pc ws
    ∃ r', t.issue = none ∧ t.run r.id = some r' ∧ r'.gang.trapEnable = 0 ∧ r'.part.wait = .ready
      ∧ r'.part.handling = some (slotAddr r.ctx j) ∧ r'.part.trapped = r.part.slices ∧ r'.part.claims = [] ∧ r'.part.stepping = 0
      ∧ (∀ i, r'.gang.slices[i]? = (r.gang.slices[i]?).map fun y => if i ∈ r.part.slices then
            { y with e := [x.code, x.sub, pc, x.addr, x.lanes, ws.1, ws.2.1, ws.2.2, slotAddr r.ctx j]
                     frec := words, log := x.log, pc := r.ctx.handler, issued := none }
          else y)
      ∧ (∀ o, regLanes r' .t27 o = regLanes r .t27 o)
      ∧ (∀ m, m < 81 → pteNonet leaf.toList (.dev (n + m)) = false →
          memNonet t.mem (n + m) = nonetOf (words.getD (m / 3) 0) (m % 3))
      ∧ (∀ k, k < n ∨ n + 81 ≤ k → pteNonet leaf.toList (.dev k) = false → unversioned s1 k →
          memNonet t.mem k = memNonet s1.mem k)
      ∧ r'.ctx.lastSlot = some j ∧ r'.ctx.lastRecord = r.ctx.nextRecord
      ∧ r'.ctx.nextRecord = wrap 27 (r.ctx.nextRecord + 1))
    ∧ (∀ (s s1 : State) (w : Who) (x : Option (Option Nat)), s.flips = [] → s.verFlips = [] →
      (∀ b ∈ s.bands, b.version = [] ∧ b.verPoison = []) → chooseSlot s w = (s1, x) →
      { s1 with mem := s.mem, gens := s.gens, verTags := s.verTags } = s
        ∧ ∀ k, (∀ i, i < w.ctx.slots → ∀ l, walk s w.ctx (wrap 27 (slotAddr w.ctx i - 40)) = .leaf l →
            pteNonet [l] (.dev k) = false) → memNonet s1.mem k = memNonet s.mem k)
    ∧ ∀ (s : State) (r : Run) (ti : TrapInfo) (pc : Word) (ws : Word × Word × Word), s.run r.id = some r →
      (r.gang.trapEnable = 0 ∨ dispositionOf r.ctx ti.code = 0) → Stopped s (takeTrap s r ti pc ws) r.kern

/-- R398, R384: TRAP takes trap 13 with its immediate as sub-code, A in e3 and every lane of the part in e4; a trap
that waited for a free slot is taken, as the instruction that raised it was, once the event says that one is free. Of
the model's choice: log 78. -/
def Obligations.TrapResult : Prop :=
  (∀ (f : Fields) (s : State) (r : Run), Clear s r .trap f → r.band.pair = none →
    exec (.trap f) s = .next (takeTrap s r { code := 13, sub := f.imm, addr := readWord r s 0 f.a, lanes := partLanes r }
      r.pc (encodeW0 .trap f, encodeW1 f, encodeW2 .trap f)))
    ∧ ∀ (s : State) (r : Run) (ti : TrapInfo) (pc : Word) (ws : Word × Word × Word), Waits s r (.faultSlot ti pc ws) →
      exec (.faultSlotFreed r.id) s = .next { takeTrap s r ti pc ws with issue := none }

/-- R386, R387, R399: TRET and TRET.SKIP in the handler of the part close its record with outcome +1 or −1, set
trap-enable, and send each slice to e2, or 9 past it; a slice in a capsule goes to its CAP.ENTER. No other register
changes. Where the record names a stalled node, it runs again or is finished, and the batch wait issues again. Of the
model's choice: log 26, 50. -/
def Obligations.ReturnResult : Prop :=
  (∀ (i : Instr) (op : Op) (f : Fields) (s : State) (r : Run) (skip : Bool) (a : Word) (j : Nat) (leaf : Option Leaf),
    codedOf i = some (op, f) → i = (if skip then .tretSkip f else .tret f) → Clear s r op f → r.band.copy = .unpaired →
    tretFault r = none → faultNode r = none → openRecord r.part = some a →
    resolve (correctWalks s r.ctx [wrap 27 (a - 40)]) r.who .write (wrap 27 (a - 40)) = .ok (.dev j) leaf → unversioned s j ∧ unversioned s (j + 1) ∧ unversioned s (j + 2) →
    ∃ t r', exec i s = .next t ∧ t.issue = none ∧ t.run r.id = some r' ∧ r'.gang.trapEnable = 1 ∧ r'.part.wait = .ready
      ∧ r'.part.handling = none ∧ r'.part.trapped = [] ∧ r'.part.claims = []
      ∧ r'.part.stepping = (if r.gang.step = 1 then 2 else 0)
      ∧ (∀ n, r'.gang.slices[n]? = (r.gang.slices[n]?).map fun x => if n ∈ r.part.slices then returnSlice skip x else x)
      ∧ (∀ o, regLanes r' .t27 o = regLanes r .t27 o)
      ∧ (∀ m, m < 3 → pteNonet leaf.toList (.dev (j + m)) = false → memNonet t.mem (j + m)
          = nonetOf (setField (setField (devWord s j) 26 1 (-1)) 23 2 (if skip then -1 else 1)) m)
      ∧ ∀ n, n < j ∨ j + 3 ≤ n → unversioned s n → pteNonet leaf.toList (.dev n) = false → memNonet t.mem n = memNonet s.mem n)
    ∧ ∀ (i : Instr) (op : Op) (f : Fields) (s : State) (r : Run) (skip : Bool) (a : Word) (j n : Nat) (leaf : Option Leaf),
      codedOf i = some (op, f) → i = (if skip then .tretSkip f else .tret f) → Clear s r op f → r.band.copy = .unpaired →
      r.band.pair = none → tretFault r = none → faultNode r = some n → openRecord r.part = some a →
      resolve (correctWalks s r.ctx [wrap 27 (a - 40)]) r.who .write (wrap 27 (a - 40)) = .ok (.dev j) leaf →
      let stalled (x : Node) : Bool := x.state == .stalled
      ∃ t r', exec i s = .next t ∧ t.issue = none ∧ t.run r.id = some r' ∧ r'.gang.trapEnable = 1 ∧ r'.part.wait = .ready
        ∧ r'.part.handling = none
        ∧ (∀ k, r'.gang.slices[k]? = (r.gang.slices[k]?).map fun x => if k ∈ r.part.slices then returnSlice false x else x)
        ∧ nodeOf r'.band n = (if (nodeOf r.band n).any stalled = false then nodeOf r.band n
            else if skip = true then none
            else (nodeOf r.band n).map fun x => { x with state := .running, fault := none })

/-- R62, R139, R192, R385: EXIT ends the slices of the part; the gang's other parts stay, and with none left the gang
has exited. In a handler it closes the open record with outcome −2. The end of a gang with a stalled node that no
batch wait has raised stops the kernel with code 16, sub-code 4. -/
def Obligations.ExitResult : Prop :=
  (∀ (f : Fields) (s : State) (r : Run), Clear s r .exit f → openRecord r.part = none →
    let left := r.gang.parts.filter fun q => q.slices.head? != some r.id.part
    (left = [] → unwaitedFault r.band r.id.gang = none) →
    ∃ t g, exec (.exit f) s = .next t ∧ t.issue = none ∧ DeviceKept s t ∧ (∀ u, u ≠ r.id.band → t.band u = s.band u)
      ∧ gangIn t r = some g
      ∧ (∀ j, g.slices[j]? = (r.gang.slices[j]?).map fun x =>
          if j ∈ r.part.slices then { x with live := false, cap := none } else x)
      ∧ g.parts.map (·.slices) = left.map (·.slices)
      ∧ g.residence = (if left = [] then .exited else r.gang.residence)
      ∧ g = { r.gang with slices := g.slices, parts := g.parts, residence := g.residence })
    ∧ (∀ (f : Fields) (s : State) (r : Run) (a : Word) (j : Nat) (leaf : Option Leaf), Clear s r .exit f →
      r.part.wait = .ready → r.part.handling = some a → r.band.copy ≠ .trailing → unwaitedFault r.band r.id.gang = none →
      resolve (correctWalks s r.ctx [wrap 27 (a - 40)]) r.who .write (wrap 27 (a - 40)) = .ok (.dev j) leaf →
      unversioned s j ∧ unversioned s (j + 1) ∧ unversioned s (j + 2) →
      ∃ t g, exec (.exit f) s = .next t ∧ t.issue = none ∧ gangIn t r = some g
        ∧ (∀ i, g.slices[i]? = (r.gang.slices[i]?).map fun x =>
            if i ∈ r.part.slices then { x with live := false, cap := none } else x)
        ∧ (∀ q ∈ g.parts, q.handling ≠ some a)
        ∧ (∀ m, m < 3 → pteNonet leaf.toList (.dev (j + m)) = false → memNonet t.mem (j + m)
            = nonetOf (setField (setField (devWord s j) 26 1 (-1)) 23 2 (-2)) m)
        ∧ ∀ n, n < j ∨ j + 3 ≤ n → unversioned s n → pteNonet leaf.toList (.dev n) = false → memNonet t.mem n = memNonet s.mem n)
    ∧ ∀ (f : Fields) (s : State) (r : Run) (ti : TrapInfo), Clear s r .exit f → openRecord r.part = none →
      (∀ q ∈ r.gang.parts, q.slices.head? = some r.id.part) → unwaitedFault r.band r.id.gang = some ti → owes s r = false →
      let s1 := r.modGang s fun g => unmarkRegang (exitSlices (recordClosed none g) r.id.part)
      exec (.exit f) s = .next (freeSlot (stopWithRecord s1 r { ti with code := 16, sub := 4 } r.pc (0, 0, 0) (0, 0) none))
        ∧ Stopped s (freeSlot (stopWithRecord s1 r { ti with code := 16, sub := 4 } r.pc (0, 0, 0) (0, 0) none)) r.kern

/-- R338, R388, R400, R427: TKILL, a watchdog that expires, and a stop that no gang causes stop the kernel.
Of the model's choice: log 28, 29. -/
def Obligations.StopResult : Prop :=
  (∀ (f : Fields) (s : State) (r : Run), Clear s r .tkill f →
    ∃ t, exec (.tkill f) s = .next t ∧ t.issue = none ∧ Stopped s t r.kern)
    ∧ (∀ (s : State) (k : Kernel) (code sub : Int), s.kernel k.uid = some k → (s.context k.context).isSome = true →
      (code = 16 ∧ sub = 3 ∨ code = 15 ∧ sub = 8 ∧ (livePlanes s).isEmpty = true) →
      ∃ t, exec (.kernelStop k.uid code sub) s = .next t ∧ Stopped s t k)
    ∧ ∀ (s : State) (r : Run), s.issue = none → watchdogDue r.kern r.gang = true →
      (∀ q ∈ s.reqs, q.part.band = r.id.band → q.kind ≠ .atomic) →
      (s.band r.id.band).bind (fun b => (gangRuns s b r.id.gang).head?) = some r →
      ∃ t, exec (.watchdogExpiry r.id.band r.id.gang) s = .next t ∧ Stopped s t r.kern

/-! ### Mapping and keys -/

/-- R378, R394 to R396: MAP and UNMAP of an entry that the walk reaches, and whose new value passes the checks, give D
the old entry and write the new one; every translation register of the context's gangs becomes empty; no other nonet
of memory and no other register changes. With acknowledgements outstanding or confirmations awaited they wait, and
MAP_COMPLETE does so once the acknowledgements have returned; it commits first the version that the stores on their
way at issue have entered. Of an entry that has been poisoned meanwhile nothing is said here (R412). PKSET gives a key
of the issuing context its permission at once, and no other key, context or register changes; where it waits for the
cores, PKSET_COMPLETE lets the part go on. Of the model's choice: log 7, 9, 52. -/
def Obligations.MapResult : Prop :=
  ((∀ (i : Instr) (op : Op) (f : Fields) (s : State) (r : Run) (slot : Nat) (v : Word),
    codedOf i = some (op, f) → mapEntry i r s = some v → Clear s r op f → r.gang.parted = false → isUni f.d = true →
    r.band.pair = none → r.band.copy = .unpaired → 0 ≤ field (readWord r s 0 f.a) 25 2 →
    let s1 := correctMapWalk s r.ctx (readWord r s 0 f.a) (mapLevel f)
    mapWalk s1 r.ctx (readWord r s 0 f.a) (mapLevel f) = .entry slot → pteKind (devWord s slot) ≠ 0 →
    let s2 := openWords (commitVersion s1 r.id.band false) [slot, slot + 1, slot + 2]
    (s.slow = false → r.gang.acks = 0 → entryBad s2 slot = false →
      ∃ t r', exec i s = .next t ∧ t.issue = none ∧ t.run r.id = some r' ∧ r'.part.wait = .ready ∧ Mapped s2 s t r r' slot v f.d)
    ∧ (s.slow = true ∨ r.gang.acks ≠ 0 → ∃ t r' d, exec i s = .next t ∧ t.issue = none ∧ t.run r.id = some r' ∧ f.d = .uni d
      ∧ r'.part.wait = .map (mapLevel f) slot v d (readWord r s 0 f.a) (decide (r.gang.acks = 0)) ∧ r'.gang.slices = r.gang.slices ∧ ∀ o, regLanes r' .t27 o = regLanes r .t27 o))
    ∧ ∀ (s : State) (r : Run) (level slot d : Nat) (v a : Word) (landed : Bool), Waits s r (.map level slot v d a landed) →
      r.band.pair = none → r.gang.acks = 0 →
      let s2 := openWords (if landed then s else commitVersion s r.id.band false) [slot, slot + 1, slot + 2]
      entryBad s2 slot = false →
      ∃ t r', exec (.mapComplete r.id) s = .next t ∧ t.run r.id = some r' ∧ r'.part.wait = .ready
        ∧ Mapped s2 s t r r' slot v (.uni d))
    ∧ ((∀ (f : Fields) (s : State) (r : Run) (k : Nat), Clear s r .pkset f → r.band.pair = none → r.band.copy = .unpaired →
    readWord r s 0 f.a + f.imm = k → k ≤ 80 → -1 ≤ readWord r s 1 f.b ∧ readWord r s 1 f.b ≤ 1 →
    (s.slow = false → ∃ t r', exec (.pkset f) s = .next t ∧ Committed s t r r' ∧ SlicesStep r r'
      ∧ KeySet s t r r' k (readWord r s 1 f.b))
    ∧ (s.slow = true → ∃ t r', exec (.pkset f) s = .next t ∧ t.issue = none ∧ t.run r.id = some r'
      ∧ r'.part.wait = .pkset k (readWord r s 1 f.b) ∧ r'.gang.slices = r.gang.slices
      ∧ KeySet s t r r' k (readWord r s 1 f.b)))
    ∧ ∀ (s : State) (r : Run) (k : Nat) (v : Int), Waits s r (.pkset k v) → r.band.pair = none →
      ∃ t r', exec (.pksetComplete r.id) s = .next t ∧ OnlyAdvances s t r r')

/-! ### Recovery -/

/-- R302, R429: COMMIT of a versioned launch writes the band's version to base memory and empties it; every nonet
reads to the band as before, and no register changes. -/
def Obligations.CommitResult : Prop :=
  ∀ (f : Fields) (s : State) (r : Run), Clear s r .commit f → r.kern.launch.versioned = true →
    ∃ t r', exec (.commit f) s = .next t ∧ Committed s t r r' ∧ ReadsKept s t r r' ∧ SlicesStep r r'
      ∧ r'.band.version = [] ∧ r'.band.committed = true
      ∧ (∀ j, memNonet t.mem j = peek s r.who (.dev j))
      ∧ r'.gang = { r.gang with slices := r'.gang.slices, parts := r'.gang.parts } ∧ r'.part.hist = r.part.hist
      ∧ { r'.band with gangs := r.band.gangs, version := r.band.version, verPoison := r.band.verPoison,
                       verClean := r.band.verClean, committed := r.band.committed } = r.band
      ∧ { t with mem := s.mem, gens := s.gens, poison := s.poison, verTags := s.verTags, codeOld := s.codeOld,
                 homes := s.homes, flips := s.flips, verFlips := s.verFlips, bands := s.bands, issue := s.issue, free := s.free } = s

/-- R407, R411, R431: with the context's permission EINJ.CORR alters a trit of its target word, in the version line
where the band's version holds its line, EINJ.UNC poisons its sector there or at the home, or its scratchpad word,
EINJ.LINK marks the next flit with which the gang sends a request to its home, which then fails and is replayed (R409),
and EINJ.SIG adds to a trailing copy's signature; without it they trap with code 1, sub-code 21. Of the model's choice:
log 19, 54, 55, 118. -/
def Obligations.InjectResult : Prop :=
  (∀ (f : Fields) (s : State) (r : Run) (p : Place) (ps : List Place) (ls : List Leaf), Clear s r .einjCorr f →
    r.ctx.inject = 1 → 0 ≤ readWord r s 1 f.b ∧ readWord r s 1 f.b ≤ 26 →
    let s1 := walkedState s r (einjElems f r s)
    checkElems s1 r.who none .einjStore true (einjElems f r s) = .ok [p :: ps] ls →
    ∃ t r', exec (.einjCorr f) s = .next t ∧ t.issue = none ∧ t.run r.id = some r' ∧ Injected s t r r' ls
      ∧ (match p with
        | .dev j => if versionHolds s r.id.band j = true
            then (versionUid s r.id.band, j / 3, (readWord r s 1 f.b).toNat) ∈ t.verFlips
            else (Place.dev (j / 3), (readWord r s 1 f.b).toNat) ∈ t.flips
        | _ => (wordPlace p, (readWord r s 1 f.b).toNat) ∈ t.flips)
      ∧ ((∀ b ∈ s.bands, b.uid ≠ r.id.band → b.version = [] ∧ b.verPoison = []) → ∀ x ∈ s1.flips, x ∈ t.flips))
    ∧ (∀ (f : Fields) (s : State) (r : Run) (p : Place) (ps : List Place) (ls : List Leaf), Clear s r .einjUnc f →
      r.ctx.inject = 1 →
      (r.kern.launch.versioned = false → (versionOf s r.band).version = [] ∧ (versionOf s r.band).verPoison = []) →
      checkElems (walkedState s r (einjElems f r s)) r.who none .einjStore true (einjElems f r s) = .ok [p :: ps] ls →
      ∃ t r', exec (.einjUnc f) s = .next t ∧ t.issue = none ∧ t.run r.id = some r' ∧ Injected s t r r' ls
        ∧ match p with
          | .dev j => if versionHolds s r.id.band j = true
              then ∀ b, t.band (versionUid s r.id.band) = some b → sectorOf j ∈ b.verPoison
              else sectorOf j ∈ t.poison
          | .scr u n _ => ∀ b, t.band u = some b → n / 3 ∈ b.scrPoison
          | _ => True)
    ∧ (∀ (f : Fields) (s : State) (r : Run) (j : Nat) (ps : List Place) (ls : List Leaf), Clear s r .einjLink f →
      r.ctx.inject = 1 →
      checkElems (walkedState s r (einjElems f r s)) r.who none .einjLoad true (einjElems f r s) = .ok [.dev j :: ps] ls →
      ∃ t r', exec (.einjLink f) s = .next t ∧ t.issue = none ∧ t.run r.id = some r' ∧ Injected s t r r' ls
        ∧ (r.id.band, r.id.gang, homeOf j) ∈ t.linkFails ∧ ∀ x, x ∈ s.linkFails → x ∈ t.linkFails)
    ∧ (∀ (s : State) (w : Who) (j : Nat), (w.band.uid, w.gang, homeOf j) ∈ s.linkFails →
      let m := moduleOf (dieOf (w.band.core.getD 0)) (planeOf s j)
      let t := linkFault s w [.dev j]
      t.uci m = { s.uci m with replays := satCount ((s.uci m).replays + 1), inPeriod := (s.uci m).inPeriod + 1 }
        ∧ (w.band.uid, w.gang, homeOf j) ∉ t.linkFails)
    ∧ (∀ (f : Fields) (s : State) (r : Run), Clear s r .einjSig f → r.ctx.inject = 1 →
      ∃ t r', exec (.einjSig f) s = .next t ∧ Committed s t r r' ∧ DeviceKept s t ∧ SlicesStep r r'
        ∧ r'.band = { r.band with
            gangs := r'.band.gangs, pair := if r.band.copy = .trailing then r.band.pair.map injectSig else r.band.pair })
    ∧ ∀ (i : Instr) (op : Op) (f : Fields) (s : State) (r : Run), codedOf i = some (op, f) →
      (i = .einjCorr f ∨ i = .einjUnc f ∨ i = .einjLink f ∨ i = .einjSig f) → Clear s r op f → r.band.pair = none →
      r.ctx.inject ≠ 1 →
      exec i s = .next (takeTrap s r { code := 1, sub := 21 } r.pc (encodeW0 op f, encodeW1 f, encodeW2 op f))

/-! ### Engine nodes -/

/-- R178 to R181, R187, R193, R196: COPY, CMPB and BIN whose records pass every check, and MMUL.NODE whose handles do,
create a node and give D its serial number. The node runs at once with no predecessors and no hold. A follow-on takes
a p slot of its target (R190), and a dithering copy a dither phase. Of the model's choice: log 35, 77. -/
def Obligations.NodeCreated : Prop :=
  (∀ (i : Instr) (op : Op) (f : Fields) (s s1 : State) (r : Run) (named : List Named) (mis : Bool) (shapes : List Shape)
    (o : NodeOpts) (kind : NodeKind), codedOf i = some (op, f) → Clear s r op f → r.gang.parted = false → isUni f.d = true →
    r.band.pair = none → r.band.copy = .unpaired → (∀ n ∈ r.band.nodes, n.serial < r.band.nextSerial) →
    r.band.nodes.length < 243 → namedRecords i r s = some (named, mis) →
    (∀ k, withRecords r s named mis k = k s1 shapes) → nodeRequest i r s shapes = some (o, kind) →
    ∃ r1 t r', s1.run r.id = some r1 ∧ r1.gang = r.gang ∧ exec i s = .next t ∧ Committed s1 t r1 r'
      ∧ UniWritten f.d r.band.nextSerial r1 r' ∧ r'.band.nextSerial = r.band.nextSerial + 1
      ∧ r'.band.nodes = (r.band.nodes.map fun m =>
            if o.follow = 1 ∧ m.serial = (readWord r s 2 f.c).toNat then { m with linked := m.linked + 1 } else m)
          ++ [freshNode r f o kind (some r.gang.batch)]
      ∧ r'.gang.dither = (if o.dither = 1 then (r.gang.dither + 1) % 27 else r.gang.dither)
      ∧ GangKept (stickyOf r.gang) r1 r' ∧ { t with bands := s1.bands, issue := s1.issue, free := s1.free } = s1)
    ∧ ∀ (f : Fields) (s : State) (r : Run) (m : MatArgs), Clear s r .mmulNode f → r.gang.parted = false → isUni f.d = true →
      r.band.nodes.length < 243 →
      let o := nodeOpts f.imm
      badOpts { o with low := trit f.imm 0 } = false →
      o.bins = 0 ∧ o.fp = 0 ∧ o.follow = 0 ∧ o.dither = 0 →
      matArgs s r f (readWord r s 0 f.a) (readWord r s 1 f.b) (readWord r s 2 f.c) = .ok m →
      ∃ t r', exec (.mmulNode f) s = .next t ∧ Committed s t r r' ∧ UniWritten f.d r.band.nextSerial r r'
        ∧ r'.band.nextSerial = r.band.nextSerial + 1
        ∧ r'.band.nodes = ((r.band.nodes ++ [freshNode r f o (.matrix f (readWord r s 0 f.a) (readWord r s 1 f.b)
            (readWord r s 2 f.c)) none]).map fun n => if n.serial = r.band.nextSerial then { n with progress := m.skip } else n)
        ∧ { t with bands := s.bands, cores := s.cores, issue := s.issue, free := s.free } = s

/-- R181, R182, R194, R195: LINK gives a successor a predecessor, or its decrement at once where the predecessor has
finished, which counts as one of that node's successors; RELS starts or queues a held node and gives D 1, else 0. -/
def Obligations.GraphResult : Prop :=
  (∀ (f : Fields) (s : State) (r : Run) (na : Option Node) (nb : Node) (a b : Nat), Clear s r .link f →
    readWord r s 0 f.a = a → readWord r s 1 f.b = b → serialNode r.band a = some na → serialNode r.band b = some (some nb) →
    (nb.state = .held ∨ nb.state = .queued) → nb.linked < nb.need → successorsFull r.band a na = false →
    let join (n : Node) : Node := if n.serial = b then { n with linked := n.linked + 1 } else n
    let give (n : Node) : Node :=
      if na.isSome then (if n.serial = a then { n with succs := n.succs ++ [b] } else n)
      else if n.serial = b then decrementNode n else n
    ∃ t r', exec (.link f) s = .next t ∧ Committed s t r r' ∧ ReadsKept s t r r' ∧ SlicesStep r r'
      ∧ r'.band = { r.band with
          gangs := r'.band.gangs, nodes := r.band.nodes.map fun n => give (join n)
          succCounts := if na.isSome then r.band.succCounts
            else smapSet 0 r.band.succCounts a (smapGet 0 r.band.succCounts a + 1)
          starts := r'.band.starts }
      ∧ r'.gang = { r.gang with slices := r'.gang.slices, parts := r'.gang.parts } ∧ r'.part.hist = r.part.hist
      ∧ { t with bands := s.bands, cores := s.cores, issue := s.issue, free := s.free } = s)
    ∧ ∀ (f : Fields) (s : State) (r : Run) (na : Option Node) (a : Nat), Clear s r .rels f → r.gang.parted = false →
      isUni f.d = true → readWord r s 0 f.a = a → serialNode r.band a = some na →
      let held : Bool := na.any fun n => n.state == .held
      let start (n : Node) : Node :=
        if held = true ∧ n.serial = a then { n with state := if n.need ≤ n.got then .running else .queued } else n
      ∃ t r', exec (.rels f) s = .next t ∧ Committed s t r r' ∧ ReadsKept s t r r'
        ∧ UniWritten f.d (if held = true then 1 else 0) r r'
        ∧ r'.band = { r.band with gangs := r'.band.gangs, nodes := r.band.nodes.map start, starts := r'.band.starts }
        ∧ { t with bands := s.bands, cores := s.cores, issue := s.issue, free := s.free } = s

/-- R181, R182, R190, R192: a running node whose data has moved finishes and decrements its follow-on target and its
successors, which start when they have all their decrements; the copy engine may give the follow-on decrement first; a
node that faults stalls with its fault; one whose context is throttled pauses before its next element (R337).
Of the model's choice: log 27, 36, 93, 112. -/
def Obligations.NodeEnds : Prop :=
  (∀ (s s1 : State) (r : Run) (n m : Node) (b1 : Band), runningNode s r.id.band n.serial = some (r, n) →
    runNode r n s = .ok s1 () → s1.band r.id.band = some b1 → b1.pair = none → nodeOf b1 n.serial = some m →
    ∃ t b', exec (.nodeFinish r.id.band n.serial) s = .next t ∧ t.band r.id.band = some b' ∧ nodeOf b' n.serial = none
      ∧ (∀ k, k ≠ n.serial → nodeOf b' k = (nodeOf b1 k).map
          (decremented ((if pendingFollow m = some k then 1 else 0) + (m.succs.filter (· == k)).length)))
      ∧ (∀ k, k ∈ b'.openSlots ↔ k ∈ b1.openSlots ∨ k = n.serial ∧ m.linked < m.need)
      ∧ b'.succCounts = smapSet 0 b1.succCounts n.serial m.succs.length
      ∧ { b' with nodes := b1.nodes, openSlots := b1.openSlots, succCounts := b1.succCounts, starts := b1.starts } = b1
      ∧ { t with bands := s1.bands, cores := s1.cores } = s1)
    ∧ (∀ (s s1 : State) (r : Run) (n : Node) (b1 : Band) (k : Nat), runningNode s r.id.band n.serial = some (r, n) →
      pendingFollow n = some k → runNode r n s = .ok s1 () → s1.band r.id.band = some b1 →
      let note (m : Nat) (x : Node) : Node := if m = n.serial then { x with moved := true, followed := true } else x
      ∃ t b', exec (.followOnDecrement r.id.band n.serial) s = .next t ∧ t.band r.id.band = some b'
        ∧ (∀ m, nodeOf b' m = (nodeOf b1 m).map fun x => decremented (if m = k then 1 else 0) (note m x))
        ∧ { b' with nodes := b1.nodes, starts := b1.starts } = b1 ∧ { t with bands := s1.bands, cores := s1.cores } = s1)
    ∧ (∀ (s s1 : State) (r : Run) (n : Node) (b1 : Band) (ti : TrapInfo), runningNode s r.id.band n.serial = some (r, n) →
      runNode r n s = .fault ti s1 → r.gang.residence ≠ .exited → s1.band r.id.band = some b1 →
      ∃ t b', exec (.nodeFault r.id.band n.serial) s = .next t ∧ t.band r.id.band = some b'
        ∧ (∀ k, nodeOf b' k = (nodeOf b1 k).map fun x =>
            if k = n.serial then { x with state := .stalled, fault := some { ti with node := n.serial } } else x)
        ∧ { b' with nodes := b1.nodes, starts := b1.starts } = b1 ∧ { t with bands := s1.bands, cores := s1.cores } = s1)
    ∧ ∀ (s : State) (r : Run) (n : Node) (shape : Shape) (body : Nat → List Int → State → NodeStep (List Int))
      (fuel i : Nat) (acc : List Int), copyAllowed s r = false → runElems r n shape body (fuel + 1) i acc s = .wait s

/-! ### The matrix engine -/

/-- R265 to R267: AZERO zeroes the tile that its handle names; ARD gives each lane the tile's word at its index, 0
outside the tile; AWR writes each lane's word into the tile. That the engine performs at once where latencies are not
shown is the model's choice: log 7. -/
def Obligations.TileResult : Prop :=
  ∀ (s : State) (r : Run) (f : Fields) (t n p : Nat), accHandle r.band (readWord r s 0 f.a) = some (t, n, p) →
    r.band.pair = none → EngineReady s r →
    let t0 := readWord r s 1 f.b
    let inside (l : Nat) : Bool := decide (0 ≤ t0 + l) && decide (t0 + l < 27 * n)
    (Clear s r .azero f → ∃ s' r', exec (.azero f) s = .next s' ∧ EngineDone s s' r r' 0 ∧ AllRegsKept r r'
      ∧ (∀ k, tileWord r'.band t k = if k < 27 * n then 0 else tileWord r.band t k)
      ∧ (∀ u, u ≠ t → tileOf r'.band u = tileOf r.band u)
      ∧ r'.band = { r.band with gangs := r'.band.gangs, tiles := r'.band.tiles })
    ∧ (Clear s r .ard f → isVectorDest f.d = true →
      (∀ l, lanesOf r.part.slices l = true → inside l = true → (t0 + l).toNat ∉ (tileOf r.band t).poison) →
      let e := laneEffects (lanesOf r.part.slices) (ardValue f r.band t n t0)
      ∃ s' r', exec (.ard f) s = .next s' ∧ EngineDone s s' r r' e.invalid
        ∧ VectorWritten f.d (lanesOf r.part.slices) (fun l => (ardValue f r.band t n t0 l).1) r r'
        ∧ GangKept (stickyAfter r.gang e) r r'
        ∧ r'.band = { r.band with gangs := r'.band.gangs, counts := countsAfter r.band (tidOf f) e })
    ∧ (Clear s r .awr f → ∃ s' r', exec (.awr f) s = .next s' ∧ EngineDone s s' r r' 0 ∧ AllRegsKept r r'
      ∧ (∀ k, tileWord r'.band t k =
          match (List.range 27).find? fun l => lanesOf r.part.slices l && inside l && (t0 + l).toNat == k with
          | some l => lane (readLanes r s .t27 2 f.c) l
          | none => tileWord r.band t k)
      ∧ (∀ u, u ≠ t → tileOf r'.band u = tileOf r.band u)
      ∧ r'.band = { r.band with gangs := r'.band.gangs, tiles := r'.band.tiles })

/-- R268, R407: ASAVE writes the words of a tile into the band's scratchpad, and ARST reads them back, corrected;
nothing outside the area or the tile changes. Of the model's choice: log 7. -/
def Obligations.SaveResult : Prop :=
  ∀ (s : State) (r : Run) (f : Fields) (t n p h : Nat), accHandle r.band (readWord r s 0 f.a) = some (t, n, p) →
    scrHandle r.kern.launch.scratch (readWord r s 1 f.b) (81 * n) = some h → r.band.pair = none → EngineReady s r →
    (Clear s r .asave f → ∃ s' r', exec (.asave f) s = .next s' ∧ EngineWrote s s' r r' 0 ∧ AllRegsKept r r'
      ∧ (∀ k, k < 81 * n → smapGet 0 r'.band.scratch (h + k)
          = nonetOf ((smapRange (tileOf r.band t).words 0 (27 * n)).getD (k / 3) 0) (k % 3))
      ∧ (∀ k, k < h ∨ h + 81 * n ≤ k → smapGet 0 r'.band.scratch k = smapGet 0 r.band.scratch k)
      ∧ r'.band = { r.band with gangs := r'.band.gangs, scratch := r'.band.scratch, scrPoison := r'.band.scrPoison })
    ∧ (Clear s r .arst f → ∃ s' r', exec (.arst f) s = .next s'
      ∧ EngineWrote (correctScratch s r.id.band h (81 * n)) s' r r' 0 ∧ AllRegsKept r r'
      ∧ smapRange (tileOf r'.band t).words 0 (27 * n) = words3 (smapRange r.band.scratch h (81 * n))
      ∧ (∀ k, 27 * n ≤ k → tileWord r'.band t k = tileWord r.band t k)
      ∧ (∀ u, u ≠ t → tileOf r'.band u = tileOf r.band u)
      ∧ r'.band = { r.band with gangs := r'.band.gangs, tiles := r'.band.tiles, scrPoison := r'.band.scrPoison })

/-- R212, R269, R270: BQNT writes the codes and then the scales of each block of its source, BDQ the elements that
codes and scales stand for; the source's words are corrected as they are read (R407), dithering uses the gang's phase
at issue (R211), and nothing outside the destination changes. Of the model's choice: log 7, 43. -/
def Obligations.BlockResult : Prop :=
  ∀ (s : State) (r : Run) (f : Fields) (rows a b : Nat), r.band.pair = none → EngineReady s r →
    (Clear s r .bqnt f → blockArgs r s f (rowExtent f.ty) 30 = .ok (rows, a, b) →
      let s1 := correctScratch s r.id.band a (rows * rowExtent f.ty)
      blockPoison s1 r a (rows * rowExtent f.ty) = none →
      let src := elemsOf f.ty (smapRange r.band.scratch a (rows * rowExtent f.ty))
      let bs := (groupsOf 27 (3 * rows) src).map fun g =>
        quantiseBlock (fmtOf f.ty) g (ditherFrom (engineAt s r r.gang.dither).1 (f.var == 1))
      let out := nonetsOf .t27 (codeWords (bs.flatMap (·.2.1))) ++ bs.map (·.1)
      let e := Effects.sum (bs.map (·.2.2))
      ∃ s' r', exec (.bqnt f) s = .next s' ∧ EngineWrote s1 s' r r' e.invalid ∧ AllRegsKept r r'
        ∧ (∀ k, k < 30 * rows → smapGet 0 r'.band.scratch (b + k) = out.getD k 0)
        ∧ (∀ k, k < b ∨ b + 30 * rows ≤ k → smapGet 0 r'.band.scratch k = smapGet 0 r.band.scratch k)
        ∧ stickyOf r'.gang = stickyAfter r.gang e
        ∧ r'.gang.dither = (if f.var = 1 then (r.gang.dither + 1) % 27 else r.gang.dither)
        ∧ r'.band = { r.band with gangs := r'.band.gangs, scratch := r'.band.scratch, scrPoison := r'.band.scrPoison
                                  counts := countsAfter r.band (tidOf f) e })
    ∧ (Clear s r .bdq f → f.ty ≠ .l3 → blockArgs r s f 30 (rowExtent f.ty) = .ok (rows, a, b) →
      let s1 := correctScratch s r.id.band a (30 * rows)
      blockPoison s1 r a (30 * rows) = none →
      let ns := smapRange r.band.scratch a (30 * rows)
      let codes := groupsOf 27 (3 * rows) (elemsOf .l3 (ns.take (27 * rows)))
      let scales := (ns.drop (27 * rows)).map (fval fmt9)
      let es := (codes.zip scales).flatMap fun x => x.1.map fun c => l3TimesFloat (fmtOf f.ty) f.clamp f.scale c x.2
      let e := { Effects.sum (es.map (·.2)) with invalid := signallers scales }
      ∃ s' r', exec (.bdq f) s = .next s' ∧ EngineWrote s1 s' r r' e.invalid ∧ AllRegsKept r r'
        ∧ (∀ k, k < rows * rowExtent f.ty → smapGet 0 r'.band.scratch (b + k) = (nonetsOf f.ty (es.map (·.1))).getD k 0)
        ∧ (∀ k, k < b ∨ b + rows * rowExtent f.ty ≤ k → smapGet 0 r'.band.scratch k = smapGet 0 r.band.scratch k)
        ∧ stickyOf r'.gang = stickyAfter r.gang e ∧ r'.gang.dither = r.gang.dither
        ∧ r'.band = { r.band with gangs := r'.band.gangs, scratch := r'.band.scratch, scrPoison := r'.band.scrPoison
                                  counts := countsAfter r.band (tidOf f) e })

/-- R257, R259, R261, R262: MMUL performs its remaining steps and leaves its handle with progress 0 in D; one step
gives each accumulator element of its 27 columns what the chunks of the rows add to it. MMUL_STEP performs one step of
the multiply at the head of the engine, and ENGINE_COMMAND_READY lets the part whose command is first issue again. Of
the model's choice: log 7, 42, 43. -/
def Obligations.MultiplyResult : Prop :=
  (∀ (f : Fields) (s s1 : State) (r : Run) (m : MatArgs) (a : List Int), Clear s r .mmul f → r.gang.parted = false →
    isUni f.d = true → r.band.pair = none → EngineReady s r → trit f.imm 0 = 0 →
    matArgs s r f (readWord r s 0 f.a) (readWord r s 1 f.b) (readWord r s 3 f.d) = .ok m →
    let x := engineAt s r m.skip
    (x.1 < m.n / 27 → absentPlace s r.who m = none) → matSteps r f m (m.n / 27 - x.1) x.1 x.2 s = .ok s1 a →
    ∃ t r' b1, exec (.mmul f) s = .next t ∧ t.issue = none ∧ t.run r.id = some r' ∧ r'.part.wait = .ready
      ∧ UniWritten f.d (setField (readWord r s 3 f.d) 12 4 0) r r' ∧ s1.band r.id.band = some b1
      ∧ { r'.band with gangs := b1.gangs } = b1 ∧ t.mem = s1.mem)
    ∧ (∀ (f : Fields) (s s1 s2 : State) (r : Run) (m : MatArgs) (k : Nat) (a a1 b : List Int) (band : Band),
      (if a.isEmpty = true then loadRows s r.who f.ty m.pa m.ha 27 0 27 = .ok s1 a1 else s1 = s ∧ a1 = a) →
      loadRows s1 r.who f.ty m.pb m.hb m.n (27 * k) 27 = .ok s2 b → s2.band r.id.band = some band →
      m.tile < band.tiles.length → (∀ x ∈ (tileOf band m.tile).poison, x < 729 * k ∨ 729 * (k + 1) ≤ x) →
      ∃ s3 b3, matStep r f m k a s = .ok s3 a1 ∧ s3.band r.id.band = some b3
        ∧ smapRange (tileOf b3 m.tile).words (729 * k) 729
            = ((smapRange (tileOf band m.tile).words (729 * k) 729).zipIdx.map fun x =>
                (accElem f.ty f.clamp (rowsOf f.ty f.modA 27 a1) (rowsOf f.ty f.modB 27 b) (x.2 % 27) (x.2 / 27) x.1).1)
        ∧ (∀ j, j < 729 * k ∨ 729 * (k + 1) ≤ j → tileWord b3 m.tile j = tileWord band m.tile j)
        ∧ ∀ u, u ≠ m.tile → tileOf b3 u = tileOf band u)
    ∧ (∀ (s s1 : State) (r : Run) (f : Fields) (m : MatArgs) (done : Nat) (a a1 : List Int) (rest : List EngineCmd),
      s.run r.id = some r → r.part.wait = .engine → (s.core r.core).engine = .part r.id (some f) done a :: rest →
      matArgs s r f (readWord r s 0 f.a) (readWord r s 1 f.b) (readWord r s 3 f.d) = .ok m → done < m.n / 27 →
      absentPlace s r.who m = none → matStep r f m done a s = .ok s1 a1 →
      ∃ t, exec (.mmulStep r.core) s = .next t ∧ { t with cores := s1.cores } = s1
        ∧ (t.core r.core).engine = .part r.id (some f) (done + 1) a1 :: rest)
    ∧ ∀ (s : State) (r : Run) (f : Option Fields) (done : Nat) (a : List Int) (rest : List EngineCmd),
      s.run r.id = some r → r.part.wait = .engine → (s.core r.core).engine = .part r.id f done a :: rest →
      ∃ t r', exec (.engineCommandReady r.core) s = .next t ∧ { t with bands := s.bands } = s ∧ t.run r.id = some r'
        ∧ r'.part = { r.part with wait := .ready } ∧ r'.gang = { r.gang with parts := r'.gang.parts }

/-! ### Capsules -/

/-- R53, R356 to R358, R360, R361: CAP.ENTER of a single slice takes a free record: the record holds the slice's
identity and arguments, its waiters wake, and the slice runs the body with the arguments in its k registers. A
descheduled record it adopts: the body goes on from its images, where it stood (at position 27, CAP.LEAVE goes on). Of
a held record it waits, and a record of another context is a violation. A part of several slices divides into single
ones. A body step (an arithmetic, a load, a store, a branch, CAP.LEAVE) goes to its record as one more outstanding
access of the gang (R298). A slice that comes back to its CAP.ENTER goes on in the body if it still holds the record
(and skips a step, for TRET.SKIP), receives its results where another has completed its capsule, waits where another
runs it, and else contends afresh. Of the model's choice: log 44, 45, 46, 89. -/
def Obligations.CapsuleResult : Prop :=
  ((∀ (f : Fields) (s s1 s2 : State) (r : Run) (c : CapRecord), Clear s r .capEnter f → r.slice.cap = none →
    r.part.slices.length ≤ 1 → r.band.pair = none →
    let record := readWord r s 0 f.a
    let slot := readWord r s 1 f.b
    (∀ k, enterChecks r s f record slot k = k s1) →
    recordAt (commitVersion s1 r.id.band false) r.who record = .ok (s2, c) → recordPoison s2 record c = none →
    let token := wrap 17 (c.token + 1)
    (c.state = 0 →
      let body := wrap 27 (r.slice.pc + 9 * f.imm)
      let args := capArgs r s2 f
      let ws : List (Nat × Word) :=
        [(0, capWord0 1 0 0 token), (1, (identity r).1), (2, (identity r).2.1), (3, (identity r).2.2), (5, body), (6, slot)]
          ++ args.zipIdx.map (fun x => (7 + x.2, x.1)) ++ [(18, 0)]
      ∀ s3, directAt (wakeTethers (putRecord s2 r.who c ws) (c.nonet 0)) r.who (markerAddr slot) (-1) = .ok s3 →
      ∃ t r', exec (.capEnter f) s = .next t ∧ t.issue = none ∧ r'.part = { r.part with wait := .ready } ∧ t.mem = s3.mem
        ∧ BodyEntered t r r' args (capsuleTaken r record slot token body))
    ∧ (c.state = -1 → field (c.word 3) 21 6 = (r.ctx.number : Int) →
      let cap := capsuleOf r record slot token c false
      ∀ s3, directAt (wakeTethers (putRecord s2 r.who c
          [(0, capWord0 1 c.step c.position token), (1, (identity r).1), (2, (identity r).2.1)]) (c.nonet 0))
        r.who (markerAddr slot) 0 = .ok s3 →
      if c.position = 27 then
        exec (.capEnter f) s = .next (finish s r f.la (encodeW0 .capEnter f, encodeW1 f, encodeW2 .capEnter f)
          (leaveSteps r (setCapsule r (reapply s3 r.who c) c.images cap) record token c.step c.images))
      else ∃ t r', exec (.capEnter f) s = .next t ∧ t.issue = none ∧ r'.part = { r.part with wait := .ready }
        ∧ t.mem = (reapply s3 r.who c).mem ∧ BodyEntered t r r' c.images cap)
    ∧ (c.state ≠ 0 → field (c.word 3) 21 6 ≠ (r.ctx.number : Int) → owes s2 r = false →
      exec (.capEnter f) s = .next (takeTrap s2 r { code := 9, sub := 9 } r.pc
        (encodeW0 .capEnter f, encodeW1 f, encodeW2 .capEnter f)))
    ∧ (c.state = 1 → field (c.word 3) 21 6 = (r.ctx.number : Int) →
      ∃ t r', exec (.capEnter f) s = .next t ∧ t.issue = none ∧ t.run r.id = some r'
        ∧ r'.part.wait = .tether (c.nonet 0) false ∧ r'.gang.slices = r.gang.slices ∧ t.mem = s2.mem))
    ∧ ∀ (f : Fields) (s s1 : State) (r : Run), Clear s r .capEnter f → r.slice.cap = none → 1 < r.part.slices.length →
      r.band.pair = none → (∀ k, enterChecks r s f (readWord r s 0 f.a) (readWord r s 1 f.b) k = k s1) →
      ∃ t g, exec (.capEnter f) s = .next t ∧ t.issue = none ∧ t.mem = (commitVersion s1 r.id.band false).mem
        ∧ gangIn t r = some g ∧ g = { r.gang with parts := g.parts }
        ∧ (∀ j ∈ r.part.slices, ∃ q ∈ g.parts,
            q = { r.part with slices := [j], formed := q.formed, la := f.la, wait := .tether 0 true })
        ∧ (∀ q ∈ r.gang.parts, q.slices.head? ≠ some r.id.part → q ∈ g.parts)
        ∧ ∀ q ∈ g.parts, q ∈ r.gang.parts ∧ q.slices.head? ≠ some r.id.part
            ∨ ∃ p ∈ r.gang.parts, p.slices.head? = some r.id.part ∧ ∃ j ∈ p.slices, q.slices = [j])
    ∧ ((∀ (i : Instr) (op : Op) (f : Fields) (s : State) (r : Run) (e : CapEffect), codedOf i = some (op, f) → InBody s r op f →
      (i = .capLeave f ∧ e = .leave ∨ ∃ v n, uniformValue i r s = some v ∧ f.d = .kreg n ∧ e = .reg n v.1 v.2.sticky) →
      ∃ t r', exec i s = .next t ∧ StepSent s t r r' e)
    ∧ (∀ (i : Instr) (op : Op) (f : Fields) (s : State) (r : Run) (c : Capsule) (target pos : Word) (taken : Nat → Bool),
      codedOf i = some (op, f) → branchOf i r s = some (target, taken) → InBody s r op f → r.slice.cap = some c →
      (if ∀ j ∈ r.part.slices, taken j = false then pos = c.position + 1
        else target % 9 = 0 ∧ pos = (target - c.body) / 9 ∧ wrap 27 (c.body + 9 * pos) = target) →
      0 ≤ pos → pos ≤ 26 → c.step < 81 →
      ∃ t r', exec i s = .next t ∧ StepSent s t r r' (.branch pos))
    ∧ ∀ (i : Instr) (op : Op) (f : Fields) (s : State) (r : Run) (log : OpLog) (word : Bool) (ps : List (List Place))
      (ls : List Leaf), codedOf i = some (op, f) → accessLog i r s = some (log, f, .uniform, word) → InBody s r op f →
      let es := accessElems r f .uniform word log
      (∀ n, [Op.ldn, .ldw].contains op = true → f.d = .kreg n → accessOk s r f .uniform word log .read ps ls →
        (s.slow = false ∨ ps.flatten.any isRemote = false) → pendingStore s r ps.flatten = false →
        let s1 := afterReads (walkedState s r es) r ps.flatten ls
        poisonOf s1 r.who true (es.zip ps) = none →
        let v := loadedWord ((es.zip ps).map fun x => (x.1.lane, x.2.map (peek s1 r.who))) (3 * r.id.part)
        ∃ t r', exec i s = .next t ∧ StepSent s1 t r r' (.reg n v))
      ∧ ([Op.stn, .stw].contains op = true → accessOk s r f .uniform word log .write ps ls →
        let c := lane log.data 0
        ∃ t r', exec i s = .next t ∧ StepSent (markLeaves (walkedState s r es) ls 2) t r r'
          (.store ((es.map (·.addr)).headD 0) (if word then c else nonetOf c 0) word)))
    ∧ ∀ (f : Fields) (s s1 : State) (r : Run) (own : Capsule) (c : CapRecord), AtRejoin s r own f s1 c →
      (c.state ≠ 0 → c.heldBy r = true →
        (own.skipping = true → 81 ≤ c.step → exec (.rejoin r.id) s = rejoined s r f (.trap { code := 9, sub := 4 } s1))
        ∧ (own.skipping = true → c.step < 81 → 26 ≤ c.position →
          exec (.rejoin r.id) s = rejoined s r f (.trap { code := 9, sub := 3 } s1))
        ∧ (c.step < 81 ∧ c.position < 26 ∨ own.skipping = false → (∃ x, recordAt s1 r.who own.record = .ok x) →
          let s2 := putRecord s1 r.who c [(0, capWord0 1 c.step c.position c.token)]
          let s3 := reapply (if c.state = 1 then s2 else wakeTethers s2 (c.nonet 0)) r.who c
          let cap := { capsuleOf r own.record own.slot c.token c own.skipping with enter := own.enter }
          if own.skipping = true then ∃ t r', exec (.rejoin r.id) s = .next t ∧ r'.part.wait = .capCommit
            ∧ r'.gang.acks = r.gang.acks + 1 ∧ t.mem = s3.mem ∧ t.run r.id = some r'
            ∧ ∀ j, r'.gang.slices[j]? = (r.gang.slices[j]?).map fun x => if j ∈ r.part.slices then
                { x with k := c.images, cap := some { cap with sent := s3.free } } else x
          else if c.position = 27 then exec (.rejoin r.id) s
            = rejoined s r f (leaveSteps r (setCapsule r s3 c.images cap) own.record c.token c.step c.images)
          else ∃ t r', exec (.rejoin r.id) s = .next t ∧ r'.part.wait = .ready ∧ t.mem = s3.mem
            ∧ BodyEntered t r r' c.images cap))
      ∧ ∀ (s2 : State) (marker : Word), c.state = 0 ∨ c.heldBy r = false →
        slotWord s1 r.who (markerAddr own.slot) = .ok (s2, marker) →
        (∀ s3 s4 ks, marker = 1 → returnWords s2 r own.slot = .ok (s3, ks) →
          directAt s3 r.who (markerAddr own.slot) 0 = .ok s4 →
          ∃ t r', exec (.rejoin r.id) s = .next t ∧ t.run r.id = some r' ∧ r'.part.wait = .ready
            ∧ (∀ j, r'.gang.slices[j]? = (r.gang.slices[j]?).map fun x => if j ∈ r.part.slices then
                  { x.next with k := ks ++ x.k.drop 3, cap := none } else x)
            ∧ t.mem = s4.mem)
        ∧ (marker = -1 → c.state ≠ 0 → ∃ t r', exec (.rejoin r.id) s = .next t ∧ t.run r.id = some r'
            ∧ r'.part.wait = .tether (c.nonet 0) false ∧ r'.gang.slices = r.gang.slices ∧ t.mem = s2.mem)
        ∧ (marker ≠ 1 → marker ≠ -1 ∨ c.state = 0 →
          exec (.rejoin r.id) s = rejoined s r f (freshEnter r (r.modSlices s2 fun x => { x with cap := none }) f))

/-- R298, R356, R358 to R360: a body step whose holder still holds the record commits step, position and its effect
into the record, and then takes effect in the slice, which has its k register, its sticky saturation and its counts;
one whose record has changed takes no effect, and the slice is to rejoin. CAP.LEAVE then writes the results into the
return slot, sets its marker, frees the record, if it is still held, and lets the slice rejoin. A store is applied
after its commit; a waiter whose record has changed contends again; the record of a holder that left the body is
marked. Of the model's choice: log 46, 89. -/
def Obligations.CapsuleEvents : Prop :=
  (∀ (s s1 : State) (r : Run) (c : Capsule) (e : CapEffect) (rec : CapRecord), Waits s r .capCommit → r.slice.cap = some c →
    c.pending = some e → wordAnswers s r (recordAddr c.record 0) = true →
    recordAt (correctCapsule (r.modGang s fun g => { g with acks := g.acks - 1 }) r.who [recordAddr c.record 0]) r.who c.record
      c.sent = .ok (s1, rec) → recordPoison s1 c.record rec = none →
    let stands : Prop := rec.state = 1 ∧ rec.token = c.token ∧ rec.step = c.step
    let x := stepWords c rec e
    (stands → e ≠ .leave →
      let store : Bool := match e with | .store _ _ _ => true | _ => false
      ∃ t r', exec (.capStepCommit r.id) s = .next t ∧ t.run r.id = some r'
        ∧ r'.part = { stepPart e r.part with wait := if store = true then .capApply else .ready }
        ∧ r'.gang.acks = r.gang.acks - 1 ∧ r'.gang.sticky = (stickyAfter r.gang e.effects).1
        ∧ (specOf r.band r.id.gang = none → r'.band.counts = countsAfter r.band 0 e.effects)
        ∧ (∀ j, r'.gang.slices[j]? = (r.gang.slices[j]?).map fun y => if j ∈ r.part.slices then afterStep c e x.1
            (match e with | .reg k v _ => { y with k := y.k.set k v } | _ => y) else y)
        ∧ t.mem = (putRecord s1 r.who rec ((0, capWord0 1 (c.step + 1) x.1 c.token) :: x.2)).mem ∧ t.retained = s1.retained)
    ∧ (∀ (s3 s4 s5 s6 : State) (c3 c6 : CapRecord), stands → e = .leave →
      recordAt (commitStep s1 r c rec .leave) r.who c.record = .ok (s3, c3) →
      let q := c3.word 6
      directAll (correctCapsule s3 r.who (slotAddrs q)) r.who
        ([0, 1, 2].map fun (i : Nat) => (wrap 27 (q + 3 * i), r.slice.k.getD i 0)) = .ok s4 →
      directAt s4 r.who (markerAddr q) 1 = .ok s5 →
      recordAt (commitVersion s5 r.id.band false) r.who c.record = .ok (s6, c6) →
      ∃ t r', exec (.capStepCommit r.id) s = .next t ∧ t.run r.id = some r'
        ∧ r'.part = { stepPart .leave r.part with wait := .ready } ∧ r'.gang.acks = r.gang.acks - 1
        ∧ (∀ j, r'.gang.slices[j]? = (r.gang.slices[j]?).map fun y => if j ∈ r.part.slices then
              { y with cap := some { c with
                  step := c.step + 1, position := 27, pending := none, apply := none, running := false } } else y)
        ∧ t.mem = if c6.state = 1 ∧ c6.token = c.token ∧ c6.step = c.step + 1 then
            (putRecord s6 r.who c6 [(0, capWord0 0 0 0 c.token), (4, wrap 27 (c6.word 4 + 1)), (18, 0)]).mem
          else s6.mem)
    ∧ (¬ stands → ∃ t r', exec (.capStepCommit r.id) s = .next t ∧ t.run r.id = some r'
      ∧ r'.part = { r.part with wait := .ready } ∧ r'.gang.acks = r.gang.acks - 1
      ∧ (∀ j, r'.gang.slices[j]? = (r.gang.slices[j]?).map fun y => if j ∈ r.part.slices then
            { y with cap := y.cap.map fun k => { k with running := false, pending := none, apply := none } } else y)
      ∧ t.mem = s1.mem ∧ t.retained = s1.retained))
    ∧ (∀ (s : State) (r : Run) (c : Capsule) (a v : Word) (word : Bool), Waits s r .capApply → r.slice.cap = some c →
      c.apply = some (.store a v word) → wordAnswers s r a = true →
      ∃ t r', exec (.capStoreApply r.id) s = .next t ∧ t.run r.id = some r' ∧ r'.part.wait = .ready
        ∧ (∀ j, r'.gang.slices[j]? = (r.gang.slices[j]?).map fun y => if j ∈ r.part.slices then
              { y with cap := some { c with apply := none } } else y)
        ∧ t.mem = (applyStore s r.who a v word).mem)
    ∧ (∀ (s : State) (r : Run) (w : Nat), Waits s r (.tether w true) →
      (r.gang.residence ≠ .resident → ∃ t r', exec (.capRetry r.id) s = .next t ∧ t.run r.id = some r'
        ∧ { t with bands := s.bands } = s ∧ r'.part = { r.part with wait := .ready }
        ∧ r'.gang = { r.gang with parts := r'.gang.parts })
      ∧ ∀ (f : Fields) (s1 : State) (c : CapRecord), r.gang.residence = .resident → enterInstr s r = some f →
        r.slice.cap = none →
        let record := readWord r s 0 f.a
        let slot := readWord r s 1 f.b
        recordAt (correctCapsule s r.who (recordAddr record 0 :: slotAddrs slot)) r.who record = .ok (s1, c) →
        recordPoison s1 record c = none →
        (c.state = 0 →
          let token := wrap 17 (c.token + 1)
          let body := wrap 27 (r.slice.pc + 9 * f.imm)
          let args := capArgs r s1 f
          let ws : List (Nat × Word) :=
            [(0, capWord0 1 0 0 token), (1, (identity r).1), (2, (identity r).2.1), (3, (identity r).2.2), (5, body), (6, slot)]
              ++ args.zipIdx.map (fun x => (7 + x.2, x.1)) ++ [(18, 0)]
          ∀ s2, directAt (wakeTethers (putRecord s1 r.who c ws) (c.nonet 0)) r.who (markerAddr slot) (-1) = .ok s2 →
          ∃ t r', exec (.capRetry r.id) s = .next t ∧ t.mem = s2.mem
            ∧ BodyEntered t r r' args (capsuleTaken r record slot token body))
        ∧ (c.state = 1 → field (c.word 3) 21 6 = (r.ctx.number : Int) →
          ∃ t r', exec (.capRetry r.id) s = .next t ∧ t.run r.id = some r' ∧ t.mem = s1.mem
            ∧ r'.part.wait = .tether (c.nonet 0) false ∧ r'.gang.slices = r.gang.slices))
    ∧ ∀ (s : State) (r : Run) (c : Capsule) (j : Nat) (leaf : Option Leaf), s.run r.id = some r → r.slice.cap = some c →
      c.running = false →
      devWordAt (correctWalks s r.ctx [wrap 27 (recordAddr c.record 0 - 1)]) r.who .read (recordAddr c.record 0)
        = some (j, leaf) →
      unversioned s j ∧ unversioned s (j + 1) ∧ unversioned s (j + 2) →
      (∀ m, m < 3 → pteNonet leaf.toList (.dev (j + m)) = false) →
      trit (devWord s j) 26 = 1 → field (devWord s j) 0 17 = c.token →
      ∃ t, exec (.capMarkDescheduled r.id) s = .next t
        ∧ (∀ m, m < 3 → memNonet t.mem (j + m) = nonetOf (setField (devWord s j) 26 1 (-1)) m)
        ∧ (∀ n, n < j ∨ j + 3 ≤ n → unversioned s n → pteNonet leaf.toList (.dev n) = false →
            memNonet t.mem n = memNonet s.mem n)
        ∧ ∀ b ∈ t.bands, ∀ g ∈ b.gangs, ∀ p ∈ g.parts, p.wait ≠ .tether j false

/-! ### Speculative fences -/

/-- R297: FENCE of a gang that is not parted and has acknowledgements outstanding lets the gang go on and saves it as
it is after the fence; when they have returned and every value read since stands, the fence completes; when a line
read since is invalidated, the gang regains what was saved, but for what others have done to it meanwhile. A value
that a live version of another band replaces does not stand (R303). Of the model's choice: log 37. -/
def Obligations.SpeculativeFence : Prop :=
  (∀ (f : Fields) (s : State) (r : Run), Clear s r .fence f → fenceScope f ≠ -3 → owes s r = true → r.gang.parted = false →
    ∃ t r', exec (.fence f) s = .next t ∧ t.issue = none ∧ t.run r.id = some r' ∧ AllRegsKept r r' ∧ r'.part.wait = .ready
      ∧ DeviceKept s t ∧ { r'.band with gangs := r.band.gangs, specs := r.band.specs } = r.band
      ∧ r'.band.specs = r.band.specs ++ [{ gang := r.id.gang, saved := r'.gang, counts := [], invalid := 0, lines := []
                                           seen := [], held := [], issued := 0 }])
    ∧ (∀ (s : State) (r : Run) (x : Spec1), s.run r.id = some r → r.gang.acks = 0 → r.band.pair = none →
      specOf r.band r.id.gang = some x → x.seen.all (readStands s r.who) = true →
      ∃ t r', exec (.fenceComplete r.id) s = .next t ∧ t.run r.id = some r' ∧ specOf r'.band r.id.gang = none
        ∧ r'.gang = r.gang ∧ r'.part = r.part ∧ r'.band.counts = mergeCounts r.band.counts x.counts
        ∧ r'.ctx.invalid = if x.invalid = 0 then r.ctx.invalid else satCount (r.ctx.invalid + x.invalid))
    ∧ ∀ (s : State) (r : Run) (x : Spec1) (line : Nat), s.run r.id = some r → s.issue = none →
      specOf r.band r.id.gang = some x → line ∈ x.lines →
      ∃ t, exec (.fenceRollback r.id line) s = .next t
        ∧ { t with bands := s.bands, reqs := s.reqs, issue := s.issue, free := s.free } = s
        ∧ (∀ q, q ∈ t.reqs ↔ q ∈ s.reqs ∧ ¬ (q.kind = .load ∧ q.part.band = r.id.band ∧ q.part.gang = r.id.gang))
        ∧ gangIn t r = some { x.saved with
            acks := r.gang.acks, allowance := r.gang.allowance, residence := r.gang.residence, partition := r.gang.partition
            watchdog := r.gang.watchdog, parts := x.saved.parts.map fun p => { p with wait := .ready } }

/-! ### Launches, bands and kernels -/

/-- R320, R352, R440, R443, R449: LAUNCH hands the packet that its sector holds to the front end and gives D +1, or −c
when check c refuses it. The front end takes the head whose turn it is: a refused packet's status word becomes −c; an
accepted one's becomes +1, and a kernel with the context's next number starts, with the scopes of the tokens it waited
on. A packet of a LAUNCH starts with the code that its kernel-table entry names at the take. Versions that hold a line
of a head packet have been committed before (R302). Of the model's choice: log 64 to 67, 90. -/
def Obligations.LaunchResult : Prop :=
  (∀ (f : Fields) (s : State) (r : Run) (ps : List (List Place)) (ls : List Leaf), Clear s r .launch f →
    r.gang.parted = false → isUni f.d = true → r.band.pair = none → r.band.copy = .unpaired →
    let a := wrap 27 (readWord r s 0 f.a + f.imm)
    let s0 := walkedState s r (sectorElems a)
    let s1 := prepareRead (markLeaves s0 ls 2) r.who ps.flatten
    let ws := ps.map fun p => joinNonets (p.map (peek s1 r.who))
    let x := launchAnswer r (releaseVersion r s1 true) ws
    a % 27 = 0 → checkElems s0 r.who none .read true (sectorElems a) = .ok ps ls →
    poisonOf s1 r.who true ((sectorElems a).zip ps) = none →
    ∃ r1 t r', x.1.run r.id = some r1 ∧ r1.gang = r.gang ∧ exec (.launch f) s = .next t ∧ Committed x.1 t r1 r'
      ∧ UniWritten f.d x.2 r1 r' ∧ DeviceKept x.1 t
      ∧ match checkPacket (releaseVersion r s1 true) r.ctx ws with
        | .error (n, _) => x.2 = -(n : Int) ∧ t.launches = s.launches
        | .ok (_, k) => x.2 = 1 ∧ t.launches = s.launches ++
            [{ number := ownNumber s, context := r.ctx.number, priority := r.kern.priority, packet := k
               entry := packetEntry ws }])
    ∧ (∀ (s s2 : State) (p : OwnPacket) (c : Context) (base : Word) (len : Nat), nextHead s = some (.own p) →
      (lookHeads s).context p.context = some c →
      let s1 := { lookHeads s with
        roundRobin := smapSet 0 s.roundRobin p.priority (p.number + 1)
        launches := s.launches.filter fun x => x.number != p.number }
      tableEntry s1 c p.entry = .ok (s2, base, len) →
      ∃ t, exec (.packetTake p.number) s = .next t ∧ t.launches = s1.launches ∧ t.roundRobin = s1.roundRobin
        ∧ if entriesOk p.packet.launch len = true then
            (∃ d, d < Config.computeDies ∧ p.packet.cuts.getD d 0 < p.packet.cuts.getD (d + 1) 0) →
              ∃ kern, t.kernels = s.kernels ++ [kern] ∧ kern.uid = s.nextUid ∧ kern.context = c.number
                ∧ kern.number = c.nextKernel ∧ kern.launch = p.packet.launch ∧ kern.queue = none
                ∧ kern.codeBase = base ∧ kern.codeLen = len ∧ kern.priority = p.priority
          else t.kernels = s.kernels)
    ∧ ∀ (s : State) (q : Queue) (c : Context) (s0 : State) (ws : List Word), nextHead s = some (.queue q) →
      (lookHeads s).context q.context = some c →
      let s1 := { lookHeads s with
        roundRobin := smapSet 0 s.roundRobin q.priority (q.number + 1)
        queues := s.queues.map fun x => if x.number = q.number then { x with taken := wrap 27 (x.taken + 1) } else x }
      headWords s1 q = some (s0, ws) →
      ∃ t, exec (.packetTake q.number) s = .next t ∧ t.queues = s1.queues ∧ t.roundRobin = s1.roundRobin
        ∧ match checkPacket s0 c ws with
          | .error (n, _) => t.kernels = s.kernels
              ∧ ∀ m, m < 3 → memNonet t.mem ((statusOf q).2 + m) = nonetOf (-(n : Int)) m
          | .ok (_, k) => (∃ d, d < Config.computeDies ∧ k.cuts.getD d 0 < k.cuts.getD (d + 1) 0) →
              (∀ m, m < 3 → memNonet t.mem ((statusOf q).2 + m) = nonetOf 1 m)
              ∧ ∃ kern, t.kernels = s.kernels ++ [kern] ∧ kern.uid = s.nextUid ∧ kern.context = c.number
                  ∧ kern.number = c.nextKernel ∧ kern.launch = k.launch ∧ kern.queue = some (statusOf q)
                  ∧ kern.codeBase = k.codeBase ∧ kern.priority = q.priority
                  ∧ kern.scopes = k.waits.map (fun x => (x.1, tokenScope c kern.dies x.1))

/-- R61, R77, R86, R322, R334: the dispatcher places the head band of a die on a core that fits it: a band placed for
the first time starts there, every register, status trit and program counter of its gangs being that of gang start,
and one placed again continues. GANG_RESUME makes an evicted gang resident on the least loaded partition, and its
claims end. Of the model's choice: log 62, 81. -/
def Obligations.DispatchResult : Prop :=
  (∀ (s : State) (die core : Nat) (c : Candidate) (later : List Candidate) (k : Kernel), core < Config.cores →
    core / Config.coresPerDie = die → candidates s die = c :: later → s.kernel c.kernel = some k → fits s c core = true →
    ∃ t, exec (.bandDispatch die core) s = .next t ∧ headWait (t.die die) c = 0
      ∧ (c.again = none → t.bands = s.bands ++ [newBand s k c die core])
      ∧ ∀ u b, c.again = some u → s.band u = some b → t.band u = some (placeAgain s k core b))
    ∧ (∀ (s : State) (k : Kernel) (c : Candidate) (die core : Nat) (g : Gang), g ∈ (newBand s k c die core).gangs →
      ∃ x, k.launch.stages[g.stage]? = some x ∧ g.width = x.width ∧ g.grant = x.grant ∧ g.residence = .resident
        ∧ g.trapEnable = 1 ∧ uget g 1 = g.index ∧ uget g 2 = g.stage ∧ uget g 9 = gridIndex k c.index
        ∧ (∀ i, i < k.launch.levels.length → i < 6 → uget g (3 + i) = coordOf k.launch.levels i (gridIndex k c.index))
        ∧ (∀ i, k.launch.levels.length ≤ i → i < 6 → uget g (3 + i) = 0)
        ∧ (∀ n, 9 < n → uget g n = 0) ∧ (∀ n, vget g n = Lanes.zero) ∧ (∀ n, oget g n = Lanes.zero)
        ∧ (∀ n, 0 < n → mget g n = Lanes.zero) ∧ (∀ n, smapGet XReg.zero g.xregs n = XReg.zero) ∧ g.bad = []
        ∧ g.sticky = 0 ∧ g.locksLost = 0 ∧ g.step = 0 ∧ g.dither = 0 ∧ g.acks = 0 ∧ g.watchdog = 0 ∧ g.batch = 0
        ∧ g.versioned = (if k.launch.versioned = true then 1 else 0)
        ∧ g.paired = (match c.copy with | .leading => 1 | .trailing => -1 | .unpaired => 0)
        ∧ g.slices.length = x.width
        ∧ (∃ p, g.parts = [p] ∧ p.slices = List.range x.width ∧ p.wait = .ready ∧ p.hist = List.replicate 9 Lanes.zero
            ∧ p.histBad = [] ∧ p.claims = [] ∧ p.handling = none)
        ∧ (∀ y ∈ g.slices, y.live = true ∧ y.pc = wrap 27 (k.codeBase + 9 * x.entry) ∧ y.k = List.replicate 9 0
            ∧ y.e = List.replicate 9 0 ∧ y.cap = none ∧ y.log = none))
    ∧ ∀ (s : State) (b : Band) (g : Gang) (core gang : Nat), s.band b.uid = some b → b.core = some core →
      b.gangs[gang]? = some g → ((resumables s core).head?.map fun x => (x.1.uid, x.2)) = some (b.uid, gang) →
      let p := leastLoaded (partitionLoads s core)
      g.grant ≤ freeRegisters s core → (partitionLoads s core).getD p 0 < 3 →
      ∃ t b', exec (.gangResume b.uid gang) s = .next t ∧ { t with bands := s.bands } = s ∧ t.band b.uid = some b'
        ∧ b'.gangs[gang]? = some { g with
            residence := .resident, partition := p, watchdog := 0, parts := g.parts.map fun q => { q with claims := [] } }
        ∧ (∀ i, i ≠ gang → b'.gangs[i]? = b.gangs[i]?) ∧ { b' with gangs := b.gangs } = b

/-- R81, R82, R323, R331: an evicted gang keeps its registers, its translation registers become empty, and its stores
are acknowledged; the grant that waited is given once enough gangs have gone; a head band that has waited 59,049
cycles takes the place of whole bands of lower priority. Of the model's choice: log 61, 62. -/
def Obligations.EvictResult : Prop :=
  (∀ (s : State) (r : Run) (core : Nat), s.run r.id = some r → s.issue = none → r.band.core = some core →
    growStuck s core = true → growVictim s core = some (r.id.band, r.id.gang) →
    (∀ x ∈ r.gang.parts, ∀ e ∈ (s.core core).engine, e.isPart { r.id with part := x.slices.headD 0 } = false) →
    specOf r.band r.id.gang = none → (∀ q ∈ s.reqs, q.part.band = r.id.band → q.kind ≠ .atomic) →
    let s1 := evictOne s r.id.band r.id.gang
    (growStuck s1 core = true ∨ oldestShort s1 core = false →
      ∃ t r', exec (.gangEvict r.id.band r.id.gang) s = .next t ∧ t.run r.id = some r' ∧ r'.gang.residence = .evicted
        ∧ (∀ o, regLanes r' .t27 o = regLanes r .t27 o)
        ∧ r'.gang.acks = (r.gang.parts.filter (·.wait == .capCommit)).length ∧ ∀ x ∈ r'.gang.xregs, x.2.valid = false)
    ∧ (growStuck s1 core = false → exec (.gangEvict r.id.band r.id.gang) s = .next (evictForGrow core 96 s1)))
    ∧ (∀ (s : State) (core n d : Nat) (v : Nat × Nat) (r : Run) (rest : List (PartId × Gang × Nat × Nat)), s.issue = none →
      growStuck s core = true → growVictim s core = some v →
      let s1 := evictOne s v.1 v.2
      oldestShort s1 core = false → growRequests s1 core = (r.id, r.gang, n, d) :: rest →
      growNeeds r.gang n ≤ freeRegisters s1 core → s1.run r.id = some r →
      let s2 := finishWaiting s1 r (grantResult r s1 n (.uni d))
      exec (.growEviction core) s = .next (if r.gang.residence = .evicted then resumeOldest s2 core r.id.band r.id.gang else s2))
    ∧ ∀ (s : State) (die : Nat) (head : Candidate) (later : List Candidate) (b : Band) (bs : List Band), s.issue = none →
      candidates s die = head :: later → 59049 ≤ headWait (s.die die) head → fitsSome s head die = false →
      placementVictims s die head.priority = b :: bs → s.band b.uid = some b → b.gangs ≠ [] →
      fitsSome (evictBand s b) head die = true →
      ∃ t b', exec (.placementEviction die) s = .next t ∧ t = evictBand s b ∧ t.band b.uid = some b' ∧ b'.core = none
        ∧ ∀ g ∈ b'.gangs, g.residence = .evicted

/-- R64, R321, R440: a band that has nothing left to do ends; with the last one its kernel ends, posts its token and
sets its status word to +2. Of the model's choice: log 63. -/
def Obligations.EndResult : Prop :=
  ∀ (s : State) (b : Band) (k : Kernel) (c : Context), s.band b.uid = some b → s.kernel b.kernel = some k →
    s.context k.context = some c → b.pair = none → bandDone s b = true →
    ∃ t, exec (.bandEnd b.uid) s = .next t ∧ t.band b.uid = none
      ∧ if k.pending = [] ∧ ∀ x ∈ s.bands, x.kernel = k.uid → x.uid = b.uid then
          t.kernel k.uid = none ∧ (∀ q j, k.queue = some (q, j) → devWord t j = 2)
            ∧ ∀ tok c', k.post = some tok → t.context k.context = some c' →
                smapGet 0 c'.tokens tok = min (smapGet 0 c.tokens tok + 1) (half 27)
        else ∃ k', t.kernel k.uid = some k' ∧ k' = { k with ended := k.ended ++ [(b.index, b.copy == .trailing)] }

/-! ### Issue, shares and budgets -/

/-- R13, R55, R146, R325, R326, R328, R335, R336: a partition's turn gives the issue slot to a ready part of the least
class, and the turn of a partition that has been served in a local cycle of its die begins the next one, in which the
cycle counter of every core of the die is one more; a part that has waited 27 cycles is starving; a rebalance moves
shares and keeps their sum; a budget period starts its agent's counts again; a memory controller's and the management
controller's periods begin every 59,049 of their own cycles, a die's modules' every 59,049 of the die's; a gang whose
parts all wait at one REGANG becomes one part, and one whose parts wait at different ones takes the trap of code 11. Of
the model's choice: log 8, 60. -/
def Obligations.ScheduleResult : Prop :=
  (∀ (s : State) (core partition : Nat) (r : Run), s.issue = none → core < Config.cores → partition < Config.partitions →
    cycleDue s (dieOf core) = false →
    let d := s.die (dieOf core)
    let place : Nat := 32 * (core % Config.coresPerDie) + partition
    d.last < (place : Int) →
    let s1 : State := { s.setDie { d with last := place } with turn := 32 * core + partition }
    let ready := (partitionRuns s1 core partition).filter (readyPart s1)
    let s2 := endWaits s1 (partitionRuns s1 core partition)
    pickRun s2 partition (ready.filter (canIssue s2 partition)) = some r →
    ∃ t, exec (.partitionIssue core partition) s = .next t ∧ t.issue = some { part := r.id } ∧ t.mem = s.mem
      ∧ (∀ k, t.cycle k = s.cycle k) ∧ r ∈ ready ∧ canIssue s2 partition r = true
      ∧ ∀ q ∈ ready, canIssue s2 partition q = true →
          (issueClass s2 partition r).1 < (issueClass s2 partition q).1
            ∨ (issueClass s2 partition r).1 = (issueClass s2 partition q).1
              ∧ (issueClass s2 partition r).2 ≤ (issueClass s2 partition q).2)
    ∧ (∀ (s : State) (core partition : Nat), s.issue = none → core < Config.cores → partition < Config.partitions →
      cycleDue s (dieOf core) = false → ((32 * (core % Config.coresPerDie) + partition : Nat) : Int) ≤ (s.die (dieOf core)).last →
      ∃ t, exec (.partitionIssue core partition) s = .next t ∧ t.mem = s.mem
        ∧ ∀ k, dieOf k = dieOf core → t.cycle k = wrap 27 (s.cycle k + 1))
    ∧ (∀ (s : State) (r : Run), s.run r.id = some r → s.issue = none → 27 ≤ r.part.waitCount → r.part.starving = none →
      ∃ t r', exec (.partStarving r.id) s = .next t ∧ { t with bands := s.bands } = s ∧ t.run r.id = some r'
        ∧ r'.part = { r.part with starving := some s.starveSeq } ∧ r'.gang = { r.gang with parts := r'.gang.parts })
    ∧ (∀ (s : State) (core : Nat), (s.core core).rebalance = true → s.issue = none →
      ∃ t, exec (.stageRebalance core) s = .next t ∧ { t with cores := s.cores } = s
        ∧ t.core core = { s.core core with
            rebalance := false
            shares := (s.core core).shares.map fun x => match s.kernel x.kernel with
              | some k => { x with sigma := moveShare (stageScore k (s.bands.filter fun b =>
                  b.kernel == k.uid && b.core == some core)) x.sigma }
              | none => x }
        ∧ ∀ k, k ≠ core → t.core k = s.core k)
    ∧ (∀ (score : Nat → Int) (sigma : List Nat), (moveShare score sigma).sum = sigma.sum)
    ∧ (∀ (s : State) (n : Nat), (s.core n).period = true → s.issue = none →
      ∃ t, exec (.budgetPeriodStart (.core n)) s = .next t ∧ { t with cores := s.cores } = s
        ∧ t.core n = { s.core n with period := false, issued := [], copied := [] } ∧ ∀ k, k ≠ n → t.core k = s.core k)
    ∧ (∀ (s : State) (n : Nat), n < Config.controllers → (s.controller n).period = true →
      ∃ t, exec (.budgetPeriodStart (.controller n)) s = .next t ∧ { t with controllers := s.controllers } = s
        ∧ t.controller n = { s.controller n with used := 0, period := false } ∧ ∀ k, k ≠ n → t.controller k = s.controller k)
    ∧ (∀ s : State, s.mgmtPeriod = true →
      exec (.budgetPeriodStart .management) s = .next { s with mgmtUsed := 0, mgmtPeriod := false })
    ∧ (∀ s : State, (shellTick s).mgmtCycle = s.mgmtCycle + 1
      ∧ ((s.mgmtCycle + 1) % 59049 = 0 → (shellTick s).mgmtPeriod = true)
      ∧ ∀ n, n < Config.controllers → ((shellTick s).controller n).cycle = (s.controller n).cycle + 1
        ∧ (((s.controller n).cycle + 1) % 59049 = 0 → ((shellTick s).controller n).period = true))
    ∧ (∀ (s : State) (d p : Nat), wrap 27 ((s.die d).cycle + 1) % 59049 = 0 → p < Config.planes →
      ((clockDie s d).uci (moduleOf d p)).inPeriod = 0)
    ∧ (∀ (s : State) (b : Band) (g : Gang) (gang : Nat) (r : Run), s.band b.uid = some b → b.gangs[gang]? = some g →
      s.issue = none → allAtRegang g = true → sameRegang g = false → mismatchPart (gangRuns s b gang) = some r →
      r.band.pair = none → r.part.forwarded = none → owes s r = false →
      exec (.regangReform b.uid gang) s = .next { takeTrap s r { code := 11, sub := 1, lanes := slicesMask r.part.slices }
        r.pc (instrWords s r) with issue := none })
    ∧ ∀ (s : State) (b : Band) (g : Gang) (gang : Nat), s.band b.uid = some b → b.gangs[gang]? = some g →
      allAtRegang g = true → sameRegang g = true →
      ∃ t b' g', exec (.regangReform b.uid gang) s = .next t ∧ { t with bands := s.bands } = s ∧ t.band b.uid = some b'
        ∧ b'.gangs[gang]? = some g' ∧ g'.parts.map (·.slices) = [toSet (g.parts.flatMap (·.slices))]
        ∧ (∀ x ∈ g'.parts, x.wait = .ready)
        ∧ (∀ j, g'.slices[j]? = (g.slices[j]?).map fun x =>
            if j ∈ toSet (g.parts.flatMap (·.slices)) then { x with pc := wrap 27 (x.pc + 9) } else x)
        ∧ g' = { g with slices := g'.slices, parts := g'.parts } ∧ ∀ i, i ≠ gang → b'.gangs[i]? = b.gangs[i]?

/-! ### Paired launches -/

/-- R419, R420, R422: at a checkpoint at which every group has matched, the leading copy's held stores are performed
and both copies' parts go on; two equal signatures are matched, two that differ roll both copies back, and the third
mismatch at one checkpoint stops the kernel. Of the model's choice: log 27, 28, 49. -/
def Obligations.PairedResult : Prop :=
  ∀ (s : State) (band : Nat) (l t : Band) (p q : Pair), copiesOf s band = some (l, p, t, q) → l.uid ≠ t.uid → p.mate = t.uid →
    (∀ (r : Run) (sl : List Nat) (terms : List Int), copyRun s l = some r → meeting l t = some (sl, false, terms) →
      groupsMatch (closeGroup p []) (closeGroup q []) = true →
      ∃ s' l' t', exec (.pairedCheckpoint band) s = .next s' ∧ s'.mem = (performHeld s r p).mem
        ∧ s'.band l.uid = some l' ∧ s'.band t.uid = some t'
        ∧ (∀ b ∈ [l', t'], ∀ x, b.pair = some x → x.held = [] ∧ x.openGroup = [] ∧ x.signatures = [] ∧ x.received = []
            ∧ x.undo = [] ∧ x.mismatches = 0)
        ∧ ∀ b ∈ [l', t'], ∀ g ∈ b.gangs, ∀ x ∈ g.parts, x.slices.head? = some (sl.headD 0) → x.granted = true ∧ x.wait = .ready)
    ∧ (∀ (x : Word) (xs ys : List Word), p.signatures = x :: xs → p.received ++ q.signatures.take 1 = x :: ys →
      ∃ s', exec (.signatureReceive band) s = .next s' ∧ { s' with bands := s.bands } = s
        ∧ (s'.band l.uid).bind (·.pair) = some { p with signatures := xs, received := ys }
        ∧ (s'.band t.uid).bind (·.pair) = some { q with signatures := q.signatures.drop 1 })
    ∧ ∀ (r : Run) (x y : Word) (xs ys : List Word), copyRun s l = some r → p.signatures = x :: xs →
      p.received ++ q.signatures = y :: ys → x ≠ y →
      ∃ s', exec (.pairedMismatch band) s = .next s'
        ∧ if 2 ≤ p.mismatches then Stopped s s' r.kern
          else s'.band l.uid = some (rollbackBand l) ∧ s'.band t.uid = some (rollbackBand t) ∧ s'.mem = s.mem

/-! ### Requests -/

/-- R160 to R162, R171, R285, R298, R424: a load's request reads its nonets at its home or scratchpad, and the home
retains the response under the request's tag; a host or peer answers with the code of each nonet that the request asks
for; when every request of a load is done its destination receives the data; the last acknowledgement of a store
lowers the gang's count. Of the model's choice: log 4, 5, 7, 106. -/
def Obligations.RequestResult : Prop :=
  (∀ (s : State) (q : Req) (w : Who), findReq s q.id = some q → s.who q.part.band q.part.gang = some w → q.kind = .load →
    q.done = false → q.here = false → blockedReq s q = false → q.joins = none → (∀ x ∈ s.reqs, x.joins ≠ some q.id) →
    let s1 := recordReads w (serveRead s w q.places) q.places
    (∀ j, queuedBehind s q j = false → q.cls = 0 → q.places.head? = some (.dev j) →
      roomFor s (homeOf j) (planeOf s j) (dieOf q.core) = true →
      ∃ t q', exec (.homeAccess q.id) s = .next t ∧ findReq t q.id = some q' ∧ q'.done = true ∧ t.mem = s1.mem
        ∧ q'.elems.map (·.data) = q.elems.map (fun e => e.places.map (peek s1 w))
        ∧ retainedOf t (homeOf j) (planeOf s j) (dieOf q.core)
            = retainedOf s (homeOf j) (planeOf s j) (dieOf q.core) ++ [{ tag := .core q.core (q.entries.headD 0) q.id, value := [] }])
    ∧ (q.cls = 1 → ∃ t q', exec (.clusterAccess q.id) s = .next t ∧ findReq t q.id = some q' ∧ q'.done = true
        ∧ t.mem = s1.mem ∧ q'.elems.map (·.data) = q.elems.map (fun e => e.places.map (peek s1 w)))
    ∧ ∀ data : List Nat, q.cls = 2 → data.length = (distinct q.places).length →
        (∀ h ∈ data, (nonetOfHalfword (h % 65536)).isSome = true) →
        (∀ n, (match q.places.head? with | some (.peer p _ _) => p | _ => hostPort s) = n → (s.port n).up = true) →
        let code (p : Place) : Nat := (((distinct q.places).zip data).lookup p).getD 0 % 65536
        ∃ t q', exec (.hostReadResponse q.id data) s = .next t ∧ findReq t q.id = some q' ∧ q'.done = true ∧ q'.poison = none
          ∧ q'.elems.map (·.data) = q.elems.map (fun e => e.places.map fun p => (nonetOfHalfword (code p)).getD 0)
          ∧ t.mem = s.mem)
    ∧ (∀ (s : State) (r : Run) (req : Nat) (q : Req) (rest : List Req) (op : Op) (f : Fields),
      (s.reqs.filter fun x => x.group == req / 100 && x.kind != .store) = q :: rest → q.kind = .load → q.part = r.id →
      Waits s r (.load (req / 100)) →
      r.body = false → codedOf q.instr = some (op, f) → (∀ x ∈ q :: rest, x.done = true ∧ x.poison = none) →
      (if returnForm op f = .uniform then isUni f.d = true ∨ isK f.d = true else isVectorDest f.d = true) →
      let es := (q :: rest).flatMap (·.elems)
      let vs := (inOrder es).map fun e => (e.lane, e.data)
      ∃ t r', exec (.remoteLoadReturn req) s = .next t ∧ Committed s t r r' ∧ BandKept r r' ∧ GangKept (stickyOf r.gang) r r'
        ∧ { t with bands := s.bands, reqs := s.reqs, issue := s.issue, free := s.free } = s
        ∧ if returnForm op f = .uniform then
            RegsKept f.d r r' ∧ (∀ n, f.d = .uni n → uget r'.gang n = if n = 0 then 0 else loadedWord vs (3 * r.id.part))
              ∧ SlicesWith (fun _ x => match f.d with | .kreg n => x.k.set n (loadedWord vs (3 * r.id.part)) | _ => x.k) r r'
          else VectorWritten f.d (fun l => vs.any fun x => x.1 == l) (loadedWord vs) r r')
    ∧ ∀ (s : State) (b : Band) (g : Gang) (gang : Nat) (q : Req), s.band b.uid = some b → b.gangs[gang]? = some g →
      (s.reqs.find? fun x => x.kind == .store && x.done && x.part.band == b.uid && x.part.gang == gang) = some q →
      ((s.reqs.filter fun x => x.id != q.id).any fun x => x.group == q.group && x.kind == .store) = false →
      ∃ t b', exec (.storeAck b.uid gang) s = .next t ∧ t.reqs = s.reqs.filter (fun x => x.id != q.id)
        ∧ t.band b.uid = some b' ∧ b'.gangs[gang]? = some { g with acks := g.acks - 1 }
        ∧ (∀ i, i ≠ gang → b'.gangs[i]? = b.gangs[i]?) ∧ { t with bands := s.bands, reqs := s.reqs } = s

/-! ### Memory, links and planes -/

/-- R39, R40, R407, R423: a controller corrects and counts a sector with one to three wrong bytes, and poisons and
counts a worse one; the scrubber reads its stack's sectors in address order, and its write-back is accepted only while
the sector's generation stands and within 4,096 cycles; a scrubbed line of a home, or of a version, has no wrong trit
left. Of the model's choice: log 56, 57, 85. -/
def Obligations.SectorResult : Prop :=
  (∀ (s : State) (c : Nat) (e : SectorError), c < Config.controllers → sectorExists e.sector = true →
    controllerOf e.sector = c →
    ∃ t, exec (.hbmBurstComplete c [e]) s = .next t ∧ t.mem = s.mem
      ∧ (e.bytes = 0 → e.badTag = false → t = s)
      ∧ (0 < e.bytes → e.bytes ≤ 3 → e.badTag = false → t.poison = s.poison
          ∧ t.controller c = { s.controller c with corrected := satCount ((s.controller c).corrected + 1) })
      ∧ (3 < e.bytes ∨ e.badTag = true → e.sector ∈ t.poison ∧ (e.sector ∉ s.poison →
          t.controller c = { s.controller c with poisoned := satCount ((s.controller c).poisoned + 1) })))
    ∧ (∀ (s : State) (c : Nat) (e : SectorError), c < Config.controllers → e.sector = sectorAt c (s.controller c).position →
      (s.controller c).used < scrubLimit s (s.controller c) →
      ∃ t, exec (.scrubRead c e) s = .next t ∧ t.mem = s.mem ∧ (t.controller c).used = (s.controller c).used + 1
        ∧ (t.controller c).position = ((s.controller c).position + 1) % Config.stackSectors
        ∧ ((t.controller c).scrub = if 0 < e.bytes ∧ e.bytes ≤ 3 ∧ e.badTag = false then
            some (e.sector, s.gen e.sector, payload s e.sector) else none)
        ∧ (t.controller c).scrubAt = if 0 < e.bytes ∧ e.bytes ≤ 3 ∧ e.badTag = false then (s.controller c).cycle else 0)
    ∧ (∀ (s : State) (c cycles sec gen : Nat) (vs : List Int), (s.controller c).scrub = some (sec, gen, vs) →
      ∃ t, exec (.scrubWriteback c cycles) s = .next t ∧ t.controller c = { s.controller c with scrub := none, scrubAt := 0 }
        ∧ t.gens = s.gens ∧ t.poison = s.poison
        ∧ t.zeroed = s.zeroed
        ∧ if s.gen sec = gen ∧ (s.controller c).cycle - (s.controller c).scrubAt + cycles ≤ 4096 then
            (∀ i, i < vs.length → memNonet t.mem (27 * sec + i) = ofHalfword (halfword (vs.getD i 0)))
              ∧ ∀ n, n < 27 * sec ∨ 27 * sec + vs.length ≤ n → memNonet t.mem n = memNonet s.mem n
          else t.mem = s.mem)
    ∧ ∀ (s : State) (line : Nat), ∃ t, exec (.homeLineScrub line) s = .next t ∧ t.mem = s.mem
      ∧ (∀ x ∈ t.flips, ∀ i, i < 81 → x.1 ≠ .dev (81 * line + i)) ∧ ∀ x ∈ t.verFlips, x.2.1 / 81 ≠ line

/-- R409, R410, R424 to R427: a flit that fails is replayed and counted, one that does not changes nothing; a lane is
rotated onto the shadow lane, or its plane dies; a dead plane's buckets go to planes in service, and with the last
plane every kernel stops; a confirmation drops 243 responses. Of the model's choice: log 19, 58, 106. -/
def Obligations.LinkResult : Prop :=
  (∀ (s : State) (m : Nat) (crc : Bool) (codes : List Nat), m < Config.uciModules →
    ∃ t, exec (.flitReceive m crc codes) s = .next t ∧ { t with modules := s.modules } = s
      ∧ if crc = true ∨ (∃ h ∈ codes, nonetOfHalfword (h % 65536) = none ∧ h % 65536 ≠ poisonCode) then
          t.uci m = { s.uci m with replays := satCount ((s.uci m).replays + 1), inPeriod := (s.uci m).inPeriod + 1 }
        else t = s)
    ∧ (∀ (s : State) (m : Nat) (i : Instr), m < Config.uciModules →
      (i = .laneMarginLow m ∨ i = .laneRotation m ∧ 9 ≤ (s.uci m).inPeriod) →
      ∃ t, exec i s = .next t ∧ ((s.uci m).shadow = false → (t.uci m).shadow = true
            ∧ (t.uci m).rotations = satCount ((s.uci m).rotations + 1) ∧ (t.uci m).inPeriod = 0 ∧ t.dying = s.dying)
        ∧ ((s.uci m).shadow = true → m % 9 ∈ t.dying ∨ m % 9 ∈ s.deadPlanes) ∧ t.mem = s.mem)
    ∧ (∀ (s : State) (p : Nat), p < Config.planes → p ∉ s.deadPlanes →
      ∃ t, exec (.planeDeath p) s = .next t ∧ p ∈ t.deadPlanes ∧ (∀ x ∈ s.deadPlanes, x ∈ t.deadPlanes)
        ∧ if livePlanes t = [] then t.kernels = []
          else t.mem = s.mem ∧ t.kernels = s.kernels ∧ t.rehash = satCount (s.rehash + 1)
            ∧ t.planeMap.length = s.planeMap.length ∧ (∀ x ∈ t.planeMap, x ∈ livePlanes t)
            ∧ ∀ (i x : Nat), s.planeMap[i]? = some x → x ∈ livePlanes t → t.planeMap[i]? = some x)
    ∧ ∀ (s : State) (h p d : Nat), 243 ≤ (retainedOf s h p d).length → ((retainedOf s h p d).take 243).all (received s) = true →
      ∃ t, exec (.responseConfirm h p d) s = .next t ∧ { t with retained := s.retained } = s
        ∧ retainedOf t h p d = (retainedOf s h p d).drop 243

/-! ### The host and the management controller -/

/-- R33 to R36, R306, R437, R439: a host write of whole nonets stores each code that is a nonet and poisons the sector
of any other; of a whole sector of nonets it clears the poison; a single byte, a host's or a peer's, is merged with
the other byte of its nonet; a host read answers with the codes, 0x8000 where poisoned; a peer's request is served
inside the port's inbound ranges alone, its atomic with the old nonets as the answer. That an access is performed
whole, or refused whole, and at its arrival is the model's choice: log 5, 97, 98, 111, 121. -/
def Obligations.PortMemory : Prop :=
  (∀ (s : State) (port j : Nat) (hs : List Nat), hostFacing s port = true → hs ≠ [] → (∀ h ∈ hs, h < 65536) →
    j + hs.length ≤ Config.deviceNonets →
    ∃ t, exec (.hostWrite port (2 * j) (codeBytes hs)) s = .next t
      ∧ (∀ i h, hs[i]? = some h → match nonetOfHalfword h with
          | some v => memNonet t.mem (j + i) = v
          | none => sectorOf (j + i) ∈ t.poison)
      ∧ (∀ sec, j ≤ 27 * sec → 27 * sec + 27 ≤ j + hs.length →
          (∀ i, i < 27 → (nonetOfHalfword (hs.getD (27 * sec + i - j) 0)).isSome = true) → sec ∉ t.poison)
      ∧ ∀ n, n < j ∨ j + hs.length ≤ n → unversioned s n → memNonet t.mem n = memNonet s.mem n)
    ∧ (∀ (s : State) (port j high value v : Nat) (x : Int),
      (hostFacing s port = true ∨ s.power = .up ∧ (s.port port).role = .peer ∧ (s.port port).up = true
        ∧ inbound (s.port port) j 1 = true) → high < 2 → j < Config.deviceNonets →
      unversioned s j → (∀ y ∈ s.flips, y.1 ≠ .dev (j / 3)) → (∀ y ∈ s.verFlips, lineOf (3 * y.2.1) ≠ lineOf j) →
      sectorOf j ∉ s.poison →
      (∀ b ∈ s.bands, ∀ sec, sec ∈ b.verPoison → sec / 9 ≠ lineOf j) →
      v = (if high = 0 then memHalf s.mem j / 256 * 256 + value % 256 else memHalf s.mem j % 256 + 256 * (value % 256)) →
      nonetOfHalfword v = some x →
      ∃ t, exec (.hostByteMerge port (2 * j + high) value) s = .next t ∧ memNonet t.mem j = x)
    ∧ (∀ (s : State) (port j n : Nat), hostFacing s port = true → 0 < n → j + n ≤ Config.deviceNonets → s.flips = [] →
      (∀ b ∈ s.bands, b.version = [] ∧ b.verPoison = []) →
      ∃ t, exec (.hostRead port (2 * j) (2 * n)) s = .next t ∧ t.mem = s.mem
        ∧ t.replies = s.replies ++ [(port, codeBytes ((List.range n).map fun i =>
            if sectorOf (j + i) ∈ s.poison then poisonCode else memHalf s.mem (j + i)))])
    ∧ ∀ (s : State) (port j n : Nat) (hs : List Nat), s.power = .up → (s.port port).role = .peer → (s.port port).up = true →
      port < s.ports.length →
      (∀ high value, high < 2 → inbound (s.port port) j 1 = false →
        ∃ t, exec (.hostByteMerge port (2 * j + high) value) s = .next t ∧ { t with ports := s.ports } = s
          ∧ (t.port port).ingress = satCount ((s.port port).ingress + 1))
      ∧ (inbound (s.port port) j n = false →
        ∃ t, exec (.peerRequest port j n .read) s = .next t ∧ t.mem = s.mem
          ∧ t.replies = s.replies ++ [(port, codeBytes (List.replicate n poisonCode))])
      ∧ (hs ≠ [] → inbound (s.port port) j hs.length = false →
        ∃ t, exec (.peerRequest port j n (.write hs)) s = .next t ∧ { t with ports := s.ports } = s
          ∧ (t.port port).ingress = satCount ((s.port port).ingress + 1))
      ∧ (∀ a, (∃ k ∈ peerNonets a, inbound (s.port port) k 1 = false) →
        ∃ t, exec (.peerRequest port j n (.atomic a)) s = .next t ∧ { t with ports := s.ports, replies := s.replies } = s
          ∧ (t.port port).ingress = satCount ((s.port port).ingress + 1)
          ∧ t.replies = s.replies ++ [(port, codeBytes (List.replicate (peerNonets a).length poisonCode))])
      ∧ (∀ (a : PeerAtomic) (k : Nat) (c d : Word), a.elems = [(k, c, d)] →
        (∀ i ∈ peerElem a k, inbound (s.port port) i 1 = true ∧ i < Config.deviceNonets ∧ sectorOf i ∉ s.poison) →
        s.flips = [] → (∀ b ∈ s.bands, b.version = [] ∧ b.verPoison = []) →
        let old := joinNonets ((peerElem a k).map (memNonet s.mem))
        let ws := splitNonets ((peerElem a k).map Place.dev) (atomicNew (opOfAtomic a.op) a.fields c d old).1
        (∀ x ∈ ws, inTrits 9 x.2 = true) →
        ∃ t, exec (.peerRequest port j n (.atomic a)) s = .next t
          ∧ t.replies = s.replies ++ [(port, codeBytes ((peerElem a k).map (memHalf s.mem)))]
          ∧ (∀ x ∈ devWrites ws, memNonet t.mem x.1 = x.2)
          ∧ ∀ i, i ∉ peerElem a k → memNonet t.mem i = memNonet s.mem i)
      ∧ (hs ≠ [] → inbound (s.port port) j hs.length = true → j + hs.length ≤ Config.deviceNonets → (∀ h ∈ hs, h < 65536) →
        ∃ t, exec (.peerRequest port j n (.write hs)) s = .next t
          ∧ ∀ i h v, hs[i]? = some h → nonetOfHalfword h = some v → memNonet t.mem (j + i) = v)

/-- R410, R437, R439, R440, R445, R446: a tail that does not fall and does not outrun the ring becomes the queue's
tail, and any other is dropped and counted; a write of a mailbox slot stores its word, and +1 in an idle doorbell
hands the command over; a read of a response slot answers with its word; links, roles and inbound ranges change as
their events say. Of the model's choice: log 74, 94, 122. -/
def Obligations.PortRegisters : Prop :=
  (∀ (s : State) (port : Nat) (q : Queue) (bytes : List Nat) (v : Word), hostFacing s port = true → q.number < Config.queues →
    s.queueAt q.number = some q → slotWord? bytes = some v →
    let good : Prop := 0 ≤ wrap 27 (v - q.tail) ∧ 0 ≤ wrap 27 (v - q.taken) ∧ wrap 27 (v - q.taken) ≤ q.size
    (good → ∃ t, exec (.tailWrite port q.number bytes) s = .next t ∧ { t with queues := s.queues } = s
      ∧ t.queueAt q.number = some { q with tail := v } ∧ ∀ n, n ≠ q.number → t.queueAt n = s.queueAt n)
    ∧ (¬ good → port < s.ports.length → ∃ t, exec (.tailWrite port q.number bytes) s = .next t ∧ { t with ports := s.ports } = s
      ∧ (t.port port).ingress = satCount ((s.port port).ingress + 1)))
    ∧ (∀ (s : State) (port i : Nat) (bytes : List Nat) (v : Word), hostFacing s port = true → port < s.ports.length → i < 9 →
      slotWord? bytes = some v → bytes.length ≤ 8 →
      ∃ t, exec (.registerWrite port (0xC000 + 8 * i) bytes) s = .next t ∧ { t with ports := s.ports } = s
        ∧ t.port port = { s.port port with command := (s.port port).command.set i v } ∧ ∀ p, p ≠ port → t.port p = s.port p)
    ∧ (∀ (s : State) (port : Nat) (bytes : List Nat), hostFacing s port = true → port < s.ports.length →
      slotWord? bytes = some 1 → bytes.length ≤ 8 → (s.port port).doorbell = 0 →
      1 ≤ (s.port port).command.headD 0 ∧ (s.port port).command.headD 0 ≤ 14 → s.commands = [] →
      ∃ t, exec (.registerWrite port 0xC080 bytes) s = .next t
        ∧ t.commands = [{ port := port, code := (s.port port).command.headD 0, args := (s.port port).command.drop 1 }]
        ∧ t.port port = { s.port port with doorbell := 1 } ∧ { t with ports := s.ports, commands := s.commands } = s)
    ∧ (∀ (s : State) (port i : Nat), hostFacing s port = true → i < 9 →
      exec (.hostRead port (Config.bar0 + 0xC100 + 8 * i) 6) s = .next { s with replies := s.replies ++
        [(port, codeBytes ((List.range 3).map fun m => halfword (nonetOf ((s.port port).response.getD i 0) m)))] })
    ∧ ∀ (s : State) (port : Nat) (role : PortRole) (ranges : List (Nat × Nat)), port < s.ports.length →
      (∃ t, exec (.pcieLinkDown port) s = .next t ∧ { t with ports := s.ports } = s
          ∧ t.port port = { s.port port with up := false } ∧ ∀ p, p ≠ port → t.port p = s.port p)
      ∧ (∃ t, exec (.pcieLinkUp port) s = .next t ∧ { t with ports := s.ports } = s
          ∧ (t.port port).up = (if (s.port port).role = .unassigned then (s.port port).up else true)
          ∧ ∀ p, p ≠ port → t.port p = s.port p)
      ∧ (∃ t, exec (.portReset port role) s = .next t ∧ (t.port port).role = role
          ∧ (t.port port).ingress = (s.port port).ingress ∧ (t.port port).egress = (s.port port).egress
          ∧ (t.port port).inbound = [] ∧ (∀ c ∈ t.commands, c.port ≠ port) ∧ ∀ p, p ≠ port → t.port p = s.port p)
      ∧ ∃ t, exec (.inboundRanges port ranges) s = .next t ∧ { t with ports := s.ports } = s
          ∧ t.port port = { s.port port with inbound := ranges } ∧ ∀ p, p ≠ port → t.port p = s.port p

/-- R389, R390, R451, R452: bring-up leaves every count, context, kernel and version gone and memory zeroed, running
with an image that is signed under the fused key and recent enough and ports in their roles when every step passes,
else on the recovery interface with no port trained; an update through port 0 replaces the image there; the
attestation report holds the nonce and the firmware's digest and security version; a hot die lowers every budget to
27, and a trip shuts the device down, which the summary reports after the next bring-up. Of the model's choice: log 1,
14, 15, 72, 74. -/
def Obligations.ManagementResult : Prop :=
  (∀ (s : State) (image : Image) (pass : Bool), ∃ t, exec (.bringUp image pass) s = .next t ∧ t.mem = [] ∧ t.poison = []
      ∧ t.contexts = [] ∧ t.kernels = [] ∧ t.bands = [] ∧ t.queues = [] ∧ t.cores = [] ∧ t.homes = [] ∧ t.controllers = []
      ∧ t.modules = [] ∧ t.deadPlanes = [] ∧ t.planeMap = (List.range 81).map (· % 9) ∧ t.negotiated = false
      ∧ if imageSigned s image = true ∧ s.firmware.minimum ≤ image.security ∧ pass = true then
          t.power = .up ∧ t.firmware = { s.firmware with digest := sha512 image.bytes, version := image.security }
            ∧ ∀ n, n < s.ports.length → t.port n = Port.reset (s.port n).role
        else t.power = .recovery ∧ t.firmware = s.firmware ∧ ∀ n, n < s.ports.length → (t.port n).up = false)
    ∧ (∀ (s : State) (image : Image) (pass : Bool), s.power = .shut → s.tripped = true →
      ∃ t, exec (.bringUp image pass) s = .next t ∧ (summary t).getLast? = some ((t.mgmtBudget : Int) + 3 ^ 26))
    ∧ (∀ s : State, s.tripped = false → (summary s).getLast? = some (s.mgmtBudget : Int))
    ∧ (∀ (s : State) (image : Image), s.power = .recovery → imageSigned s image = true → s.firmware.minimum ≤ image.security →
      exec (.firmwareUpdate 0 image) s
        = .next { s with firmware := { s.firmware with digest := sha512 image.bytes, version := image.security } })
    ∧ (∀ (s : State) (nonce : List Nat), s.power = .up → nonce.length = 64 → (∀ b ∈ nonce, b < 256) →
      ∃ t, exec (.attestationRequest nonce) s = .next t ∧ t.attested.length = 716
        ∧ (t.attested.drop 64).take 64 = nonce
        ∧ (∀ i, i < 64 → t.attested.getD i 0 = s.firmware.digest.getD i 0 % 256)
        ∧ (∀ i, i < 2 → t.attested.getD (136 + i) 0 = Config.stepping.toNat / 256 ^ i % 256)
        ∧ (∀ i, i < 2 → t.attested.getD (138 + i) 0 = s.firmware.version / 256 ^ i % 256)
        ∧ (∀ i, i < 64 → t.attested.getD (140 + i) 0 = (sha512 (packedWords (attestedWords s))).getD i 0)
        ∧ t.attested.drop 204 = signMessage Config.attestModulus Config.attestExponent
            (octetField (Config.attestSalt s.free) 64) (t.attested.take 204)
        ∧ { t with attested := s.attested, free := s.free } = s)
    ∧ (∀ (s : State) (die : Nat), ∃ t, exec (.thermalHigh die) s = .next t ∧ (∀ b, t.budget b = min b 27)
        ∧ { t with dies := s.dies } = s)
    ∧ (∀ (s : State) (die : Nat), s.dies.Pairwise (fun x y => x.number < y.number) →
      (∀ d ∈ s.dies, d.hot = true → d.number = die) →
      ∃ t, exec (.thermalCool die) s = .next t ∧ (∀ b, t.budget b = b) ∧ { t with dies := s.dies } = s)
    ∧ ∀ (s : State) (die : Nat), ∃ t, exec (.thermalTrip die) s = .next t ∧ t.power = .shut ∧ t.tripped = true
        ∧ t.kernels = [] ∧ t.bands = [] ∧ t.mem = []

/-- R370, R371, R385, R388, R438, R444, R447 to R449: each host command whose checks pass answers +1 with its word 1
and has its effect; RESOLVE of an address outside the context's fault area is refused with 1. Of the model's choice:
log 68 to 71, 90, 114, 123. -/
def Obligations.CommandResult : Prop :=
  ∀ (s : State) (port : Nat) (args : List Int),
    let a (i : Nat) : Int := args.getD i 0
    (Commanded s port 1 args → (∀ x ∈ trits 27 (a 0), x ≠ -1) → (∀ x ∈ (trits 27 (a 0)).drop Config.offered, x = 0) →
      ∃ t, exec (.negotiate port args) s = .next t ∧ Answered { s with features := a 0, negotiated := true } t port 1 (a 0))
    ∧ (Commanded s port 2 args → 0 ≤ a 0 → a 0 % 2 = 0 →
      ∃ t m, exec (.resync port args) s = .next t ∧ Answered { s with hostMem := m } t port 1 11814
        ∧ ∀ i w, (summary s)[i]? = some w → ∀ n, n < 3 → memNonet m ((a 0 / 2).toNat + 3 * i + n) = nonetOf w n)
    ∧ (∀ s1 ws es, Commanded s port 3 args → within (a 0) 0 242 = true → sectorAddress (a 1) = true →
      s.context (a 0).toNat = none → readDescriptor s (a 0).toNat (a 1) = .ok (s1, ws, es) →
      ∃ t, exec (.install port args) s = .next t
        ∧ Answered { s1 with contexts := s1.contexts ++ [describe (.fresh (a 0).toNat) (a 1) ws es] } t port 1 0)
    ∧ (∀ s1 ws es c c1, Commanded s port 4 args → within (a 0) 0 242 = true → sectorAddress (a 1) = true →
      s.context (a 0).toNat = some c → readDescriptor s c.number (a 1) = .ok (s1, ws, es) →
      s1.context c.number = some c1 →
      let d := describe c1 (a 1) ws es
      ∃ t, exec (.change port args) s = .next t
        ∧ (∃ x, t.context c.number = some x ∧ { x with
            forced := d.forced, mismatches := d.mismatches, stops := d.stops, lastSlot := d.lastSlot
            lastRecord := d.lastRecord, nextRecord := d.nextRecord } = d)
        ∧ Answered (zeroFrames (emptyXregs (s1.modContext c.number fun _ => d) c.number) (poolLess c.pool d.pool)) t port 1 0)
    ∧ (∀ c, Commanded s port 5 args → namedContext s (a 0) = .ok c →
      ∃ s1 t, exec (.remove port args) s = .next t ∧ Answered s1 t port 1 0 ∧ t.context c.number = none
        ∧ (∀ k ∈ t.kernels, k.context ≠ c.number) ∧ (∀ q ∈ t.queues, q.context ≠ c.number)
        ∧ ∀ n, c.pool.any (fun e => decide (2187 * e.1 ≤ n) && decide (n < 2187 * (e.1 + e.2))) = true → memNonet t.mem n = 0)
    ∧ (Commanded s port 6 args → 0 ≤ a 0 → 0 ≤ a 1 → a 0 + a 1 ≤ (Config.frames : Int) →
      ∃ s1 t, exec (.release port args) s = .next t ∧ Answered s1 t port 1 0
        ∧ (∀ n : Nat, 2187 * a 0 ≤ n → n < 2187 * (a 0 + a 1) → memNonet t.mem n = 0)
        ∧ ∀ c ∈ t.contexts, ∀ e ∈ c.pool, ∀ f, e.1 ≤ f → f < e.1 + e.2 → ¬ (a 0 ≤ f ∧ f < a 0 + a 1))
    ∧ (∀ c, Commanded s port 7 args → namedContext s (a 0) = .ok c → within (a 2) 0 8 = true → 0 ≤ a 3 → 0 ≤ a 4 →
      a 3 + a 4 ≤ (half 18 : Int) + 1 →
      (a 1 = 1 ∧ 0 ≤ a 5 ∧ a 5 % 4374 = 0 ∨ a 1 = -1 ∧ within (a 5) 0 5 = true ∧ 0 ≤ a 6) →
      (otherWindows c (a 1 == 1) (a 2).toNat).all (disjoint (a 3, a 4)) = true →
      ∃ s1 t c', exec (.window port args) s = .next t ∧ Answered s1 t port 1 0 ∧ t.context c.number = some c'
        ∧ if a 1 = 1 then smapFind c'.hostWins (a 2).toNat
              = some { frame := (a 3).toNat, count := (a 4).toNat, base := (a 5).toNat }
          else smapFind c'.peerWins (a 2).toNat
              = some { frame := (a 3).toNat, count := (a 4).toNat, port := (a 5).toNat, base := (a 6).toNat })
    ∧ (∀ c, Commanded s port 8 args → within (a 0) 0 728 = true → within (a 2) 0 8 = true → within (a 4) 1 729 = true →
      0 ≤ a 3 → a 3 % 27 = 0 → a 3 + 30 * a 4 ≤ (Config.deviceNonets : Int) → namedContext s (a 1) = .ok c →
      (∀ q, s.queueAt (a 0).toNat = some q → untaken q = 0) →
      let q : Queue := ⟨(a 0).toNat, c.number, (a 2).toNat, (a 3).toNat, (a 4).toNat, 0, 0⟩
      ∃ t, exec (.queue port args) s = .next t
        ∧ Answered { s with queues := s.queues.filter (fun x => x.number != q.number) ++ [q] } t port 1 0)
    ∧ (∀ c, Commanded s port 9 args → namedContext s (a 0) = .ok c → (a 2 = 1 ∨ a 2 = -1 ∨ a 2 = 2) →
      (∀ r, inFaultArea c (a 1) = true → faultParts s c (a 1) = [r] → s.run r.id = some r →
        ∃ t, exec (.resolve port args) s = .next t ∧ Answered (resolveFault s r (a 2)) t port 1 0)
      ∧ (inFaultArea c (a 1) = true → faultParts s c (a 1) = [] →
        ∃ t, exec (.resolve port args) s = .next t ∧ Answered s t port (-2) 0)
      ∧ (inFaultArea c (a 1) = false → ∃ t, exec (.resolve port args) s = .next t ∧ Answered s t port (-1) 0))
    ∧ (∀ c, Commanded s port 10 args → namedContext s (a 0) = .ok c →
      ∃ s1 t, exec (.stop port args) s = .next t
        ∧ match s.kernels.find? fun k => k.context == c.number && k.number == a 1 with
          | some k => s1 = stopKernel s k.uid 16 none ∧ Answered s1 t port 1 1
          | none => s1 = s ∧ Answered s1 t port 1 0)
    ∧ (Commanded s port 11 args → within (a 2) 1 81 = true →
      (∀ c, (a 0 = 1 ∨ a 0 = 2) → namedContext s (a 1) = .ok c → ∃ t, exec (.budget port args) s = .next t
        ∧ Answered (s.modContext c.number fun c => if a 0 = 1 then { c with issueShare := (a 2).toNat }
            else { c with copyShare := (a 2).toNat }) t port 1 0)
      ∧ (a 0 = 3 → within (a 1) 0 11 = true → ∃ t, exec (.budget port args) s = .next t
        ∧ Answered (s.modController (a 1).toNat fun c => { c with budget := (a 2).toNat }) t port 1 0)
      ∧ (a 0 = 4 → a 1 = 0 → ∃ t, exec (.budget port args) s = .next t
        ∧ Answered { s with mgmtBudget := (a 2).toNat } t port 1 0))
    ∧ (∀ c, Commanded s port 12 args → namedContext s (a 0) = .ok c → within (a 1) 0 1 = true →
      ∃ t, exec (.inject port args) s = .next t
        ∧ Answered (s.modContext c.number fun c => { c with inject := a 1 }) t port 1 0)
    ∧ (∀ c s0 n i j, Commanded s port 13 args → namedContext s (a 0) = .ok c → within (a 1) 0 728 = true →
      within (a 3) 0 (3 ^ 26) = true → (a 2 + 117) % 243 = 0 → countDeprecated c (a 3).toNat (a 2) s = some (s0, n) →
      physNonet (c.kernelTable + 6 * a 1) = some i → physNonet (c.kernelTable + 6 * a 1 + 3) = some j →
      ∃ s1 t, exec (.replace port args) s = .next t ∧ Answered s1 t port 1 n
        ∧ ∀ m, m < 3 → memNonet t.mem (i + m) = nonetOf (a 2) m ∧ memNonet t.mem (j + m) = nonetOf (a 3) m)
    ∧ ∀ c, Commanded s port 14 args → namedContext s (a 0) = .ok c → within (a 1) 0 728 = true → 0 ≤ a 2 →
      let old := smapGet 0 c.tokens (a 1).toNat
      ((a 2).toNat < old → tokenAwaited s c (a 1).toNat = false) →
      ∃ t, exec (.token port args) s = .next t
        ∧ Answered (s.modContext c.number fun c => { c with
              tokens := smapSet 0 c.tokens (a 1).toNat (a 2).toNat
              posters := smapSet [] c.posters (a 1).toNat (setAdd (smapGet [] c.posters (a 1).toNat) Config.computeDies) })
            t port 1 old

/-! ### The numbers under the instructions -/

/-- R6, R8, R23, R24, R30, R131, R133: trits and integers stand for each other one to one; wrapping, saturating,
truncating and dividing give the values that R8 and R131 describe; a shift count of any size acts as R133 says; a
halfword carries each nonet, and 0x8000 none. -/
def Obligations.ArithmeticRules : Prop :=
  (∀ (n : Nat) (x : Int), inTrits n x = true → ofTrits (trits n x) = x ∧ (trits n x).length = n
      ∧ ∀ y ∈ trits n x, y = -1 ∨ y = 0 ∨ y = 1)
    ∧ (∀ ts : List Int, (∀ y ∈ ts, y = -1 ∨ y = 0 ∨ y = 1) →
      trits ts.length (ofTrits ts) = ts ∧ inTrits ts.length (ofTrits ts) = true)
    ∧ (∀ (n : Nat) (x : Int), inTrits n (wrap n x) = true ∧ (∃ q, x = wrap n x + q * (3 ^ n : Nat)) ∧ inTrits n (sat n x) = true
      ∧ (inTrits n x = true → wrap n x = x ∧ sat n x = x)
      ∧ ((half n : Int) < x → sat n x = half n) ∧ (x < -(half n : Int) → sat n x = -(half n : Int))
      ∧ 2 * (x - trunc n x * (3 ^ n : Nat)).natAbs < 3 ^ n)
    ∧ (∀ n0 n1 n2 : Int, inTrits 9 n0 = true → inTrits 9 n1 = true → inTrits 9 n2 = true →
      inTrits 27 (wordOf n0 n1 n2) = true ∧ nonetOf (wordOf n0 n1 n2) 0 = n0 ∧ nonetOf (wordOf n0 n1 n2) 1 = n1
        ∧ nonetOf (wordOf n0 n1 n2) 2 = n2)
    ∧ (∀ w : Int, inTrits 27 w = true → wordOf (nonetOf w 0) (nonetOf w 1) (nonetOf w 2) = w)
    ∧ (∀ x y : Int, y ≠ 0 → 2 * (x - y * divNear x y).natAbs ≤ y.natAbs
      ∧ (2 * (x - y * divNear x y).natAbs = y.natAbs → (y * divNear x y).natAbs < x.natAbs))
    ∧ (∀ (n : Nat) (c : Clamp) (k x : Int), (divDest n c k x 0).1 = sgn x * (half n : Int) ∧ (divDest n c k x 0).2.sticky = true
      ∧ remNear x 0 = x)
    ∧ (∀ (n : Nat) (c : Clamp) (x m : Int), inTrits n x = true → shiftDest n c x m = clampInt n c (scaleInt m x))
    ∧ (∀ v : Int, inTrits 9 v = true → halfword v < 65536 ∧ nonetOfHalfword (halfword v) = some v)
    ∧ (∀ (h : Nat) (v : Int), h < 65536 → nonetOfHalfword h = some v → inTrits 9 v = true ∧ halfword v = h)
    ∧ nonetOfHalfword poisonCode = none

/-! ### Encoding -/

/-- R83 to R95, R107: decoding the words of a well-formed instruction gives it back, with every operand at every value
its entry admits; and words that decode are the words of the instruction that they decode to, which is well formed. -/
def Obligations.DecodeEncode : Prop :=
  (∀ (x : DecodeCtx) (i : Instr) (ws : Word × Word × Word), wellFormed x i = true → encode i = some ws →
      decode x ws.1 ws.2.1 ws.2.2 = .ok i)
    ∧ ∀ (x : DecodeCtx) (i : Instr) (w0 w1 w2 : Word), inTrits 27 w0 = true → inTrits 27 w1 = true → inTrits 27 w2 = true →
      decode x w0 w1 w2 = .ok i → encode i = some (w0, w1, w2) ∧ wellFormed x i = true

/-- The spec's worked encodings decode to the instructions that they stand for: VADD.T9 v7, v3, -v4 with clamp, mask,
condition and lookahead; UADD s11, s9, 27; VLD.T27 v5, [s4 + s6 + 27]; FENCE.PKG. All zeros decode to nothing. -/
def Obligations.DecodeWords : Prop :=
  ∀ x : DecodeCtx, 8 ≤ x.grant →
    decode x (-2531402250762) (-3788386465437) 0 = .ok (.vadd {
        ty := .t9, mask := 1, cond := .gt, la := 2, clamp := .sat, modB := .neg, d := .vec 7, a := .vec 3, b := .vec 4 })
    ∧ decode x (-3375209454363) 1709302386114 27 = .ok (.uadd { var := 81, d := .uni 11, a := .uni 9, imm := 27 })
    ∧ decode x 899588221263 (-3792851016714) 27 = .ok (.vld { d := .vec 5, a := .uni 4, b := .uni 6, imm := 27 })
    ∧ decode x 1831334497308 0 0 = .ok (.fence { var := 18 }) ∧ decode x 0 0 0 = .error 1

/-! ### The step -/

/-- R83, R107, R302, R325, R387: with a part in the issue slot, the step fetches the nine nonets at its program
counter (as they read once the fetch has had its effects, but for code whose stores await their ICINV) and runs the
instruction that they decode to, in the state that the fetch leaves; words that decode to none raise trap 1 with the
sub-code of the first check that fails; a part whose debug step is due takes trap 14. With no part there, the step is
the next event, after erased trits that have arrived (R28) and what begins a local cycle (R335). Of the model's
choice: log 8, 9, 17, 25, 38. -/
def Obligations.StepRunsDecoded : Prop :=
  (∀ (s : State) (it : Issue) (r : Run) (ps : List Place) (ls : List Leaf),
      s.issue = some it → s.run it.part = some r → r.part.stepping ≠ 1 →
      let s1 := fetchEffects s r
      let r1 := r.again s1
      fetchPlaces s1 r1 = .ok (ps, ls) → (∀ p ∈ ps, isPoison s1 r1.who p = false) →
      let ws := wordsOfNonets (fetchedNonets s1 r1 ps)
      let x : DecodeCtx := { capsule := r1.capsule, grant := r1.gang.grant }
      (∀ i, decode x ws.1 ws.2.1 ws.2.2 = .ok i → step s = exec i s1)
        ∧ (∀ i, wellFormed x i = true → encode i = some ws → step s = exec i s1)
        ∧ ∀ n, decode x ws.1 ws.2.1 ws.2.2 = .error n →
          step s = .next (fetchTrap s1 r1 { code := 1, sub := n, lanes := partLanes r1 } ws))
    ∧ (∀ (s : State) (r : Run) (ps : List Place),
      (∀ p, ps.head? = some p → oldCode s r.id.band r.core (unitStart 9 p) = none) →
      fetchedNonets s r ps = ps.map (peek s r.who))
    ∧ (∀ (s : State) (it : Issue) (r : Run), s.issue = some it → s.run it.part = some r → r.part.stepping = 1 →
      step s = .next (finish s r 0 (instrWords s r) (.trap { code := 14, sub := 1 } s)))
    ∧ (∀ (s : State) (u : Upset) (rest : List Upset), s.issue = none → s.upsets = u :: rest →
      step s = .next (meetUpset { s with upsets := rest } u))
    ∧ (∀ (s : State) (i : Instr), s.issue = none → s.upsets = [] → (cycleStarts s).find? (changes s) = some i →
      step s = exec i s)
    ∧ (∀ (s : State) (e : Instr) (rest : List Instr), s.issue = none → s.upsets = [] →
      (cycleStarts s).find? (changes s) = none → s.agenda = e :: rest → codedOf e = none →
      step s = exec e { s with agenda := rest })
    ∧ ∀ s : State, s.issue = none → s.upsets = [] → (cycleStarts s).find? (changes s) = none → s.agenda = [] →
      step s = exec (nextEvent s) s

/-- R381, R107: no step stops the machine: every instruction, whatever its operands and the state, and every event
ends in a next state; what cannot complete traps, waits or ends its kernel. Of the model's choice: log 80. -/
def Obligations.StepNeverStops : Prop := ∀ s : State, ∃ t, step s = .next t

/-- Every step keeps the canonical form of memory. Of the model's choice: log 3. -/
def Obligations.StepKeepsMemory : Prop :=
  ∀ s t : State, MemoryForm s → step s = .next t → MemoryForm t

/-- Memory is in its canonical form after reset, with every nonet 0. Of the model's choice: log 1, 3. -/
def Obligations.ResetMemory : Prop :=
  MemoryForm State.reset ∧ ∀ n, memNonet State.reset.mem n = 0 ∧ sectorOf n ∉ State.reset.poison

/-- R287, R336, R408, R452: bring-up leaves every count at 0, budgets at 81, every queue unbound and no context
installed, the plane map spread over the nine planes, and no feature negotiated. Of the model's choice: log 1. -/
def Obligations.ResetState : Prop :=
  State.reset.contexts = [] ∧ State.reset.kernels = [] ∧ State.reset.bands = [] ∧ (∀ n, State.reset.queueAt n = none)
    ∧ State.reset.negotiated = false ∧ State.reset.planeMap = (List.range 81).map (· % 9) ∧ State.reset.rehash = 0
    ∧ (∀ n, (State.reset.core n).corrected = 0 ∧ (State.reset.core n).poisoned = 0)
    ∧ (∀ n, (State.reset.home n).corrected = 0 ∧ (State.reset.home n).poisoned = 0)
    ∧ (∀ n, (State.reset.controller n).corrected = 0 ∧ (State.reset.controller n).poisoned = 0
      ∧ (State.reset.controller n).budget = 81)
    ∧ (∀ n, (State.reset.uci n).replays = 0 ∧ (State.reset.uci n).rotations = 0)
    ∧ (∀ n, (State.reset.port n).ingress = 0 ∧ (State.reset.port n).egress = 0) ∧ State.reset.mgmtBudget = 81
end

