-- ==== Sys2Proof/Laws/Runs.lean ====
section
/-! SUPPORT. What reading a record gives after another has been replaced: bands, gangs, parts and the run of a part. -/

namespace Sys2Proof.Machine

/-! ### Lists -/

theorem modAt_get {α : Type} (l : List α) (i j : Nat) (f : α → α) :
    (modAt l i f)[j]? = if j = i then l[j]?.map f else l[j]? := by
  induction l generalizing i j with
  | nil => cases i <;> simp [modAt]
  | cons x xs ih => cases i <;> cases j <;> simp [modAt, ih]

theorem modAt_length {α : Type} (l : List α) (i : Nat) (f : α → α) : (modAt l i f).length = l.length := by
  induction l generalizing i with
  | nil => cases i <;> rfl
  | cons x xs ih => cases i <;> simp [modAt, ih]

/-! ### Bands -/

theorem band_uid {s : State} {u : Nat} {b : Band} (h : s.band u = some b) : b.uid = u := by
  have := List.find?_some h
  simpa using this

theorem band_modBand (s : State) (u v : Nat) (f : Band → Band) (hf : ∀ b, (f b).uid = b.uid) :
    (s.modBand u f).band v = if v = u then (s.band v).map f else s.band v := by
  simp only [State.band, State.modBand, List.find?_map]
  have hp : ((fun b : Band => b.uid == v) ∘ fun b => if b.uid = u then f b else b) = fun b : Band => b.uid == v := by
    funext b; by_cases h : b.uid = u <;> simp [h, hf]
  rw [hp]
  cases hb : s.bands.find? (fun b => b.uid == v) with
  | none => simp
  | some b =>
    have := List.find?_some hb
    by_cases hv : v = u
    · subst hv; simp at this; simp [this]
    · have hbu : b.uid ≠ u := by simp at this; omega
      simp [hv, hbu]

theorem band_modGang (s : State) (u v g : Nat) (f : Gang → Gang) :
    (s.modGang u g f).band v = if v = u then (s.band v).map (modGangB · g f) else s.band v :=
  band_modBand s u v _ fun _ => rfl

/-! ### Parts -/

theorem partOf_modPartG (g : Gang) (p q : Nat) (f : Part → Part) (hf : ∀ x, (f x).slices = x.slices) :
    partOf (modPartG g q f) p = if p = q then (partOf g p).map f else partOf g p := by
  simp only [partOf, modPartG, List.find?_map]
  have hp : ((fun x : Part => x.slices.head? == some p) ∘ fun x => if x.slices.head? = some q then f x else x)
      = fun x : Part => x.slices.head? == some p := by
    funext x; by_cases h : x.slices.head? = some q <;> simp [h, hf]
  rw [hp]
  cases hb : g.parts.find? (fun x => x.slices.head? == some p) with
  | none => simp
  | some x =>
    have := List.find?_some hb
    by_cases hv : p = q
    · subst hv; simp at this; simp [this]
    · have : x.slices.head? ≠ some q := by simp at this; simp [this]; omega
      simp [hv, this]

/-! ### The run of a part -/

/-- The records of a part are those its names lead to. -/
theorem run_iff (s : State) (p : PartId) (r : Run) :
    s.run p = some r ↔ s.band p.band = some r.band ∧ r.band.gangs[p.gang]? = some r.gang
      ∧ s.kernel r.band.kernel = some r.kern ∧ partOf r.gang p.part = some r.part
      ∧ s.context r.kern.context = some r.ctx ∧ r.id = p ∧ r.core = r.band.core.getD 0 ∧ r.node = false := by
  unfold State.run
  constructor
  · intro h
    split at h
    · cases h
    · rename_i b hb
      split at h
      · rename_i g k hg hk
        split at h
        · rename_i q x hq hx
          cases h
          exact ⟨hb, hg, hk, hq, hx, rfl, rfl, rfl⟩
        · cases h
      · cases h
  · rintro ⟨hb, hg, hk, hq, hx, rfl, hc, hn⟩
    obtain ⟨id, band, gang, part, kern, ctx, core, node⟩ := r
    simp only at hb hg hk hq hx hc hn
    simp [hb, hg, hk, hq, hx, hc, hn]

theorem run_id {s : State} {p : PartId} {r : Run} (h : s.run p = some r) : r.id = p := ((run_iff s p r).1 h).2.2.2.2.2.1

/-- A state that differs in no band, kernel or context has the same runs. -/
theorem run_congr {s t : State} (p : PartId) (hb : t.band p.band = s.band p.band)
    (hk : ∀ u, t.kernel u = s.kernel u) (hc : ∀ n, t.context n = s.context n) : t.run p = s.run p := by
  simp only [State.run, hb, hk, hc]

/-- The run after a change of its gang that keeps the part findable. -/
theorem run_modGang {s : State} {r : Run} (h : s.run r.id = some r) (f : Gang → Gang) {q : Part}
    (hq : partOf (f r.gang) r.id.part = some q) :
    (r.modGang s f).run r.id
      = some { r with band := modGangB r.band r.id.gang f, gang := f r.gang, part := q } := by
  rw [run_iff] at h ⊢
  obtain ⟨hb, hg, hk, -, hx, -, hc⟩ := h
  refine ⟨?_, ?_, hk, hq, hx, rfl, hc⟩
  · simp [Run.modGang, band_modGang, hb]
  · simp [modGangB, modAt_get, hg]

/-- The run after a change of its part that keeps the slices. -/
theorem run_modPart {s : State} {r : Run} (h : s.run r.id = some r) (f : Part → Part) (hf : ∀ x, (f x).slices = x.slices) :
    (r.modPart s f).run r.id = some { r with
      band := modGangB r.band r.id.gang fun g => modPartG g r.id.part f, gang := modPartG r.gang r.id.part f,
      part := f r.part } := by
  have hp := ((run_iff s r.id r).1 h).2.2.2.1
  exact run_modGang h _ (by simp [partOf_modPartG _ _ _ _ hf, hp])

/-- The run after a change of its part's slices. -/
theorem run_modSlices {s : State} {r : Run} (h : s.run r.id = some r) (f : Slice → Slice) :
    (r.modSlices s f).run r.id = some { r with
      band := modGangB r.band r.id.gang fun g => modSlicesG g r.part.slices f,
      gang := modSlicesG r.gang r.part.slices f } := by
  have hp := ((run_iff s r.id r).1 h).2.2.2.1
  exact run_modGang h _ hp

/-- The run after a change of its band that keeps its name, kernel, core and gangs. -/
theorem run_modBand {s : State} {r : Run} (h : s.run r.id = some r) (f : Band → Band) (hu : ∀ b, (f b).uid = b.uid)
    (hg : (f r.band).gangs = r.band.gangs) (hk : (f r.band).kernel = r.band.kernel) (hc : (f r.band).core = r.band.core) :
    (r.modBand s f).run r.id = some { r with band := f r.band } := by
  rw [run_iff] at h ⊢
  obtain ⟨hb, hgg, hkk, hp, hx, -, hcc⟩ := h
  refine ⟨?_, by simpa [hg] using hgg, ?_, hp, hx, rfl, by simpa [hc] using hcc⟩
  · simp [Run.modBand, band_modBand _ _ _ _ hu, hb]
  · show s.kernel (f r.band).kernel = _
    rw [hk]; exact hkk

@[simp] theorem freeSlot_run (s : State) (p : PartId) : (freeSlot s).run p = s.run p := rfl
@[simp] theorem freeSlot_band (s : State) (u : Nat) : (freeSlot s).band u = s.band u := rfl

theorem modSlicesG_get (g : Gang) (sl : List Nat) (f : Slice → Slice) (j : Nat) :
    (modSlicesG g sl f).slices[j]? = (g.slices[j]?).map fun x => if j ∈ sl then f x else x := by
  simp [modSlicesG, List.getElem?_mapIdx]

end Sys2Proof.Machine
end

