-- ==== Sys2Proof/Laws/Commit.lean ====
section
/-! SUPPORT. What an instruction that performs its own effect and commits leaves: the run of its part, and the frame. -/

namespace Sys2Proof.Machine

theorem modGangB_comp (b : Band) (g : Nat) (f h : Gang → Gang) :
    modGangB (modGangB b g f) g h = modGangB b g fun x => h (f x) := by
  have : ∀ (l : List Gang) (i : Nat), modAt (modAt l i f) i h = modAt l i fun x => h (f x) := by
    intro l
    induction l with
    | nil => intro i; cases i <;> rfl
    | cons x xs ih => intro i; cases i <;> simp [modAt, ih]
  simp [modGangB, this]

/-- How a gang looks after a part of it has retired. -/
def retireGang (r : Run) (la : Nat) (dests : List Opnd) (born : Nat) (g : Gang) : Gang :=
  modSlicesG (modPartG (modSlicesG g r.part.slices fun x => { x with pc := wrap 27 (x.pc + 9) }) r.id.part
    (retirePart r la dests born)) r.part.slices dropLog

theorem retirePart_slices (r : Run) (la : Nat) (dests : List Opnd) (born : Nat) (p : Part) :
    (retirePart r la dests born p).slices = p.slices := rfl

/-- Retiring is one change of the gang and a free slot. -/
theorem retire_eq (r : Run) (la : Nat) (dests : List Opnd) (s : State) :
    retire r la dests (advance r s) = freeSlot (r.modGang s (retireGang r la dests s.free)) := by
  have hb : ∀ (l : List Band) (u g : Nat) (f h k : Gang → Gang),
      (((l.map fun b => if b.uid = u then modGangB b g f else b).map fun b => if b.uid = u then modGangB b g h else b).map
        fun b => if b.uid = u then modGangB b g k else b)
        = l.map fun b => if b.uid = u then modGangB b g (fun x => k (h (f x))) else b := by
    intro l u g f h k
    simp only [List.map_map]
    apply List.map_congr_left
    intro b _
    by_cases hu : b.uid = u
    · simp [hu, modGangB_comp, show (modGangB b g f).uid = u from hu, show (modGangB b g fun x => h (f x)).uid = u from hu]
    · simp [hu]
  simp only [retire, advance, Run.modSlices, Run.modPart, State.modPart, Run.modGang, State.modGang, State.modBand, hb]
  rfl

theorem retireGang_slices (r : Run) (la : Nat) (dests : List Opnd) (born : Nat) (g : Gang) (j : Nat) :
    (retireGang r la dests born g).slices[j]? = (g.slices[j]?).map fun x => if j ∈ r.part.slices then x.next else x := by
  simp only [retireGang, modSlicesG_get]
  rw [show (modPartG (modSlicesG g r.part.slices fun x => { x with pc := wrap 27 (x.pc + 9) }) r.id.part
    (retirePart r la dests born)).slices = (modSlicesG g r.part.slices fun x => { x with pc := wrap 27 (x.pc + 9) }).slices from rfl,
    modSlicesG_get]
  cases g.slices[j]? with
  | none => rfl
  | some x => by_cases h : j ∈ r.part.slices <;> simp [h, Slice.next, dropLog]

theorem retireGang_part (r : Run) (la : Nat) (dests : List Opnd) (born : Nat) (g : Gang) (p : Nat) :
    partOf (retireGang r la dests born g) p = if p = r.id.part then (partOf g p).map (retirePart r la dests born) else partOf g p :=
  partOf_modPartG _ _ _ _ fun _ => rfl

/-- Of the gang, retiring changes slices and parts alone. -/
theorem retireGang_rest (r : Run) (la : Nat) (dests : List Opnd) (born : Nat) (g : Gang) :
    { retireGang r la dests born g with slices := g.slices, parts := g.parts } = g := rfl

/-- The run after retiring. -/
theorem retire_run {s : State} {r r1 : Run} (la : Nat) (dests : List Opnd) (h : s.run r.id = some r1) :
    (retire r la dests (advance r s)).run r.id = some { r1 with
      band := modGangB r1.band r.id.gang (retireGang r la dests s.free), gang := retireGang r la dests s.free r1.gang,
      part := retirePart r la dests s.free r1.part } := by
  have hid : r1.id = r.id := run_id h
  have hp := ((run_iff s r.id r1).1 h).2.2.2.1
  rw [retire_eq, freeSlot_run]
  have h' : s.run r1.id = some r1 := hid ▸ h
  have := run_modGang (r := r1) h' (retireGang r la dests s.free) (q := retirePart r la dests s.free r1.part)
    (by rw [retireGang_part, hid]; simp [hp])
  rw [hid] at this
  simpa [Run.modGang, hid] using this

/-- Without a speculative fence nothing is counted under one. -/
theorem countSpec_none {r : Run} (s : State) (h : specOf r.band r.id.gang = none) : countSpec r s = s := by
  simp [countSpec, h]

/-- An instruction that nothing comes before ends as its meaning says. -/
theorem runOp_clear {s : State} {r : Run} {op : Op} {f : Fields} (h : Clear s r op f) (body : Run → Result) :
    runOp op f s body
      = .next (finishResult r f.la (encodeW0 op f, encodeW1 f, encodeW2 op f) (body r)) := by
  have hrun : (s.issue.bind fun i => s.run i.part) = some r := by rw [h.slot]; exact h.run
  have hcap : capsuleTrap r op f = none := by
    have := h.outside
    unfold Run.body at this
    unfold capsuleTrap
    split
    · rename_i c hc; rw [hc] at this; simp only at this; simp [this]
    · rfl
  have hfin : ∀ ws x, finish s r f.la ws x = finishResult r f.la ws x := by
    intro ws x
    unfold finish
    rw [h.own.1]
    unfold resnap
    simp [h.own.2]
  have hcons : ∀ x, consumeOperands r s op f x = x := by
    intro x; unfold consumeOperands; cases x <;> simp [h.sound]
  have hdef : ∀ x, deferTrap r s x = x := by
    intro x; unfold deferTrap; rw [h.noFence]; cases x <;> rfl
  unfold runOp
  rw [hrun]
  simp only [hcap, h.noWait, hcons, hdef, hfin, countSpec_none _ h.noFence]

/-- The records of a part after it has retired. -/
def retiredRun (r : Run) (la : Nat) (dests : List Opnd) (born : Nat) (r1 : Run) : Run :=
  { r1 with
    band := modGangB r1.band r.id.gang (retireGang r la dests born)
    gang := retireGang r la dests born r1.gang
    part := retirePart r la dests born r1.part }

/-- The state after an instruction has retired. -/
def retiredState (r : Run) (la : Nat) (dests : List Opnd) (s : State) : State := retire r la dests (advance r s)

theorem retiredState_slot (r : Run) (la : Nat) (dests : List Opnd) (s : State) :
    (retiredState r la dests s).issue = none := rfl

theorem retiredState_device (r : Run) (la : Nat) (dests : List Opnd) (s : State) :
    DeviceKept s (retiredState r la dests s) := by
  unfold retiredState
  rw [retire_eq]
  exact rfl

theorem retiredState_band (r : Run) (la : Nat) (dests : List Opnd) (s : State) (u : Nat) (h : u ≠ r.id.band) :
    (retiredState r la dests s).band u = s.band u := by
  unfold retiredState
  rw [retire_eq, freeSlot_band]
  exact (band_modGang s r.id.band u r.id.gang _).trans (by simp [h])

theorem retiredState_run {s : State} {r r1 : Run} (la : Nat) (dests : List Opnd) (h : s.run r.id = some r1) :
    (retiredState r la dests s).run r.id = some (retiredRun r la dests s.free r1) := retire_run la dests h

theorem retired_committed {s : State} {r r1 : Run} (la : Nat) (dests : List Opnd) (h : s.run r.id = some r1) :
    Committed s (retiredState r la dests s) r1 (retiredRun r la dests s.free r1) := by
  have hid : r1.id = r.id := run_id h
  refine ⟨retiredState_slot .., ?_, ?_, ?_, ?_, ⟨rfl, rfl⟩⟩
  · rw [hid]; exact retiredState_run la dests h
  · intro u hu; exact retiredState_band _ _ _ _ _ (hid ▸ hu)
  · intro g hg
    show (modAt r1.band.gangs r.id.gang _)[g]? = _
    rw [modAt_get, if_neg (hid ▸ hg)]
  · intro p hp
    show partOf (retireGang r la dests s.free r1.gang) p = _
    rw [retireGang_part, if_neg (hid ▸ hp)]

theorem retired_slices {r r1 : Run} (la : Nat) (dests : List Opnd) (born : Nat) (h : r1.part.slices = r.part.slices) :
    SlicesStep r1 (retiredRun r la dests born r1) := by
  intro j
  rw [h]
  exact retireGang_slices r la dests born r1.gang j

theorem retired_band (r r1 : Run) (la : Nat) (dests : List Opnd) (born : Nat) :
    { (retiredRun r la dests born r1).band with gangs := r1.band.gangs } = r1.band := rfl

theorem retired_gang (r r1 : Run) (la : Nat) (dests : List Opnd) (born : Nat) :
    { (retiredRun r la dests born r1).gang with slices := r1.gang.slices, parts := r1.gang.parts } = r1.gang := by
  have hg : (retiredRun r la dests born r1).gang = retireGang r la dests born r1.gang := by unfold retiredRun; rfl
  rw [hg]
  exact retireGang_rest r la dests born r1.gang

theorem retired_hist (r r1 : Run) (la : Nat) (dests : List Opnd) (born : Nat) :
    (retiredRun r la dests born r1).part.hist = r1.part.hist := rfl

/-- An instruction whose meaning commits, and that nothing comes before, answers the retired state. -/
theorem runOp_commit {s s1 : State} {r : Run} {op : Op} {f : Fields} {body : Run → Result} {dests : List Opnd}
    (h : Clear s r op f) (hb : body r = .commit dests s1) :
    runOp op f s body = .next (retiredState r f.la dests s1) := by
  rw [runOp_clear h, hb]
  rfl

/-- A register reads after retiring as it read before. -/
theorem retired_reg (r r1 : Run) (la : Nat) (dests : List Opnd) (born : Nat) (o : Opnd) (_hw : r1.part.slices = r.part.slices) :
    regLanes (retiredRun r la dests born r1) .t27 o = regLanes r1 .t27 o := by
  cases o with
  | kreg n =>
    show kLanes (retireGang r la dests born r1.gang) n = kLanes r1.gang n
    unfold kLanes
    congr 1
    funext l
    rw [retireGang_slices, show (retireGang r la dests born r1.gang).width = r1.gang.width from rfl]
    cases r1.gang.slices[l / 3]? with
    | none => rfl
    | some x => by_cases hj : l / 3 ∈ r.part.slices <;> simp [hj, Slice.next]
  | _ => rfl

/-! ### What a meaning may do before it commits -/

/-- A gang without a speculative fence is not among the band's. -/
theorem noSpec_any {r : Run} (hs : specOf r.band r.id.gang = none) : (r.band.specs.any fun x => x.gang == r.id.gang) = false := by
  simp only [specOf, List.find?_eq_none] at hs
  simp only [List.any_eq_false]
  exact hs

theorem applyEffects_eq {s : State} {r : Run} (tid : Nat) (e : Effects) (hs : specOf r.band r.id.gang = none)
    (hi : e.invalid = 0) :
    applyEffects r s tid e = 
      (let s1 := if e.sticky then r.modGang s fun g => { g with sticky := 1, stickyNow := true } else s
       if e.sat = 0 ∧ e.flush = 0 ∧ e.nan = 0 then s1 else r.modBand s1 fun b => { b with counts := countInto b.counts tid e }) := by
  unfold applyEffects
  simp only [noSpec_any hs, hi]
  by_cases h : e.sat = 0 ∧ e.flush = 0 ∧ e.nan = 0
  · simp [h]
  · have h' : (e.sat == 0 && e.flush == 0 && e.nan == 0) = false := by
      cases hh : (e.sat == 0 && e.flush == 0 && e.nan == 0)
      · rfl
      · exfalso; apply h; simpa [and_assoc] using hh
    simp [h, h']

/-- A state that differs from s in its bands alone, and where the run of the part r is r1. -/
structure Upd (s s1 : State) (r r1 : Run) : Prop where
  run   : s1.run r.id = some r1
  dev   : { s1 with bands := s.bands } = s
  bands : ∀ u, u ≠ r.id.band → s1.band u = s.band u
  gangs : ∀ g, g ≠ r.id.gang → r1.band.gangs[g]? = r.band.gangs[g]?
  parts : ∀ p, p ≠ r.id.part → partOf r1.gang p = partOf r.gang p
  same  : r1.kern = r.kern ∧ r1.ctx = r.ctx ∧ r1.core = r.core ∧ r1.part.slices = r.part.slices

theorem Upd.refl {s : State} {r : Run} (h : s.run r.id = some r) : Upd s s r r :=
  ⟨h, rfl, fun _ _ => rfl, fun _ _ => rfl, fun _ _ => rfl, rfl, rfl, rfl, rfl⟩

theorem Upd.modGang {s s1 : State} {r r1 : Run} (h : Upd s s1 r r1) (f : Gang → Gang) (hp : ∀ g, (f g).parts = g.parts) :
    Upd s (r.modGang s1 f) r { r1 with band := modGangB r1.band r.id.gang f, gang := f r1.gang } := by
  have hid := run_id h.run
  have h1 : s1.run r1.id = some r1 := hid ▸ h.run
  have hpart := ((run_iff _ _ _).1 h1).2.2.2.1
  have hr := run_modGang h1 f (q := r1.part) (by simpa [partOf, hp] using hpart)
  refine ⟨?_, h.dev, ?_, ?_, ?_, h.same⟩
  · rw [hid] at hr; simpa [Run.modGang, hid] using hr
  · intro u hu
    rw [← h.bands u hu]
    exact (band_modGang s1 r.id.band u r.id.gang f).trans (by simp [hu])
  · intro g hg
    rw [← h.gangs g hg]
    show (modAt r1.band.gangs r.id.gang f)[g]? = _
    rw [modAt_get, if_neg hg]
  · intro p hp'
    rw [← h.parts p hp']
    simp [partOf, hp]

theorem Upd.modBand {s s1 : State} {r r1 : Run} (h : Upd s s1 r r1) (f : Band → Band) (hu : ∀ b, (f b).uid = b.uid)
    (hg : ∀ b, (f b).gangs = b.gangs) (hk : ∀ b, (f b).kernel = b.kernel) (hc : ∀ b, (f b).core = b.core) :
    Upd s (r.modBand s1 f) r { r1 with band := f r1.band } := by
  have hid := run_id h.run
  have h1 : s1.run r1.id = some r1 := hid ▸ h.run
  have hr := run_modBand h1 f hu (hg _) (hk _) (hc _)
  refine ⟨?_, h.dev, ?_, ?_, h.parts, h.same⟩
  · rw [hid] at hr; simpa [Run.modBand, hid] using hr
  · intro u hu'
    rw [← h.bands u hu']
    exact (band_modBand s1 r.id.band u f hu).trans (by simp [hu'])
  · intro g hg'
    rw [← h.gangs g hg']
    simp [hg]

theorem applyEffects_upd {s : State} {r : Run} (tid : Nat) (e : Effects) (h : s.run r.id = some r)
    (hs : specOf r.band r.id.gang = none) (hi : e.invalid = 0) :
    Upd s (applyEffects r s tid e) r { r with
      band := { modGangB r.band r.id.gang (fun g => { g with sticky := (stickyAfter g e).1, stickyNow := (stickyAfter g e).2 }) with counts := countsAfter r.band tid e },
      gang := { r.gang with sticky := (stickyAfter r.gang e).1, stickyNow := (stickyAfter r.gang e).2 } } := by
  rw [applyEffects_eq tid e hs hi]
  have hid : (modGangB r.band r.id.gang fun g => g) = r.band := by
    unfold modGangB
    have : ∀ (l : List Gang) i, modAt l i (fun g => g) = l := by
      intro l; induction l with
      | nil => intro i; cases i <;> rfl
      | cons x xs ih => intro i; cases i <;> simp [modAt, ih]
    rw [this]
  have h0 : Upd s (if e.sticky then r.modGang s fun g => { g with sticky := 1, stickyNow := true } else s) r { r with
      band := modGangB r.band r.id.gang (fun g => { g with sticky := (stickyAfter g e).1, stickyNow := (stickyAfter g e).2 }),
      gang := { r.gang with sticky := (stickyAfter r.gang e).1, stickyNow := (stickyAfter r.gang e).2 } } := by
    cases hst : e.sticky with
    | true =>
      simp only [stickyAfter, hst, if_true]
      exact (Upd.refl h).modGang _ fun _ => rfl
    | false =>
      simp only [stickyAfter, stickyOf, hst]
      have := Upd.refl h
      simpa [hid] using this
  by_cases hc : e.sat = 0 ∧ e.flush = 0 ∧ e.nan = 0
  · simp only [countsAfter, hc, and_self, if_true]
    exact h0
  · simp only [countsAfter, hc, if_false]
    exact h0.modBand _ (fun _ => rfl) (fun _ => rfl) (fun _ => rfl) (fun _ => rfl)

/-- Everything generic about a committing instruction. -/
theorem commit_all {s s1 : State} {r r1 : Run} {op : Op} {f : Fields} {body : Run → Result} {dests : List Opnd}
    (h : Clear s r op f) (hb : body r = .commit dests s1) (hu : Upd s s1 r r1) :
    ∃ t, runOp op f s body = .next t ∧ Committed s t r (retiredRun r f.la dests s1.free r1) ∧ DeviceKept s t
      ∧ t = retiredState r f.la dests s1 := by
  have hid := run_id hu.run
  have c := retired_committed f.la dests hu.run
  refine ⟨_, runOp_commit h hb, ⟨c.slot, ?_, ?_, ?_, ?_, ?_⟩, ?_, rfl⟩
  · have := c.run; rwa [hid] at this
  · intro u hne; rw [c.bands u (hid ▸ hne), hu.bands u hne]
  · intro g hne; rw [c.gangs g (hid ▸ hne), hu.gangs g hne]
  · intro p hne; rw [c.parts p (hid ▸ hne), hu.parts p hne]
  · exact ⟨hu.same.2.2.2, rfl⟩
  · have hd := retiredState_device r f.la dests s1
    have h2 := hu.dev
    simp only [DeviceKept] at hd ⊢
    generalize retiredState r f.la dests s1 = t at hd ⊢
    cases t; cases s1; cases s
    simp only [State.mk.injEq] at *
    simp_all

/-- What a commit gives, in terms of the state s1 and the run r1 that the meaning made: every register reads as there,
and the slices go on. -/
theorem commit_obs {s s1 : State} {r r1 : Run} {op : Op} {f : Fields} {body : Run → Result} {dests : List Opnd}
    (h : Clear s r op f) (hb : body r = .commit dests s1) (hu : Upd s s1 r r1) :
    ∃ t r', runOp op f s body = .next t ∧ Committed s t r r' ∧ DeviceKept s t
      ∧ (∀ o, regLanes r' .t27 o = regLanes r1 .t27 o)
      ∧ (∀ j, r'.gang.slices[j]? = (r1.gang.slices[j]?).map fun x => if j ∈ r.part.slices then x.next else x)
      ∧ { r'.gang with slices := r1.gang.slices, parts := r1.gang.parts } = r1.gang
      ∧ { r'.band with gangs := r1.band.gangs } = r1.band
      ∧ r'.part.hist = r1.part.hist ∧ r'.id = r.id ∧ r'.core = r.core ∧ r'.kern = r.kern ∧ r'.ctx = r.ctx := by
  obtain ⟨t, ht, hc, hd, -⟩ := commit_all h hb hu
  refine ⟨t, retiredRun r f.la dests s1.free r1, ht, hc, hd, ?_, ?_, retired_gang .., retired_band .., retired_hist .., ?_, ?_, ?_, ?_⟩
  · exact fun o => retired_reg _ _ _ _ _ o hu.same.2.2.2
  · exact fun j => retireGang_slices r f.la dests s1.free r1.gang j
  · show r1.id = r.id; exact run_id hu.run
  · exact hu.same.2.2.1
  · exact hu.same.1
  · exact hu.same.2.1

end Sys2Proof.Machine
end

