-- ==== Sys2Proof/Laws/Crypto.lean ====
section
/-! SUPPORT. Lengths of hashes, encodings and signatures, and that an encoded message verifies (R389). -/

namespace Sys2Proof.Machine

@[simp] theorem bytesOf_length (n k : Nat) : (bytesOf n k).length = k := by simp [bytesOf]
@[simp] theorem octetsOf_length (n k : Nat) : (octetsOf n k).length = k := by simp [octetsOf]

theorem bytesOf_lt {n k b : Nat} (h : b ∈ bytesOf n k) : b < 256 := by
  simp only [bytesOf, List.mem_map] at h
  obtain ⟨i, -, rfl⟩ := h
  exact Nat.mod_lt _ (by decide)

theorem octetsOf_lt {n k b : Nat} (h : b ∈ octetsOf n k) : b < 256 := bytesOf_lt (List.mem_reverse.1 h)

theorem octetsNat_snoc (l : List Nat) (b : Nat) : octetsNat (l ++ [b]) = 256 * octetsNat l + b := by
  simp [octetsNat]

theorem bytesOf_succ (n k : Nat) : bytesOf n (k + 1) = n % 256 :: bytesOf (n / 256) k := by
  simp only [bytesOf, List.range_succ_eq_map, List.map_cons, List.map_map, pow_zero, Nat.div_one]
  congr 1
  refine List.map_congr_left fun i _ => ?_
  simp [Function.comp, Nat.div_div_eq_div_mul, pow_succ, Nat.mul_comm]

/-- Writing the number that some octets denote gives the octets. -/
theorem octetsOf_octetsNat (l : List Nat) (h : ∀ b ∈ l, b < 256) : octetsOf (octetsNat l) l.length = l := by
  induction l using List.reverseRecOn with
  | nil => rfl
  | append_singleton l b ih =>
    have hb : b < 256 := h b (by simp)
    have h1 : (256 * octetsNat l + b) % 256 = b := by omega
    have h2 : (256 * octetsNat l + b) / 256 = octetsNat l := by omega
    simp only [octetsOf] at ih ⊢
    rw [octetsNat_snoc, List.length_append, List.length_singleton, bytesOf_succ, h1, h2, List.reverse_cons,
      ih fun c hc => h c (by simp [hc])]

theorem octetsNat_lt (l : List Nat) (h : ∀ b ∈ l, b < 256) : octetsNat l < 256 ^ l.length := by
  induction l using List.reverseRecOn with
  | nil => simp [octetsNat]
  | append_singleton l b ih =>
    have hb : b < 256 := h b (by simp)
    have := ih fun c hc => h c (by simp [hc])
    rw [octetsNat_snoc, List.length_append, List.length_singleton, pow_succ]
    omega

theorem octetsNat_cons (b : Nat) (l : List Nat) : octetsNat (b :: l) = b * 256 ^ l.length + octetsNat l := by
  induction l using List.reverseRecOn with
  | nil => simp [octetsNat]
  | append_singleton l c ih =>
    rw [← List.cons_append, octetsNat_snoc, ih, octetsNat_snoc, List.length_append, List.length_singleton, pow_succ]
    ring

@[simp] theorem sha512_length (m : List Nat) : (sha512 m).length = 64 := by
  simp [sha512, ShaState.words]

theorem sha512_lt {m : List Nat} {b : Nat} (h : b ∈ sha512 m) : b < 256 := by
  simp only [sha512, List.mem_flatMap] at h
  obtain ⟨w, -, hw⟩ := h
  exact octetsOf_lt hw

theorem maskOf_length (seed : List Nat) (n : Nat) : (maskOf seed n).length = n := by
  simp [maskOf, List.length_flatMap]
  omega

theorem maskOf_lt {seed : List Nat} {n b : Nat} (h : b ∈ maskOf seed n) : b < 256 := by
  obtain ⟨i, -, hi⟩ := List.mem_flatMap.1 (List.mem_of_mem_take h)
  exact sha512_lt hi

theorem clearTop_length (l : List Nat) : (clearTop l).length = l.length := by cases l <;> rfl

theorem clearTop_lt {l : List Nat} (h : ∀ b ∈ l, b < 256) : ∀ b ∈ clearTop l, b < 256 := by
  cases l with
  | nil => exact h
  | cons a l =>
    intro b hb
    rcases List.mem_cons.1 hb with rfl | hb
    · omega
    · exact h b (List.mem_cons_of_mem _ hb)

theorem xorOctets_lt {a b : List Nat} (ha : ∀ x ∈ a, x < 256) (hb : ∀ x ∈ b, x < 256) : ∀ x ∈ xorOctets a b, x < 256 := by
  intro x hx
  obtain ⟨i, hi, rfl⟩ := List.getElem_of_mem hx
  simp only [xorOctets, List.getElem_zipWith]
  exact Nat.xor_lt_two_pow (n := 8) (ha _ (List.getElem_mem _)) (hb _ (List.getElem_mem _))

theorem xorOctets_length (a b : List Nat) : (xorOctets a b).length = min a.length b.length := by simp [xorOctets]

theorem xorOctets_self (a m : List Nat) (h : a.length ≤ m.length) : xorOctets (xorOctets a m) m = a := by
  induction a generalizing m with
  | nil => simp [xorOctets]
  | cons x a ih =>
    cases m with
    | nil => simp at h
    | cons y m =>
      have := ih m (by simpa using h)
      simp only [xorOctets] at this ⊢
      simp [List.zipWith, this]

theorem xor_mod_128 (x y : Nat) : (x ^^^ y) % 128 = (x % 128) ^^^ (y % 128) := Nat.xor_mod_two_pow (n := 7)

/-- A cleared and masked list, unmasked and cleared again, is the list, where its highest bit was 0. -/
theorem clearTop_unmask (a m : List Nat) (h : a.length ≤ m.length) (ht : a.headD 0 < 128) :
    clearTop (xorOctets (clearTop (xorOctets a m)) m) = a := by
  cases a with
  | nil => simp [xorOctets, clearTop]
  | cons x a =>
    cases m with
    | nil => simp at h
    | cons y m =>
      have := xorOctets_self a m (by simpa using h)
      simp only [xorOctets, List.zipWith_cons_cons, clearTop] at this ⊢
      rw [this, xor_mod_128, Nat.mod_mod, xor_mod_128, Nat.xor_assoc, Nat.xor_self, Nat.xor_zero]
      simpa using ht

theorem pssLead_length : pssLead.length = 383 := by
  simp only [pssLead, List.length_append, List.length_replicate, List.length_singleton]

theorem pssLead_head (l : List Nat) : (pssLead ++ l).headD 0 = 0 := by
  rw [pssLead, List.replicate_succ]
  rfl

theorem pssMasked_length (h salt : List Nat) (hs : salt.length = 64) :
    (clearTop (xorOctets (pssLead ++ salt) (maskOf h 447))).length = 447 := by
  simp [clearTop_length, xorOctets_length, maskOf_length, pssLead_length, hs]

theorem pssEncode_length (digest salt : List Nat) (hs : salt.length = 64) : (pssEncode digest salt).length = 512 := by
  simp [pssEncode, pssHash, pssMasked_length _ _ hs]

theorem pssEncode_lt (digest salt : List Nat) (hs : ∀ b ∈ salt, b < 256) : ∀ b ∈ pssEncode digest salt, b < 256 := by
  intro b hb
  simp only [pssEncode, List.mem_append, List.mem_singleton] at hb
  rcases hb with (hb | hb) | rfl
  · refine clearTop_lt (xorOctets_lt ?_ fun _ => maskOf_lt) b hb
    intro x hx
    rcases List.mem_append.1 hx with hx | hx
    · simp only [pssLead, List.mem_append, List.mem_replicate, List.mem_singleton] at hx
      omega
    · exact hs x hx
  · exact sha512_lt hb
  · decide

theorem clearTop_head (l : List Nat) : (clearTop l).headD 0 < 128 := by
  cases l with
  | nil => decide
  | cons b l => exact Nat.mod_lt _ (by decide)

theorem pssEncode_head (digest salt : List Nat) (hs : salt.length = 64) : (pssEncode digest salt).headD 0 < 128 := by
  have hl := pssMasked_length (pssHash digest salt) salt hs
  have hd := clearTop_head (xorOctets (pssLead ++ salt) (maskOf (pssHash digest salt) 447))
  simp only [pssEncode]
  cases hc : clearTop (xorOctets (pssLead ++ salt) (maskOf (pssHash digest salt) 447)) with
  | nil => simp [hc] at hl
  | cons b l => simpa [hc] using hd

/-- An encoded message is one of its digest (R389). -/
theorem pssVerify_pssEncode (digest salt : List Nat) (hs : salt.length = 64) :
    pssVerify digest (pssEncode digest salt) = true := by
  have hl := pssMasked_length (pssHash digest salt) salt hs
  have hh : (pssHash digest salt).length = 64 := sha512_length _
  have ht : (pssEncode digest salt).take 447 = clearTop (xorOctets (pssLead ++ salt) (maskOf (pssHash digest salt) 447)) := by
    simp only [pssEncode, List.append_assoc]
    exact List.take_left' hl
  have hd : (pssEncode digest salt).drop 447 = pssHash digest salt ++ [188] := by
    simp only [pssEncode, List.append_assoc]
    exact List.drop_left' hl
  have hu : clearTop (xorOctets (clearTop (xorOctets (pssLead ++ salt) (maskOf (pssHash digest salt) 447)))
      (maskOf (pssHash digest salt) 447)) = pssLead ++ salt :=
    clearTop_unmask _ _ (by simp [maskOf_length, pssLead_length, hs]) (by rw [pssLead_head]; decide)
  simp only [pssVerify, ht, hd, List.take_left' hh, hu, List.take_left' pssLead_length, List.drop_left' pssLead_length,
    pssEncode_length _ _ hs, clearTop_head]
  simp [pssEncode]

@[simp] theorem signMessage_length (n : Nat) (e salt m : List Nat) : (signMessage n e salt m).length = 512 := by
  simp [signMessage]

theorem octetsNat_replicate_max (k : Nat) : octetsNat (List.replicate k 255) + 1 = 256 ^ k := by
  induction k with
  | zero => rfl
  | succ k ih => rw [List.replicate_succ', octetsNat_snoc, pow_succ]; omega

theorem powMod_one (x n : Nat) (hn : 1 < n) (hx : x < n) : powMod x n (bitsOf [1]) = x := by
  have hb : bitsOf [1] = [false, false, false, false, false, false, false, true] := by decide
  simp [powMod, hb, Nat.mod_eq_of_lt hn, Nat.mod_eq_of_lt hx]

/-- Under a key with the greatest modulus and the exponent 1, an encoded message is its own signature. -/
theorem verifySignature_self (m salt : List Nat) (hs : salt.length = 64) (hb : ∀ b ∈ salt, b < 256) :
    verifySignature (List.replicate 512 255 ++ [1]) m (pssEncode (sha512 m) salt) = true := by
  have hl := pssEncode_length (sha512 m) salt hs
  have hlt := pssEncode_lt (sha512 m) salt hb
  have hk : (List.replicate 512 255 ++ [1]).take 512 = List.replicate 512 255 := List.take_left' List.length_replicate
  have hk' : (List.replicate 512 255 ++ [1]).drop 512 = [1] := List.drop_left' List.length_replicate
  have hn := octetsNat_replicate_max 512
  have hx : octetsNat (pssEncode (sha512 m) salt) + 1 < 256 ^ 512 := by
    have hd := pssEncode_head (sha512 m) salt hs
    cases he : pssEncode (sha512 m) salt with
    | nil => simp [he] at hl
    | cons b l =>
      rw [he] at hl hd hlt
      have h1 : l.length = 511 := by simpa using hl
      have h2 := octetsNat_lt l fun c hc => hlt c (List.mem_cons_of_mem _ hc)
      have h3 : b < 128 := by simpa using hd
      rw [octetsNat_cons, h1]
      rw [h1] at h2
      have h4 : (256 : Nat) ^ 512 = 256 * 256 ^ 511 := pow_succ' 256 511
      have h5 : 1 ≤ 256 ^ 511 := Nat.one_le_pow _ _ (by decide)
      rw [h4]
      generalize 256 ^ 511 = q at *
      have h6 : b * q ≤ 127 * q := Nat.mul_le_mul_right q (by omega)
      omega
  have h1 : 1 < octetsNat (List.replicate 512 255) := by
    have : (2 : Nat) < 256 ^ 512 := lt_of_lt_of_le (by decide : 2 < 256 ^ 1) (Nat.pow_le_pow_right (by decide) (by decide))
    omega
  have h2 : octetsNat (pssEncode (sha512 m) salt) < octetsNat (List.replicate 512 255) := by omega
  have h3 : (List.replicate 512 255 ++ [1]).headD 0 = 255 := by
    rw [List.replicate_succ]
    rfl
  have h4 := octetsOf_octetsNat _ hlt
  rw [hl] at h4
  simp only [verifySignature, hk, hk', hl, h2, powMod_one _ _ h1 h2, h3, h4, pssVerify_pssEncode _ _ hs]
  decide

end Sys2Proof.Machine
end

