-- ==== Sys2Proof/Laws/Maps.lean ====
section
/-! SUPPORT. Sparse maps and memory: reading after writing, and the canonical form that every write keeps. -/

namespace Sys2Proof.Machine

theorem smapGet_drop {α : Type} (d : α) (m : SMap α) (k j : Nat) :
    smapGet d (smapDrop m k) j = if j = k then d else smapGet d m j := by
  induction m with
  | nil => simp [smapDrop, smapGet]
  | cons p m ih =>
    obtain ⟨i, w⟩ := p
    unfold smapDrop at ih ⊢
    by_cases hi : i = k
    · subst hi
      rw [List.filter_cons_of_neg (by simp), ih]
      by_cases hj : j = i
      · simp [hj]
      · simp [hj, smapGet, Ne.symm hj]
    · rw [List.filter_cons_of_pos (by simpa using hi)]
      by_cases hj : i = j
      · subst hj; simp [smapGet, hi]
      · simp [smapGet, hj, ih]

/-- Reading after writing: the value written at the key, the old value elsewhere. -/
theorem smapGet_smapSet {α : Type} [DecidableEq α] (d : α) (m : SMap α) (k j : Nat) (v : α) :
    smapGet d (smapSet d m k v) j = if j = k then v else smapGet d m j := by
  induction m with
  | nil =>
    by_cases hv : v = d
    · simp [smapSet, hv, smapGet]
    · by_cases hj : k = j
      · simp [smapSet, hv, smapGet, hj]
      · simp [smapSet, hv, smapGet, hj, Ne.symm hj]
  | cons p m ih =>
    obtain ⟨i, w⟩ := p
    unfold smapSet
    by_cases h1 : k < i
    · by_cases hv : v = d
      · simp only [h1, hv, if_true, smapGet, smapGet_drop]
        by_cases hij : i = j
        · have hjk : j ≠ k := by omega
          simp [hij, hjk]
        · simp [hij]
      · simp only [h1, hv, if_true, if_false]
        by_cases hj : k = j
        · simp [smapGet, hj]
        · simp [smapGet, hj, Ne.symm hj]
    · by_cases h2 : k = i
      · subst h2
        by_cases hv : v = d
        · simp only [h1, hv, if_true, if_false, smapGet_drop]
          by_cases hj : j = k
          · simp [hj]
          · simp [hj, smapGet, Ne.symm hj]
        · simp only [h1, hv, if_true, if_false]
          by_cases hj : k = j
          · simp [smapGet, hj]
          · simp [smapGet, hj, Ne.symm hj]
      · simp only [h1, h2, if_false]
        by_cases hij : i = j
        · have hjk : j ≠ k := by omega
          simp [smapGet, hij, hjk]
        · simp [smapGet, hij, ih]

theorem memByte_memPut (m : List Host.Cell) (a b : Nat) (v : BitVec 8) :
    memByte (memPut m a v) b = if b = a then v else memByte m b := smapGet_smapSet 0 m a b v

/-! ### The canonical form of memory -/

theorem memory_wf_tail {c : Host.Cell} {m : List Host.Cell} (h : Memory.wf (c :: m) = true) : Memory.wf m = true := by
  obtain ⟨a, v⟩ := c
  cases m with
  | nil => rfl
  | cons d m => obtain ⟨b, w⟩ := d; simp [Memory.wf] at h; exact h.2

/-- Dropping cells keeps the form. -/
theorem memory_wf_cons {a : Nat} {v : BitVec 8} {m : List Host.Cell} :
    Memory.wf ((a, v) :: m) = true ↔ v ≠ 0 ∧ (∀ c ∈ m, a < c.1) ∧ Memory.wf m = true := by
  induction m generalizing a v with
  | nil => simp [Memory.wf]
  | cons d m ih =>
    obtain ⟨b, w⟩ := d
    constructor
    · intro h
      simp only [Memory.wf, Bool.and_eq_true, decide_eq_true_eq, bne_iff_ne] at h
      obtain ⟨⟨hab, hv⟩, hm⟩ := h
      have := ih.1 hm
      refine ⟨hv, ?_, hm⟩
      intro c hc
      rcases List.mem_cons.1 hc with rfl | hc
      · exact hab
      · have := this.2.1 c hc; omega
    · rintro ⟨hv, ha, hm⟩
      have hab := ha (b, w) (by simp)
      simp only [Memory.wf, Bool.and_eq_true, decide_eq_true_eq, bne_iff_ne]
      exact ⟨⟨hab, hv⟩, hm⟩

theorem memory_wf_filter {m : List Host.Cell} (p : Host.Cell → Bool) (h : Memory.wf m = true) :
    Memory.wf (m.filter p) = true := by
  induction m with
  | nil => exact h
  | cons c m ih =>
    obtain ⟨a, v⟩ := c
    obtain ⟨hv, ha, hm⟩ := memory_wf_cons.1 h
    rw [List.filter_cons]
    split
    · exact memory_wf_cons.2 ⟨hv, fun c hc => ha c ((List.mem_filter.1 hc).1), ih hm⟩
    · exact ih hm

theorem memPut_mem {m : List Host.Cell} {a : Nat} {v : BitVec 8} {c : Host.Cell} (h : c ∈ memPut m a v) :
    c = (a, v) ∨ c ∈ m := by
  unfold memPut at h
  induction m with
  | nil =>
    unfold smapSet at h
    split at h
    · cases h
    · left; simpa using h
  | cons d m ih =>
    obtain ⟨b, w⟩ := d
    unfold smapSet at h
    split at h
    · split at h
      · rcases List.mem_cons.1 h with rfl | h
        · simp
        · exact .inr (List.mem_cons_of_mem _ ((List.mem_filter.1 h).1))
      · rcases List.mem_cons.1 h with rfl | h
        · simp
        · exact .inr h
    · split at h
      · split at h
        · exact .inr (List.mem_cons_of_mem _ ((List.mem_filter.1 h).1))
        · rcases List.mem_cons.1 h with rfl | h
          · simp
          · exact .inr (List.mem_cons_of_mem _ h)
      · rcases List.mem_cons.1 h with rfl | h
        · simp
        · rcases ih h with h | h
          · exact .inl h
          · exact .inr (List.mem_cons_of_mem _ h)

/-- Writing a byte keeps the canonical form. -/
theorem memPut_wf {m : List Host.Cell} (a : Nat) (v : BitVec 8) (h : Memory.wf m = true) :
    Memory.wf (memPut m a v) = true := by
  induction m with
  | nil =>
    unfold memPut smapSet
    split
    · rfl
    · rename_i hv; exact memory_wf_cons.2 ⟨hv, by simp, rfl⟩
  | cons d m ih =>
    obtain ⟨b, w⟩ := d
    obtain ⟨hw, hb, hm⟩ := memory_wf_cons.1 h
    unfold memPut smapSet
    split
    · rename_i hab
      split
      · exact memory_wf_cons.2 ⟨hw, fun c hc => hb c ((List.mem_filter.1 hc).1), memory_wf_filter _ hm⟩
      · rename_i hv
        refine memory_wf_cons.2 ⟨hv, ?_, h⟩
        intro c hc
        rcases List.mem_cons.1 hc with rfl | hc
        · exact hab
        · have := hb c hc; omega
    · split
      · rename_i hab
        split
        · exact memory_wf_filter _ hm
        · rename_i hv; exact memory_wf_cons.2 ⟨hv, fun c hc => hab ▸ hb c hc, hm⟩
      · rename_i h1 h2
        refine memory_wf_cons.2 ⟨hw, ?_, ih hm⟩
        intro c hc
        rcases memPut_mem hc with rfl | hc
        · show b < a; omega
        · exact hb c hc

theorem memPutHalf_wf {m : List Host.Cell} (j v : Nat) (h : Memory.wf m = true) : Memory.wf (memPutHalf m j v) = true :=
  memPut_wf _ _ (memPut_wf _ _ h)

theorem memPutNonet_wf {m : List Host.Cell} (j : Nat) (v : Int) (h : Memory.wf m = true) :
    Memory.wf (memPutNonet m j v) = true := memPutHalf_wf _ _ h

/-- A list of nonet writes keeps the canonical form. -/
theorem foldl_memPutNonet_wf (ws : List (Nat × Int)) {m : List Host.Cell} (h : Memory.wf m = true) :
    Memory.wf (ws.foldl (fun m w => memPutNonet m w.1 w.2) m) = true := by
  induction ws generalizing m with
  | nil => exact h
  | cons w ws ih => exact ih (memPutNonet_wf _ _ h)

theorem reset_memory_wf : Memory.wf State.reset.mem = true ∧ Memory.wf State.reset.hostMem = true := ⟨rfl, rfl⟩

/-! ### Halfwords -/

/-- The halfword at one nonet does not see a write at another. -/
theorem memHalf_memPutHalf (m : List Host.Cell) (j k v : Nat) (hv : v < 65536) :
    memHalf (memPutHalf m j v) k = if k = j then v else memHalf m k := by
  unfold memHalf memPutHalf
  simp only [memByte_memPut]
  by_cases h : k = j
  · subst h
    simp only [show 2 * k ≠ 2 * k + 1 by omega, if_true, if_false, BitVec.toNat_ofNat]
    omega
  · simp only [show ¬ 2 * k = 2 * j + 1 by omega, show ¬ 2 * k = 2 * j by omega, show ¬ 2 * k + 1 = 2 * j + 1 by omega,
      show ¬ 2 * k + 1 = 2 * j by omega, h, if_false]

theorem halfword_lt (n : Int) : halfword n < 65536 := by unfold halfword; omega

theorem ofHalfword_halfword (n : Int) (h : -32768 ≤ n ∧ n < 32768) : ofHalfword (halfword n) = n := by
  unfold ofHalfword halfword
  split <;> omega

/-- A nonet reads as the value last written to it; every other nonet reads as before. -/
theorem memNonet_memPutNonet (m : List Host.Cell) (j k : Nat) (v : Int) (hv : -32768 ≤ v ∧ v < 32768) :
    memNonet (memPutNonet m j v) k = if k = j then v else memNonet m k := by
  unfold memNonet memPutNonet
  rw [memHalf_memPutHalf _ _ _ _ (halfword_lt v)]
  by_cases h : k = j
  · simp [h, ofHalfword_halfword v hv]
  · simp [h]

end Sys2Proof.Machine
end

