-- ==== Sys2Proof/Laws/State.lean ====
section
/-! SUPPORT. One lemma for each field of State under each of its updates: an update changes the field that it names and no
other. -/

namespace Sys2Proof.Machine

/-! ### State.modBand -/

@[simp] theorem modBand_mem (s : State) (u : Nat) (f : Band → Band) : (s.modBand u f).mem = s.mem := rfl
@[simp] theorem modBand_poison (s : State) (u : Nat) (f : Band → Band) : (s.modBand u f).poison = s.poison := rfl
@[simp] theorem modBand_gens (s : State) (u : Nat) (f : Band → Band) : (s.modBand u f).gens = s.gens := rfl
@[simp] theorem modBand_zeroed (s : State) (u : Nat) (f : Band → Band) : (s.modBand u f).zeroed = s.zeroed := rfl
@[simp] theorem modBand_verTags (s : State) (u : Nat) (f : Band → Band) : (s.modBand u f).verTags = s.verTags := rfl
@[simp] theorem modBand_flips (s : State) (u : Nat) (f : Band → Band) : (s.modBand u f).flips = s.flips := rfl
@[simp] theorem modBand_verFlips (s : State) (u : Nat) (f : Band → Band) : (s.modBand u f).verFlips = s.verFlips := rfl
@[simp] theorem modBand_hostMem (s : State) (u : Nat) (f : Band → Band) : (s.modBand u f).hostMem = s.hostMem := rfl
@[simp] theorem modBand_peerMem (s : State) (u : Nat) (f : Band → Band) : (s.modBand u f).peerMem = s.peerMem := rfl
@[simp] theorem modBand_planeMap (s : State) (u : Nat) (f : Band → Band) : (s.modBand u f).planeMap = s.planeMap := rfl
@[simp] theorem modBand_rehash (s : State) (u : Nat) (f : Band → Band) : (s.modBand u f).rehash = s.rehash := rfl
@[simp] theorem modBand_deadPlanes (s : State) (u : Nat) (f : Band → Band) :
    (s.modBand u f).deadPlanes = s.deadPlanes := rfl
@[simp] theorem modBand_dying (s : State) (u : Nat) (f : Band → Band) : (s.modBand u f).dying = s.dying := rfl
@[simp] theorem modBand_features (s : State) (u : Nat) (f : Band → Band) : (s.modBand u f).features = s.features := rfl
@[simp] theorem modBand_negotiated (s : State) (u : Nat) (f : Band → Band) :
    (s.modBand u f).negotiated = s.negotiated := rfl
@[simp] theorem modBand_power (s : State) (u : Nat) (f : Band → Band) : (s.modBand u f).power = s.power := rfl
@[simp] theorem modBand_tripped (s : State) (u : Nat) (f : Band → Band) : (s.modBand u f).tripped = s.tripped := rfl
@[simp] theorem modBand_firmware (s : State) (u : Nat) (f : Band → Band) : (s.modBand u f).firmware = s.firmware := rfl
@[simp] theorem modBand_contexts (s : State) (u : Nat) (f : Band → Band) : (s.modBand u f).contexts = s.contexts := rfl
@[simp] theorem modBand_queues (s : State) (u : Nat) (f : Band → Band) : (s.modBand u f).queues = s.queues := rfl
@[simp] theorem modBand_roundRobin (s : State) (u : Nat) (f : Band → Band) :
    (s.modBand u f).roundRobin = s.roundRobin := rfl
@[simp] theorem modBand_launches (s : State) (u : Nat) (f : Band → Band) : (s.modBand u f).launches = s.launches := rfl
@[simp] theorem modBand_kernels (s : State) (u : Nat) (f : Band → Band) : (s.modBand u f).kernels = s.kernels := rfl
@[simp] theorem modBand_takenSeq (s : State) (u : Nat) (f : Band → Band) : (s.modBand u f).takenSeq = s.takenSeq := rfl
@[simp] theorem modBand_placed (s : State) (u : Nat) (f : Band → Band) : (s.modBand u f).placed = s.placed := rfl
@[simp] theorem modBand_nextUid (s : State) (u : Nat) (f : Band → Band) : (s.modBand u f).nextUid = s.nextUid := rfl
@[simp] theorem modBand_starveSeq (s : State) (u : Nat) (f : Band → Band) :
    (s.modBand u f).starveSeq = s.starveSeq := rfl
@[simp] theorem modBand_cores (s : State) (u : Nat) (f : Band → Band) : (s.modBand u f).cores = s.cores := rfl
@[simp] theorem modBand_dies (s : State) (u : Nat) (f : Band → Band) : (s.modBand u f).dies = s.dies := rfl
@[simp] theorem modBand_ports (s : State) (u : Nat) (f : Band → Band) : (s.modBand u f).ports = s.ports := rfl
@[simp] theorem modBand_homes (s : State) (u : Nat) (f : Band → Band) : (s.modBand u f).homes = s.homes := rfl
@[simp] theorem modBand_controllers (s : State) (u : Nat) (f : Band → Band) :
    (s.modBand u f).controllers = s.controllers := rfl
@[simp] theorem modBand_modules (s : State) (u : Nat) (f : Band → Band) : (s.modBand u f).modules = s.modules := rfl
@[simp] theorem modBand_retained (s : State) (u : Nat) (f : Band → Band) : (s.modBand u f).retained = s.retained := rfl
@[simp] theorem modBand_reqs (s : State) (u : Nat) (f : Band → Band) : (s.modBand u f).reqs = s.reqs := rfl
@[simp] theorem modBand_parks (s : State) (u : Nat) (f : Band → Band) : (s.modBand u f).parks = s.parks := rfl
@[simp] theorem modBand_mgmtBudget (s : State) (u : Nat) (f : Band → Band) :
    (s.modBand u f).mgmtBudget = s.mgmtBudget := rfl
@[simp] theorem modBand_mgmtUsed (s : State) (u : Nat) (f : Band → Band) : (s.modBand u f).mgmtUsed = s.mgmtUsed := rfl
@[simp] theorem modBand_commands (s : State) (u : Nat) (f : Band → Band) : (s.modBand u f).commands = s.commands := rfl
@[simp] theorem modBand_outbox (s : State) (u : Nat) (f : Band → Band) : (s.modBand u f).outbox = s.outbox := rfl
@[simp] theorem modBand_replies (s : State) (u : Nat) (f : Band → Band) : (s.modBand u f).replies = s.replies := rfl
@[simp] theorem modBand_attested (s : State) (u : Nat) (f : Band → Band) : (s.modBand u f).attested = s.attested := rfl
@[simp] theorem modBand_agenda (s : State) (u : Nat) (f : Band → Band) : (s.modBand u f).agenda = s.agenda := rfl
@[simp] theorem modBand_issue (s : State) (u : Nat) (f : Band → Band) : (s.modBand u f).issue = s.issue := rfl
@[simp] theorem modBand_turn (s : State) (u : Nat) (f : Band → Band) : (s.modBand u f).turn = s.turn := rfl
@[simp] theorem modBand_slow (s : State) (u : Nat) (f : Band → Band) : (s.modBand u f).slow = s.slow := rfl
@[simp] theorem modBand_free (s : State) (u : Nat) (f : Band → Band) : (s.modBand u f).free = s.free := rfl
@[simp] theorem modBand_upsets (s : State) (u : Nat) (f : Band → Band) : (s.modBand u f).upsets = s.upsets := rfl
@[simp] theorem modBand_codeOld (s : State) (u : Nat) (f : Band → Band) : (s.modBand u f).codeOld = s.codeOld := rfl
@[simp] theorem modBand_mgmtCycle (s : State) (u : Nat) (f : Band → Band) :
    (s.modBand u f).mgmtCycle = s.mgmtCycle := rfl
@[simp] theorem modBand_mgmtPeriod (s : State) (u : Nat) (f : Band → Band) :
    (s.modBand u f).mgmtPeriod = s.mgmtPeriod := rfl
@[simp] theorem modBand_fabric (s : State) (u : Nat) (f : Band → Band) : (s.modBand u f).fabric = s.fabric := rfl
@[simp] theorem modBand_linkFails (s : State) (u : Nat) (f : Band → Band) :
    (s.modBand u f).linkFails = s.linkFails := rfl
@[simp] theorem modBand_peerPhases (s : State) (u : Nat) (f : Band → Band) :
    (s.modBand u f).peerPhases = s.peerPhases := rfl
@[simp] theorem modBand_disagree (s : State) (u : Nat) (f : Band → Band) : (s.modBand u f).disagree = s.disagree := rfl

/-! ### State.modGang -/

@[simp] theorem modGang_mem (s : State) (u g : Nat) (f : Gang → Gang) : (s.modGang u g f).mem = s.mem := rfl
@[simp] theorem modGang_poison (s : State) (u g : Nat) (f : Gang → Gang) : (s.modGang u g f).poison = s.poison := rfl
@[simp] theorem modGang_gens (s : State) (u g : Nat) (f : Gang → Gang) : (s.modGang u g f).gens = s.gens := rfl
@[simp] theorem modGang_zeroed (s : State) (u g : Nat) (f : Gang → Gang) : (s.modGang u g f).zeroed = s.zeroed := rfl
@[simp] theorem modGang_verTags (s : State) (u g : Nat) (f : Gang → Gang) : (s.modGang u g f).verTags = s.verTags := rfl
@[simp] theorem modGang_flips (s : State) (u g : Nat) (f : Gang → Gang) : (s.modGang u g f).flips = s.flips := rfl
@[simp] theorem modGang_verFlips (s : State) (u g : Nat) (f : Gang → Gang) :
    (s.modGang u g f).verFlips = s.verFlips := rfl
@[simp] theorem modGang_hostMem (s : State) (u g : Nat) (f : Gang → Gang) : (s.modGang u g f).hostMem = s.hostMem := rfl
@[simp] theorem modGang_peerMem (s : State) (u g : Nat) (f : Gang → Gang) : (s.modGang u g f).peerMem = s.peerMem := rfl
@[simp] theorem modGang_planeMap (s : State) (u g : Nat) (f : Gang → Gang) :
    (s.modGang u g f).planeMap = s.planeMap := rfl
@[simp] theorem modGang_rehash (s : State) (u g : Nat) (f : Gang → Gang) : (s.modGang u g f).rehash = s.rehash := rfl
@[simp] theorem modGang_deadPlanes (s : State) (u g : Nat) (f : Gang → Gang) :
    (s.modGang u g f).deadPlanes = s.deadPlanes := rfl
@[simp] theorem modGang_dying (s : State) (u g : Nat) (f : Gang → Gang) : (s.modGang u g f).dying = s.dying := rfl
@[simp] theorem modGang_features (s : State) (u g : Nat) (f : Gang → Gang) :
    (s.modGang u g f).features = s.features := rfl
@[simp] theorem modGang_negotiated (s : State) (u g : Nat) (f : Gang → Gang) :
    (s.modGang u g f).negotiated = s.negotiated := rfl
@[simp] theorem modGang_power (s : State) (u g : Nat) (f : Gang → Gang) : (s.modGang u g f).power = s.power := rfl
@[simp] theorem modGang_tripped (s : State) (u g : Nat) (f : Gang → Gang) : (s.modGang u g f).tripped = s.tripped := rfl
@[simp] theorem modGang_firmware (s : State) (u g : Nat) (f : Gang → Gang) :
    (s.modGang u g f).firmware = s.firmware := rfl
@[simp] theorem modGang_contexts (s : State) (u g : Nat) (f : Gang → Gang) :
    (s.modGang u g f).contexts = s.contexts := rfl
@[simp] theorem modGang_queues (s : State) (u g : Nat) (f : Gang → Gang) : (s.modGang u g f).queues = s.queues := rfl
@[simp] theorem modGang_roundRobin (s : State) (u g : Nat) (f : Gang → Gang) :
    (s.modGang u g f).roundRobin = s.roundRobin := rfl
@[simp] theorem modGang_launches (s : State) (u g : Nat) (f : Gang → Gang) :
    (s.modGang u g f).launches = s.launches := rfl
@[simp] theorem modGang_kernels (s : State) (u g : Nat) (f : Gang → Gang) : (s.modGang u g f).kernels = s.kernels := rfl
@[simp] theorem modGang_takenSeq (s : State) (u g : Nat) (f : Gang → Gang) :
    (s.modGang u g f).takenSeq = s.takenSeq := rfl
@[simp] theorem modGang_placed (s : State) (u g : Nat) (f : Gang → Gang) : (s.modGang u g f).placed = s.placed := rfl
@[simp] theorem modGang_nextUid (s : State) (u g : Nat) (f : Gang → Gang) : (s.modGang u g f).nextUid = s.nextUid := rfl
@[simp] theorem modGang_starveSeq (s : State) (u g : Nat) (f : Gang → Gang) :
    (s.modGang u g f).starveSeq = s.starveSeq := rfl
@[simp] theorem modGang_cores (s : State) (u g : Nat) (f : Gang → Gang) : (s.modGang u g f).cores = s.cores := rfl
@[simp] theorem modGang_dies (s : State) (u g : Nat) (f : Gang → Gang) : (s.modGang u g f).dies = s.dies := rfl
@[simp] theorem modGang_ports (s : State) (u g : Nat) (f : Gang → Gang) : (s.modGang u g f).ports = s.ports := rfl
@[simp] theorem modGang_homes (s : State) (u g : Nat) (f : Gang → Gang) : (s.modGang u g f).homes = s.homes := rfl
@[simp] theorem modGang_controllers (s : State) (u g : Nat) (f : Gang → Gang) :
    (s.modGang u g f).controllers = s.controllers := rfl
@[simp] theorem modGang_modules (s : State) (u g : Nat) (f : Gang → Gang) : (s.modGang u g f).modules = s.modules := rfl
@[simp] theorem modGang_retained (s : State) (u g : Nat) (f : Gang → Gang) :
    (s.modGang u g f).retained = s.retained := rfl
@[simp] theorem modGang_reqs (s : State) (u g : Nat) (f : Gang → Gang) : (s.modGang u g f).reqs = s.reqs := rfl
@[simp] theorem modGang_parks (s : State) (u g : Nat) (f : Gang → Gang) : (s.modGang u g f).parks = s.parks := rfl
@[simp] theorem modGang_mgmtBudget (s : State) (u g : Nat) (f : Gang → Gang) :
    (s.modGang u g f).mgmtBudget = s.mgmtBudget := rfl
@[simp] theorem modGang_mgmtUsed (s : State) (u g : Nat) (f : Gang → Gang) :
    (s.modGang u g f).mgmtUsed = s.mgmtUsed := rfl
@[simp] theorem modGang_commands (s : State) (u g : Nat) (f : Gang → Gang) :
    (s.modGang u g f).commands = s.commands := rfl
@[simp] theorem modGang_outbox (s : State) (u g : Nat) (f : Gang → Gang) : (s.modGang u g f).outbox = s.outbox := rfl
@[simp] theorem modGang_replies (s : State) (u g : Nat) (f : Gang → Gang) : (s.modGang u g f).replies = s.replies := rfl
@[simp] theorem modGang_attested (s : State) (u g : Nat) (f : Gang → Gang) :
    (s.modGang u g f).attested = s.attested := rfl
@[simp] theorem modGang_agenda (s : State) (u g : Nat) (f : Gang → Gang) : (s.modGang u g f).agenda = s.agenda := rfl
@[simp] theorem modGang_issue (s : State) (u g : Nat) (f : Gang → Gang) : (s.modGang u g f).issue = s.issue := rfl
@[simp] theorem modGang_turn (s : State) (u g : Nat) (f : Gang → Gang) : (s.modGang u g f).turn = s.turn := rfl
@[simp] theorem modGang_slow (s : State) (u g : Nat) (f : Gang → Gang) : (s.modGang u g f).slow = s.slow := rfl
@[simp] theorem modGang_free (s : State) (u g : Nat) (f : Gang → Gang) : (s.modGang u g f).free = s.free := rfl
@[simp] theorem modGang_upsets (s : State) (u g : Nat) (f : Gang → Gang) : (s.modGang u g f).upsets = s.upsets := rfl
@[simp] theorem modGang_codeOld (s : State) (u g : Nat) (f : Gang → Gang) : (s.modGang u g f).codeOld = s.codeOld := rfl
@[simp] theorem modGang_mgmtCycle (s : State) (u g : Nat) (f : Gang → Gang) :
    (s.modGang u g f).mgmtCycle = s.mgmtCycle := rfl
@[simp] theorem modGang_mgmtPeriod (s : State) (u g : Nat) (f : Gang → Gang) :
    (s.modGang u g f).mgmtPeriod = s.mgmtPeriod := rfl
@[simp] theorem modGang_fabric (s : State) (u g : Nat) (f : Gang → Gang) : (s.modGang u g f).fabric = s.fabric := rfl
@[simp] theorem modGang_linkFails (s : State) (u g : Nat) (f : Gang → Gang) :
    (s.modGang u g f).linkFails = s.linkFails := rfl
@[simp] theorem modGang_peerPhases (s : State) (u g : Nat) (f : Gang → Gang) :
    (s.modGang u g f).peerPhases = s.peerPhases := rfl
@[simp] theorem modGang_disagree (s : State) (u g : Nat) (f : Gang → Gang) :
    (s.modGang u g f).disagree = s.disagree := rfl

/-! ### State.modPart -/

@[simp] theorem modPart_mem (s : State) (p : PartId) (f : Part → Part) : (s.modPart p f).mem = s.mem := rfl
@[simp] theorem modPart_poison (s : State) (p : PartId) (f : Part → Part) : (s.modPart p f).poison = s.poison := rfl
@[simp] theorem modPart_gens (s : State) (p : PartId) (f : Part → Part) : (s.modPart p f).gens = s.gens := rfl
@[simp] theorem modPart_zeroed (s : State) (p : PartId) (f : Part → Part) : (s.modPart p f).zeroed = s.zeroed := rfl
@[simp] theorem modPart_verTags (s : State) (p : PartId) (f : Part → Part) : (s.modPart p f).verTags = s.verTags := rfl
@[simp] theorem modPart_flips (s : State) (p : PartId) (f : Part → Part) : (s.modPart p f).flips = s.flips := rfl
@[simp] theorem modPart_verFlips (s : State) (p : PartId) (f : Part → Part) :
    (s.modPart p f).verFlips = s.verFlips := rfl
@[simp] theorem modPart_hostMem (s : State) (p : PartId) (f : Part → Part) : (s.modPart p f).hostMem = s.hostMem := rfl
@[simp] theorem modPart_peerMem (s : State) (p : PartId) (f : Part → Part) : (s.modPart p f).peerMem = s.peerMem := rfl
@[simp] theorem modPart_planeMap (s : State) (p : PartId) (f : Part → Part) :
    (s.modPart p f).planeMap = s.planeMap := rfl
@[simp] theorem modPart_rehash (s : State) (p : PartId) (f : Part → Part) : (s.modPart p f).rehash = s.rehash := rfl
@[simp] theorem modPart_deadPlanes (s : State) (p : PartId) (f : Part → Part) :
    (s.modPart p f).deadPlanes = s.deadPlanes := rfl
@[simp] theorem modPart_dying (s : State) (p : PartId) (f : Part → Part) : (s.modPart p f).dying = s.dying := rfl
@[simp] theorem modPart_features (s : State) (p : PartId) (f : Part → Part) :
    (s.modPart p f).features = s.features := rfl
@[simp] theorem modPart_negotiated (s : State) (p : PartId) (f : Part → Part) :
    (s.modPart p f).negotiated = s.negotiated := rfl
@[simp] theorem modPart_power (s : State) (p : PartId) (f : Part → Part) : (s.modPart p f).power = s.power := rfl
@[simp] theorem modPart_tripped (s : State) (p : PartId) (f : Part → Part) : (s.modPart p f).tripped = s.tripped := rfl
@[simp] theorem modPart_firmware (s : State) (p : PartId) (f : Part → Part) :
    (s.modPart p f).firmware = s.firmware := rfl
@[simp] theorem modPart_contexts (s : State) (p : PartId) (f : Part → Part) :
    (s.modPart p f).contexts = s.contexts := rfl
@[simp] theorem modPart_queues (s : State) (p : PartId) (f : Part → Part) : (s.modPart p f).queues = s.queues := rfl
@[simp] theorem modPart_roundRobin (s : State) (p : PartId) (f : Part → Part) :
    (s.modPart p f).roundRobin = s.roundRobin := rfl
@[simp] theorem modPart_launches (s : State) (p : PartId) (f : Part → Part) :
    (s.modPart p f).launches = s.launches := rfl
@[simp] theorem modPart_kernels (s : State) (p : PartId) (f : Part → Part) : (s.modPart p f).kernels = s.kernels := rfl
@[simp] theorem modPart_takenSeq (s : State) (p : PartId) (f : Part → Part) :
    (s.modPart p f).takenSeq = s.takenSeq := rfl
@[simp] theorem modPart_placed (s : State) (p : PartId) (f : Part → Part) : (s.modPart p f).placed = s.placed := rfl
@[simp] theorem modPart_nextUid (s : State) (p : PartId) (f : Part → Part) : (s.modPart p f).nextUid = s.nextUid := rfl
@[simp] theorem modPart_starveSeq (s : State) (p : PartId) (f : Part → Part) :
    (s.modPart p f).starveSeq = s.starveSeq := rfl
@[simp] theorem modPart_cores (s : State) (p : PartId) (f : Part → Part) : (s.modPart p f).cores = s.cores := rfl
@[simp] theorem modPart_dies (s : State) (p : PartId) (f : Part → Part) : (s.modPart p f).dies = s.dies := rfl
@[simp] theorem modPart_ports (s : State) (p : PartId) (f : Part → Part) : (s.modPart p f).ports = s.ports := rfl
@[simp] theorem modPart_homes (s : State) (p : PartId) (f : Part → Part) : (s.modPart p f).homes = s.homes := rfl
@[simp] theorem modPart_controllers (s : State) (p : PartId) (f : Part → Part) :
    (s.modPart p f).controllers = s.controllers := rfl
@[simp] theorem modPart_modules (s : State) (p : PartId) (f : Part → Part) : (s.modPart p f).modules = s.modules := rfl
@[simp] theorem modPart_retained (s : State) (p : PartId) (f : Part → Part) :
    (s.modPart p f).retained = s.retained := rfl
@[simp] theorem modPart_reqs (s : State) (p : PartId) (f : Part → Part) : (s.modPart p f).reqs = s.reqs := rfl
@[simp] theorem modPart_parks (s : State) (p : PartId) (f : Part → Part) : (s.modPart p f).parks = s.parks := rfl
@[simp] theorem modPart_mgmtBudget (s : State) (p : PartId) (f : Part → Part) :
    (s.modPart p f).mgmtBudget = s.mgmtBudget := rfl
@[simp] theorem modPart_mgmtUsed (s : State) (p : PartId) (f : Part → Part) :
    (s.modPart p f).mgmtUsed = s.mgmtUsed := rfl
@[simp] theorem modPart_commands (s : State) (p : PartId) (f : Part → Part) :
    (s.modPart p f).commands = s.commands := rfl
@[simp] theorem modPart_outbox (s : State) (p : PartId) (f : Part → Part) : (s.modPart p f).outbox = s.outbox := rfl
@[simp] theorem modPart_replies (s : State) (p : PartId) (f : Part → Part) : (s.modPart p f).replies = s.replies := rfl
@[simp] theorem modPart_attested (s : State) (p : PartId) (f : Part → Part) :
    (s.modPart p f).attested = s.attested := rfl
@[simp] theorem modPart_agenda (s : State) (p : PartId) (f : Part → Part) : (s.modPart p f).agenda = s.agenda := rfl
@[simp] theorem modPart_issue (s : State) (p : PartId) (f : Part → Part) : (s.modPart p f).issue = s.issue := rfl
@[simp] theorem modPart_turn (s : State) (p : PartId) (f : Part → Part) : (s.modPart p f).turn = s.turn := rfl
@[simp] theorem modPart_slow (s : State) (p : PartId) (f : Part → Part) : (s.modPart p f).slow = s.slow := rfl
@[simp] theorem modPart_free (s : State) (p : PartId) (f : Part → Part) : (s.modPart p f).free = s.free := rfl
@[simp] theorem modPart_upsets (s : State) (p : PartId) (f : Part → Part) : (s.modPart p f).upsets = s.upsets := rfl
@[simp] theorem modPart_codeOld (s : State) (p : PartId) (f : Part → Part) : (s.modPart p f).codeOld = s.codeOld := rfl
@[simp] theorem modPart_mgmtCycle (s : State) (p : PartId) (f : Part → Part) :
    (s.modPart p f).mgmtCycle = s.mgmtCycle := rfl
@[simp] theorem modPart_mgmtPeriod (s : State) (p : PartId) (f : Part → Part) :
    (s.modPart p f).mgmtPeriod = s.mgmtPeriod := rfl
@[simp] theorem modPart_fabric (s : State) (p : PartId) (f : Part → Part) : (s.modPart p f).fabric = s.fabric := rfl
@[simp] theorem modPart_linkFails (s : State) (p : PartId) (f : Part → Part) :
    (s.modPart p f).linkFails = s.linkFails := rfl
@[simp] theorem modPart_peerPhases (s : State) (p : PartId) (f : Part → Part) :
    (s.modPart p f).peerPhases = s.peerPhases := rfl
@[simp] theorem modPart_disagree (s : State) (p : PartId) (f : Part → Part) :
    (s.modPart p f).disagree = s.disagree := rfl

/-! ### State.modNode -/

@[simp] theorem modNode_mem (s : State) (u n : Nat) (f : Node → Node) : (s.modNode u n f).mem = s.mem := rfl
@[simp] theorem modNode_poison (s : State) (u n : Nat) (f : Node → Node) : (s.modNode u n f).poison = s.poison := rfl
@[simp] theorem modNode_gens (s : State) (u n : Nat) (f : Node → Node) : (s.modNode u n f).gens = s.gens := rfl
@[simp] theorem modNode_zeroed (s : State) (u n : Nat) (f : Node → Node) : (s.modNode u n f).zeroed = s.zeroed := rfl
@[simp] theorem modNode_verTags (s : State) (u n : Nat) (f : Node → Node) : (s.modNode u n f).verTags = s.verTags := rfl
@[simp] theorem modNode_flips (s : State) (u n : Nat) (f : Node → Node) : (s.modNode u n f).flips = s.flips := rfl
@[simp] theorem modNode_verFlips (s : State) (u n : Nat) (f : Node → Node) :
    (s.modNode u n f).verFlips = s.verFlips := rfl
@[simp] theorem modNode_hostMem (s : State) (u n : Nat) (f : Node → Node) : (s.modNode u n f).hostMem = s.hostMem := rfl
@[simp] theorem modNode_peerMem (s : State) (u n : Nat) (f : Node → Node) : (s.modNode u n f).peerMem = s.peerMem := rfl
@[simp] theorem modNode_planeMap (s : State) (u n : Nat) (f : Node → Node) :
    (s.modNode u n f).planeMap = s.planeMap := rfl
@[simp] theorem modNode_rehash (s : State) (u n : Nat) (f : Node → Node) : (s.modNode u n f).rehash = s.rehash := rfl
@[simp] theorem modNode_deadPlanes (s : State) (u n : Nat) (f : Node → Node) :
    (s.modNode u n f).deadPlanes = s.deadPlanes := rfl
@[simp] theorem modNode_dying (s : State) (u n : Nat) (f : Node → Node) : (s.modNode u n f).dying = s.dying := rfl
@[simp] theorem modNode_features (s : State) (u n : Nat) (f : Node → Node) :
    (s.modNode u n f).features = s.features := rfl
@[simp] theorem modNode_negotiated (s : State) (u n : Nat) (f : Node → Node) :
    (s.modNode u n f).negotiated = s.negotiated := rfl
@[simp] theorem modNode_power (s : State) (u n : Nat) (f : Node → Node) : (s.modNode u n f).power = s.power := rfl
@[simp] theorem modNode_tripped (s : State) (u n : Nat) (f : Node → Node) : (s.modNode u n f).tripped = s.tripped := rfl
@[simp] theorem modNode_firmware (s : State) (u n : Nat) (f : Node → Node) :
    (s.modNode u n f).firmware = s.firmware := rfl
@[simp] theorem modNode_contexts (s : State) (u n : Nat) (f : Node → Node) :
    (s.modNode u n f).contexts = s.contexts := rfl
@[simp] theorem modNode_queues (s : State) (u n : Nat) (f : Node → Node) : (s.modNode u n f).queues = s.queues := rfl
@[simp] theorem modNode_roundRobin (s : State) (u n : Nat) (f : Node → Node) :
    (s.modNode u n f).roundRobin = s.roundRobin := rfl
@[simp] theorem modNode_launches (s : State) (u n : Nat) (f : Node → Node) :
    (s.modNode u n f).launches = s.launches := rfl
@[simp] theorem modNode_kernels (s : State) (u n : Nat) (f : Node → Node) : (s.modNode u n f).kernels = s.kernels := rfl
@[simp] theorem modNode_takenSeq (s : State) (u n : Nat) (f : Node → Node) :
    (s.modNode u n f).takenSeq = s.takenSeq := rfl
@[simp] theorem modNode_placed (s : State) (u n : Nat) (f : Node → Node) : (s.modNode u n f).placed = s.placed := rfl
@[simp] theorem modNode_nextUid (s : State) (u n : Nat) (f : Node → Node) : (s.modNode u n f).nextUid = s.nextUid := rfl
@[simp] theorem modNode_starveSeq (s : State) (u n : Nat) (f : Node → Node) :
    (s.modNode u n f).starveSeq = s.starveSeq := rfl
@[simp] theorem modNode_cores (s : State) (u n : Nat) (f : Node → Node) : (s.modNode u n f).cores = s.cores := rfl
@[simp] theorem modNode_dies (s : State) (u n : Nat) (f : Node → Node) : (s.modNode u n f).dies = s.dies := rfl
@[simp] theorem modNode_ports (s : State) (u n : Nat) (f : Node → Node) : (s.modNode u n f).ports = s.ports := rfl
@[simp] theorem modNode_homes (s : State) (u n : Nat) (f : Node → Node) : (s.modNode u n f).homes = s.homes := rfl
@[simp] theorem modNode_controllers (s : State) (u n : Nat) (f : Node → Node) :
    (s.modNode u n f).controllers = s.controllers := rfl
@[simp] theorem modNode_modules (s : State) (u n : Nat) (f : Node → Node) : (s.modNode u n f).modules = s.modules := rfl
@[simp] theorem modNode_retained (s : State) (u n : Nat) (f : Node → Node) :
    (s.modNode u n f).retained = s.retained := rfl
@[simp] theorem modNode_reqs (s : State) (u n : Nat) (f : Node → Node) : (s.modNode u n f).reqs = s.reqs := rfl
@[simp] theorem modNode_parks (s : State) (u n : Nat) (f : Node → Node) : (s.modNode u n f).parks = s.parks := rfl
@[simp] theorem modNode_mgmtBudget (s : State) (u n : Nat) (f : Node → Node) :
    (s.modNode u n f).mgmtBudget = s.mgmtBudget := rfl
@[simp] theorem modNode_mgmtUsed (s : State) (u n : Nat) (f : Node → Node) :
    (s.modNode u n f).mgmtUsed = s.mgmtUsed := rfl
@[simp] theorem modNode_commands (s : State) (u n : Nat) (f : Node → Node) :
    (s.modNode u n f).commands = s.commands := rfl
@[simp] theorem modNode_outbox (s : State) (u n : Nat) (f : Node → Node) : (s.modNode u n f).outbox = s.outbox := rfl
@[simp] theorem modNode_replies (s : State) (u n : Nat) (f : Node → Node) : (s.modNode u n f).replies = s.replies := rfl
@[simp] theorem modNode_attested (s : State) (u n : Nat) (f : Node → Node) :
    (s.modNode u n f).attested = s.attested := rfl
@[simp] theorem modNode_agenda (s : State) (u n : Nat) (f : Node → Node) : (s.modNode u n f).agenda = s.agenda := rfl
@[simp] theorem modNode_issue (s : State) (u n : Nat) (f : Node → Node) : (s.modNode u n f).issue = s.issue := rfl
@[simp] theorem modNode_turn (s : State) (u n : Nat) (f : Node → Node) : (s.modNode u n f).turn = s.turn := rfl
@[simp] theorem modNode_slow (s : State) (u n : Nat) (f : Node → Node) : (s.modNode u n f).slow = s.slow := rfl
@[simp] theorem modNode_free (s : State) (u n : Nat) (f : Node → Node) : (s.modNode u n f).free = s.free := rfl
@[simp] theorem modNode_upsets (s : State) (u n : Nat) (f : Node → Node) : (s.modNode u n f).upsets = s.upsets := rfl
@[simp] theorem modNode_codeOld (s : State) (u n : Nat) (f : Node → Node) : (s.modNode u n f).codeOld = s.codeOld := rfl
@[simp] theorem modNode_mgmtCycle (s : State) (u n : Nat) (f : Node → Node) :
    (s.modNode u n f).mgmtCycle = s.mgmtCycle := rfl
@[simp] theorem modNode_mgmtPeriod (s : State) (u n : Nat) (f : Node → Node) :
    (s.modNode u n f).mgmtPeriod = s.mgmtPeriod := rfl
@[simp] theorem modNode_fabric (s : State) (u n : Nat) (f : Node → Node) : (s.modNode u n f).fabric = s.fabric := rfl
@[simp] theorem modNode_linkFails (s : State) (u n : Nat) (f : Node → Node) :
    (s.modNode u n f).linkFails = s.linkFails := rfl
@[simp] theorem modNode_peerPhases (s : State) (u n : Nat) (f : Node → Node) :
    (s.modNode u n f).peerPhases = s.peerPhases := rfl
@[simp] theorem modNode_disagree (s : State) (u n : Nat) (f : Node → Node) :
    (s.modNode u n f).disagree = s.disagree := rfl

/-! ### State.modKernel -/

@[simp] theorem modKernel_mem (s : State) (u : Nat) (f : Kernel → Kernel) : (s.modKernel u f).mem = s.mem := rfl
@[simp] theorem modKernel_poison (s : State) (u : Nat) (f : Kernel → Kernel) :
    (s.modKernel u f).poison = s.poison := rfl
@[simp] theorem modKernel_gens (s : State) (u : Nat) (f : Kernel → Kernel) : (s.modKernel u f).gens = s.gens := rfl
@[simp] theorem modKernel_zeroed (s : State) (u : Nat) (f : Kernel → Kernel) :
    (s.modKernel u f).zeroed = s.zeroed := rfl
@[simp] theorem modKernel_verTags (s : State) (u : Nat) (f : Kernel → Kernel) :
    (s.modKernel u f).verTags = s.verTags := rfl
@[simp] theorem modKernel_flips (s : State) (u : Nat) (f : Kernel → Kernel) : (s.modKernel u f).flips = s.flips := rfl
@[simp] theorem modKernel_verFlips (s : State) (u : Nat) (f : Kernel → Kernel) :
    (s.modKernel u f).verFlips = s.verFlips := rfl
@[simp] theorem modKernel_hostMem (s : State) (u : Nat) (f : Kernel → Kernel) :
    (s.modKernel u f).hostMem = s.hostMem := rfl
@[simp] theorem modKernel_peerMem (s : State) (u : Nat) (f : Kernel → Kernel) :
    (s.modKernel u f).peerMem = s.peerMem := rfl
@[simp] theorem modKernel_planeMap (s : State) (u : Nat) (f : Kernel → Kernel) :
    (s.modKernel u f).planeMap = s.planeMap := rfl
@[simp] theorem modKernel_rehash (s : State) (u : Nat) (f : Kernel → Kernel) :
    (s.modKernel u f).rehash = s.rehash := rfl
@[simp] theorem modKernel_deadPlanes (s : State) (u : Nat) (f : Kernel → Kernel) :
    (s.modKernel u f).deadPlanes = s.deadPlanes := rfl
@[simp] theorem modKernel_dying (s : State) (u : Nat) (f : Kernel → Kernel) : (s.modKernel u f).dying = s.dying := rfl
@[simp] theorem modKernel_features (s : State) (u : Nat) (f : Kernel → Kernel) :
    (s.modKernel u f).features = s.features := rfl
@[simp] theorem modKernel_negotiated (s : State) (u : Nat) (f : Kernel → Kernel) :
    (s.modKernel u f).negotiated = s.negotiated := rfl
@[simp] theorem modKernel_power (s : State) (u : Nat) (f : Kernel → Kernel) : (s.modKernel u f).power = s.power := rfl
@[simp] theorem modKernel_tripped (s : State) (u : Nat) (f : Kernel → Kernel) :
    (s.modKernel u f).tripped = s.tripped := rfl
@[simp] theorem modKernel_firmware (s : State) (u : Nat) (f : Kernel → Kernel) :
    (s.modKernel u f).firmware = s.firmware := rfl
@[simp] theorem modKernel_contexts (s : State) (u : Nat) (f : Kernel → Kernel) :
    (s.modKernel u f).contexts = s.contexts := rfl
@[simp] theorem modKernel_queues (s : State) (u : Nat) (f : Kernel → Kernel) :
    (s.modKernel u f).queues = s.queues := rfl
@[simp] theorem modKernel_roundRobin (s : State) (u : Nat) (f : Kernel → Kernel) :
    (s.modKernel u f).roundRobin = s.roundRobin := rfl
@[simp] theorem modKernel_launches (s : State) (u : Nat) (f : Kernel → Kernel) :
    (s.modKernel u f).launches = s.launches := rfl
@[simp] theorem modKernel_takenSeq (s : State) (u : Nat) (f : Kernel → Kernel) :
    (s.modKernel u f).takenSeq = s.takenSeq := rfl
@[simp] theorem modKernel_bands (s : State) (u : Nat) (f : Kernel → Kernel) : (s.modKernel u f).bands = s.bands := rfl
@[simp] theorem modKernel_placed (s : State) (u : Nat) (f : Kernel → Kernel) :
    (s.modKernel u f).placed = s.placed := rfl
@[simp] theorem modKernel_nextUid (s : State) (u : Nat) (f : Kernel → Kernel) :
    (s.modKernel u f).nextUid = s.nextUid := rfl
@[simp] theorem modKernel_starveSeq (s : State) (u : Nat) (f : Kernel → Kernel) :
    (s.modKernel u f).starveSeq = s.starveSeq := rfl
@[simp] theorem modKernel_cores (s : State) (u : Nat) (f : Kernel → Kernel) : (s.modKernel u f).cores = s.cores := rfl
@[simp] theorem modKernel_dies (s : State) (u : Nat) (f : Kernel → Kernel) : (s.modKernel u f).dies = s.dies := rfl
@[simp] theorem modKernel_ports (s : State) (u : Nat) (f : Kernel → Kernel) : (s.modKernel u f).ports = s.ports := rfl
@[simp] theorem modKernel_homes (s : State) (u : Nat) (f : Kernel → Kernel) : (s.modKernel u f).homes = s.homes := rfl
@[simp] theorem modKernel_controllers (s : State) (u : Nat) (f : Kernel → Kernel) :
    (s.modKernel u f).controllers = s.controllers := rfl
@[simp] theorem modKernel_modules (s : State) (u : Nat) (f : Kernel → Kernel) :
    (s.modKernel u f).modules = s.modules := rfl
@[simp] theorem modKernel_retained (s : State) (u : Nat) (f : Kernel → Kernel) :
    (s.modKernel u f).retained = s.retained := rfl
@[simp] theorem modKernel_reqs (s : State) (u : Nat) (f : Kernel → Kernel) : (s.modKernel u f).reqs = s.reqs := rfl
@[simp] theorem modKernel_parks (s : State) (u : Nat) (f : Kernel → Kernel) : (s.modKernel u f).parks = s.parks := rfl
@[simp] theorem modKernel_mgmtBudget (s : State) (u : Nat) (f : Kernel → Kernel) :
    (s.modKernel u f).mgmtBudget = s.mgmtBudget := rfl
@[simp] theorem modKernel_mgmtUsed (s : State) (u : Nat) (f : Kernel → Kernel) :
    (s.modKernel u f).mgmtUsed = s.mgmtUsed := rfl
@[simp] theorem modKernel_commands (s : State) (u : Nat) (f : Kernel → Kernel) :
    (s.modKernel u f).commands = s.commands := rfl
@[simp] theorem modKernel_outbox (s : State) (u : Nat) (f : Kernel → Kernel) :
    (s.modKernel u f).outbox = s.outbox := rfl
@[simp] theorem modKernel_replies (s : State) (u : Nat) (f : Kernel → Kernel) :
    (s.modKernel u f).replies = s.replies := rfl
@[simp] theorem modKernel_attested (s : State) (u : Nat) (f : Kernel → Kernel) :
    (s.modKernel u f).attested = s.attested := rfl
@[simp] theorem modKernel_agenda (s : State) (u : Nat) (f : Kernel → Kernel) :
    (s.modKernel u f).agenda = s.agenda := rfl
@[simp] theorem modKernel_issue (s : State) (u : Nat) (f : Kernel → Kernel) : (s.modKernel u f).issue = s.issue := rfl
@[simp] theorem modKernel_turn (s : State) (u : Nat) (f : Kernel → Kernel) : (s.modKernel u f).turn = s.turn := rfl
@[simp] theorem modKernel_slow (s : State) (u : Nat) (f : Kernel → Kernel) : (s.modKernel u f).slow = s.slow := rfl
@[simp] theorem modKernel_free (s : State) (u : Nat) (f : Kernel → Kernel) : (s.modKernel u f).free = s.free := rfl
@[simp] theorem modKernel_upsets (s : State) (u : Nat) (f : Kernel → Kernel) :
    (s.modKernel u f).upsets = s.upsets := rfl
@[simp] theorem modKernel_codeOld (s : State) (u : Nat) (f : Kernel → Kernel) :
    (s.modKernel u f).codeOld = s.codeOld := rfl
@[simp] theorem modKernel_mgmtCycle (s : State) (u : Nat) (f : Kernel → Kernel) :
    (s.modKernel u f).mgmtCycle = s.mgmtCycle := rfl
@[simp] theorem modKernel_mgmtPeriod (s : State) (u : Nat) (f : Kernel → Kernel) :
    (s.modKernel u f).mgmtPeriod = s.mgmtPeriod := rfl
@[simp] theorem modKernel_fabric (s : State) (u : Nat) (f : Kernel → Kernel) :
    (s.modKernel u f).fabric = s.fabric := rfl
@[simp] theorem modKernel_linkFails (s : State) (u : Nat) (f : Kernel → Kernel) :
    (s.modKernel u f).linkFails = s.linkFails := rfl
@[simp] theorem modKernel_peerPhases (s : State) (u : Nat) (f : Kernel → Kernel) :
    (s.modKernel u f).peerPhases = s.peerPhases := rfl
@[simp] theorem modKernel_disagree (s : State) (u : Nat) (f : Kernel → Kernel) :
    (s.modKernel u f).disagree = s.disagree := rfl

/-! ### State.modContext -/

@[simp] theorem modContext_mem (s : State) (n : Nat) (f : Context → Context) : (s.modContext n f).mem = s.mem := rfl
@[simp] theorem modContext_poison (s : State) (n : Nat) (f : Context → Context) :
    (s.modContext n f).poison = s.poison := rfl
@[simp] theorem modContext_gens (s : State) (n : Nat) (f : Context → Context) : (s.modContext n f).gens = s.gens := rfl
@[simp] theorem modContext_zeroed (s : State) (n : Nat) (f : Context → Context) :
    (s.modContext n f).zeroed = s.zeroed := rfl
@[simp] theorem modContext_verTags (s : State) (n : Nat) (f : Context → Context) :
    (s.modContext n f).verTags = s.verTags := rfl
@[simp] theorem modContext_flips (s : State) (n : Nat) (f : Context → Context) :
    (s.modContext n f).flips = s.flips := rfl
@[simp] theorem modContext_verFlips (s : State) (n : Nat) (f : Context → Context) :
    (s.modContext n f).verFlips = s.verFlips := rfl
@[simp] theorem modContext_hostMem (s : State) (n : Nat) (f : Context → Context) :
    (s.modContext n f).hostMem = s.hostMem := rfl
@[simp] theorem modContext_peerMem (s : State) (n : Nat) (f : Context → Context) :
    (s.modContext n f).peerMem = s.peerMem := rfl
@[simp] theorem modContext_planeMap (s : State) (n : Nat) (f : Context → Context) :
    (s.modContext n f).planeMap = s.planeMap := rfl
@[simp] theorem modContext_rehash (s : State) (n : Nat) (f : Context → Context) :
    (s.modContext n f).rehash = s.rehash := rfl
@[simp] theorem modContext_deadPlanes (s : State) (n : Nat) (f : Context → Context) :
    (s.modContext n f).deadPlanes = s.deadPlanes := rfl
@[simp] theorem modContext_dying (s : State) (n : Nat) (f : Context → Context) :
    (s.modContext n f).dying = s.dying := rfl
@[simp] theorem modContext_features (s : State) (n : Nat) (f : Context → Context) :
    (s.modContext n f).features = s.features := rfl
@[simp] theorem modContext_negotiated (s : State) (n : Nat) (f : Context → Context) :
    (s.modContext n f).negotiated = s.negotiated := rfl
@[simp] theorem modContext_power (s : State) (n : Nat) (f : Context → Context) :
    (s.modContext n f).power = s.power := rfl
@[simp] theorem modContext_tripped (s : State) (n : Nat) (f : Context → Context) :
    (s.modContext n f).tripped = s.tripped := rfl
@[simp] theorem modContext_firmware (s : State) (n : Nat) (f : Context → Context) :
    (s.modContext n f).firmware = s.firmware := rfl
@[simp] theorem modContext_queues (s : State) (n : Nat) (f : Context → Context) :
    (s.modContext n f).queues = s.queues := rfl
@[simp] theorem modContext_roundRobin (s : State) (n : Nat) (f : Context → Context) :
    (s.modContext n f).roundRobin = s.roundRobin := rfl
@[simp] theorem modContext_launches (s : State) (n : Nat) (f : Context → Context) :
    (s.modContext n f).launches = s.launches := rfl
@[simp] theorem modContext_kernels (s : State) (n : Nat) (f : Context → Context) :
    (s.modContext n f).kernels = s.kernels := rfl
@[simp] theorem modContext_takenSeq (s : State) (n : Nat) (f : Context → Context) :
    (s.modContext n f).takenSeq = s.takenSeq := rfl
@[simp] theorem modContext_bands (s : State) (n : Nat) (f : Context → Context) :
    (s.modContext n f).bands = s.bands := rfl
@[simp] theorem modContext_placed (s : State) (n : Nat) (f : Context → Context) :
    (s.modContext n f).placed = s.placed := rfl
@[simp] theorem modContext_nextUid (s : State) (n : Nat) (f : Context → Context) :
    (s.modContext n f).nextUid = s.nextUid := rfl
@[simp] theorem modContext_starveSeq (s : State) (n : Nat) (f : Context → Context) :
    (s.modContext n f).starveSeq = s.starveSeq := rfl
@[simp] theorem modContext_cores (s : State) (n : Nat) (f : Context → Context) :
    (s.modContext n f).cores = s.cores := rfl
@[simp] theorem modContext_dies (s : State) (n : Nat) (f : Context → Context) : (s.modContext n f).dies = s.dies := rfl
@[simp] theorem modContext_ports (s : State) (n : Nat) (f : Context → Context) :
    (s.modContext n f).ports = s.ports := rfl
@[simp] theorem modContext_homes (s : State) (n : Nat) (f : Context → Context) :
    (s.modContext n f).homes = s.homes := rfl
@[simp] theorem modContext_controllers (s : State) (n : Nat) (f : Context → Context) :
    (s.modContext n f).controllers = s.controllers := rfl
@[simp] theorem modContext_modules (s : State) (n : Nat) (f : Context → Context) :
    (s.modContext n f).modules = s.modules := rfl
@[simp] theorem modContext_retained (s : State) (n : Nat) (f : Context → Context) :
    (s.modContext n f).retained = s.retained := rfl
@[simp] theorem modContext_reqs (s : State) (n : Nat) (f : Context → Context) : (s.modContext n f).reqs = s.reqs := rfl
@[simp] theorem modContext_parks (s : State) (n : Nat) (f : Context → Context) :
    (s.modContext n f).parks = s.parks := rfl
@[simp] theorem modContext_mgmtBudget (s : State) (n : Nat) (f : Context → Context) :
    (s.modContext n f).mgmtBudget = s.mgmtBudget := rfl
@[simp] theorem modContext_mgmtUsed (s : State) (n : Nat) (f : Context → Context) :
    (s.modContext n f).mgmtUsed = s.mgmtUsed := rfl
@[simp] theorem modContext_commands (s : State) (n : Nat) (f : Context → Context) :
    (s.modContext n f).commands = s.commands := rfl
@[simp] theorem modContext_outbox (s : State) (n : Nat) (f : Context → Context) :
    (s.modContext n f).outbox = s.outbox := rfl
@[simp] theorem modContext_replies (s : State) (n : Nat) (f : Context → Context) :
    (s.modContext n f).replies = s.replies := rfl
@[simp] theorem modContext_attested (s : State) (n : Nat) (f : Context → Context) :
    (s.modContext n f).attested = s.attested := rfl
@[simp] theorem modContext_agenda (s : State) (n : Nat) (f : Context → Context) :
    (s.modContext n f).agenda = s.agenda := rfl
@[simp] theorem modContext_issue (s : State) (n : Nat) (f : Context → Context) :
    (s.modContext n f).issue = s.issue := rfl
@[simp] theorem modContext_turn (s : State) (n : Nat) (f : Context → Context) : (s.modContext n f).turn = s.turn := rfl
@[simp] theorem modContext_slow (s : State) (n : Nat) (f : Context → Context) : (s.modContext n f).slow = s.slow := rfl
@[simp] theorem modContext_free (s : State) (n : Nat) (f : Context → Context) : (s.modContext n f).free = s.free := rfl
@[simp] theorem modContext_upsets (s : State) (n : Nat) (f : Context → Context) :
    (s.modContext n f).upsets = s.upsets := rfl
@[simp] theorem modContext_codeOld (s : State) (n : Nat) (f : Context → Context) :
    (s.modContext n f).codeOld = s.codeOld := rfl
@[simp] theorem modContext_mgmtCycle (s : State) (n : Nat) (f : Context → Context) :
    (s.modContext n f).mgmtCycle = s.mgmtCycle := rfl
@[simp] theorem modContext_mgmtPeriod (s : State) (n : Nat) (f : Context → Context) :
    (s.modContext n f).mgmtPeriod = s.mgmtPeriod := rfl
@[simp] theorem modContext_fabric (s : State) (n : Nat) (f : Context → Context) :
    (s.modContext n f).fabric = s.fabric := rfl
@[simp] theorem modContext_linkFails (s : State) (n : Nat) (f : Context → Context) :
    (s.modContext n f).linkFails = s.linkFails := rfl
@[simp] theorem modContext_peerPhases (s : State) (n : Nat) (f : Context → Context) :
    (s.modContext n f).peerPhases = s.peerPhases := rfl
@[simp] theorem modContext_disagree (s : State) (n : Nat) (f : Context → Context) :
    (s.modContext n f).disagree = s.disagree := rfl

/-! ### State.setCore -/

@[simp] theorem setCore_mem (s : State) (c : Core) : (s.setCore c).mem = s.mem := rfl
@[simp] theorem setCore_poison (s : State) (c : Core) : (s.setCore c).poison = s.poison := rfl
@[simp] theorem setCore_gens (s : State) (c : Core) : (s.setCore c).gens = s.gens := rfl
@[simp] theorem setCore_zeroed (s : State) (c : Core) : (s.setCore c).zeroed = s.zeroed := rfl
@[simp] theorem setCore_verTags (s : State) (c : Core) : (s.setCore c).verTags = s.verTags := rfl
@[simp] theorem setCore_flips (s : State) (c : Core) : (s.setCore c).flips = s.flips := rfl
@[simp] theorem setCore_verFlips (s : State) (c : Core) : (s.setCore c).verFlips = s.verFlips := rfl
@[simp] theorem setCore_hostMem (s : State) (c : Core) : (s.setCore c).hostMem = s.hostMem := rfl
@[simp] theorem setCore_peerMem (s : State) (c : Core) : (s.setCore c).peerMem = s.peerMem := rfl
@[simp] theorem setCore_planeMap (s : State) (c : Core) : (s.setCore c).planeMap = s.planeMap := rfl
@[simp] theorem setCore_rehash (s : State) (c : Core) : (s.setCore c).rehash = s.rehash := rfl
@[simp] theorem setCore_deadPlanes (s : State) (c : Core) : (s.setCore c).deadPlanes = s.deadPlanes := rfl
@[simp] theorem setCore_dying (s : State) (c : Core) : (s.setCore c).dying = s.dying := rfl
@[simp] theorem setCore_features (s : State) (c : Core) : (s.setCore c).features = s.features := rfl
@[simp] theorem setCore_negotiated (s : State) (c : Core) : (s.setCore c).negotiated = s.negotiated := rfl
@[simp] theorem setCore_power (s : State) (c : Core) : (s.setCore c).power = s.power := rfl
@[simp] theorem setCore_tripped (s : State) (c : Core) : (s.setCore c).tripped = s.tripped := rfl
@[simp] theorem setCore_firmware (s : State) (c : Core) : (s.setCore c).firmware = s.firmware := rfl
@[simp] theorem setCore_contexts (s : State) (c : Core) : (s.setCore c).contexts = s.contexts := rfl
@[simp] theorem setCore_queues (s : State) (c : Core) : (s.setCore c).queues = s.queues := rfl
@[simp] theorem setCore_roundRobin (s : State) (c : Core) : (s.setCore c).roundRobin = s.roundRobin := rfl
@[simp] theorem setCore_launches (s : State) (c : Core) : (s.setCore c).launches = s.launches := rfl
@[simp] theorem setCore_kernels (s : State) (c : Core) : (s.setCore c).kernels = s.kernels := rfl
@[simp] theorem setCore_takenSeq (s : State) (c : Core) : (s.setCore c).takenSeq = s.takenSeq := rfl
@[simp] theorem setCore_bands (s : State) (c : Core) : (s.setCore c).bands = s.bands := rfl
@[simp] theorem setCore_placed (s : State) (c : Core) : (s.setCore c).placed = s.placed := rfl
@[simp] theorem setCore_nextUid (s : State) (c : Core) : (s.setCore c).nextUid = s.nextUid := rfl
@[simp] theorem setCore_starveSeq (s : State) (c : Core) : (s.setCore c).starveSeq = s.starveSeq := rfl
@[simp] theorem setCore_dies (s : State) (c : Core) : (s.setCore c).dies = s.dies := rfl
@[simp] theorem setCore_ports (s : State) (c : Core) : (s.setCore c).ports = s.ports := rfl
@[simp] theorem setCore_homes (s : State) (c : Core) : (s.setCore c).homes = s.homes := rfl
@[simp] theorem setCore_controllers (s : State) (c : Core) : (s.setCore c).controllers = s.controllers := rfl
@[simp] theorem setCore_modules (s : State) (c : Core) : (s.setCore c).modules = s.modules := rfl
@[simp] theorem setCore_retained (s : State) (c : Core) : (s.setCore c).retained = s.retained := rfl
@[simp] theorem setCore_reqs (s : State) (c : Core) : (s.setCore c).reqs = s.reqs := rfl
@[simp] theorem setCore_parks (s : State) (c : Core) : (s.setCore c).parks = s.parks := rfl
@[simp] theorem setCore_mgmtBudget (s : State) (c : Core) : (s.setCore c).mgmtBudget = s.mgmtBudget := rfl
@[simp] theorem setCore_mgmtUsed (s : State) (c : Core) : (s.setCore c).mgmtUsed = s.mgmtUsed := rfl
@[simp] theorem setCore_commands (s : State) (c : Core) : (s.setCore c).commands = s.commands := rfl
@[simp] theorem setCore_outbox (s : State) (c : Core) : (s.setCore c).outbox = s.outbox := rfl
@[simp] theorem setCore_replies (s : State) (c : Core) : (s.setCore c).replies = s.replies := rfl
@[simp] theorem setCore_attested (s : State) (c : Core) : (s.setCore c).attested = s.attested := rfl
@[simp] theorem setCore_agenda (s : State) (c : Core) : (s.setCore c).agenda = s.agenda := rfl
@[simp] theorem setCore_issue (s : State) (c : Core) : (s.setCore c).issue = s.issue := rfl
@[simp] theorem setCore_turn (s : State) (c : Core) : (s.setCore c).turn = s.turn := rfl
@[simp] theorem setCore_slow (s : State) (c : Core) : (s.setCore c).slow = s.slow := rfl
@[simp] theorem setCore_free (s : State) (c : Core) : (s.setCore c).free = s.free := rfl
@[simp] theorem setCore_upsets (s : State) (c : Core) : (s.setCore c).upsets = s.upsets := rfl
@[simp] theorem setCore_codeOld (s : State) (c : Core) : (s.setCore c).codeOld = s.codeOld := rfl
@[simp] theorem setCore_mgmtCycle (s : State) (c : Core) : (s.setCore c).mgmtCycle = s.mgmtCycle := rfl
@[simp] theorem setCore_mgmtPeriod (s : State) (c : Core) : (s.setCore c).mgmtPeriod = s.mgmtPeriod := rfl
@[simp] theorem setCore_fabric (s : State) (c : Core) : (s.setCore c).fabric = s.fabric := rfl
@[simp] theorem setCore_linkFails (s : State) (c : Core) : (s.setCore c).linkFails = s.linkFails := rfl
@[simp] theorem setCore_peerPhases (s : State) (c : Core) : (s.setCore c).peerPhases = s.peerPhases := rfl
@[simp] theorem setCore_disagree (s : State) (c : Core) : (s.setCore c).disagree = s.disagree := rfl

/-! ### State.modCore -/

@[simp] theorem modCore_mem (s : State) (n : Nat) (f : Core → Core) : (s.modCore n f).mem = s.mem := rfl
@[simp] theorem modCore_poison (s : State) (n : Nat) (f : Core → Core) : (s.modCore n f).poison = s.poison := rfl
@[simp] theorem modCore_gens (s : State) (n : Nat) (f : Core → Core) : (s.modCore n f).gens = s.gens := rfl
@[simp] theorem modCore_zeroed (s : State) (n : Nat) (f : Core → Core) : (s.modCore n f).zeroed = s.zeroed := rfl
@[simp] theorem modCore_verTags (s : State) (n : Nat) (f : Core → Core) : (s.modCore n f).verTags = s.verTags := rfl
@[simp] theorem modCore_flips (s : State) (n : Nat) (f : Core → Core) : (s.modCore n f).flips = s.flips := rfl
@[simp] theorem modCore_verFlips (s : State) (n : Nat) (f : Core → Core) : (s.modCore n f).verFlips = s.verFlips := rfl
@[simp] theorem modCore_hostMem (s : State) (n : Nat) (f : Core → Core) : (s.modCore n f).hostMem = s.hostMem := rfl
@[simp] theorem modCore_peerMem (s : State) (n : Nat) (f : Core → Core) : (s.modCore n f).peerMem = s.peerMem := rfl
@[simp] theorem modCore_planeMap (s : State) (n : Nat) (f : Core → Core) : (s.modCore n f).planeMap = s.planeMap := rfl
@[simp] theorem modCore_rehash (s : State) (n : Nat) (f : Core → Core) : (s.modCore n f).rehash = s.rehash := rfl
@[simp] theorem modCore_deadPlanes (s : State) (n : Nat) (f : Core → Core) :
    (s.modCore n f).deadPlanes = s.deadPlanes := rfl
@[simp] theorem modCore_dying (s : State) (n : Nat) (f : Core → Core) : (s.modCore n f).dying = s.dying := rfl
@[simp] theorem modCore_features (s : State) (n : Nat) (f : Core → Core) : (s.modCore n f).features = s.features := rfl
@[simp] theorem modCore_negotiated (s : State) (n : Nat) (f : Core → Core) :
    (s.modCore n f).negotiated = s.negotiated := rfl
@[simp] theorem modCore_power (s : State) (n : Nat) (f : Core → Core) : (s.modCore n f).power = s.power := rfl
@[simp] theorem modCore_tripped (s : State) (n : Nat) (f : Core → Core) : (s.modCore n f).tripped = s.tripped := rfl
@[simp] theorem modCore_firmware (s : State) (n : Nat) (f : Core → Core) : (s.modCore n f).firmware = s.firmware := rfl
@[simp] theorem modCore_contexts (s : State) (n : Nat) (f : Core → Core) : (s.modCore n f).contexts = s.contexts := rfl
@[simp] theorem modCore_queues (s : State) (n : Nat) (f : Core → Core) : (s.modCore n f).queues = s.queues := rfl
@[simp] theorem modCore_roundRobin (s : State) (n : Nat) (f : Core → Core) :
    (s.modCore n f).roundRobin = s.roundRobin := rfl
@[simp] theorem modCore_launches (s : State) (n : Nat) (f : Core → Core) : (s.modCore n f).launches = s.launches := rfl
@[simp] theorem modCore_kernels (s : State) (n : Nat) (f : Core → Core) : (s.modCore n f).kernels = s.kernels := rfl
@[simp] theorem modCore_takenSeq (s : State) (n : Nat) (f : Core → Core) : (s.modCore n f).takenSeq = s.takenSeq := rfl
@[simp] theorem modCore_bands (s : State) (n : Nat) (f : Core → Core) : (s.modCore n f).bands = s.bands := rfl
@[simp] theorem modCore_placed (s : State) (n : Nat) (f : Core → Core) : (s.modCore n f).placed = s.placed := rfl
@[simp] theorem modCore_nextUid (s : State) (n : Nat) (f : Core → Core) : (s.modCore n f).nextUid = s.nextUid := rfl
@[simp] theorem modCore_starveSeq (s : State) (n : Nat) (f : Core → Core) :
    (s.modCore n f).starveSeq = s.starveSeq := rfl
@[simp] theorem modCore_dies (s : State) (n : Nat) (f : Core → Core) : (s.modCore n f).dies = s.dies := rfl
@[simp] theorem modCore_ports (s : State) (n : Nat) (f : Core → Core) : (s.modCore n f).ports = s.ports := rfl
@[simp] theorem modCore_homes (s : State) (n : Nat) (f : Core → Core) : (s.modCore n f).homes = s.homes := rfl
@[simp] theorem modCore_controllers (s : State) (n : Nat) (f : Core → Core) :
    (s.modCore n f).controllers = s.controllers := rfl
@[simp] theorem modCore_modules (s : State) (n : Nat) (f : Core → Core) : (s.modCore n f).modules = s.modules := rfl
@[simp] theorem modCore_retained (s : State) (n : Nat) (f : Core → Core) : (s.modCore n f).retained = s.retained := rfl
@[simp] theorem modCore_reqs (s : State) (n : Nat) (f : Core → Core) : (s.modCore n f).reqs = s.reqs := rfl
@[simp] theorem modCore_parks (s : State) (n : Nat) (f : Core → Core) : (s.modCore n f).parks = s.parks := rfl
@[simp] theorem modCore_mgmtBudget (s : State) (n : Nat) (f : Core → Core) :
    (s.modCore n f).mgmtBudget = s.mgmtBudget := rfl
@[simp] theorem modCore_mgmtUsed (s : State) (n : Nat) (f : Core → Core) : (s.modCore n f).mgmtUsed = s.mgmtUsed := rfl
@[simp] theorem modCore_commands (s : State) (n : Nat) (f : Core → Core) : (s.modCore n f).commands = s.commands := rfl
@[simp] theorem modCore_outbox (s : State) (n : Nat) (f : Core → Core) : (s.modCore n f).outbox = s.outbox := rfl
@[simp] theorem modCore_replies (s : State) (n : Nat) (f : Core → Core) : (s.modCore n f).replies = s.replies := rfl
@[simp] theorem modCore_attested (s : State) (n : Nat) (f : Core → Core) : (s.modCore n f).attested = s.attested := rfl
@[simp] theorem modCore_agenda (s : State) (n : Nat) (f : Core → Core) : (s.modCore n f).agenda = s.agenda := rfl
@[simp] theorem modCore_issue (s : State) (n : Nat) (f : Core → Core) : (s.modCore n f).issue = s.issue := rfl
@[simp] theorem modCore_turn (s : State) (n : Nat) (f : Core → Core) : (s.modCore n f).turn = s.turn := rfl
@[simp] theorem modCore_slow (s : State) (n : Nat) (f : Core → Core) : (s.modCore n f).slow = s.slow := rfl
@[simp] theorem modCore_free (s : State) (n : Nat) (f : Core → Core) : (s.modCore n f).free = s.free := rfl
@[simp] theorem modCore_upsets (s : State) (n : Nat) (f : Core → Core) : (s.modCore n f).upsets = s.upsets := rfl
@[simp] theorem modCore_codeOld (s : State) (n : Nat) (f : Core → Core) : (s.modCore n f).codeOld = s.codeOld := rfl
@[simp] theorem modCore_mgmtCycle (s : State) (n : Nat) (f : Core → Core) :
    (s.modCore n f).mgmtCycle = s.mgmtCycle := rfl
@[simp] theorem modCore_mgmtPeriod (s : State) (n : Nat) (f : Core → Core) :
    (s.modCore n f).mgmtPeriod = s.mgmtPeriod := rfl
@[simp] theorem modCore_fabric (s : State) (n : Nat) (f : Core → Core) : (s.modCore n f).fabric = s.fabric := rfl
@[simp] theorem modCore_linkFails (s : State) (n : Nat) (f : Core → Core) :
    (s.modCore n f).linkFails = s.linkFails := rfl
@[simp] theorem modCore_peerPhases (s : State) (n : Nat) (f : Core → Core) :
    (s.modCore n f).peerPhases = s.peerPhases := rfl
@[simp] theorem modCore_disagree (s : State) (n : Nat) (f : Core → Core) : (s.modCore n f).disagree = s.disagree := rfl

/-! ### State.setDie -/

@[simp] theorem setDie_mem (s : State) (d : Die) : (s.setDie d).mem = s.mem := rfl
@[simp] theorem setDie_poison (s : State) (d : Die) : (s.setDie d).poison = s.poison := rfl
@[simp] theorem setDie_gens (s : State) (d : Die) : (s.setDie d).gens = s.gens := rfl
@[simp] theorem setDie_zeroed (s : State) (d : Die) : (s.setDie d).zeroed = s.zeroed := rfl
@[simp] theorem setDie_verTags (s : State) (d : Die) : (s.setDie d).verTags = s.verTags := rfl
@[simp] theorem setDie_flips (s : State) (d : Die) : (s.setDie d).flips = s.flips := rfl
@[simp] theorem setDie_verFlips (s : State) (d : Die) : (s.setDie d).verFlips = s.verFlips := rfl
@[simp] theorem setDie_hostMem (s : State) (d : Die) : (s.setDie d).hostMem = s.hostMem := rfl
@[simp] theorem setDie_peerMem (s : State) (d : Die) : (s.setDie d).peerMem = s.peerMem := rfl
@[simp] theorem setDie_planeMap (s : State) (d : Die) : (s.setDie d).planeMap = s.planeMap := rfl
@[simp] theorem setDie_rehash (s : State) (d : Die) : (s.setDie d).rehash = s.rehash := rfl
@[simp] theorem setDie_deadPlanes (s : State) (d : Die) : (s.setDie d).deadPlanes = s.deadPlanes := rfl
@[simp] theorem setDie_dying (s : State) (d : Die) : (s.setDie d).dying = s.dying := rfl
@[simp] theorem setDie_features (s : State) (d : Die) : (s.setDie d).features = s.features := rfl
@[simp] theorem setDie_negotiated (s : State) (d : Die) : (s.setDie d).negotiated = s.negotiated := rfl
@[simp] theorem setDie_power (s : State) (d : Die) : (s.setDie d).power = s.power := rfl
@[simp] theorem setDie_tripped (s : State) (d : Die) : (s.setDie d).tripped = s.tripped := rfl
@[simp] theorem setDie_firmware (s : State) (d : Die) : (s.setDie d).firmware = s.firmware := rfl
@[simp] theorem setDie_contexts (s : State) (d : Die) : (s.setDie d).contexts = s.contexts := rfl
@[simp] theorem setDie_queues (s : State) (d : Die) : (s.setDie d).queues = s.queues := rfl
@[simp] theorem setDie_roundRobin (s : State) (d : Die) : (s.setDie d).roundRobin = s.roundRobin := rfl
@[simp] theorem setDie_launches (s : State) (d : Die) : (s.setDie d).launches = s.launches := rfl
@[simp] theorem setDie_kernels (s : State) (d : Die) : (s.setDie d).kernels = s.kernels := rfl
@[simp] theorem setDie_takenSeq (s : State) (d : Die) : (s.setDie d).takenSeq = s.takenSeq := rfl
@[simp] theorem setDie_bands (s : State) (d : Die) : (s.setDie d).bands = s.bands := rfl
@[simp] theorem setDie_placed (s : State) (d : Die) : (s.setDie d).placed = s.placed := rfl
@[simp] theorem setDie_nextUid (s : State) (d : Die) : (s.setDie d).nextUid = s.nextUid := rfl
@[simp] theorem setDie_starveSeq (s : State) (d : Die) : (s.setDie d).starveSeq = s.starveSeq := rfl
@[simp] theorem setDie_cores (s : State) (d : Die) : (s.setDie d).cores = s.cores := rfl
@[simp] theorem setDie_ports (s : State) (d : Die) : (s.setDie d).ports = s.ports := rfl
@[simp] theorem setDie_homes (s : State) (d : Die) : (s.setDie d).homes = s.homes := rfl
@[simp] theorem setDie_controllers (s : State) (d : Die) : (s.setDie d).controllers = s.controllers := rfl
@[simp] theorem setDie_modules (s : State) (d : Die) : (s.setDie d).modules = s.modules := rfl
@[simp] theorem setDie_retained (s : State) (d : Die) : (s.setDie d).retained = s.retained := rfl
@[simp] theorem setDie_reqs (s : State) (d : Die) : (s.setDie d).reqs = s.reqs := rfl
@[simp] theorem setDie_parks (s : State) (d : Die) : (s.setDie d).parks = s.parks := rfl
@[simp] theorem setDie_mgmtBudget (s : State) (d : Die) : (s.setDie d).mgmtBudget = s.mgmtBudget := rfl
@[simp] theorem setDie_mgmtUsed (s : State) (d : Die) : (s.setDie d).mgmtUsed = s.mgmtUsed := rfl
@[simp] theorem setDie_commands (s : State) (d : Die) : (s.setDie d).commands = s.commands := rfl
@[simp] theorem setDie_outbox (s : State) (d : Die) : (s.setDie d).outbox = s.outbox := rfl
@[simp] theorem setDie_replies (s : State) (d : Die) : (s.setDie d).replies = s.replies := rfl
@[simp] theorem setDie_attested (s : State) (d : Die) : (s.setDie d).attested = s.attested := rfl
@[simp] theorem setDie_agenda (s : State) (d : Die) : (s.setDie d).agenda = s.agenda := rfl
@[simp] theorem setDie_issue (s : State) (d : Die) : (s.setDie d).issue = s.issue := rfl
@[simp] theorem setDie_turn (s : State) (d : Die) : (s.setDie d).turn = s.turn := rfl
@[simp] theorem setDie_slow (s : State) (d : Die) : (s.setDie d).slow = s.slow := rfl
@[simp] theorem setDie_free (s : State) (d : Die) : (s.setDie d).free = s.free := rfl
@[simp] theorem setDie_upsets (s : State) (d : Die) : (s.setDie d).upsets = s.upsets := rfl
@[simp] theorem setDie_codeOld (s : State) (d : Die) : (s.setDie d).codeOld = s.codeOld := rfl
@[simp] theorem setDie_mgmtCycle (s : State) (d : Die) : (s.setDie d).mgmtCycle = s.mgmtCycle := rfl
@[simp] theorem setDie_mgmtPeriod (s : State) (d : Die) : (s.setDie d).mgmtPeriod = s.mgmtPeriod := rfl
@[simp] theorem setDie_fabric (s : State) (d : Die) : (s.setDie d).fabric = s.fabric := rfl
@[simp] theorem setDie_linkFails (s : State) (d : Die) : (s.setDie d).linkFails = s.linkFails := rfl
@[simp] theorem setDie_peerPhases (s : State) (d : Die) : (s.setDie d).peerPhases = s.peerPhases := rfl
@[simp] theorem setDie_disagree (s : State) (d : Die) : (s.setDie d).disagree = s.disagree := rfl

/-! ### State.modHome -/

@[simp] theorem modHome_mem (s : State) (n : Nat) (f : Home → Home) : (s.modHome n f).mem = s.mem := rfl
@[simp] theorem modHome_poison (s : State) (n : Nat) (f : Home → Home) : (s.modHome n f).poison = s.poison := rfl
@[simp] theorem modHome_gens (s : State) (n : Nat) (f : Home → Home) : (s.modHome n f).gens = s.gens := rfl
@[simp] theorem modHome_zeroed (s : State) (n : Nat) (f : Home → Home) : (s.modHome n f).zeroed = s.zeroed := rfl
@[simp] theorem modHome_verTags (s : State) (n : Nat) (f : Home → Home) : (s.modHome n f).verTags = s.verTags := rfl
@[simp] theorem modHome_flips (s : State) (n : Nat) (f : Home → Home) : (s.modHome n f).flips = s.flips := rfl
@[simp] theorem modHome_verFlips (s : State) (n : Nat) (f : Home → Home) : (s.modHome n f).verFlips = s.verFlips := rfl
@[simp] theorem modHome_hostMem (s : State) (n : Nat) (f : Home → Home) : (s.modHome n f).hostMem = s.hostMem := rfl
@[simp] theorem modHome_peerMem (s : State) (n : Nat) (f : Home → Home) : (s.modHome n f).peerMem = s.peerMem := rfl
@[simp] theorem modHome_planeMap (s : State) (n : Nat) (f : Home → Home) : (s.modHome n f).planeMap = s.planeMap := rfl
@[simp] theorem modHome_rehash (s : State) (n : Nat) (f : Home → Home) : (s.modHome n f).rehash = s.rehash := rfl
@[simp] theorem modHome_deadPlanes (s : State) (n : Nat) (f : Home → Home) :
    (s.modHome n f).deadPlanes = s.deadPlanes := rfl
@[simp] theorem modHome_dying (s : State) (n : Nat) (f : Home → Home) : (s.modHome n f).dying = s.dying := rfl
@[simp] theorem modHome_features (s : State) (n : Nat) (f : Home → Home) : (s.modHome n f).features = s.features := rfl
@[simp] theorem modHome_negotiated (s : State) (n : Nat) (f : Home → Home) :
    (s.modHome n f).negotiated = s.negotiated := rfl
@[simp] theorem modHome_power (s : State) (n : Nat) (f : Home → Home) : (s.modHome n f).power = s.power := rfl
@[simp] theorem modHome_tripped (s : State) (n : Nat) (f : Home → Home) : (s.modHome n f).tripped = s.tripped := rfl
@[simp] theorem modHome_firmware (s : State) (n : Nat) (f : Home → Home) : (s.modHome n f).firmware = s.firmware := rfl
@[simp] theorem modHome_contexts (s : State) (n : Nat) (f : Home → Home) : (s.modHome n f).contexts = s.contexts := rfl
@[simp] theorem modHome_queues (s : State) (n : Nat) (f : Home → Home) : (s.modHome n f).queues = s.queues := rfl
@[simp] theorem modHome_roundRobin (s : State) (n : Nat) (f : Home → Home) :
    (s.modHome n f).roundRobin = s.roundRobin := rfl
@[simp] theorem modHome_launches (s : State) (n : Nat) (f : Home → Home) : (s.modHome n f).launches = s.launches := rfl
@[simp] theorem modHome_kernels (s : State) (n : Nat) (f : Home → Home) : (s.modHome n f).kernels = s.kernels := rfl
@[simp] theorem modHome_takenSeq (s : State) (n : Nat) (f : Home → Home) : (s.modHome n f).takenSeq = s.takenSeq := rfl
@[simp] theorem modHome_bands (s : State) (n : Nat) (f : Home → Home) : (s.modHome n f).bands = s.bands := rfl
@[simp] theorem modHome_placed (s : State) (n : Nat) (f : Home → Home) : (s.modHome n f).placed = s.placed := rfl
@[simp] theorem modHome_nextUid (s : State) (n : Nat) (f : Home → Home) : (s.modHome n f).nextUid = s.nextUid := rfl
@[simp] theorem modHome_starveSeq (s : State) (n : Nat) (f : Home → Home) :
    (s.modHome n f).starveSeq = s.starveSeq := rfl
@[simp] theorem modHome_cores (s : State) (n : Nat) (f : Home → Home) : (s.modHome n f).cores = s.cores := rfl
@[simp] theorem modHome_dies (s : State) (n : Nat) (f : Home → Home) : (s.modHome n f).dies = s.dies := rfl
@[simp] theorem modHome_ports (s : State) (n : Nat) (f : Home → Home) : (s.modHome n f).ports = s.ports := rfl
@[simp] theorem modHome_controllers (s : State) (n : Nat) (f : Home → Home) :
    (s.modHome n f).controllers = s.controllers := rfl
@[simp] theorem modHome_modules (s : State) (n : Nat) (f : Home → Home) : (s.modHome n f).modules = s.modules := rfl
@[simp] theorem modHome_retained (s : State) (n : Nat) (f : Home → Home) : (s.modHome n f).retained = s.retained := rfl
@[simp] theorem modHome_reqs (s : State) (n : Nat) (f : Home → Home) : (s.modHome n f).reqs = s.reqs := rfl
@[simp] theorem modHome_parks (s : State) (n : Nat) (f : Home → Home) : (s.modHome n f).parks = s.parks := rfl
@[simp] theorem modHome_mgmtBudget (s : State) (n : Nat) (f : Home → Home) :
    (s.modHome n f).mgmtBudget = s.mgmtBudget := rfl
@[simp] theorem modHome_mgmtUsed (s : State) (n : Nat) (f : Home → Home) : (s.modHome n f).mgmtUsed = s.mgmtUsed := rfl
@[simp] theorem modHome_commands (s : State) (n : Nat) (f : Home → Home) : (s.modHome n f).commands = s.commands := rfl
@[simp] theorem modHome_outbox (s : State) (n : Nat) (f : Home → Home) : (s.modHome n f).outbox = s.outbox := rfl
@[simp] theorem modHome_replies (s : State) (n : Nat) (f : Home → Home) : (s.modHome n f).replies = s.replies := rfl
@[simp] theorem modHome_attested (s : State) (n : Nat) (f : Home → Home) : (s.modHome n f).attested = s.attested := rfl
@[simp] theorem modHome_agenda (s : State) (n : Nat) (f : Home → Home) : (s.modHome n f).agenda = s.agenda := rfl
@[simp] theorem modHome_issue (s : State) (n : Nat) (f : Home → Home) : (s.modHome n f).issue = s.issue := rfl
@[simp] theorem modHome_turn (s : State) (n : Nat) (f : Home → Home) : (s.modHome n f).turn = s.turn := rfl
@[simp] theorem modHome_slow (s : State) (n : Nat) (f : Home → Home) : (s.modHome n f).slow = s.slow := rfl
@[simp] theorem modHome_free (s : State) (n : Nat) (f : Home → Home) : (s.modHome n f).free = s.free := rfl
@[simp] theorem modHome_upsets (s : State) (n : Nat) (f : Home → Home) : (s.modHome n f).upsets = s.upsets := rfl
@[simp] theorem modHome_codeOld (s : State) (n : Nat) (f : Home → Home) : (s.modHome n f).codeOld = s.codeOld := rfl
@[simp] theorem modHome_mgmtCycle (s : State) (n : Nat) (f : Home → Home) :
    (s.modHome n f).mgmtCycle = s.mgmtCycle := rfl
@[simp] theorem modHome_mgmtPeriod (s : State) (n : Nat) (f : Home → Home) :
    (s.modHome n f).mgmtPeriod = s.mgmtPeriod := rfl
@[simp] theorem modHome_fabric (s : State) (n : Nat) (f : Home → Home) : (s.modHome n f).fabric = s.fabric := rfl
@[simp] theorem modHome_linkFails (s : State) (n : Nat) (f : Home → Home) :
    (s.modHome n f).linkFails = s.linkFails := rfl
@[simp] theorem modHome_peerPhases (s : State) (n : Nat) (f : Home → Home) :
    (s.modHome n f).peerPhases = s.peerPhases := rfl
@[simp] theorem modHome_disagree (s : State) (n : Nat) (f : Home → Home) : (s.modHome n f).disagree = s.disagree := rfl

/-! ### State.modController -/

@[simp] theorem modController_mem (s : State) (n : Nat) (f : Controller → Controller) :
    (s.modController n f).mem = s.mem := rfl
@[simp] theorem modController_poison (s : State) (n : Nat) (f : Controller → Controller) :
    (s.modController n f).poison = s.poison := rfl
@[simp] theorem modController_gens (s : State) (n : Nat) (f : Controller → Controller) :
    (s.modController n f).gens = s.gens := rfl
@[simp] theorem modController_zeroed (s : State) (n : Nat) (f : Controller → Controller) :
    (s.modController n f).zeroed = s.zeroed := rfl
@[simp] theorem modController_verTags (s : State) (n : Nat) (f : Controller → Controller) :
    (s.modController n f).verTags = s.verTags := rfl
@[simp] theorem modController_flips (s : State) (n : Nat) (f : Controller → Controller) :
    (s.modController n f).flips = s.flips := rfl
@[simp] theorem modController_verFlips (s : State) (n : Nat) (f : Controller → Controller) :
    (s.modController n f).verFlips = s.verFlips := rfl
@[simp] theorem modController_hostMem (s : State) (n : Nat) (f : Controller → Controller) :
    (s.modController n f).hostMem = s.hostMem := rfl
@[simp] theorem modController_peerMem (s : State) (n : Nat) (f : Controller → Controller) :
    (s.modController n f).peerMem = s.peerMem := rfl
@[simp] theorem modController_planeMap (s : State) (n : Nat) (f : Controller → Controller) :
    (s.modController n f).planeMap = s.planeMap := rfl
@[simp] theorem modController_rehash (s : State) (n : Nat) (f : Controller → Controller) :
    (s.modController n f).rehash = s.rehash := rfl
@[simp] theorem modController_deadPlanes (s : State) (n : Nat) (f : Controller → Controller) :
    (s.modController n f).deadPlanes = s.deadPlanes := rfl
@[simp] theorem modController_dying (s : State) (n : Nat) (f : Controller → Controller) :
    (s.modController n f).dying = s.dying := rfl
@[simp] theorem modController_features (s : State) (n : Nat) (f : Controller → Controller) :
    (s.modController n f).features = s.features := rfl
@[simp] theorem modController_negotiated (s : State) (n : Nat) (f : Controller → Controller) :
    (s.modController n f).negotiated = s.negotiated := rfl
@[simp] theorem modController_power (s : State) (n : Nat) (f : Controller → Controller) :
    (s.modController n f).power = s.power := rfl
@[simp] theorem modController_tripped (s : State) (n : Nat) (f : Controller → Controller) :
    (s.modController n f).tripped = s.tripped := rfl
@[simp] theorem modController_firmware (s : State) (n : Nat) (f : Controller → Controller) :
    (s.modController n f).firmware = s.firmware := rfl
@[simp] theorem modController_contexts (s : State) (n : Nat) (f : Controller → Controller) :
    (s.modController n f).contexts = s.contexts := rfl
@[simp] theorem modController_queues (s : State) (n : Nat) (f : Controller → Controller) :
    (s.modController n f).queues = s.queues := rfl
@[simp] theorem modController_roundRobin (s : State) (n : Nat) (f : Controller → Controller) :
    (s.modController n f).roundRobin = s.roundRobin := rfl
@[simp] theorem modController_launches (s : State) (n : Nat) (f : Controller → Controller) :
    (s.modController n f).launches = s.launches := rfl
@[simp] theorem modController_kernels (s : State) (n : Nat) (f : Controller → Controller) :
    (s.modController n f).kernels = s.kernels := rfl
@[simp] theorem modController_takenSeq (s : State) (n : Nat) (f : Controller → Controller) :
    (s.modController n f).takenSeq = s.takenSeq := rfl
@[simp] theorem modController_bands (s : State) (n : Nat) (f : Controller → Controller) :
    (s.modController n f).bands = s.bands := rfl
@[simp] theorem modController_placed (s : State) (n : Nat) (f : Controller → Controller) :
    (s.modController n f).placed = s.placed := rfl
@[simp] theorem modController_nextUid (s : State) (n : Nat) (f : Controller → Controller) :
    (s.modController n f).nextUid = s.nextUid := rfl
@[simp] theorem modController_starveSeq (s : State) (n : Nat) (f : Controller → Controller) :
    (s.modController n f).starveSeq = s.starveSeq := rfl
@[simp] theorem modController_cores (s : State) (n : Nat) (f : Controller → Controller) :
    (s.modController n f).cores = s.cores := rfl
@[simp] theorem modController_dies (s : State) (n : Nat) (f : Controller → Controller) :
    (s.modController n f).dies = s.dies := rfl
@[simp] theorem modController_ports (s : State) (n : Nat) (f : Controller → Controller) :
    (s.modController n f).ports = s.ports := rfl
@[simp] theorem modController_homes (s : State) (n : Nat) (f : Controller → Controller) :
    (s.modController n f).homes = s.homes := rfl
@[simp] theorem modController_modules (s : State) (n : Nat) (f : Controller → Controller) :
    (s.modController n f).modules = s.modules := rfl
@[simp] theorem modController_retained (s : State) (n : Nat) (f : Controller → Controller) :
    (s.modController n f).retained = s.retained := rfl
@[simp] theorem modController_reqs (s : State) (n : Nat) (f : Controller → Controller) :
    (s.modController n f).reqs = s.reqs := rfl
@[simp] theorem modController_parks (s : State) (n : Nat) (f : Controller → Controller) :
    (s.modController n f).parks = s.parks := rfl
@[simp] theorem modController_mgmtBudget (s : State) (n : Nat) (f : Controller → Controller) :
    (s.modController n f).mgmtBudget = s.mgmtBudget := rfl
@[simp] theorem modController_mgmtUsed (s : State) (n : Nat) (f : Controller → Controller) :
    (s.modController n f).mgmtUsed = s.mgmtUsed := rfl
@[simp] theorem modController_commands (s : State) (n : Nat) (f : Controller → Controller) :
    (s.modController n f).commands = s.commands := rfl
@[simp] theorem modController_outbox (s : State) (n : Nat) (f : Controller → Controller) :
    (s.modController n f).outbox = s.outbox := rfl
@[simp] theorem modController_replies (s : State) (n : Nat) (f : Controller → Controller) :
    (s.modController n f).replies = s.replies := rfl
@[simp] theorem modController_attested (s : State) (n : Nat) (f : Controller → Controller) :
    (s.modController n f).attested = s.attested := rfl
@[simp] theorem modController_agenda (s : State) (n : Nat) (f : Controller → Controller) :
    (s.modController n f).agenda = s.agenda := rfl
@[simp] theorem modController_issue (s : State) (n : Nat) (f : Controller → Controller) :
    (s.modController n f).issue = s.issue := rfl
@[simp] theorem modController_turn (s : State) (n : Nat) (f : Controller → Controller) :
    (s.modController n f).turn = s.turn := rfl
@[simp] theorem modController_slow (s : State) (n : Nat) (f : Controller → Controller) :
    (s.modController n f).slow = s.slow := rfl
@[simp] theorem modController_free (s : State) (n : Nat) (f : Controller → Controller) :
    (s.modController n f).free = s.free := rfl
@[simp] theorem modController_upsets (s : State) (n : Nat) (f : Controller → Controller) :
    (s.modController n f).upsets = s.upsets := rfl
@[simp] theorem modController_codeOld (s : State) (n : Nat) (f : Controller → Controller) :
    (s.modController n f).codeOld = s.codeOld := rfl
@[simp] theorem modController_mgmtCycle (s : State) (n : Nat) (f : Controller → Controller) :
    (s.modController n f).mgmtCycle = s.mgmtCycle := rfl
@[simp] theorem modController_mgmtPeriod (s : State) (n : Nat) (f : Controller → Controller) :
    (s.modController n f).mgmtPeriod = s.mgmtPeriod := rfl
@[simp] theorem modController_fabric (s : State) (n : Nat) (f : Controller → Controller) :
    (s.modController n f).fabric = s.fabric := rfl
@[simp] theorem modController_linkFails (s : State) (n : Nat) (f : Controller → Controller) :
    (s.modController n f).linkFails = s.linkFails := rfl
@[simp] theorem modController_peerPhases (s : State) (n : Nat) (f : Controller → Controller) :
    (s.modController n f).peerPhases = s.peerPhases := rfl
@[simp] theorem modController_disagree (s : State) (n : Nat) (f : Controller → Controller) :
    (s.modController n f).disagree = s.disagree := rfl

/-! ### State.modUci -/

@[simp] theorem modUci_mem (s : State) (n : Nat) (f : UciModule → UciModule) : (s.modUci n f).mem = s.mem := rfl
@[simp] theorem modUci_poison (s : State) (n : Nat) (f : UciModule → UciModule) :
    (s.modUci n f).poison = s.poison := rfl
@[simp] theorem modUci_gens (s : State) (n : Nat) (f : UciModule → UciModule) : (s.modUci n f).gens = s.gens := rfl
@[simp] theorem modUci_zeroed (s : State) (n : Nat) (f : UciModule → UciModule) :
    (s.modUci n f).zeroed = s.zeroed := rfl
@[simp] theorem modUci_verTags (s : State) (n : Nat) (f : UciModule → UciModule) :
    (s.modUci n f).verTags = s.verTags := rfl
@[simp] theorem modUci_flips (s : State) (n : Nat) (f : UciModule → UciModule) : (s.modUci n f).flips = s.flips := rfl
@[simp] theorem modUci_verFlips (s : State) (n : Nat) (f : UciModule → UciModule) :
    (s.modUci n f).verFlips = s.verFlips := rfl
@[simp] theorem modUci_hostMem (s : State) (n : Nat) (f : UciModule → UciModule) :
    (s.modUci n f).hostMem = s.hostMem := rfl
@[simp] theorem modUci_peerMem (s : State) (n : Nat) (f : UciModule → UciModule) :
    (s.modUci n f).peerMem = s.peerMem := rfl
@[simp] theorem modUci_planeMap (s : State) (n : Nat) (f : UciModule → UciModule) :
    (s.modUci n f).planeMap = s.planeMap := rfl
@[simp] theorem modUci_rehash (s : State) (n : Nat) (f : UciModule → UciModule) :
    (s.modUci n f).rehash = s.rehash := rfl
@[simp] theorem modUci_deadPlanes (s : State) (n : Nat) (f : UciModule → UciModule) :
    (s.modUci n f).deadPlanes = s.deadPlanes := rfl
@[simp] theorem modUci_dying (s : State) (n : Nat) (f : UciModule → UciModule) : (s.modUci n f).dying = s.dying := rfl
@[simp] theorem modUci_features (s : State) (n : Nat) (f : UciModule → UciModule) :
    (s.modUci n f).features = s.features := rfl
@[simp] theorem modUci_negotiated (s : State) (n : Nat) (f : UciModule → UciModule) :
    (s.modUci n f).negotiated = s.negotiated := rfl
@[simp] theorem modUci_power (s : State) (n : Nat) (f : UciModule → UciModule) : (s.modUci n f).power = s.power := rfl
@[simp] theorem modUci_tripped (s : State) (n : Nat) (f : UciModule → UciModule) :
    (s.modUci n f).tripped = s.tripped := rfl
@[simp] theorem modUci_firmware (s : State) (n : Nat) (f : UciModule → UciModule) :
    (s.modUci n f).firmware = s.firmware := rfl
@[simp] theorem modUci_contexts (s : State) (n : Nat) (f : UciModule → UciModule) :
    (s.modUci n f).contexts = s.contexts := rfl
@[simp] theorem modUci_queues (s : State) (n : Nat) (f : UciModule → UciModule) :
    (s.modUci n f).queues = s.queues := rfl
@[simp] theorem modUci_roundRobin (s : State) (n : Nat) (f : UciModule → UciModule) :
    (s.modUci n f).roundRobin = s.roundRobin := rfl
@[simp] theorem modUci_launches (s : State) (n : Nat) (f : UciModule → UciModule) :
    (s.modUci n f).launches = s.launches := rfl
@[simp] theorem modUci_kernels (s : State) (n : Nat) (f : UciModule → UciModule) :
    (s.modUci n f).kernels = s.kernels := rfl
@[simp] theorem modUci_takenSeq (s : State) (n : Nat) (f : UciModule → UciModule) :
    (s.modUci n f).takenSeq = s.takenSeq := rfl
@[simp] theorem modUci_bands (s : State) (n : Nat) (f : UciModule → UciModule) : (s.modUci n f).bands = s.bands := rfl
@[simp] theorem modUci_placed (s : State) (n : Nat) (f : UciModule → UciModule) :
    (s.modUci n f).placed = s.placed := rfl
@[simp] theorem modUci_nextUid (s : State) (n : Nat) (f : UciModule → UciModule) :
    (s.modUci n f).nextUid = s.nextUid := rfl
@[simp] theorem modUci_starveSeq (s : State) (n : Nat) (f : UciModule → UciModule) :
    (s.modUci n f).starveSeq = s.starveSeq := rfl
@[simp] theorem modUci_cores (s : State) (n : Nat) (f : UciModule → UciModule) : (s.modUci n f).cores = s.cores := rfl
@[simp] theorem modUci_dies (s : State) (n : Nat) (f : UciModule → UciModule) : (s.modUci n f).dies = s.dies := rfl
@[simp] theorem modUci_ports (s : State) (n : Nat) (f : UciModule → UciModule) : (s.modUci n f).ports = s.ports := rfl
@[simp] theorem modUci_homes (s : State) (n : Nat) (f : UciModule → UciModule) : (s.modUci n f).homes = s.homes := rfl
@[simp] theorem modUci_controllers (s : State) (n : Nat) (f : UciModule → UciModule) :
    (s.modUci n f).controllers = s.controllers := rfl
@[simp] theorem modUci_retained (s : State) (n : Nat) (f : UciModule → UciModule) :
    (s.modUci n f).retained = s.retained := rfl
@[simp] theorem modUci_reqs (s : State) (n : Nat) (f : UciModule → UciModule) : (s.modUci n f).reqs = s.reqs := rfl
@[simp] theorem modUci_parks (s : State) (n : Nat) (f : UciModule → UciModule) : (s.modUci n f).parks = s.parks := rfl
@[simp] theorem modUci_mgmtBudget (s : State) (n : Nat) (f : UciModule → UciModule) :
    (s.modUci n f).mgmtBudget = s.mgmtBudget := rfl
@[simp] theorem modUci_mgmtUsed (s : State) (n : Nat) (f : UciModule → UciModule) :
    (s.modUci n f).mgmtUsed = s.mgmtUsed := rfl
@[simp] theorem modUci_commands (s : State) (n : Nat) (f : UciModule → UciModule) :
    (s.modUci n f).commands = s.commands := rfl
@[simp] theorem modUci_outbox (s : State) (n : Nat) (f : UciModule → UciModule) :
    (s.modUci n f).outbox = s.outbox := rfl
@[simp] theorem modUci_replies (s : State) (n : Nat) (f : UciModule → UciModule) :
    (s.modUci n f).replies = s.replies := rfl
@[simp] theorem modUci_attested (s : State) (n : Nat) (f : UciModule → UciModule) :
    (s.modUci n f).attested = s.attested := rfl
@[simp] theorem modUci_agenda (s : State) (n : Nat) (f : UciModule → UciModule) :
    (s.modUci n f).agenda = s.agenda := rfl
@[simp] theorem modUci_issue (s : State) (n : Nat) (f : UciModule → UciModule) : (s.modUci n f).issue = s.issue := rfl
@[simp] theorem modUci_turn (s : State) (n : Nat) (f : UciModule → UciModule) : (s.modUci n f).turn = s.turn := rfl
@[simp] theorem modUci_slow (s : State) (n : Nat) (f : UciModule → UciModule) : (s.modUci n f).slow = s.slow := rfl
@[simp] theorem modUci_free (s : State) (n : Nat) (f : UciModule → UciModule) : (s.modUci n f).free = s.free := rfl
@[simp] theorem modUci_upsets (s : State) (n : Nat) (f : UciModule → UciModule) :
    (s.modUci n f).upsets = s.upsets := rfl
@[simp] theorem modUci_codeOld (s : State) (n : Nat) (f : UciModule → UciModule) :
    (s.modUci n f).codeOld = s.codeOld := rfl
@[simp] theorem modUci_mgmtCycle (s : State) (n : Nat) (f : UciModule → UciModule) :
    (s.modUci n f).mgmtCycle = s.mgmtCycle := rfl
@[simp] theorem modUci_mgmtPeriod (s : State) (n : Nat) (f : UciModule → UciModule) :
    (s.modUci n f).mgmtPeriod = s.mgmtPeriod := rfl
@[simp] theorem modUci_fabric (s : State) (n : Nat) (f : UciModule → UciModule) :
    (s.modUci n f).fabric = s.fabric := rfl
@[simp] theorem modUci_linkFails (s : State) (n : Nat) (f : UciModule → UciModule) :
    (s.modUci n f).linkFails = s.linkFails := rfl
@[simp] theorem modUci_peerPhases (s : State) (n : Nat) (f : UciModule → UciModule) :
    (s.modUci n f).peerPhases = s.peerPhases := rfl
@[simp] theorem modUci_disagree (s : State) (n : Nat) (f : UciModule → UciModule) :
    (s.modUci n f).disagree = s.disagree := rfl

/-! ### State.modPort -/

@[simp] theorem modPort_mem (s : State) (n : Nat) (f : Port → Port) : (s.modPort n f).mem = s.mem := rfl
@[simp] theorem modPort_poison (s : State) (n : Nat) (f : Port → Port) : (s.modPort n f).poison = s.poison := rfl
@[simp] theorem modPort_gens (s : State) (n : Nat) (f : Port → Port) : (s.modPort n f).gens = s.gens := rfl
@[simp] theorem modPort_zeroed (s : State) (n : Nat) (f : Port → Port) : (s.modPort n f).zeroed = s.zeroed := rfl
@[simp] theorem modPort_verTags (s : State) (n : Nat) (f : Port → Port) : (s.modPort n f).verTags = s.verTags := rfl
@[simp] theorem modPort_flips (s : State) (n : Nat) (f : Port → Port) : (s.modPort n f).flips = s.flips := rfl
@[simp] theorem modPort_verFlips (s : State) (n : Nat) (f : Port → Port) : (s.modPort n f).verFlips = s.verFlips := rfl
@[simp] theorem modPort_hostMem (s : State) (n : Nat) (f : Port → Port) : (s.modPort n f).hostMem = s.hostMem := rfl
@[simp] theorem modPort_peerMem (s : State) (n : Nat) (f : Port → Port) : (s.modPort n f).peerMem = s.peerMem := rfl
@[simp] theorem modPort_planeMap (s : State) (n : Nat) (f : Port → Port) : (s.modPort n f).planeMap = s.planeMap := rfl
@[simp] theorem modPort_rehash (s : State) (n : Nat) (f : Port → Port) : (s.modPort n f).rehash = s.rehash := rfl
@[simp] theorem modPort_deadPlanes (s : State) (n : Nat) (f : Port → Port) :
    (s.modPort n f).deadPlanes = s.deadPlanes := rfl
@[simp] theorem modPort_dying (s : State) (n : Nat) (f : Port → Port) : (s.modPort n f).dying = s.dying := rfl
@[simp] theorem modPort_features (s : State) (n : Nat) (f : Port → Port) : (s.modPort n f).features = s.features := rfl
@[simp] theorem modPort_negotiated (s : State) (n : Nat) (f : Port → Port) :
    (s.modPort n f).negotiated = s.negotiated := rfl
@[simp] theorem modPort_power (s : State) (n : Nat) (f : Port → Port) : (s.modPort n f).power = s.power := rfl
@[simp] theorem modPort_tripped (s : State) (n : Nat) (f : Port → Port) : (s.modPort n f).tripped = s.tripped := rfl
@[simp] theorem modPort_firmware (s : State) (n : Nat) (f : Port → Port) : (s.modPort n f).firmware = s.firmware := rfl
@[simp] theorem modPort_contexts (s : State) (n : Nat) (f : Port → Port) : (s.modPort n f).contexts = s.contexts := rfl
@[simp] theorem modPort_queues (s : State) (n : Nat) (f : Port → Port) : (s.modPort n f).queues = s.queues := rfl
@[simp] theorem modPort_roundRobin (s : State) (n : Nat) (f : Port → Port) :
    (s.modPort n f).roundRobin = s.roundRobin := rfl
@[simp] theorem modPort_launches (s : State) (n : Nat) (f : Port → Port) : (s.modPort n f).launches = s.launches := rfl
@[simp] theorem modPort_kernels (s : State) (n : Nat) (f : Port → Port) : (s.modPort n f).kernels = s.kernels := rfl
@[simp] theorem modPort_takenSeq (s : State) (n : Nat) (f : Port → Port) : (s.modPort n f).takenSeq = s.takenSeq := rfl
@[simp] theorem modPort_bands (s : State) (n : Nat) (f : Port → Port) : (s.modPort n f).bands = s.bands := rfl
@[simp] theorem modPort_placed (s : State) (n : Nat) (f : Port → Port) : (s.modPort n f).placed = s.placed := rfl
@[simp] theorem modPort_nextUid (s : State) (n : Nat) (f : Port → Port) : (s.modPort n f).nextUid = s.nextUid := rfl
@[simp] theorem modPort_starveSeq (s : State) (n : Nat) (f : Port → Port) :
    (s.modPort n f).starveSeq = s.starveSeq := rfl
@[simp] theorem modPort_cores (s : State) (n : Nat) (f : Port → Port) : (s.modPort n f).cores = s.cores := rfl
@[simp] theorem modPort_dies (s : State) (n : Nat) (f : Port → Port) : (s.modPort n f).dies = s.dies := rfl
@[simp] theorem modPort_homes (s : State) (n : Nat) (f : Port → Port) : (s.modPort n f).homes = s.homes := rfl
@[simp] theorem modPort_controllers (s : State) (n : Nat) (f : Port → Port) :
    (s.modPort n f).controllers = s.controllers := rfl
@[simp] theorem modPort_modules (s : State) (n : Nat) (f : Port → Port) : (s.modPort n f).modules = s.modules := rfl
@[simp] theorem modPort_retained (s : State) (n : Nat) (f : Port → Port) : (s.modPort n f).retained = s.retained := rfl
@[simp] theorem modPort_reqs (s : State) (n : Nat) (f : Port → Port) : (s.modPort n f).reqs = s.reqs := rfl
@[simp] theorem modPort_parks (s : State) (n : Nat) (f : Port → Port) : (s.modPort n f).parks = s.parks := rfl
@[simp] theorem modPort_mgmtBudget (s : State) (n : Nat) (f : Port → Port) :
    (s.modPort n f).mgmtBudget = s.mgmtBudget := rfl
@[simp] theorem modPort_mgmtUsed (s : State) (n : Nat) (f : Port → Port) : (s.modPort n f).mgmtUsed = s.mgmtUsed := rfl
@[simp] theorem modPort_commands (s : State) (n : Nat) (f : Port → Port) : (s.modPort n f).commands = s.commands := rfl
@[simp] theorem modPort_outbox (s : State) (n : Nat) (f : Port → Port) : (s.modPort n f).outbox = s.outbox := rfl
@[simp] theorem modPort_replies (s : State) (n : Nat) (f : Port → Port) : (s.modPort n f).replies = s.replies := rfl
@[simp] theorem modPort_attested (s : State) (n : Nat) (f : Port → Port) : (s.modPort n f).attested = s.attested := rfl
@[simp] theorem modPort_agenda (s : State) (n : Nat) (f : Port → Port) : (s.modPort n f).agenda = s.agenda := rfl
@[simp] theorem modPort_issue (s : State) (n : Nat) (f : Port → Port) : (s.modPort n f).issue = s.issue := rfl
@[simp] theorem modPort_turn (s : State) (n : Nat) (f : Port → Port) : (s.modPort n f).turn = s.turn := rfl
@[simp] theorem modPort_slow (s : State) (n : Nat) (f : Port → Port) : (s.modPort n f).slow = s.slow := rfl
@[simp] theorem modPort_free (s : State) (n : Nat) (f : Port → Port) : (s.modPort n f).free = s.free := rfl
@[simp] theorem modPort_upsets (s : State) (n : Nat) (f : Port → Port) : (s.modPort n f).upsets = s.upsets := rfl
@[simp] theorem modPort_codeOld (s : State) (n : Nat) (f : Port → Port) : (s.modPort n f).codeOld = s.codeOld := rfl
@[simp] theorem modPort_mgmtCycle (s : State) (n : Nat) (f : Port → Port) :
    (s.modPort n f).mgmtCycle = s.mgmtCycle := rfl
@[simp] theorem modPort_mgmtPeriod (s : State) (n : Nat) (f : Port → Port) :
    (s.modPort n f).mgmtPeriod = s.mgmtPeriod := rfl
@[simp] theorem modPort_fabric (s : State) (n : Nat) (f : Port → Port) : (s.modPort n f).fabric = s.fabric := rfl
@[simp] theorem modPort_linkFails (s : State) (n : Nat) (f : Port → Port) :
    (s.modPort n f).linkFails = s.linkFails := rfl
@[simp] theorem modPort_peerPhases (s : State) (n : Nat) (f : Port → Port) :
    (s.modPort n f).peerPhases = s.peerPhases := rfl
@[simp] theorem modPort_disagree (s : State) (n : Nat) (f : Port → Port) : (s.modPort n f).disagree = s.disagree := rfl

end Sys2Proof.Machine
end

