-- ==== Sys2Proof/Laws/Memory.lean ====
section
/-! SUPPORT. Every operation that writes a memory keeps the canonical form of all of them. -/

namespace Sys2Proof.Machine

/-- The form depends on the three memories alone. -/
theorem MemoryForm.of_same {s t : State} (h : MemoryForm s) (h1 : t.mem = s.mem) (h2 : t.hostMem = s.hostMem)
    (h3 : t.peerMem = s.peerMem) : MemoryForm t := by
  unfold MemoryForm at *
  rw [h1, h2, h3]
  exact h

/-- A fold of steps that each keep the form keeps it. -/
theorem MemoryForm.foldl {α : Type} {f : State → α → State} (hf : ∀ s a, MemoryForm s → MemoryForm (f s a)) (l : List α)
    {s : State} (h : MemoryForm s) : MemoryForm (l.foldl f s) := by
  induction l generalizing s with
  | nil => exact h
  | cons a l ih => exact ih (hf s a h)

theorem MemoryForm.ite {p : Prop} [Decidable p] {s t : State} (h1 : MemoryForm s) (h2 : MemoryForm t) :
    MemoryForm (if p then s else t) := by split <;> assumption

theorem foldl_wf {α : Type} {f : List Host.Cell → α → List Host.Cell}
    (hf : ∀ m a, Memory.wf m = true → Memory.wf (f m a) = true) (l : List α) {m : List Host.Cell} (h : Memory.wf m = true) :
    Memory.wf (l.foldl f m) = true := by
  induction l generalizing m with
  | nil => exact h
  | cons a l ih => exact ih (hf m a h)

theorem MemoryForm.reset : MemoryForm State.reset := ⟨rfl, rfl, fun _ h => nomatch h⟩

/-! ### Base memory and versions -/

theorem MemoryForm.writeBase {s : State} (h : MemoryForm s) (ws : List (Nat × Int)) (single : Bool) :
    MemoryForm (writeBase s ws single) := ⟨foldl_memPutNonet_wf ws h.1, h.2⟩

theorem MemoryForm.poisonSector {s : State} (h : MemoryForm s) (sec : Nat) (origin : Bool) :
    MemoryForm (poisonSector s sec origin) := by
  unfold Machine.poisonSector
  split
  · exact h
  · cases origin <;> exact h.of_same rfl rfl rfl

/-- A fold over records of a part of the state that is not a memory keeps the form. -/
theorem MemoryForm.foldl_same {α : Type} {f : State → α → State}
    (hf : ∀ s a, (f s a).mem = s.mem ∧ (f s a).hostMem = s.hostMem ∧ (f s a).peerMem = s.peerMem) (l : List α)
    {s : State} (h : MemoryForm s) : MemoryForm (l.foldl f s) :=
  MemoryForm.foldl (fun s a hs => hs.of_same (hf s a).1 (hf s a).2.1 (hf s a).2.2) l h

theorem MemoryForm.poisonAfter {s : State} (h : MemoryForm s) (ws : List (Nat × Int)) (secs : List Nat) (origin : Bool) :
    MemoryForm (poisonAfter s ws secs origin) := by
  unfold Machine.poisonAfter
  refine MemoryForm.foldl (fun _ _ hs => hs.poisonSector _ _) _ ?_
  exact h.of_same rfl rfl rfl

theorem MemoryForm.poisonBase {s : State} (h : MemoryForm s) (secs : List Nat) (origin : Bool) :
    MemoryForm (poisonBase s secs origin) := h.poisonAfter [] secs origin

theorem MemoryForm.correctVersionWord {s : State} (h : MemoryForm s) (uid k : Nat) :
    MemoryForm (correctVersionWord s uid k) := by
  unfold Machine.correctVersionWord
  dsimp only
  split
  · exact h
  · split
    · exact h.of_same rfl rfl rfl
    · split <;> exact h.of_same rfl rfl rfl

theorem MemoryForm.correctVersion {s : State} (h : MemoryForm s) (uid : Nat) : MemoryForm (correctVersion s uid) :=
  MemoryForm.foldl (fun _ _ hs => hs.correctVersionWord _ _) _ h

theorem MemoryForm.commitVersion {s : State} (h : MemoryForm s) (uid : Nat) (forced : Bool) :
    MemoryForm (commitVersion s uid forced) := by
  have hc := h.correctVersion uid
  unfold Machine.commitVersion
  generalize Machine.correctVersion s uid = s at hc ⊢
  dsimp only
  split
  · exact hc
  · rename_i b _
    have h0 : MemoryForm (s.modBand uid fun b => { b with version := [], verPoison := [], verClean := [], committed := true }) :=
      hc.of_same rfl rfl rfl
    generalize (s.modBand uid fun b => { b with version := [], verPoison := [], verClean := [], committed := true }) = s0 at h0 ⊢
    have h1 : MemoryForm (if b.version.isEmpty then s0
        else Machine.writeBase s0 (b.version.reverse.map fun w => (w.1, w.2.toInt)) false) := by
      split
      · exact h0
      · exact h0.writeBase _ _
    generalize (if b.version.isEmpty then s0
        else Machine.writeBase s0 (b.version.reverse.map fun w => (w.1, w.2.toInt)) false) = s1 at h1 ⊢
    split
    · split <;> exact h1.of_same rfl rfl rfl
    · exact h1.of_same rfl rfl rfl

theorem MemoryForm.forceForeign {s : State} (h : MemoryForm s) (self : Option Nat) (lines : List Nat) :
    MemoryForm (forceForeign s self lines) := MemoryForm.foldl (fun _ b hs => hs.commitVersion b.uid true) _ h

theorem MemoryForm.holdLine {s : State} (h : MemoryForm s) (uid line : Nat) (ws : List (Nat × Int)) (bad : List Nat)
    (single : Bool) : MemoryForm (holdLine s uid line ws bad single) := h.of_same rfl rfl rfl

theorem MemoryForm.writeLine {s : State} (h : MemoryForm s) (uid : Nat) (ws : List (Nat × Int)) (bad : List Nat)
    (single : Bool) (line : Nat) : MemoryForm (writeLine uid ws bad single s line) := by
  have h1 : ∀ p : Bool, MemoryForm (if p = true then Machine.commitVersion s uid true else s) :=
    fun p => MemoryForm.ite (h.commitVersion uid true) h
  unfold Machine.writeLine
  exact MemoryForm.ite (((h1 _).writeBase _ _).poisonAfter _ _ _) ((h1 _).holdLine _ _ _ _ _)

theorem MemoryForm.writeVersion {s : State} (h : MemoryForm s) (uid : Nat) (ws : List (Nat × Int)) (bad : List Nat)
    (single : Bool) : MemoryForm (writeVersion s uid ws bad single) :=
  MemoryForm.foldl (fun _ _ hs => hs.writeLine _ _ _ _ _) _ h

/-! ### Accesses of a band -/

theorem MemoryForm.correctWord {s : State} (h : MemoryForm s) (p : Place) : MemoryForm (correctWord s p) := by
  unfold Machine.correctWord
  dsimp only
  split
  · exact h
  · split
    · split
      · exact h.of_same rfl rfl rfl
      · refine MemoryForm.poisonSector ?_ _ _; exact h.of_same rfl rfl rfl
    · split
      · split
        · exact h.of_same rfl rfl rfl
        · split <;> exact h.of_same rfl rfl rfl
      · exact h.of_same rfl rfl rfl
    · exact h.of_same rfl rfl rfl

theorem MemoryForm.correctRead {s : State} (h : MemoryForm s) (owner : Option Band) (p : Place) :
    MemoryForm (correctRead owner s p) := by
  unfold Machine.correctRead
  split
  · exact MemoryForm.ite (h.correctVersionWord _ _) ((h.correctVersionWord _ _).correctWord _)
  · exact h.correctWord _

theorem MemoryForm.correctWords {s : State} (h : MemoryForm s) (owner : Option Band) (ps : List Place) :
    MemoryForm (correctWords s owner ps) := by
  unfold Machine.correctWords
  split
  · exact h
  · exact MemoryForm.foldl (fun _ _ hs => hs.correctRead _ _) _ h

theorem MemoryForm.openWords {s : State} (h : MemoryForm s) (js : List Nat) : MemoryForm (openWords s js) :=
  (h.forceForeign _ _).correctWords _ _

theorem MemoryForm.linkFault {s : State} (h : MemoryForm s) (w : Who) (ps : List Place) : MemoryForm (linkFault s w ps) := by
  unfold Machine.linkFault
  split
  · exact h
  · refine MemoryForm.foldl (fun s p hs => ?_) _ h
    split
    · dsimp only
      split
      · exact hs.of_same rfl rfl rfl
      · exact hs
    · exact hs

theorem MemoryForm.prepare {s : State} (h : MemoryForm s) (w : Who) (ps : List Place) (reads writes : Bool) :
    MemoryForm (prepare s w ps reads writes) := by
  have h0 := (h.linkFault w ps).forceForeign (some w.band.uid) (devLines ps)
  unfold Machine.prepare
  generalize Machine.forceForeign (Machine.linkFault s w ps) (some w.band.uid) (devLines ps) = s0 at h0 ⊢
  dsimp only
  have h1 : ∀ (o : Option Band) (c : Bool), MemoryForm (Machine.correctWords s0 o (if c = true then ps else partialPlaces ps)) :=
    fun o c => h0.correctWords _ _
  generalize hq : Machine.correctWords s0 _ _ = s1
  have h1 : MemoryForm s1 := hq ▸ h0.correctWords _ _
  have h2 : MemoryForm (if writes = true then s1.modBand w.band.uid fun b => { b with settled := true } else s1) :=
    MemoryForm.ite (h1.of_same rfl rfl rfl) h1
  split
  · exact h1
  · split
    · refine MemoryForm.foldl_same (fun _ _ => ?_) _ h2
      exact ⟨rfl, rfl, rfl⟩
    · exact h2

theorem MemoryForm.noteCode {s : State} (h : MemoryForm s) (w : Who) (owner : Option Nat) (ps : List Place) :
    MemoryForm (noteCode s w owner ps) := by
  unfold Machine.noteCode
  refine MemoryForm.foldl_same (fun _ _ => ?_) _ h
  exact ⟨rfl, rfl, rfl⟩

theorem MemoryForm.writeHost {s : State} (h : MemoryForm s) (n : Nat) (v : Int) : MemoryForm (writeHost s n v) := by
  unfold Machine.writeHost
  split
  · exact ⟨h.1, memPutNonet_wf _ _ h.2.1, h.2.2⟩
  · exact h

/-- An entry of a map after a set is the one set or an old one. -/
theorem smapSet_mem {α : Type} [DecidableEq α] {d : α} {m : SMap α} {k : Nat} {v : α} {x : Nat × α}
    (h : x ∈ smapSet d m k v) : x = (k, v) ∨ x ∈ m := by
  induction m with
  | nil =>
    simp only [smapSet] at h
    split at h
    · cases h
    · simpa using h
  | cons p m ih =>
    obtain ⟨j, w⟩ := p
    have hd : ∀ {y}, y ∈ smapDrop m k → y ∈ m := fun hy => (List.mem_filter.1 hy).1
    simp only [smapSet] at h
    split at h
    · split at h
      · simp only [List.mem_cons] at h ⊢
        exact .inr (h.imp id hd)
      · simp only [List.mem_cons] at h ⊢
        exact h
    · split at h
      · split at h
        · exact .inr (List.mem_cons_of_mem _ (hd h))
        · simp only [List.mem_cons] at h ⊢
          exact h.imp id .inr
      · simp only [List.mem_cons] at h ⊢
        rcases h with h | h
        · exact .inr (.inl h)
        · exact (ih h).imp id .inr

theorem smapGet_wf {m : SMap (List Host.Cell)} (h : ∀ x ∈ m, Memory.wf x.2 = true) (k : Nat) :
    Memory.wf (smapGet [] m k) = true := by
  induction m with
  | nil => rfl
  | cons p m ih =>
    obtain ⟨j, w⟩ := p
    simp only [smapGet]
    split
    · exact h (j, w) (by simp)
    · exact ih fun x hx => h x (by simp [hx])

theorem MemoryForm.writePeer {s : State} (h : MemoryForm s) (port n : Nat) (v : Int) : MemoryForm (writePeer s port n v) := by
  unfold Machine.writePeer
  split
  · refine ⟨h.1, h.2.1, fun x hx => ?_⟩
    rcases smapSet_mem hx with rfl | hx
    · exact memPutNonet_wf _ _ (smapGet_wf h.2.2 _)
    · exact h.2.2 x hx
  · exact h

theorem MemoryForm.countDropped {s : State} (h : MemoryForm s) (ps : List Place) :
    MemoryForm (countDropped s ps) :=
  MemoryForm.foldl_same (fun s p => by split <;> exact ⟨rfl, rfl, rfl⟩) _ h

theorem MemoryForm.prepareStore {s : State} (h : MemoryForm s) (w : Who) (ps : List Place) (direct : Bool) :
    MemoryForm (prepareStore s w ps direct) := by
  have h1 := h.prepare w ps false true
  have h2 : ∀ c : Bool, MemoryForm (if c = true then Machine.commitVersion (Machine.prepare s w ps false true) w.band.uid false
      else Machine.prepare s w ps false true) := fun c => MemoryForm.ite (h1.commitVersion _ _) h1
  unfold Machine.prepareStore
  exact MemoryForm.ite ((h2 _).forceForeign _ _) (h2 _)

theorem MemoryForm.placeStore {s : State} (h : MemoryForm s) (w : Who) (ws : List (Place × Int)) (single versioned : Bool) :
    MemoryForm (placeStore s w ws single versioned) := by
  have h4 : MemoryForm (if (devWrites ws).isEmpty then s
      else if versioned then Machine.writeVersion s w.band.uid (devWrites ws) [] single
      else Machine.writeBase s (devWrites ws) single) :=
    MemoryForm.ite h (MemoryForm.ite (h.writeVersion _ _ _ _) (h.writeBase _ _))
  unfold Machine.placeStore
  refine MemoryForm.foldl (fun s x hs => ?_) _ (MemoryForm.countDropped (MemoryForm.foldl (fun s u hs => ?_) _ h4) _)
  · split
    · exact hs.writeHost _ _
    · exact hs.writePeer _ _ _
    · exact hs
  · exact hs.of_same rfl rfl rfl

/-- A store of a band, wherever it goes. -/
theorem MemoryForm.poke {s : State} (h : MemoryForm s) (w : Who) (ws : List (Place × Int)) (single direct : Bool) :
    MemoryForm (poke s w ws single direct) :=
  ((h.prepareStore w _ direct).noteCode _ _ _).placeStore _ _ _ _

/-- A store that was held, at its performance. -/
theorem MemoryForm.pokeHeld {s : State} (h : MemoryForm s) (w : Who) (ws : List (Place × Int)) : MemoryForm (pokeHeld s w ws) := by
  have h1 := (h.prepareStore w (ws.map (·.1)) false).placeStore w ws true (inVersion s w false)
  unfold Machine.pokeHeld
  exact MemoryForm.ite h1 (h1.of_same rfl rfl rfl)

theorem MemoryForm.pokePoison {s : State} (h : MemoryForm s) (w : Who) (secs : List Nat) (origin : Bool) :
    MemoryForm (pokePoison s w secs origin) := by
  have h1 := h.forceForeign (some w.band.uid) (toSet (secs.map (· / 9)))
  unfold Machine.pokePoison
  dsimp only
  split
  · split
    · refine MemoryForm.writeVersion ?_ _ _ _ _
      split
      · refine MemoryForm.foldl_same (fun _ _ => ?_) _ h1
        exact ⟨rfl, rfl, rfl⟩
      · exact h1
    · exact h1.poisonBase _ _
  · exact h1.poisonBase _ _

/-! ### From outside, and the placing of an instruction -/

/-- The zeroing of frames, where the accesses on their way to them have kept the form. -/
theorem MemoryForm.zeroFrames {s : State} (es : List (Nat × Nat))
    (h : ∀ within, MemoryForm (settleFrames s within)) : MemoryForm (zeroFrames s es) := by
  unfold Machine.zeroFrames
  dsimp only
  generalize hw : (fun j => es.any fun e => decide (2187 * e.1 ≤ j) && decide (j < 2187 * (e.1 + e.2))) = within
  have h1 : ∀ l : List Band, MemoryForm (l.foldl (fun s b => Machine.commitVersion s b.uid true) (settleFrames s within)) :=
    fun l => MemoryForm.foldl (fun _ b hs => hs.commitVersion b.uid true) _ (h within)
  exact ⟨memory_wf_filter _ (h1 _).1, (h1 _).2⟩

theorem MemoryForm.countIngressAt {s : State} (h : MemoryForm s) (port n : Nat) : MemoryForm (countIngressAt s port n) := by
  unfold Machine.countIngressAt
  split
  · exact h
  · exact h.of_same rfl rfl rfl

theorem MemoryForm.overwriteCode {s : State} (h : MemoryForm s) (js : List Nat) : MemoryForm (overwriteCode s js) := by
  have h1 := MemoryForm.foldl_same (f := noteUnit (fun p => memNonet s.mem p.nonet) none (js.map Place.dev))
    (fun _ _ => ⟨rfl, rfl, rfl⟩) (distinct (js.map fun j => Place.dev (9 * (j / 9)))) h
  exact h1.of_same rfl rfl rfl

theorem MemoryForm.writeCodes {s : State} (h : MemoryForm s) (port : Nat) (ws : List (Nat × Nat)) :
    MemoryForm (writeCodes s port ws) := by
  unfold Machine.writeCodes
  exact (((((h.forceForeign _ _).correctWords _ _).overwriteCode _).writeBase _ _).poisonAfter _ _ _).countIngressAt _ _

/-- Bytes from outside, whole nonets and merged ones. -/
theorem MemoryForm.writeBytes {s : State} (h : MemoryForm s) (port byte : Nat) (data : List Nat) :
    MemoryForm (writeBytes s port byte data) := by
  unfold Machine.writeBytes
  exact MemoryForm.ite (h.openWords _) ((h.openWords _).writeCodes _ _)

theorem MemoryForm.cleared {s : State} (h : MemoryForm s) : MemoryForm (cleared s) := ⟨rfl, h.2⟩

theorem MemoryForm.placeInstr {s : State} (h : MemoryForm s) (hs : List Nat) : MemoryForm (placeInstr s hs) := by
  refine ⟨?_, h.2⟩
  exact foldl_wf (fun m x hm => memPutHalf_wf _ _ hm) _ (foldl_wf (fun m x hm => memPutNonet_wf _ _ hm) _ h.1)

theorem MemoryForm.withFetchWord {s : State} (h : MemoryForm s) (nbits w : Nat) : MemoryForm (s.withFetchWord nbits w) :=
  h.placeInstr _

/-! ### Where no trit is altered and no flit is marked -/

theorem correctWords_sound {s : State} (h1 : s.flips = []) (h2 : s.verFlips = []) (owner : Option Band) (ps : List Place) :
    correctWords s owner ps = s := by simp [correctWords, h1, h2]

theorem correctWalks_sound {s : State} (h : s.flips = []) (c : Context) (as : List Word) : correctWalks s c as = s := by
  simp [correctWalks, h]

theorem correctVersion_sound {s : State} (h : s.verFlips = []) (uid : Nat) : correctVersion s uid = s := by
  simp [correctVersion, h]

theorem linkFault_sound {s : State} (h : s.linkFails = []) (w : Who) (ps : List Place) : linkFault s w ps = s := by
  simp [linkFault, h]

/-- Where no band holds a line of it in a version, an access forces no commit. -/
theorem forceForeign_none {s : State} {self : Option Nat} {lines : List Nat}
    (h : ∀ b ∈ s.bands, ∀ l ∈ lines, holdsLine b l = false) : forceForeign s self lines = s := by
  unfold forceForeign
  dsimp only
  have hit : ∀ own : Band → Bool, (s.bands.filter fun b => !own b && lines.any (holdsLine b)) = [] := by
    intro own
    simp only [List.filter_eq_nil_iff]
    intro b hb
    have : lines.any (holdsLine b) = false := by simpa using fun l hl => h b hb l hl
    simp [this]
  rw [hit]
  rfl

/-! ### The places of sectors -/

theorem swapSector_swapSector (x : Nat × Nat) (sec : Nat) : swapSector x (swapSector x sec) = sec := by
  unfold swapSector
  dsimp only
  split
  · rfl
  · split
    · rename_i h
      split
      · omega
      · simp [h]
    · split <;> simp_all

theorem swapSector_lt {x : Nat × Nat} {sec : Nat} (h : sectorExists sec = true) : sectorExists (swapSector x sec) = true := by
  unfold sectorExists swapSector at *
  simp only [decide_eq_true_eq] at *
  split
  · exact h
  · split
    · omega
    · split <;> omega

theorem swaps_sectorAt (l : List (Nat × Nat)) (sec : Nat) :
    l.foldl (fun sec x => swapSector x sec) (l.foldr swapSector sec) = sec := by
  induction l with
  | nil => rfl
  | cons x t ih => simpa [swapSector_swapSector] using ih

theorem swaps_exist (l : List (Nat × Nat)) {sec : Nat} (h : sectorExists sec = true) :
    sectorExists (l.foldl (fun sec x => swapSector x sec) sec) = true := by
  induction l generalizing sec with
  | nil => exact h
  | cons x t ih => exact ih (swapSector_lt h)

/-- Every sector lies in the stack of one of the controllers. -/
theorem controllerOf_lt {sec : Nat} (h : sectorExists sec = true) : controllerOf sec < Config.controllers := by
  have := swaps_exist Config.sectorSwaps h
  unfold sectorExists at this
  rw [decide_eq_true_eq, Nat.mul_comm] at this
  exact Nat.div_lt_of_lt_mul this

/-- Each address of a stack is the place of one sector. -/
theorem controllerOf_sectorAt {c addr : Nat} (h : addr < Config.stackSectors) : controllerOf (sectorAt c addr) = c := by
  unfold controllerOf stackPlace sectorAt
  rw [swaps_sectorAt]
  unfold Config.stackSectors at *
  omega

end Sys2Proof.Machine
end

