-- ==== Sys2Proof/Laws/PerInstr.lean ====
section
/-! SUPPORT. A statement for every constructor of Instr: an instruction is built again from its operation and its fields,
so no constructor's fields are lost on the way to its words. -/

namespace Sys2Proof.Laws.Rebuilds

open Sys2Proof.Machine

/-- The operation and the fields of an instruction give it back. -/
def Statement (i : Instr) : Prop := ∀ op f, codedOf i = some (op, f) → op.mk f = i

/-- A coded instruction. -/
theorem of_coded {i : Instr} {op : Op} {f : Fields} (h : codedOf i = some (op, f)) (h' : op.mk f = i) : Statement i := by
  intro op' f' e
  rw [h] at e
  cases e
  exact h'

/-- A step of the device. -/
theorem of_event {i : Instr} (h : codedOf i = none) : Statement i := by
  intro op f e
  rw [h] at e
  cases e

theorem uadd (f : Fields) : Statement (.uadd f) := of_coded rfl rfl
theorem usub (f : Fields) : Statement (.usub f) := of_coded rfl rfl
theorem umul (f : Fields) : Statement (.umul f) := of_coded rfl rfl
theorem umulH (f : Fields) : Statement (.umulH f) := of_coded rfl rfl
theorem udiv (f : Fields) : Statement (.udiv f) := of_coded rfl rfl
theorem udivR (f : Fields) : Statement (.udivR f) := of_coded rfl rfl
theorem umin (f : Fields) : Statement (.umin f) := of_coded rfl rfl
theorem umax (f : Fields) : Statement (.umax f) := of_coded rfl rfl
theorem ucmp (f : Fields) : Statement (.ucmp f) := of_coded rfl rfl
theorem usel (f : Fields) : Statement (.usel f) := of_coded rfl rfl
theorem ushf (f : Fields) : Statement (.ushf f) := of_coded rfl rfl
theorem ushfRot (f : Fields) : Statement (.ushfRot f) := of_coded rfl rfl
theorem utmin (f : Fields) : Statement (.utmin f) := of_coded rfl rfl
theorem utmax (f : Fields) : Statement (.utmax f) := of_coded rfl rfl
theorem utcon (f : Fields) : Statement (.utcon f) := of_coded rfl rfl
theorem umov (f : Fields) : Statement (.umov f) := of_coded rfl rfl
theorem ulea (f : Fields) : Statement (.ulea f) := of_coded rfl rfl
theorem brAny (f : Fields) : Statement (.brAny f) := of_coded rfl rfl
theorem brAll (f : Fields) : Statement (.brAll f) := of_coded rfl rfl
theorem brU (f : Fields) : Statement (.brU f) := of_coded rfl rfl
theorem call (f : Fields) : Statement (.call f) := of_coded rfl rfl
theorem ret (f : Fields) : Statement (.ret f) := of_coded rfl rfl
theorem regang (f : Fields) : Statement (.regang f) := of_coded rfl rfl
theorem regangReform (band gang : Nat) : Statement (.regangReform band gang) := of_event rfl
theorem exit (f : Fields) : Statement (.exit f) := of_coded rfl rfl
theorem mlogMin (f : Fields) : Statement (.mlogMin f) := of_coded rfl rfl
theorem mlogMax (f : Fields) : Statement (.mlogMax f) := of_coded rfl rfl
theorem mlogCon (f : Fields) : Statement (.mlogCon f) := of_coded rfl rfl
theorem mmov (f : Fields) : Statement (.mmov f) := of_coded rfl rfl
theorem mmovIn (f : Fields) : Statement (.mmovIn f) := of_coded rfl rfl
theorem mmovOut (f : Fields) : Statement (.mmovOut f) := of_coded rfl rfl
theorem mcnt (f : Fields) : Statement (.mcnt f) := of_coded rfl rfl
theorem laneid (f : Fields) : Statement (.laneid f) := of_coded rfl rfl
theorem cycle (f : Fields) : Statement (.cycle f) := of_coded rfl rfl
theorem statr (f : Fields) : Statement (.statr f) := of_coded rfl rfl
theorem statc (f : Fields) : Statement (.statc f) := of_coded rfl rfl
theorem treg (f : Fields) : Statement (.treg f) := of_coded rfl rfl
theorem vadd (f : Fields) : Statement (.vadd f) := of_coded rfl rfl
theorem vsub (f : Fields) : Statement (.vsub f) := of_coded rfl rfl
theorem vmul (f : Fields) : Statement (.vmul f) := of_coded rfl rfl
theorem vmulh (f : Fields) : Statement (.vmulh f) := of_coded rfl rfl
theorem vmac (f : Fields) : Statement (.vmac f) := of_coded rfl rfl
theorem vdot3 (f : Fields) : Statement (.vdot3 f) := of_coded rfl rfl
theorem vdiv (f : Fields) : Statement (.vdiv f) := of_coded rfl rfl
theorem vdivR (f : Fields) : Statement (.vdivR f) := of_coded rfl rfl
theorem vmin (f : Fields) : Statement (.vmin f) := of_coded rfl rfl
theorem vmax (f : Fields) : Statement (.vmax f) := of_coded rfl rfl
theorem vshf (f : Fields) : Statement (.vshf f) := of_coded rfl rfl
theorem vshfRot (f : Fields) : Statement (.vshfRot f) := of_coded rfl rfl
theorem vtmin (f : Fields) : Statement (.vtmin f) := of_coded rfl rfl
theorem vtmax (f : Fields) : Statement (.vtmax f) := of_coded rfl rfl
theorem vtcon (f : Fields) : Statement (.vtcon f) := of_coded rfl rfl
theorem vcmp (f : Fields) : Statement (.vcmp f) := of_coded rfl rfl
theorem vsel (f : Fields) : Statement (.vsel f) := of_coded rfl rfl
theorem vmov (f : Fields) : Statement (.vmov f) := of_coded rfl rfl
theorem vcnt (f : Fields) : Statement (.vcnt f) := of_coded rfl rfl
theorem vlead (f : Fields) : Statement (.vlead f) := of_coded rfl rfl
theorem fadd (f : Fields) : Statement (.fadd f) := of_coded rfl rfl
theorem fsub (f : Fields) : Statement (.fsub f) := of_coded rfl rfl
theorem fmul (f : Fields) : Statement (.fmul f) := of_coded rfl rfl
theorem fma (f : Fields) : Statement (.fma f) := of_coded rfl rfl
theorem fmin (f : Fields) : Statement (.fmin f) := of_coded rfl rfl
theorem fmax (f : Fields) : Statement (.fmax f) := of_coded rfl rfl
theorem fcmp (f : Fields) : Statement (.fcmp f) := of_coded rfl rfl
theorem frcp (f : Fields) : Statement (.frcp f) := of_coded rfl rfl
theorem frsq (f : Fields) : Statement (.frsq f) := of_coded rfl rfl
theorem fscl (f : Fields) : Statement (.fscl f) := of_coded rfl rfl
theorem fcls (f : Fields) : Statement (.fcls f) := of_coded rfl rfl
theorem cvt (f : Fields) : Statement (.cvt f) := of_coded rfl rfl
theorem pack (f : Fields) : Statement (.pack f) := of_coded rfl rfl
theorem unpk (f : Fields) : Statement (.unpk f) := of_coded rfl rfl
theorem lmul (f : Fields) : Statement (.lmul f) := of_coded rfl rfl
theorem lexp (f : Fields) : Statement (.lexp f) := of_coded rfl rfl
theorem lqnt (f : Fields) : Statement (.lqnt f) := of_coded rfl rfl
theorem lcmp (f : Fields) : Statement (.lcmp f) := of_coded rfl rfl
theorem slide (f : Fields) : Statement (.slide f) := of_coded rfl rfl
theorem slideEdge (f : Fields) : Statement (.slideEdge f) := of_coded rfl rfl
theorem slideFill (f : Fields) : Statement (.slideFill f) := of_coded rfl rfl
theorem perm (f : Fields) : Statement (.perm f) := of_coded rfl rfl
theorem bcast (f : Fields) : Statement (.bcast f) := of_coded rfl rfl
theorem red (f : Fields) : Statement (.red f) := of_coded rfl rfl
theorem scan (f : Fields) : Statement (.scan f) := of_coded rfl rfl
theorem vext (f : Fields) : Statement (.vext f) := of_coded rfl rfl
theorem vins (f : Fields) : Statement (.vins f) := of_coded rfl rfl
theorem shuf3 (f : Fields) : Statement (.shuf3 f) := of_coded rfl rfl
theorem ldn (f : Fields) : Statement (.ldn f) := of_coded rfl rfl
theorem ldw (f : Fields) : Statement (.ldw f) := of_coded rfl rfl
theorem stn (f : Fields) : Statement (.stn f) := of_coded rfl rfl
theorem stw (f : Fields) : Statement (.stw f) := of_coded rfl rfl
theorem vld (f : Fields) : Statement (.vld f) := of_coded rfl rfl
theorem vst (f : Fields) : Statement (.vst f) := of_coded rfl rfl
theorem vlds (f : Fields) : Statement (.vlds f) := of_coded rfl rfl
theorem vsts (f : Fields) : Statement (.vsts f) := of_coded rfl rfl
theorem gath (f : Fields) : Statement (.gath f) := of_coded rfl rfl
theorem scat (f : Fields) : Statement (.scat f) := of_coded rfl rfl
theorem xld (f : Fields) : Statement (.xld f) := of_coded rfl rfl
theorem pref (f : Fields) : Statement (.pref f) := of_coded rfl rfl
theorem prefSc (f : Fields) : Statement (.prefSc f) := of_coded rfl rfl
theorem aadd (f : Fields) : Statement (.aadd f) := of_coded rfl rfl
theorem amin (f : Fields) : Statement (.amin f) := of_coded rfl rfl
theorem amax (f : Fields) : Statement (.amax f) := of_coded rfl rfl
theorem afadd (f : Fields) : Statement (.afadd f) := of_coded rfl rfl
theorem afmin (f : Fields) : Statement (.afmin f) := of_coded rfl rfl
theorem afmax (f : Fields) : Statement (.afmax f) := of_coded rfl rfl
theorem axch (f : Fields) : Statement (.axch f) := of_coded rfl rfl
theorem acas (f : Fields) : Statement (.acas f) := of_coded rfl rfl
theorem drain (f : Fields) : Statement (.drain f) := of_coded rfl rfl
theorem drainBar (f : Fields) : Statement (.drainBar f) := of_coded rfl rfl
theorem drainComplete (p : PartId) : Statement (.drainComplete p) := of_event rfl
theorem batchSeal (f : Fields) : Statement (.batchSeal f) := of_coded rfl rfl
theorem batchWait (f : Fields) : Statement (.batchWait f) := of_coded rfl rfl
theorem batchWaitComplete (p : PartId) : Statement (.batchWaitComplete p) := of_event rfl
theorem icinv (f : Fields) : Statement (.icinv f) := of_coded rfl rfl
theorem icinvAll (f : Fields) : Statement (.icinvAll f) := of_coded rfl rfl
theorem icinvComplete (p : PartId) : Statement (.icinvComplete p) := of_event rfl
theorem iclock (f : Fields) : Statement (.iclock f) := of_coded rfl rfl
theorem iclockUn (f : Fields) : Statement (.iclockUn f) := of_coded rfl rfl
theorem fence (f : Fields) : Statement (.fence f) := of_coded rfl rfl
theorem fenceNs (f : Fields) : Statement (.fenceNs f) := of_coded rfl rfl
theorem fenceComplete (p : PartId) : Statement (.fenceComplete p) := of_event rfl
theorem fenceRollback (p : PartId) (line : Nat) : Statement (.fenceRollback p line) := of_event rfl
theorem copy (f : Fields) : Statement (.copy f) := of_coded rfl rfl
theorem cmpb (f : Fields) : Statement (.cmpb f) := of_coded rfl rfl
theorem link (f : Fields) : Statement (.link f) := of_coded rfl rfl
theorem bin (f : Fields) : Statement (.bin f) := of_coded rfl rfl
theorem rels (f : Fields) : Statement (.rels f) := of_coded rfl rfl
theorem nodeFinish (band serial : Nat) : Statement (.nodeFinish band serial) := of_event rfl
theorem nodeFault (band serial : Nat) : Statement (.nodeFault band serial) := of_event rfl
theorem followOnDecrement (band serial : Nat) : Statement (.followOnDecrement band serial) := of_event rfl
theorem mmul (f : Fields) : Statement (.mmul f) := of_coded rfl rfl
theorem mmulNode (f : Fields) : Statement (.mmulNode f) := of_coded rfl rfl
theorem engineCommandReady (core : Nat) : Statement (.engineCommandReady core) := of_event rfl
theorem mmulStep (core : Nat) : Statement (.mmulStep core) := of_event rfl
theorem azero (f : Fields) : Statement (.azero f) := of_coded rfl rfl
theorem ard (f : Fields) : Statement (.ard f) := of_coded rfl rfl
theorem awr (f : Fields) : Statement (.awr f) := of_coded rfl rfl
theorem asave (f : Fields) : Statement (.asave f) := of_coded rfl rfl
theorem arst (f : Fields) : Statement (.arst f) := of_coded rfl rfl
theorem bqnt (f : Fields) : Statement (.bqnt f) := of_coded rfl rfl
theorem bdq (f : Fields) : Statement (.bdq f) := of_coded rfl rfl
theorem send (f : Fields) : Statement (.send f) := of_coded rfl rfl
theorem sendComplete (band channel : Nat) : Statement (.sendComplete band channel) := of_event rfl
theorem recv (f : Fields) : Statement (.recv f) := of_coded rfl rfl
theorem recvComplete (band channel : Nat) : Statement (.recvComplete band channel) := of_event rfl
theorem bar (f : Fields) : Statement (.bar f) := of_coded rfl rfl
theorem barArr (f : Fields) : Statement (.barArr f) := of_coded rfl rfl
theorem barrierPhaseComplete (kernel : Nat) (key : BarrierKey) : Statement (.barrierPhaseComplete kernel key) := of_event rfl
theorem park (f : Fields) : Statement (.park f) := of_coded rfl rfl
theorem parkPoll (p : PartId) : Statement (.parkPoll p) := of_event rfl
theorem parkTimeout (p : PartId) : Statement (.parkTimeout p) := of_event rfl
theorem wake (f : Fields) : Statement (.wake f) := of_coded rfl rfl
theorem grow (f : Fields) : Statement (.grow f) := of_coded rfl rfl
theorem growGrant (core : Nat) : Statement (.growGrant core) := of_event rfl
theorem shrink (f : Fields) : Statement (.shrink f) := of_coded rfl rfl
theorem launch (f : Fields) : Statement (.launch f) := of_coded rfl rfl
theorem capEnter (f : Fields) : Statement (.capEnter f) := of_coded rfl rfl
theorem capRetry (p : PartId) : Statement (.capRetry p) := of_event rfl
theorem capStepCommit (p : PartId) : Statement (.capStepCommit p) := of_event rfl
theorem capStoreApply (p : PartId) : Statement (.capStoreApply p) := of_event rfl
theorem capLeave (f : Fields) : Statement (.capLeave f) := of_coded rfl rfl
theorem capMarkDescheduled (p : PartId) : Statement (.capMarkDescheduled p) := of_event rfl
theorem rejoin (p : PartId) : Statement (.rejoin p) := of_event rfl
theorem map (f : Fields) : Statement (.map f) := of_coded rfl rfl
theorem unmap (f : Fields) : Statement (.unmap f) := of_coded rfl rfl
theorem mapComplete (p : PartId) : Statement (.mapComplete p) := of_event rfl
theorem pkset (f : Fields) : Statement (.pkset f) := of_coded rfl rfl
theorem pksetComplete (p : PartId) : Statement (.pksetComplete p) := of_event rfl
theorem pkrd (f : Fields) : Statement (.pkrd f) := of_coded rfl rfl
theorem trap (f : Fields) : Statement (.trap f) := of_coded rfl rfl
theorem faultSlotFreed (p : PartId) : Statement (.faultSlotFreed p) := of_event rfl
theorem tret (f : Fields) : Statement (.tret f) := of_coded rfl rfl
theorem tretSkip (f : Fields) : Statement (.tretSkip f) := of_coded rfl rfl
theorem tkill (f : Fields) : Statement (.tkill f) := of_coded rfl rfl
theorem frec (f : Fields) : Statement (.frec f) := of_coded rfl rfl
theorem dstepOn (f : Fields) : Statement (.dstepOn f) := of_coded rfl rfl
theorem dstepOff (f : Fields) : Statement (.dstepOff f) := of_coded rfl rfl
theorem commit (f : Fields) : Statement (.commit f) := of_coded rfl rfl
theorem pairCk (f : Fields) : Statement (.pairCk f) := of_coded rfl rfl
theorem einjCorr (f : Fields) : Statement (.einjCorr f) := of_coded rfl rfl
theorem einjUnc (f : Fields) : Statement (.einjUnc f) := of_coded rfl rfl
theorem einjLink (f : Fields) : Statement (.einjLink f) := of_coded rfl rfl
theorem einjSig (f : Fields) : Statement (.einjSig f) := of_coded rfl rfl
theorem partitionIssue (core partition : Nat) : Statement (.partitionIssue core partition) := of_event rfl
theorem partStarving (p : PartId) : Statement (.partStarving p) := of_event rfl
theorem stageRebalance (core : Nat) : Statement (.stageRebalance core) := of_event rfl
theorem budgetPeriodStart (agent : BudgetAgent) : Statement (.budgetPeriodStart agent) := of_event rfl
theorem watchdogExpiry (band gang : Nat) : Statement (.watchdogExpiry band gang) := of_event rfl
theorem packetTake (queue : Nat) : Statement (.packetTake queue) := of_event rfl
theorem bandDispatch (die core : Nat) : Statement (.bandDispatch die core) := of_event rfl
theorem placementEviction (die : Nat) : Statement (.placementEviction die) := of_event rfl
theorem growEviction (core : Nat) : Statement (.growEviction core) := of_event rfl
theorem gangEvict (band gang : Nat) : Statement (.gangEvict band gang) := of_event rfl
theorem gangResume (band gang : Nat) : Statement (.gangResume band gang) := of_event rfl
theorem remoteLoadReturn (req : Nat) : Statement (.remoteLoadReturn req) := of_event rfl
theorem storeAck (band gang : Nat) : Statement (.storeAck band gang) := of_event rfl
theorem homeAccess (req : Nat) : Statement (.homeAccess req) := of_event rfl
theorem hbmBurstComplete (controller : Nat) (sectors : List SectorError) : Statement (.hbmBurstComplete controller sectors) := of_event rfl
theorem clusterAccess (req : Nat) : Statement (.clusterAccess req) := of_event rfl
theorem scrubRead (controller : Nat) (e : SectorError) : Statement (.scrubRead controller e) := of_event rfl
theorem scrubWriteback (controller : Nat) (cycles : Nat) : Statement (.scrubWriteback controller cycles) := of_event rfl
theorem homeLineScrub (line : Nat) : Statement (.homeLineScrub line) := of_event rfl
theorem bandEnd (band : Nat) : Statement (.bandEnd band) := of_event rfl
theorem kernelStop (kernel : Nat) (code sub : Int) : Statement (.kernelStop kernel code sub) := of_event rfl
theorem pairedCheckpoint (band : Nat) : Statement (.pairedCheckpoint band) := of_event rfl
theorem signatureReceive (band : Nat) : Statement (.signatureReceive band) := of_event rfl
theorem pairedMismatch (band : Nat) : Statement (.pairedMismatch band) := of_event rfl
theorem flitReceive (module : Nat) (crcFails : Bool) (payload : List Nat) : Statement (.flitReceive module crcFails payload) := of_event rfl
theorem laneRotation (module : Nat) : Statement (.laneRotation module) := of_event rfl
theorem laneMarginLow (module : Nat) : Statement (.laneMarginLow module) := of_event rfl
theorem planeDeath (plane : Nat) : Statement (.planeDeath plane) := of_event rfl
theorem responseConfirm (home plane die : Nat) : Statement (.responseConfirm home plane die) := of_event rfl
theorem pcieLinkDown (port : Nat) : Statement (.pcieLinkDown port) := of_event rfl
theorem hostWrite (port byte : Nat) (data : List Nat) : Statement (.hostWrite port byte data) := of_event rfl
theorem hostByteMerge (port byte value : Nat) : Statement (.hostByteMerge port byte value) := of_event rfl
theorem hostRead (port byte count : Nat) : Statement (.hostRead port byte count) := of_event rfl
theorem hostReadResponse (req : Nat) (data : List Nat) : Statement (.hostReadResponse req data) := of_event rfl
theorem peerRequest (port nonet count : Nat) (data : PeerData) :
    Statement (.peerRequest port nonet count data) := of_event rfl
theorem tailWrite (port queue : Nat) (bytes : List Nat) : Statement (.tailWrite port queue bytes) := of_event rfl
theorem registerWrite (port offset : Nat) (bytes : List Nat) : Statement (.registerWrite port offset bytes) := of_event rfl
theorem negotiate (port : Nat) (args : List Int) : Statement (.negotiate port args) := of_event rfl
theorem resync (port : Nat) (args : List Int) : Statement (.resync port args) := of_event rfl
theorem install (port : Nat) (args : List Int) : Statement (.install port args) := of_event rfl
theorem change (port : Nat) (args : List Int) : Statement (.change port args) := of_event rfl
theorem remove (port : Nat) (args : List Int) : Statement (.remove port args) := of_event rfl
theorem release (port : Nat) (args : List Int) : Statement (.release port args) := of_event rfl
theorem window (port : Nat) (args : List Int) : Statement (.window port args) := of_event rfl
theorem queue (port : Nat) (args : List Int) : Statement (.queue port args) := of_event rfl
theorem resolve (port : Nat) (args : List Int) : Statement (.resolve port args) := of_event rfl
theorem stop (port : Nat) (args : List Int) : Statement (.stop port args) := of_event rfl
theorem budget (port : Nat) (args : List Int) : Statement (.budget port args) := of_event rfl
theorem inject (port : Nat) (args : List Int) : Statement (.inject port args) := of_event rfl
theorem replace (port : Nat) (args : List Int) : Statement (.replace port args) := of_event rfl
theorem token (port : Nat) (args : List Int) : Statement (.token port args) := of_event rfl
theorem attestationRequest (nonce : List Nat) : Statement (.attestationRequest nonce) := of_event rfl
theorem bringUp (image : Image) (stepsPass : Bool) : Statement (.bringUp image stepsPass) := of_event rfl
theorem thermalHigh (die : Nat) : Statement (.thermalHigh die) := of_event rfl
theorem thermalCool (die : Nat) : Statement (.thermalCool die) := of_event rfl
theorem thermalTrip (die : Nat) : Statement (.thermalTrip die) := of_event rfl
theorem firmwareUpdate (port : Nat) (image : Image) : Statement (.firmwareUpdate port image) := of_event rfl
theorem portReset (port : Nat) (role : PortRole) : Statement (.portReset port role) := of_event rfl
theorem pcieLinkUp (port : Nat) : Statement (.pcieLinkUp port) := of_event rfl
theorem inboundRanges (port : Nat) (ranges : List (Nat × Nat)) : Statement (.inboundRanges port ranges) := of_event rfl

end Sys2Proof.Laws.Rebuilds
end

