-- ==== Sys2Proof/Laws/Reads.lean ====
section
/-! SUPPORT. Reads that a change of the state does not touch. -/

namespace Sys2Proof.Machine

/-- A read depends on memory and on the bands' versions, scratchpads and held stores alone. -/
theorem peek_congr {s t : State} {w w' : Who} (hu : w'.band.uid = w.band.uid) (hg : w'.gang = w.gang)
    (hn : w'.node = w.node)
    (hm : t.mem = s.mem) (hh : t.hostMem = s.hostMem) (hp : t.peerMem = s.peerMem)
    (hb : ∀ u, ((t.band u).map fun b => (b.version, b.scratch, b.specs, b.pair, b.copy))
      = (s.band u).map fun b => (b.version, b.scratch, b.specs, b.pair, b.copy))
    (hdef : (s.band w.band.uid).isSome) (p : Place) : peek t w' p = peek s w p := by
  have key : ∀ u, (∃ b b', t.band u = some b' ∧ s.band u = some b ∧ b'.version = b.version ∧ b'.scratch = b.scratch
      ∧ b'.specs = b.specs ∧ b'.pair = b.pair ∧ b'.copy = b.copy) ∨ (t.band u = none ∧ s.band u = none) := by
    intro u
    have := hb u
    cases h1 : t.band u <;> cases h2 : s.band u <;> simp [h1, h2] at this
    · right; simp
    · left; rename_i b' b; exact ⟨b, b', rfl, rfl, this.1, this.2.1, this.2.2.1, this.2.2.2.1, this.2.2.2.2⟩
  have hheld : heldCells { w' with band := (t.band w'.band.uid).getD w'.band }
      = heldCells { w with band := (s.band w.band.uid).getD w.band } := by
    rw [hu]
    rcases key w.band.uid with ⟨b, b', h1, h2, hv, hs, hsp, hpr, hcp⟩ | ⟨h1, h2⟩
    · simp only [h1, h2, Option.getD_some, heldCells, hsp, hpr, hg, hn]
    · simp [h2] at hdef
  unfold peek
  simp only [hheld, hm, hh, hp]
  cases (heldCells { w with band := (s.band w.band.uid).getD w.band }).lookup p.near with
  | some v => rfl
  | none =>
    cases p with
    | dev j =>
      rw [hu]
      rcases key w.band.uid with ⟨b, b', h1, h2, hv, hs, hsp, hpr, hcp⟩ | ⟨h1, h2⟩
      · have hver : (versionOf t b').version = (versionOf s b).version := by
          unfold versionOf
          rw [hcp, hpr]
          split
          · rename_i p _ _
            rcases key p.mate with ⟨m, m', h3, h4, hm', -⟩ | ⟨h3, h4⟩
            · simp only [h3, h4, Option.getD_some, hm']
            · simp only [h3, h4, Option.getD_none, hv]
          · exact hv
        simp only [h1, h2, Option.getD_some, hver]
      · simp [h2] at hdef
    | host n => rfl
    | peer q n => rfl
    | scr u n far =>
      rcases key u with ⟨b, b', h1, h2, hv, hs, hsp, hpr, hcp⟩ | ⟨h1, h2⟩
      · simp only [h1, h2, hs]
      · simp only [h1, h2]

/-- A commit that changed of the bands nothing that is read keeps every read. -/
theorem reads_kept {s t : State} {r r' : Run} (h : Committed s t r r') (hd : DeviceKept s t) (hrun : s.run r.id = some r)
    (hb : (r'.band.version, r'.band.scratch, r'.band.specs, r'.band.pair, r'.band.copy)
      = (r.band.version, r.band.scratch, r.band.specs, r.band.pair, r.band.copy)) (hid : r'.id = r.id) :
    ReadsKept s t r r' := by
  intro p
  have hb0 := ((run_iff _ _ _).1 hrun).1
  have hb1 := ((run_iff _ _ _).1 h.run).1
  have hu0 := band_uid hb0
  have hu1 := band_uid hb1
  have hmem : t.mem = s.mem ∧ t.hostMem = s.hostMem ∧ t.peerMem = s.peerMem := by
    simp only [DeviceKept] at hd
    cases t; cases s
    simp only [State.mk.injEq] at hd
    simp_all
  refine peek_congr ?_ ?_ ?_ hmem.1 hmem.2.1 hmem.2.2 ?_ ?_ p
  · show r'.band.uid = r.band.uid; rw [hu0, hu1]
  · show r'.id.gang = r.id.gang; rw [hid]
  · show r'.node = r.node; rw [((run_iff _ _ _).1 hrun).2.2.2.2.2.2.2, ((run_iff _ _ _).1 h.run).2.2.2.2.2.2.2]
  · intro u
    by_cases hu : u = r.id.band
    · subst hu; rw [hb0, hb1]; simp only [Option.map_some, hb]
    · rw [h.bands u hu]
  · show (s.band r.band.uid).isSome = true
    rw [hu0, hb0]; rfl

end Sys2Proof.Machine
end

