-- ==== Sys2Proof/Tests/Placed.lean ====
section
/-! SUPPORT. Small states for the tests: the state right after reset with one instruction placed (log 13), and the decidable
form of what the statements suppose about its part. -/

namespace Sys2Proof.Tests

open Sys2Proof.Machine

set_option Elab.async false

/-- The halfwords of an instruction's words. -/
def codesOf (i : Instr) : List Nat :=
  match encode i with
  | some (x, y, z) => [x, y, z].flatMap fun w => [0, 1, 2].map fun j => halfword (nonetOf w j)
  | none => []

/-- Reset, with one instruction placed where the next step fetches. -/
def placed (i : Instr) : State := placeInstr State.reset (codesOf i)

/-- The part that `placed` makes. -/
def p0 : PartId := { band := 1, gang := 0, part := 0 }

def blank : Run := ((placed (.exit {})).run p0).get (by decide +kernel)

/-- The records of that part. -/
def run0 (s : State) : Run := (s.run p0).getD blank

def band0 (s : State) : Band := (run0 s).band
def kern0 (s : State) : Kernel := (run0 s).kern

/-- Changes of the part, its gang and its band. -/
def withPart (s : State) (f : Part → Part) : State := s.modPart p0 f
def withGang (s : State) (f : Gang → Gang) : State := s.modGang 1 0 f
def withBand (s : State) (f : Band → Band) : State := s.modBand 1 f
def withUni (s : State) (n : Nat) (v : Int) : State := withGang s fun g => { g with uregs := smapSet 0 g.uregs n v }

/-- A state in which nobody holds the slot and the part waits. -/
def waiting (s : State) (w : Wait) : State := withPart { s with issue := none } fun q => { q with wait := w }

def clearB (s : State) (r : Run) (op : Op) (f : Fields) : Bool :=
  decide (s.issue = some { part := r.id }) && decide (s.run r.id = some r) && !r.body && (preWait r s op).isNone
    && (specOf r.band r.id.gang).isNone && !poisonedRead r s op f && r.part.forwarded.isNone && !r.part.granted

theorem clear_of {s : State} {r : Run} {op : Op} {f : Fields} (h : clearB s r op f = true) : Clear s r op f := by
  simp only [clearB, Bool.and_eq_true, decide_eq_true_eq, Bool.not_eq_true', Option.isNone_iff_eq_none] at h
  obtain ⟨⟨⟨⟨⟨⟨⟨h1, h2⟩, h3⟩, h4⟩, h5⟩, h6⟩, h7⟩, h8⟩ := h
  exact ⟨⟨⟨h1, h2⟩, h3, h4, h5, h7, h8⟩, h6⟩

def waitsB (s : State) (r : Run) (w : Wait) : Bool :=
  decide (s.run r.id = some r) && s.issue.isNone && decide (r.part.wait = w) && r.part.forwarded.isNone && !r.part.granted

theorem waits_of {s : State} {r : Run} {w : Wait} (h : waitsB s r w = true) : Waits s r w := by
  simp only [waitsB, Bool.and_eq_true, decide_eq_true_eq, Bool.not_eq_true', Option.isNone_iff_eq_none] at h
  obtain ⟨⟨⟨⟨h1, h2⟩, h3⟩, h4⟩, h5⟩ := h
  exact ⟨h1, h2, h3, h4, h5⟩

/-- The places and the leaves of an access that passes its checks. -/
def placesOf : Checked → List (List Place)
  | .ok ps _ => ps
  | _ => []

def leavesOf : Checked → List Leaf
  | .ok _ ls => ls
  | _ => []

theorem some_of {α : Type} {o : Option α} (h : o.isSome = true) : ∃ v, o = some v := Option.isSome_iff_exists.1 h

theorem ok_of {ε α : Type} {x : Except ε α} (h : x.toOption.isSome = true) : ∃ v, x = .ok v := by
  cases x with
  | ok v => exact ⟨v, rfl⟩
  | error e => cases h

theorem ok_is {ε α : Type} {x : Except ε α} {v : α} (h : x.toOption = some v) : x = .ok v := by
  cases x with
  | ok w => cases h; rfl
  | error e => cases h

/-! ### Operations that end in a continuation -/

def isOkStep {α : Type} : NodeStep α → Bool
  | .ok _ _ => true
  | _ => false

theorem step_of {α : Type} {x : NodeStep α} (h : isOkStep x = true) : ∃ s v, x = .ok s v := by
  cases x with
  | ok s v => exact ⟨s, v, rfl⟩
  | _ => cases h

/-- The state and the shapes with which `withRecords` goes on. -/
def recordsOf (r : Run) (s : State) (named : List Named) (misC : Bool) : Option (State × List Shape) :=
  if named.any (fun n => n.addr % 27 ≠ 0) ∨ misC then none
  else
    let s := correctWalks s r.ctx ((named.flatMap fun n => sectorElems n.addr).flatMap fun e => e.nonets.map (·.1))
    match checkElems s r.who none .read true (named.flatMap fun n => sectorElems n.addr) with
    | .trap _ _ => none
    | .absent _ => none
    | .ok ps ls =>
      let s1 := prepareRead (markLeaves s ls 2) r.who ps.flatten
      match poisonOf s1 r.who true ((named.flatMap fun n => sectorElems n.addr).zip ps) with
      | some _ => none
      | none =>
        let ws := ps.map fun p => joinNonets (p.map (peek s1 r.who))
        let recs := named.zipIdx.map fun n => (n.1, (ws.drop (9 * n.2)).take 9)
        match leastFault (recs.map fun x => shapeFault x.1.dest x.2) with
        | some _ => none
        | none =>
          let shapes := recs.map fun x => (x.1, shapeOf x.2)
          match shapes.findSome? fun x => baseAperture s1 r.who x.2 x.1.dest with
          | some _ => none
          | none =>
            let s2 := walkBases s1 r.who (shapes.map (·.2))
            let hb := shapes.map fun x => hostBase s2 r.who x.2 x.1.dest
            match hb.findSome? (·.1) with
            | some _ => none
            | none => if hb.any (·.2.isSome) then none else some (s2, shapes.map (·.2))

theorem records_of {r : Run} {s : State} {named : List Named} {misC : Bool} {x : State × List Shape}
    (h : recordsOf r s named misC = some x) (k : State → List Shape → Result) : withRecords r s named misC k = k x.1 x.2 := by
  unfold recordsOf at h
  unfold withRecords
  dsimp only at h ⊢
  split at h
  · cases h
  rename_i h1
  rw [if_neg h1]
  generalize correctWalks s r.ctx ((named.flatMap fun n => sectorElems n.addr).flatMap fun e => e.nonets.map (·.1)) = s at h ⊢
  cases h2 : checkElems s r.who none .read true (named.flatMap fun n => sectorElems n.addr) with
  | trap t ls => rw [h2] at h; cases h
  | absent i => rw [h2] at h; cases h
  | ok ps ls =>
    rw [h2] at h
    dsimp only at h ⊢
    split at h
    · cases h
    rename_i h3
    try simp only [h3]
    split at h
    · cases h
    rename_i h4
    try simp only [h4]
    split at h
    · cases h
    rename_i h5
    try simp only [h5]
    split at h
    · cases h
    rename_i h6
    try simp only [h6]
    split at h
    · cases h
    rename_i h7
    rw [if_neg h7]
    cases h
    rfl

/-- The state in which CAP.ENTER goes on after its checks. -/
def enterOf (r : Run) (s : State) (f : Fields) (record slot : Word) : Option State :=
  let x := enterRecord (correctCapsule s r.who (recordAddr record 0 :: slotAddrs slot)) r.who record
  let high : Bool := match f.d with | .uni n => decide (234 < n) | _ => true
  if r.band.copy ≠ .unpaired then none
  else if record % 81 ≠ 0 then none
  else if !x.2 then none
  else if ((wrap 27 (r.slice.pc + 9 * f.imm) + 117) % 243 : Int) ≠ 0 then none
  else if slot % 3 ≠ 0 ∨ high then none
  else
    let words := record :: slotAddrs slot
    let check (acc : Except (TrapInfo × State) State) (a : Word) : Except (TrapInfo × State) State :=
      acc.bind fun s => match checkElems s r.who none .capsule true [wordElem 0 a 0] with
        | .ok _ ls => .ok (markLeaves s ls 2)
        | .trap t ls => .error ({ t with lanes := partLanes r }, markLeaves s ls 2)
        | .absent _ => .error ({ code := 4, sub := 8, addr := a, lanes := partLanes r }, s)
    (words.foldl check (.ok x.1)).toOption

theorem enter_of {r : Run} {s s1 : State} {f : Fields} {record slot : Word} (h : enterOf r s f record slot = some s1)
    (k : State → Result) : enterChecks r s f record slot k = k s1 := by
  unfold enterOf at h
  unfold enterChecks
  dsimp only at h ⊢
  rw [Option.ite_none_left_eq_some] at h
  obtain ⟨h1, h⟩ := h
  rw [Option.ite_none_left_eq_some] at h
  obtain ⟨h2, h⟩ := h
  rw [Option.ite_none_left_eq_some] at h
  obtain ⟨h3, h⟩ := h
  rw [Option.ite_none_left_eq_some] at h
  obtain ⟨h4, h⟩ := h
  rw [Option.ite_none_left_eq_some] at h
  obtain ⟨h5, h⟩ := h
  have last : ∀ x : Except (TrapInfo × State) State, x.toOption = some s1 →
      (match x with | .error x => Result.trap x.1 x.2 | .ok s => k s) = k s1 := by
    intro x hx
    cases x with
    | error e => cases hx
    | ok t => cases hx; rfl
  exact (if_neg h1).trans ((if_neg h2).trans ((if_neg h3).trans ((if_neg h4).trans ((if_neg h5).trans (last _ h)))))

end Sys2Proof.Tests
end

