-- ==== Sys2Proof/Tests/Slice0.lean ====
section
/-! SUPPORT. Tests: decoding of words written out from the encodings of the spec, ill-formed terms that WellFormed refuses, and
single effects that the spec works out. -/

namespace Sys2Proof.Tests

open Sys2Proof.Machine

set_option Elab.async false

/-- The decode context of a first instruction: no capsule, the largest grant. -/
def x0 : DecodeCtx := { capsule := false, grant := 1530 }

/-- A word from its fields, the highest first, each as its width in trits and its value. -/
def wordOfFields (fs : List (Nat × Int)) : Int := fs.foldl (fun w x => w * (3 ^ x.1 : Nat) + x.2) 0

/-- The words whose fields are given (R84, R88, R89), with mask m0, no condition and lookahead 0, decode to the
instruction: group and code of the opcode, variant, type, the fields D, A and B, aux6, and the third word's fields. -/
def reads (g j var ty d a b aux : Int) (w2 : List (Nat × Int)) (i : Instr) : Bool :=
  decide ((decode x0 (wordOfFields [(6, 81 * g + j), (5, var), (2, ty), (2, -4), (2, 0), (3, -13), (7, 0)])
    (wordOfFields [(7, d), (7, a), (7, b), (6, aux)]) (wordOfFields w2)).toOption = some i)

/-- The sub-code of trap code 1 with which words are refused; 0 for none. -/
def refusal (x : DecodeCtx) (w0 w1 w2 : Int) : Nat :=
  match decode x w0 w1 w2 with
  | .ok _ => 0
  | .error n => n

/-! ### Decoding -/

/-- Opcodes of group -4 (R97). -/
theorem test_decode_uniform_1 :
    reads (-4) 1 0 0 492 488 489 0 [(7, 0), (20, 0)] (.uadd { d := .uni 13, a := .uni 9, b := .uni 10 }) = true
    ∧ reads (-4) 2 0 0 492 488 489 0 [(7, 0), (20, 0)] (.usub { d := .uni 13, a := .uni 9, b := .uni 10 }) = true
    ∧ reads (-4) 3 0 0 492 488 489 0 [(7, 0), (20, 0)] (.umul { d := .uni 13, a := .uni 9, b := .uni 10 }) = true
    ∧ reads (-4) 3 1 0 492 488 489 0 [(7, 0), (20, 0)] (.umulH { var := 1, d := .uni 13, a := .uni 9, b := .uni 10 }) = true
    ∧ reads (-4) 4 0 0 492 488 489 0 [(7, 0), (20, 0)] (.udiv { d := .uni 13, a := .uni 9, b := .uni 10 }) = true
    ∧ reads (-4) 4 1 0 492 488 489 0 [(7, 0), (20, 0)] (.udivR { var := 1, d := .uni 13, a := .uni 9, b := .uni 10 }) = true
    ∧ reads (-4) 5 0 0 492 488 489 0 [(7, 0), (20, 0)] (.umin { d := .uni 13, a := .uni 9, b := .uni 10 }) = true
    ∧ reads (-4) 6 0 0 492 488 489 0 [(7, 0), (20, 0)] (.umax { d := .uni 13, a := .uni 9, b := .uni 10 }) = true
    ∧ reads (-4) 7 0 0 492 488 489 0 [(7, 0), (20, 0)] (.ucmp { d := .uni 13, a := .uni 9, b := .uni 10 }) = true
    ∧ reads (-4) 8 0 0 492 488 489 0 [(7, 490), (20, 0)] (.usel { d := .uni 13, a := .uni 9, b := .uni 10, c := .uni 11 }) = true := by
  decide +kernel

/-- Opcodes of group -4 (R97). -/
theorem test_decode_uniform_2 :
    reads (-4) 9 0 0 492 488 489 0 [(7, 0), (20, 0)] (.ushf { d := .uni 13, a := .uni 9, b := .uni 10 }) = true
    ∧ reads (-4) 9 1 0 492 488 489 0 [(7, 0), (20, 0)] (.ushfRot { var := 1, d := .uni 13, a := .uni 9, b := .uni 10 }) = true
    ∧ reads (-4) 10 0 0 492 488 489 0 [(7, 0), (20, 0)] (.utmin { d := .uni 13, a := .uni 9, b := .uni 10 }) = true
    ∧ reads (-4) 11 0 0 492 488 489 0 [(7, 0), (20, 0)] (.utmax { d := .uni 13, a := .uni 9, b := .uni 10 }) = true
    ∧ reads (-4) 12 0 0 492 488 489 0 [(7, 0), (20, 0)] (.utcon { d := .uni 13, a := .uni 9, b := .uni 10 }) = true
    ∧ reads (-4) 13 0 0 492 488 0 0 [(7, 0), (20, 0)] (.umov { d := .uni 13, a := .uni 9 }) = true
    ∧ reads (-4) 14 0 0 492 488 489 0 [(7, 490), (20, 0)] (.ulea { d := .uni 13, a := .uni 9, b := .uni 10, c := .uni 11 }) = true
    ∧ reads (-4) 15 1 0 0 488 0 0 [(27, 5)] (.brAny { var := 1, a := .uni 9, imm := 5 }) = true
    ∧ reads (-4) 15 (-1) 0 0 488 0 0 [(27, 5)] (.brAll { var := -1, a := .uni 9, imm := 5 }) = true
    ∧ reads (-4) 15 3 0 0 488 0 0 [(27, 5)] (.brU { var := 3, a := .uni 9, imm := 5 }) = true := by
  decide +kernel

/-- Opcodes of group -4 (R97). -/
theorem test_decode_uniform_3 :
    reads (-4) 16 0 0 492 488 0 0 [(27, 5)] (.call { d := .uni 13, a := .uni 9, imm := 5 }) = true
    ∧ reads (-4) 17 0 0 0 488 0 0 [(27, 5)] (.ret { a := .uni 9, imm := 5 }) = true
    ∧ reads (-4) 18 0 0 0 0 0 0 [(7, 0), (20, 0)] (.regang {}) = true
    ∧ reads (-4) 19 0 0 0 0 0 0 [(7, 0), (20, 0)] (.exit {}) = true
    ∧ reads (-4) 20 0 0 3 (-1) 0 0 [(7, 0), (20, 0)] (.mlogMin { d := .mask 7, a := .mask 3, b := .mask 4 }) = true
    ∧ reads (-4) 20 1 0 3 (-1) 0 0 [(7, 0), (20, 0)] (.mlogMax { var := 1, d := .mask 7, a := .mask 3, b := .mask 4 }) = true
    ∧ reads (-4) 20 (-1) 0 3 (-1) 0 0 [(7, 0), (20, 0)] (.mlogCon { var := -1, d := .mask 7, a := .mask 3, b := .mask 4 }) = true
    ∧ reads (-4) 21 0 0 3 (-1) 0 0 [(7, 0), (20, 0)] (.mmov { d := .mask 7, a := .mask 3 }) = true
    ∧ reads (-4) 21 1 0 3 488 0 0 [(7, 0), (20, 0)] (.mmovIn { var := 1, d := .mask 7, a := .uni 9 }) = true
    ∧ reads (-4) 21 (-1) 0 (-1086) (-1) 0 0 [(7, 0), (20, 0)] (.mmovOut { var := -1, d := .vec 7, a := .mask 3 }) = true := by
  decide +kernel

/-- Opcodes of group -4 (R97). -/
theorem test_decode_uniform_4 :
    reads (-4) 22 0 0 (-1086) (-1) 0 0 [(7, 0), (20, 0)] (.mcnt { d := .vec 7, a := .mask 3 }) = true
    ∧ reads (-4) 23 0 1 (-1086) 488 0 0 [(7, 0), (20, 0)] (.laneid { ty := .t9, d := .vec 7, a := .uni 9 }) = true
    ∧ reads (-4) 24 0 0 (-1086) 0 0 0 [(7, 0), (20, 0)] (.cycle { d := .vec 7 }) = true
    ∧ reads (-4) 25 0 0 (-1086) 0 0 0 [(7, 0), (20, 0)] (.statr { d := .vec 7 }) = true
    ∧ reads (-4) 26 0 0 0 0 0 0 [(27, 0)] (.statc {}) = true
    ∧ reads (-4) 27 0 0 (-1086) 0 0 0 [(7, 0), (20, 0)] (.treg { d := .vec 7 }) = true := by
  decide +kernel

/-- Opcodes of group -3 (R98). -/
theorem test_decode_vector_1 :
    reads (-3) 1 0 1 (-1086) (-1090) (-1089) 0 [(7, 0), (20, 0)] (.vadd { ty := .t9, d := .vec 7, a := .vec 3, b := .vec 4 }) = true
    ∧ reads (-3) 2 0 1 (-1086) (-1090) (-1089) 0 [(7, 0), (20, 0)] (.vsub { ty := .t9, d := .vec 7, a := .vec 3, b := .vec 4 }) = true
    ∧ reads (-3) 3 0 1 (-1086) (-1090) (-1089) 0 [(7, 0), (20, 0)] (.vmul { ty := .t9, d := .vec 7, a := .vec 3, b := .vec 4 }) = true
    ∧ reads (-3) 4 0 1 (-1086) (-1090) (-1089) 0 [(7, 0), (20, 0)] (.vmulh { ty := .t9, d := .vec 7, a := .vec 3, b := .vec 4 }) = true
    ∧ reads (-3) 5 0 1 (-1086) (-1090) (-1089) 0 [(7, -1088), (20, 0)] (.vmac { ty := .t9, d := .vec 7, a := .vec 3, b := .vec 4, c := .vec 5 }) = true
    ∧ reads (-3) 6 0 1 (-1086) (-1090) (-1089) 0 [(7, -1088), (20, 0)] (.vdot3 { ty := .t9, d := .vec 7, a := .vec 3, b := .vec 4, c := .vec 5 }) = true
    ∧ reads (-3) 7 0 1 (-1086) (-1090) (-1089) 0 [(7, 0), (20, 0)] (.vdiv { ty := .t9, d := .vec 7, a := .vec 3, b := .vec 4 }) = true
    ∧ reads (-3) 7 1 1 (-1086) (-1090) (-1089) 0 [(7, 0), (20, 0)] (.vdivR { ty := .t9, var := 1, d := .vec 7, a := .vec 3, b := .vec 4 }) = true
    ∧ reads (-3) 8 0 1 (-1086) (-1090) (-1089) 0 [(7, 0), (20, 0)] (.vmin { ty := .t9, d := .vec 7, a := .vec 3, b := .vec 4 }) = true
    ∧ reads (-3) 9 0 1 (-1086) (-1090) (-1089) 0 [(7, 0), (20, 0)] (.vmax { ty := .t9, d := .vec 7, a := .vec 3, b := .vec 4 }) = true := by
  decide +kernel

/-- Opcodes of group -3 (R98). -/
theorem test_decode_vector_2 :
    reads (-3) 10 0 1 (-1086) (-1090) (-1089) 0 [(7, 0), (20, 0)] (.vshf { ty := .t9, d := .vec 7, a := .vec 3, b := .vec 4 }) = true
    ∧ reads (-3) 10 1 1 (-1086) (-1090) (-1089) 0 [(7, 0), (20, 0)] (.vshfRot { ty := .t9, var := 1, d := .vec 7, a := .vec 3, b := .vec 4 }) = true
    ∧ reads (-3) 11 0 1 (-1086) (-1090) (-1089) 0 [(7, 0), (20, 0)] (.vtmin { ty := .t9, d := .vec 7, a := .vec 3, b := .vec 4 }) = true
    ∧ reads (-3) 12 0 1 (-1086) (-1090) (-1089) 0 [(7, 0), (20, 0)] (.vtmax { ty := .t9, d := .vec 7, a := .vec 3, b := .vec 4 }) = true
    ∧ reads (-3) 13 0 1 (-1086) (-1090) (-1089) 0 [(7, 0), (20, 0)] (.vtcon { ty := .t9, d := .vec 7, a := .vec 3, b := .vec 4 }) = true
    ∧ reads (-3) 14 0 1 3 (-1090) (-1089) 0 [(7, 0), (20, 0)] (.vcmp { ty := .t9, d := .mask 7, a := .vec 3, b := .vec 4 }) = true
    ∧ reads (-3) 15 0 1 (-1086) (-1090) (-1089) 0 [(7, -1088), (20, 0)] (.vsel { ty := .t9, d := .vec 7, a := .vec 3, b := .vec 4, c := .vec 5 }) = true
    ∧ reads (-3) 16 0 1 (-1086) (-1090) 0 0 [(7, 0), (20, 0)] (.vmov { ty := .t9, d := .vec 7, a := .vec 3 }) = true
    ∧ reads (-3) 17 0 1 (-1086) (-1090) 0 0 [(7, 0), (20, 0)] (.vcnt { ty := .t9, d := .vec 7, a := .vec 3 }) = true
    ∧ reads (-3) 18 0 1 (-1086) (-1090) 0 0 [(7, 0), (20, 0)] (.vlead { ty := .t9, d := .vec 7, a := .vec 3 }) = true := by
  decide +kernel

/-- Opcodes of group -2 (R99). -/
theorem test_decode_float_1 :
    reads (-2) 1 0 3 (-1086) (-1090) (-1089) 0 [(7, 0), (20, 0)] (.fadd { ty := .f27, d := .vec 7, a := .vec 3, b := .vec 4 }) = true
    ∧ reads (-2) 2 0 3 (-1086) (-1090) (-1089) 0 [(7, 0), (20, 0)] (.fsub { ty := .f27, d := .vec 7, a := .vec 3, b := .vec 4 }) = true
    ∧ reads (-2) 3 0 3 (-1086) (-1090) (-1089) 0 [(7, 0), (20, 0)] (.fmul { ty := .f27, d := .vec 7, a := .vec 3, b := .vec 4 }) = true
    ∧ reads (-2) 4 0 3 (-1086) (-1090) (-1089) 0 [(7, -1088), (20, 0)] (.fma { ty := .f27, d := .vec 7, a := .vec 3, b := .vec 4, c := .vec 5 }) = true
    ∧ reads (-2) 5 0 3 (-1086) (-1090) (-1089) 0 [(7, 0), (20, 0)] (.fmin { ty := .f27, d := .vec 7, a := .vec 3, b := .vec 4 }) = true
    ∧ reads (-2) 6 0 3 (-1086) (-1090) (-1089) 0 [(7, 0), (20, 0)] (.fmax { ty := .f27, d := .vec 7, a := .vec 3, b := .vec 4 }) = true
    ∧ reads (-2) 7 0 3 3 (-1090) (-1089) 0 [(7, 0), (20, 0)] (.fcmp { ty := .f27, d := .mask 7, a := .vec 3, b := .vec 4 }) = true
    ∧ reads (-2) 8 0 3 (-1086) (-1090) 0 0 [(7, 0), (20, 0)] (.frcp { ty := .f27, d := .vec 7, a := .vec 3 }) = true
    ∧ reads (-2) 9 0 3 (-1086) (-1090) 0 0 [(7, 0), (20, 0)] (.frsq { ty := .f27, d := .vec 7, a := .vec 3 }) = true
    ∧ reads (-2) 10 0 3 (-1086) (-1090) (-1089) 0 [(7, 0), (20, 0)] (.fscl { ty := .f27, d := .vec 7, a := .vec 3, b := .vec 4 }) = true := by
  decide +kernel

/-- Opcodes of group -2 (R99). -/
theorem test_decode_float_2 :
    reads (-2) 11 0 3 (-1086) (-1090) 0 0 [(7, 0), (20, 0)] (.fcls { ty := .f27, d := .vec 7, a := .vec 3 }) = true := by
  decide +kernel

/-- Opcodes of group -1 (R100). -/
theorem test_decode_conversion :
    reads (-1) 1 0 1 (-1086) (-1090) 0 0 [(7, 0), (20, 0)] (.cvt { ty := .t9, d := .vec 7, a := .vec 3 }) = true
    ∧ reads (-1) 2 0 1 (-1086) (-1090) (-1089) 0 [(7, -1088), (20, 0)] (.pack { ty := .t9, d := .vec 7, a := .vec 3, b := .vec 4, c := .vec 5 }) = true
    ∧ reads (-1) 3 0 1 (-1086) (-1090) 0 0 [(7, 0), (20, 0)] (.unpk { ty := .t9, d := .vec 7, a := .vec 3 }) = true
    ∧ reads (-1) 4 0 (-1) (-1086) (-1090) (-1089) 0 [(7, 0), (20, 0)] (.lmul { ty := .l3, d := .vec 7, a := .vec 3, b := .vec 4 }) = true
    ∧ reads (-1) 5 0 3 (-1086) (-1090) (-1089) 0 [(7, 0), (20, 0)] (.lexp { ty := .f27, d := .vec 7, a := .vec 3, b := .vec 4 }) = true
    ∧ reads (-1) 6 0 3 (-1086) (-1090) (-1089) 0 [(7, 0), (20, 0)] (.lqnt { ty := .f27, d := .vec 7, a := .vec 3, b := .vec 4 }) = true
    ∧ reads (-1) 7 0 (-1) (-1086) (-1090) (-1089) 0 [(7, 0), (20, 0)] (.lcmp { ty := .l3, d := .vec 7, a := .vec 3, b := .vec 4 }) = true := by
  decide +kernel

/-- Opcodes of group 0 (R101). -/
theorem test_decode_cross_lane :
    reads 0 1 0 1 (-1086) (-1090) 489 0 [(7, -1088), (20, 0)] (.slide { ty := .t9, d := .vec 7, a := .vec 3, b := .uni 10, c := .vec 5 }) = true
    ∧ reads 0 1 1 1 (-1086) (-1090) 489 0 [(7, 0), (20, 0)] (.slideEdge { ty := .t9, var := 1, d := .vec 7, a := .vec 3, b := .uni 10 }) = true
    ∧ reads 0 1 (-1) 1 (-1086) (-1090) 489 0 [(7, -1088), (20, 0)] (.slideFill { ty := .t9, var := -1, d := .vec 7, a := .vec 3, b := .uni 10, c := .vec 5 }) = true
    ∧ reads 0 2 0 1 (-1086) (-1090) (-1089) 0 [(7, 0), (20, 0)] (.perm { ty := .t9, d := .vec 7, a := .vec 3, b := .vec 4 }) = true
    ∧ reads 0 3 0 1 (-1086) (-1090) 489 0 [(7, 0), (20, 0)] (.bcast { ty := .t9, d := .vec 7, a := .vec 3, b := .uni 10 }) = true
    ∧ reads 0 4 0 1 (-1086) (-1090) 0 0 [(7, 0), (20, 0)] (.red { ty := .t9, d := .vec 7, a := .vec 3 }) = true
    ∧ reads 0 5 0 1 (-1086) (-1090) 0 0 [(7, 0), (20, 0)] (.scan { ty := .t9, d := .vec 7, a := .vec 3 }) = true
    ∧ reads 0 6 0 1 492 (-1090) 489 0 [(7, 0), (20, 0)] (.vext { ty := .t9, d := .uni 13, a := .vec 3, b := .uni 10 }) = true
    ∧ reads 0 7 0 1 (-1086) 488 489 0 [(7, 0), (20, 0)] (.vins { ty := .t9, d := .vec 7, a := .uni 9, b := .uni 10 }) = true
    ∧ reads 0 8 0 1 (-1086) (-1090) (-1089) 0 [(7, 0), (20, 0)] (.shuf3 { ty := .t9, d := .vec 7, a := .vec 3, b := .vec 4 }) = true := by
  decide +kernel

/-- Opcodes of group 1 (R102). -/
theorem test_decode_memory_1 :
    reads 1 1 0 0 492 488 489 0 [(7, 0), (20, 5)] (.ldn { d := .uni 13, a := .uni 9, b := .uni 10, imm := 5 }) = true
    ∧ reads 1 2 0 0 492 488 489 0 [(7, 0), (20, 5)] (.ldw { d := .uni 13, a := .uni 9, b := .uni 10, imm := 5 }) = true
    ∧ reads 1 3 0 0 0 488 489 0 [(7, 490), (20, 5)] (.stn { a := .uni 9, b := .uni 10, c := .uni 11, imm := 5 }) = true
    ∧ reads 1 4 0 0 0 488 489 0 [(7, 490), (20, 5)] (.stw { a := .uni 9, b := .uni 10, c := .uni 11, imm := 5 }) = true
    ∧ reads 1 5 0 1 (-1086) 488 489 0 [(7, 0), (20, 5)] (.vld { ty := .t9, d := .vec 7, a := .uni 9, b := .uni 10, imm := 5 }) = true
    ∧ reads 1 6 0 1 0 488 489 0 [(7, -1088), (20, 5)] (.vst { ty := .t9, a := .uni 9, b := .uni 10, c := .vec 5, imm := 5 }) = true
    ∧ reads 1 7 0 1 (-1086) 488 489 0 [(7, 0), (20, 5)] (.vlds { ty := .t9, d := .vec 7, a := .uni 9, b := .uni 10, imm := 5 }) = true
    ∧ reads 1 8 0 1 0 488 489 0 [(7, -1088), (20, 5)] (.vsts { ty := .t9, a := .uni 9, b := .uni 10, c := .vec 5, imm := 5 }) = true
    ∧ reads 1 9 0 1 (-1086) 488 (-1089) 0 [(7, 0), (20, 5)] (.gath { ty := .t9, d := .vec 7, a := .uni 9, b := .vec 4, imm := 5 }) = true
    ∧ reads 1 10 0 1 0 488 (-1089) 0 [(7, -1088), (20, 5)] (.scat { ty := .t9, a := .uni 9, b := .vec 4, c := .vec 5, imm := 5 }) = true := by
  decide +kernel

/-- Opcodes of group 1 (R102). -/
theorem test_decode_memory_2 :
    reads 1 11 0 0 3 488 489 0 [(7, 0), (20, 5)] (.xld { d := .xreg 7, a := .uni 9, b := .uni 10, imm := 5 }) = true
    ∧ reads 1 12 0 0 0 488 (-1089) 0 [(7, 0), (20, 5)] (.pref { a := .uni 9, b := .vec 4, imm := 5 }) = true
    ∧ reads 1 12 1 0 0 488 (-1089) 0 [(7, 0), (20, 5)] (.prefSc { var := 1, a := .uni 9, b := .vec 4, imm := 5 }) = true := by
  decide +kernel

/-- Opcodes of group 2 (R103). -/
theorem test_decode_atomic_ordering_1 :
    reads 2 1 0 1 (-1086) 488 (-1089) 0 [(7, -1088), (20, 5)] (.aadd { ty := .t9, d := .vec 7, a := .uni 9, b := .vec 4, c := .vec 5, imm := 5 }) = true
    ∧ reads 2 2 0 1 (-1086) 488 (-1089) 0 [(7, -1088), (20, 5)] (.amin { ty := .t9, d := .vec 7, a := .uni 9, b := .vec 4, c := .vec 5, imm := 5 }) = true
    ∧ reads 2 3 0 1 (-1086) 488 (-1089) 0 [(7, -1088), (20, 5)] (.amax { ty := .t9, d := .vec 7, a := .uni 9, b := .vec 4, c := .vec 5, imm := 5 }) = true
    ∧ reads 2 4 0 3 (-1086) 488 (-1089) 0 [(7, -1088), (20, 5)] (.afadd { ty := .f27, d := .vec 7, a := .uni 9, b := .vec 4, c := .vec 5, imm := 5 }) = true
    ∧ reads 2 5 0 3 (-1086) 488 (-1089) 0 [(7, -1088), (20, 5)] (.afmin { ty := .f27, d := .vec 7, a := .uni 9, b := .vec 4, c := .vec 5, imm := 5 }) = true
    ∧ reads 2 6 0 3 (-1086) 488 (-1089) 0 [(7, -1088), (20, 5)] (.afmax { ty := .f27, d := .vec 7, a := .uni 9, b := .vec 4, c := .vec 5, imm := 5 }) = true
    ∧ reads 2 7 0 1 (-1086) 488 (-1089) 0 [(7, -1088), (20, 5)] (.axch { ty := .t9, d := .vec 7, a := .uni 9, b := .vec 4, c := .vec 5, imm := 5 }) = true
    ∧ reads 2 8 0 1 (-1086) 488 (-1089) 0 [(7, -1088), (20, 5)] (.acas { ty := .t9, d := .vec 7, a := .uni 9, b := .vec 4, c := .vec 5, imm := 5 }) = true
    ∧ reads 2 9 0 0 0 0 0 0 [(7, 0), (20, 0)] (.drain {}) = true
    ∧ reads 2 9 1 0 0 488 0 0 [(27, 5)] (.drainBar { var := 1, a := .uni 9, imm := 5 }) = true := by
  decide +kernel

/-- Opcodes of group 2 (R103). -/
theorem test_decode_atomic_ordering_2 :
    reads 2 10 1 0 492 0 0 0 [(7, 0), (20, 0)] (.batchSeal { var := 1, d := .uni 13 }) = true
    ∧ reads 2 10 (-1) 0 0 488 0 0 [(7, 0), (20, 0)] (.batchWait { var := -1, a := .uni 9 }) = true
    ∧ reads 2 11 0 0 0 488 0 0 [(27, 5)] (.icinv { a := .uni 9, imm := 5 }) = true
    ∧ reads 2 11 1 0 0 0 0 0 [(7, 0), (20, 0)] (.icinvAll { var := 1 }) = true
    ∧ reads 2 12 0 0 492 488 489 0 [(27, 5)] (.iclock { d := .uni 13, a := .uni 9, b := .uni 10, imm := 5 }) = true
    ∧ reads 2 12 (-1) 0 492 488 489 0 [(27, 5)] (.iclockUn { var := -1, d := .uni 13, a := .uni 9, b := .uni 10, imm := 5 }) = true
    ∧ reads 2 13 0 0 0 0 0 0 [(7, 0), (20, 0)] (.fence {}) = true
    ∧ reads 2 13 1 0 0 0 0 0 [(7, 0), (20, 0)] (.fenceNs { var := 1 }) = true := by
  decide +kernel

/-- Opcodes of group 3 (R104). -/
theorem test_decode_engine_1 :
    reads 3 1 0 0 492 488 489 0 [(7, 490), (20, 5)] (.copy { d := .uni 13, a := .uni 9, b := .uni 10, c := .uni 11, imm := 5 }) = true
    ∧ reads 3 2 0 0 492 488 489 0 [(7, 490), (20, 5)] (.cmpb { d := .uni 13, a := .uni 9, b := .uni 10, c := .uni 11, imm := 5 }) = true
    ∧ reads 3 3 0 0 0 488 489 0 [(7, 0), (20, 0)] (.link { a := .uni 9, b := .uni 10 }) = true
    ∧ reads 3 4 0 0 492 488 489 0 [(7, 490), (20, 5)] (.bin { d := .uni 13, a := .uni 9, b := .uni 10, c := .uni 11, imm := 5 }) = true
    ∧ reads 3 5 0 0 492 488 0 0 [(7, 0), (20, 0)] (.rels { d := .uni 13, a := .uni 9 }) = true
    ∧ reads 3 6 0 1 492 488 489 0 [(7, 0), (20, 5)] (.mmul { ty := .t9, d := .uni 13, a := .uni 9, b := .uni 10, imm := 5 }) = true
    ∧ reads 3 6 1 1 492 488 489 0 [(7, 490), (20, 5)] (.mmulNode { ty := .t9, var := 1, d := .uni 13, a := .uni 9, b := .uni 10, c := .uni 11, imm := 5 }) = true
    ∧ reads 3 7 0 0 0 488 0 0 [(7, 0), (20, 0)] (.azero { a := .uni 9 }) = true
    ∧ reads 3 8 0 0 (-1086) 488 489 0 [(7, 0), (20, 0)] (.ard { d := .vec 7, a := .uni 9, b := .uni 10 }) = true
    ∧ reads 3 9 0 0 0 488 489 0 [(7, -1088), (20, 0)] (.awr { a := .uni 9, b := .uni 10, c := .vec 5 }) = true := by
  decide +kernel

/-- Opcodes of group 3 (R104). -/
theorem test_decode_engine_2 :
    reads 3 10 0 0 0 488 489 0 [(7, 0), (20, 0)] (.asave { a := .uni 9, b := .uni 10 }) = true
    ∧ reads 3 11 0 0 0 488 489 0 [(7, 0), (20, 0)] (.arst { a := .uni 9, b := .uni 10 }) = true
    ∧ reads 3 12 0 3 0 488 489 0 [(7, 490), (20, 0)] (.bqnt { ty := .f27, a := .uni 9, b := .uni 10, c := .uni 11 }) = true
    ∧ reads 3 13 0 3 0 488 489 0 [(7, 490), (20, 0)] (.bdq { ty := .f27, a := .uni 9, b := .uni 10, c := .uni 11 }) = true := by
  decide +kernel

/-- Opcodes of group 4 (R105). -/
theorem test_decode_waiting_system_1 :
    reads 4 1 0 0 0 0 489 0 [(27, 5)] (.send { b := .uni 10, imm := 5 }) = true
    ∧ reads 4 2 0 0 492 0 0 0 [(27, 5)] (.recv { d := .uni 13, imm := 5 }) = true
    ∧ reads 4 3 0 0 0 488 0 0 [(27, 5)] (.bar { a := .uni 9, imm := 5 }) = true
    ∧ reads 4 3 1 0 0 488 0 0 [(27, 5)] (.barArr { var := 1, a := .uni 9, imm := 5 }) = true
    ∧ reads 4 4 0 0 0 488 489 0 [(27, 5)] (.park { a := .uni 9, b := .uni 10, imm := 5 }) = true
    ∧ reads 4 5 0 0 492 488 489 0 [(27, 5)] (.wake { d := .uni 13, a := .uni 9, b := .uni 10, imm := 5 }) = true
    ∧ reads 4 6 0 0 492 0 489 0 [(27, 5)] (.grow { d := .uni 13, b := .uni 10, imm := 5 }) = true
    ∧ reads 4 7 0 0 492 0 489 0 [(27, 5)] (.shrink { d := .uni 13, b := .uni 10, imm := 5 }) = true
    ∧ reads 4 9 0 0 492 488 0 0 [(27, 5)] (.launch { d := .uni 13, a := .uni 9, imm := 5 }) = true
    ∧ reads 4 10 1 0 492 488 489 0 [(27, 5)] (.capEnter { var := 1, d := .uni 13, a := .uni 9, b := .uni 10, imm := 5 }) = true := by
  decide +kernel

/-- Opcodes of group 4 (R105). -/
theorem test_decode_waiting_system_2 :
    reads 4 10 (-1) 0 0 0 0 0 [(7, 0), (20, 0)] (.capLeave { var := -1 }) = true
    ∧ reads 4 11 0 0 492 488 489 0 [(7, 0), (20, 0)] (.map { d := .uni 13, a := .uni 9, b := .uni 10 }) = true
    ∧ reads 4 12 0 0 492 488 0 0 [(7, 0), (20, 0)] (.unmap { d := .uni 13, a := .uni 9 }) = true
    ∧ reads 4 13 0 0 0 488 489 0 [(27, 5)] (.pkset { a := .uni 9, b := .uni 10, imm := 5 }) = true
    ∧ reads 4 14 0 0 (-1086) 488 0 0 [(27, 5)] (.pkrd { d := .vec 7, a := .uni 9, imm := 5 }) = true
    ∧ reads 4 15 0 0 0 488 0 0 [(27, 5)] (.trap { a := .uni 9, imm := 5 }) = true
    ∧ reads 4 16 0 0 0 0 0 0 [(7, 0), (20, 0)] (.tret {}) = true
    ∧ reads 4 16 1 0 0 0 0 0 [(7, 0), (20, 0)] (.tretSkip { var := 1 }) = true
    ∧ reads 4 17 0 0 0 0 0 0 [(7, 0), (20, 0)] (.tkill {}) = true
    ∧ reads 4 18 0 0 (-1086) 488 0 0 [(27, 5)] (.frec { d := .vec 7, a := .uni 9, imm := 5 }) = true := by
  decide +kernel

/-- Opcodes of group 4 (R105). -/
theorem test_decode_waiting_system_3 :
    reads 4 19 1 0 0 0 0 0 [(7, 0), (20, 0)] (.dstepOn { var := 1 }) = true
    ∧ reads 4 19 (-1) 0 0 0 0 0 [(7, 0), (20, 0)] (.dstepOff { var := -1 }) = true
    ∧ reads 4 20 0 0 0 0 0 0 [(7, 0), (20, 0)] (.commit {}) = true
    ∧ reads 4 21 1 0 0 0 0 0 [(7, 0), (20, 0)] (.pairCk { var := 1 }) = true
    ∧ reads 4 22 1 0 0 488 489 0 [(27, 5)] (.einjCorr { var := 1, a := .uni 9, b := .uni 10, imm := 5 }) = true
    ∧ reads 4 22 2 0 0 488 0 0 [(27, 5)] (.einjUnc { var := 2, a := .uni 9, imm := 5 }) = true
    ∧ reads 4 22 3 0 0 488 0 0 [(27, 5)] (.einjLink { var := 3, a := .uni 9, imm := 5 }) = true
    ∧ reads 4 22 4 0 0 0 0 0 [(7, 0), (20, 0)] (.einjSig { var := 4 }) = true := by
  decide +kernel

/-- Worked encodings of the spec: R95's VADD.T9, the BR.U and UADD of R137's and R130's examples, VLD.T27, VDOT3.T9,
CVT.S0.T9 and FENCE.PKG. -/
theorem test_decode_worked :
    (decode x0 (-2531402250762) (-3788386465437) 0).toOption = some (.vadd {
        ty := .t9, mask := 1, cond := .gt, la := 2, clamp := .sat, modB := .neg, d := .vec 7, a := .vec 3, b := .vec 4 })
    ∧ (decode x0 (-3232122094710) 797161500 (-2)).toOption = some (.brU { var := 3, cond := .gt, a := .uni 21, imm := -2 })
    ∧ (decode x0 (-3375209454363) 1709302386114 27).toOption = some (.uadd { var := 81, d := .uni 11, a := .uni 9, imm := 27 })
    ∧ (decode x0 899588221263 (-3792851016714) 27).toOption = some (.vld { d := .vec 5, a := .uni 4, b := .uni 6, imm := 27 })
    ∧ (decode x0 (-2479101079608) (-3784902871140) (-3783161075085)).toOption = some (.vdot3 {
        ty := .t9, clamp := .sat, d := .vec 8, a := .vec 1, b := .vec 2, c := .vec 8 })
    ∧ (decode x0 1831334497308 0 0).toOption = some (.fence { var := 18 }) := by
  decide +kernel

/-- The first check of R107 that fails gives the sub-code. -/
theorem test_decode_refusals :
    refusal x0 0 0 0 = 1
    ∧ refusal x0 (wordOfFields [(6, 332), (5, 0), (2, 0), (2, -4), (2, 0), (3, -13), (7, 0)]) 0 0 = 2
    ∧ refusal x0 (wordOfFields [(6, -305), (5, 1), (2, 0), (2, -4), (2, 0), (3, -13), (7, 0)]) 0 0 = 4
    ∧ refusal x0 (wordOfFields [(6, -305), (5, 0), (2, 2), (2, -4), (2, 0), (3, -13), (7, 0)]) 0 0 = 5
    ∧ refusal x0 (wordOfFields [(6, -305), (5, 0), (2, 1), (2, -4), (2, 0), (3, -13), (7, 0)]) 0 0 = 6
    ∧ refusal x0 (wordOfFields [(6, -305), (5, 0), (2, 0), (2, -4), (2, 4), (3, -13), (7, 0)]) 0 0 = 7
    ∧ refusal x0 (wordOfFields [(6, -305), (5, 0), (2, 0), (2, -3), (2, 0), (3, -13), (7, 0)]) 0 0 = 8
    ∧ refusal x0 (wordOfFields [(6, -305), (5, 0), (2, 0), (2, -4), (2, 1), (3, -13), (7, 0)]) 0 0 = 9
    ∧ refusal x0 (wordOfFields [(6, -305), (5, 0), (2, 0), (2, -4), (2, 0), (3, -13), (7, 0)]) 0 1 = 10
    ∧ refusal x0 (wordOfFields [(6, -305), (5, 0), (2, 0), (2, -4), (2, 0), (3, -13), (1, 1), (6, 0)]) 0 0 = 12
    ∧ refusal x0 (wordOfFields [(6, -323), (5, 0), (2, 0), (2, -4), (2, 0), (3, -13), (7, 0)])
        (wordOfFields [(7, 492), (7, 800), (7, 489), (6, 0)]) 0 = 13
    ∧ refusal x0 (wordOfFields [(6, -323), (5, 0), (2, 0), (2, -4), (2, 0), (3, -13), (7, 0)])
        (wordOfFields [(7, 492), (7, -1000), (7, 489), (6, 0)]) 0 = 14
    ∧ refusal x0 (wordOfFields [(6, -323), (5, 0), (2, 0), (2, -4), (2, 0), (3, -13), (7, 0)])
        (wordOfFields [(7, 730), (7, 488), (7, 489), (6, 0)]) 0 = 15
    ∧ refusal { x0 with grant := 27 } (wordOfFields [(6, -242), (5, 0), (2, 0), (2, -4), (2, 0), (3, -13), (7, 0)])
        (wordOfFields [(7, -1066), (7, -1092), (7, -1092), (6, 0)]) 0 = 16
    ∧ refusal x0 (wordOfFields [(6, 82), (5, 0), (2, 0), (2, -4), (2, 0), (3, -13), (7, 0)])
        (wordOfFields [(7, 492), (7, 0), (7, 489), (6, -27)]) 0 = 11
    ∧ refusal x0 (wordOfFields [(6, 82), (5, 0), (2, 0), (2, -4), (2, 0), (3, -13), (7, 0)])
        (wordOfFields [(7, 492), (7, 488), (7, 489), (6, -27)]) 0 = 10
    ∧ refusal x0 (wordOfFields [(6, -298), (5, 0), (2, 0), (2, -4), (2, 0), (3, -13), (7, 0)]) 0 (3 ^ 8) = 17
    ∧ refusal x0 (wordOfFields [(6, -298), (5, 0), (2, 0), (2, -4), (2, 0), (3, -13), (7, 0)]) 0 (-1) = 18 := by
  decide +kernel

/-! ### Well-formedness -/

/-- One ill-formed term for each check. -/
theorem test_wellFormed :
    wellFormed x0 (.uadd { d := .uni 1, a := .uni 2, b := .uni 3 }) = true
    ∧ wellFormed x0 (.uadd { var := 2, d := .uni 1, a := .uni 2, b := .uni 3 }) = false
    ∧ wellFormed x0 (.uadd { ty := .t9, d := .uni 1, a := .uni 2, b := .uni 3 }) = false
    ∧ wellFormed x0 (.uadd { mask := 1, d := .uni 1, a := .uni 2, b := .uni 3 }) = false
    ∧ wellFormed x0 (.vadd { mask := 9, cond := .gt, d := .vec 1, a := .vec 2, b := .vec 3 }) = false
    ∧ wellFormed x0 (.uadd { la := 27, d := .uni 1, a := .uni 2, b := .uni 3 }) = false
    ∧ wellFormed x0 (.uadd { aux := 1, d := .uni 1, a := .uni 2, b := .uni 3 }) = false
    ∧ wellFormed x0 (.uadd { imm := 1, d := .uni 1, a := .uni 2, b := .uni 3 }) = false
    ∧ wellFormed x0 (.uadd { var := 81, imm := 3812798742494, d := .uni 1, a := .uni 2 }) = false
    ∧ wellFormed x0 (.statc { imm := -1 }) = false
    ∧ wellFormed x0 (.umulH { var := 1, modA := .neg, d := .uni 1, a := .uni 2, b := .uni 3 }) = true
    ∧ wellFormed x0 (.exit { modA := .neg }) = false ∧ wellFormed x0 (.exit { modB := .neg }) = false
    ∧ wellFormed x0 (.exit { modC := .abs }) = false ∧ wellFormed x0 (.exit { clamp := .sat }) = false
    ∧ wellFormed x0 (.exit { scale := 1 }) = false
    ∧ wellFormed x0 (.uadd { scale := 5, d := .uni 1, a := .uni 2, b := .uni 3 }) = false
    ∧ wellFormed x0 (.uadd { d := .vec 1, a := .uni 2, b := .uni 3 }) = false
    ∧ wellFormed x0 (.uadd { d := .const 1, a := .uni 2, b := .uni 3 }) = false
    ∧ wellFormed x0 (.uadd { d := .uni 243, a := .uni 2, b := .uni 3 }) = false
    ∧ wellFormed x0 (.uadd { d := .uni 1, a := .vec 2, b := .uni 3 }) = false
    ∧ wellFormed x0 (.uadd { d := .uni 1, a := .uni 2, b := .mask 3 }) = false
    ∧ wellFormed x0 (.usel { d := .uni 1, a := .uni 2, b := .uni 3 }) = false
    ∧ wellFormed { x0 with grant := 27 } (.vadd { d := .vec 27, a := .vec 2, b := .vec 3 }) = false := by
  decide +kernel

/-! ### Effects that the spec works out -/

/-- R8's and R23's examples, and R131's division of R131 with ties toward zero. -/
theorem test_arithmetic :
    trunc 1 7 = 2 ∧ wrap 9 9842 = -9841 ∧ sat 9 9842 = 9841 ∧ ofTrits [1, 1, 1, 1, 1, 1, 1, 1, 1] = 9841
    ∧ divNear 7 2 = 3 ∧ divNear (-7) 2 = -3 ∧ divNear 8 3 = 3 ∧ (intDest 9 .unit (-1) 14).1 = 1
    ∧ nonetOf 1000000 0 = -3833 ∧ nonetOf 1000000 1 = 51 ∧ halfword (-3833) = 0xF107 := by
  decide +kernel

/-- FIPS 180-4's example, the message abc (R389). -/
theorem test_sha512_abc : (sha512 [97, 98, 99]).take 4 = [221, 175, 53, 161] := by decide +kernel

end Sys2Proof.Tests
end

