-- ==== Sys2Proof/Tests/WitnessA.lean ====
section
/-! SUPPORT. Concrete states and operands that meet the hypotheses of the statements about arithmetic, masks, branches and memory
accesses. -/

namespace Sys2Proof.Tests

open Sys2Proof.Machine

set_option Elab.async false

def fUni : Fields := { d := .uni 13, a := .uni 9, b := .uni 10 }
def fVec : Fields := { d := .vec 7, a := .vec 3, b := .vec 4 }

/-! ### Arithmetic, masks and machine state -/

theorem witness_UniformResult : ∃ i op f s r v, codedOf i = some (op, f) ∧ uniformValue i r s = some v ∧ Clear s r op f
    ∧ ((isUni f.d = true ∧ r.gang.parted = false) ∨ isK f.d = true) :=
  ⟨.uadd fUni, .uadd, fUni, placed (.uadd fUni), run0 (placed (.uadd fUni)), _, rfl, rfl, clear_of (by decide +kernel),
    by decide +kernel⟩

theorem witness_VectorResult : ∃ i op f s r v, codedOf i = some (op, f) ∧ vectorValue i r s = some v ∧ Clear s r op f
    ∧ isVectorDest f.d = true :=
  ⟨.vadd fVec, .vadd, fVec, placed (.vadd fVec), run0 (placed (.vadd fVec)), _, rfl, rfl, clear_of (by decide +kernel), rfl⟩

def fFloat : Fields := { fVec with ty := .f27 }

theorem witness_FloatResult : ∃ i op f s r v, codedOf i = some (op, f) ∧ floatValue i r s = some v ∧ Clear s r op f
    ∧ isVectorDest f.d = true :=
  ⟨.fadd fFloat, .fadd, fFloat, placed (.fadd fFloat), run0 (placed (.fadd fFloat)), _, rfl, rfl, clear_of (by decide +kernel),
    rfl⟩

def fRed : Fields := { d := .vec 7, a := .vec 3 }

theorem witness_ReduceResult : ∃ i op f s r, (i = .red f ∨ i = .scan f) ∧ codedOf i = some (op, f) ∧ Clear s r op f
    ∧ isVectorDest f.d = true :=
  ⟨.red fRed, .red, fRed, placed (.red fRed), run0 (placed (.red fRed)), .inl rfl, rfl, clear_of (by decide +kernel), rfl⟩

def fSlide : Fields := { d := .vec 7, a := .vec 3, b := .uni 10, c := .vec 5 }

theorem witness_MoveResult_slide : ∃ i op f s r g, codedOf i = some (op, f) ∧ movedElem i r s = some g ∧ Clear s r op f
    ∧ isVectorDest f.d = true :=
  ⟨.slide fSlide, .slide, fSlide, placed (.slide fSlide), run0 (placed (.slide fSlide)), _, rfl, rfl,
    clear_of (by decide +kernel), rfl⟩

def fVins : Fields := { d := .vec 7, a := .uni 9, b := .uni 10 }

theorem witness_MoveResult_vins : ∃ f s r, Clear s r .vins f ∧ isVectorDest f.d = true :=
  ⟨fVins, placed (.vins fVins), run0 (placed (.vins fVins)), clear_of (by decide +kernel), rfl⟩

def fMask : Fields := { d := .mask 2, a := .mask 1, b := .mask 3 }

theorem witness_MaskResult : ∃ i op f s r p v n, codedOf i = some (op, f) ∧ maskValue i r s = some (p, v) ∧ Clear s r op f
    ∧ f.d = .mask n :=
  ⟨.mlogMin fMask, .mlogMin, fMask, placed (.mlogMin fMask), run0 (placed (.mlogMin fMask)), _, _, 2, rfl, rfl,
    clear_of (by decide +kernel), rfl⟩

def fCycle : Fields := { d := .uni 13 }

theorem witness_StateWordResult : ∃ i op f s r w g, codedOf i = some (op, f) ∧ stateWord i r s = some (w, g) ∧ Clear s r op f
    ∧ ((isUni f.d = true ∧ r.gang.parted = false) ∨ isVectorDest f.d = true) :=
  ⟨.cycle fCycle, .cycle, fCycle, placed (.cycle fCycle), run0 (placed (.cycle fCycle)), _, _, rfl, rfl,
    clear_of (by decide +kernel), by decide +kernel⟩

/-! ### Branches -/

def fRet (v : Int) : Fields := { a := .uni 9, imm := v }

theorem witness_BranchResult : ∃ i op f s r target taken, codedOf i = some (op, f) ∧ branchOf i r s = some (target, taken)
    ∧ Clear s r op f ∧ (target % 9 = 0 ∨ ∀ j ∈ r.part.slices, taken j = false)
    ∧ (i = .call f → r.gang.parted = false ∧ isUni f.d = true) :=
  ⟨.ret (fRet 1), .ret, fRet 1, placed (.ret (fRet 1)), run0 (placed (.ret (fRet 1))), _, _, rfl, rfl,
    clear_of (by decide +kernel), .inl (by decide +kernel), fun h => nomatch h⟩

def sRet : State := withUni (placed (.ret (fRet 0))) 9 1

theorem witness_BranchResult_trap : ∃ i op f s r target taken, codedOf i = some (op, f)
    ∧ branchOf i r s = some (target, taken) ∧ Clear s r op f ∧ r.band.pair = none ∧ owes s r = false ∧ target % 9 ≠ 0
    ∧ (∃ j ∈ r.part.slices, taken j = true) ∧ (i = .call f → r.gang.parted = false) :=
  ⟨.ret (fRet 0), .ret, fRet 0, sRet, run0 sRet, _, _, rfl, rfl, clear_of (by decide +kernel), by decide +kernel,
    by decide +kernel, by decide +kernel, ⟨0, by decide +kernel, rfl⟩, fun h => nomatch h⟩

/-! ### Memory accesses -/

def fLoad : Fields := { d := .uni 13, a := .uni 9, b := .uni 10, imm := 300 }
def sLoad : State := placed (.ldw fLoad)
def cLoad : Checked := checkElems sLoad (run0 sLoad).who (baseXreg (run0 sLoad) fLoad) .read true
  (accessElems (run0 sLoad) fLoad .uniform true (memOperands (run0 sLoad) sLoad fLoad
    (fun _ => List.replicate 27 (readWord (run0 sLoad) sLoad 1 fLoad.b)) fun _ => []))

theorem witness_LoadResult : ∃ i op f s r log form word ps ls, codedOf i = some (op, f)
    ∧ [Op.ldn, .ldw, .vld, .vlds, .gath].contains op = true ∧ accessLog i r s = some (log, f, form, word) ∧ Clear s r op f
    ∧ accessOk s r f form word log .read ps ls
    ∧ (if form = .uniform then (isUni f.d = true ∧ r.gang.parted = false) ∨ isK f.d = true else isVectorDest f.d = true)
    ∧ (s.slow = false ∨ ps.flatten.any isRemote = false) ∧ pendingStore s r ps.flatten = false
    ∧ poisonOf (afterReads (walkedState s r (accessElems r f form word log)) r ps.flatten ls) r.who (form == .uniform) ((accessElems r f form word log).zip ps) = none :=
  ⟨.ldw fLoad, .ldw, fLoad, sLoad, run0 sLoad, _, .uniform, true, placesOf cLoad, leavesOf cLoad, rfl, rfl, rfl,
    clear_of (by decide +kernel), ⟨by decide +kernel, fun h => absurd rfl h, by decide +kernel⟩, by decide +kernel, .inl rfl,
    by decide +kernel, by decide +kernel⟩

theorem witness_AccessRules : ∃ s r ps ls p, s.run r.id = some r ∧ pteNonet ls p = false ∧ foreignNonet s r.id.band p = false
    ∧ ps = [p] :=
  ⟨sLoad, run0 sLoad, [.dev 5], leavesOf cLoad, .dev 5, by decide +kernel, by decide +kernel, by decide +kernel, rfl⟩

theorem witness_AccessRules_misaligned : ∃ (es : List Elem) (e : Elem), es.find? (fun e => decide (e.addr % 3 ≠ 0)) = some e :=
  ⟨[wordElem 0 301 0], wordElem 0 301 0, rfl⟩

def fStore : Fields := { a := .uni 9, b := .uni 10, c := .uni 11, imm := 300 }
def sStore : State := placed (.stw fStore)
def cStore : Checked := checkElems sStore (run0 sStore).who (baseXreg (run0 sStore) fStore) .write true
  (accessElems (run0 sStore) fStore .uniform true (memOperands (run0 sStore) sStore fStore
    (fun _ => List.replicate 27 (readWord (run0 sStore) sStore 1 fStore.b))
    fun _ => List.replicate 27 (readWord (run0 sStore) sStore 2 fStore.c)))

theorem witness_StoreResult : ∃ i op f s r log form word ps ls, codedOf i = some (op, f)
    ∧ [Op.stn, .stw, .vst, .vsts, .scat].contains op = true ∧ accessLog i r s = some (log, f, form, word) ∧ Clear s r op f
    ∧ accessOk s r f form word log .write ps ls ∧ s.slow = false ∧ r.band.pair = none ∧ portsUp s ps.flatten :=
  ⟨.stw fStore, .stw, fStore, sStore, run0 sStore, _, .uniform, true, placesOf cStore, leavesOf cStore, rfl, rfl, rfl,
    clear_of (by decide +kernel), ⟨by decide +kernel, fun h => absurd rfl h, by decide +kernel⟩, rfl, by decide +kernel,
    fun p hp => by
      have h : ((placesOf cStore).flatten.all fun p => match p with | .host _ | .peer _ _ _ => false | _ => true) = true := by
        decide +kernel
      have := List.all_eq_true.1 h p hp
      refine ⟨fun n e => ?_, fun q n b e => ?_⟩ <;> subst e <;> cases this⟩

theorem witness_AtomicResult_one : ∃ (s : State) (r : Run) (p : Place) (fn : Int → Int × Effects), s.run r.id = some r ∧ r.band.pair = none ∧ specOf r.band r.id.gang = none
    ∧ placeClass p ≠ 2 ∧ (∀ u n far, p = .scr u n far → (s.band u).isSome = true) ∧ foreignNonet s r.id.band p = false
    ∧ ∀ x : Int, inTrits 9 (fn x).1 = true :=
  ⟨sStore, run0 sStore, .dev 5, fun _ => (0, Effects.none), by decide +kernel, by decide +kernel, by decide +kernel, by decide +kernel,
    fun _ _ _ h => (by cases h), by decide +kernel, fun _ => rfl⟩

/-- The same of a nonet of the band's own scratchpad. -/
theorem witness_AtomicResult_scratch : ∃ (s : State) (r : Run) (p : Place) (fn : Int → Int × Effects), s.run r.id = some r
    ∧ r.band.pair = none ∧ specOf r.band r.id.gang = none
    ∧ placeClass p ≠ 2 ∧ (∀ u n far, p = .scr u n far → (s.band u).isSome = true) ∧ foreignNonet s r.id.band p = false
    ∧ ∀ x : Int, inTrits 9 (fn x).1 = true :=
  ⟨sStore, run0 sStore, .scr 1 80 false, fun _ => (1, Effects.none), by decide +kernel, by decide +kernel, by decide +kernel,
    by decide +kernel, fun u n far h => (by cases h; decide +kernel), by decide +kernel, fun _ => rfl⟩

def fAtom : Fields := { d := .vec 7, a := .uni 9, b := .vec 4, c := .vec 5, imm := 300 }
def sAtom : State := placed (.aadd fAtom)

theorem witness_AtomicResult : ∃ (i : Instr) (op : Op) (f : Fields) (s : State) (r : Run)
    (fn : Int → Int → Int → Int × Effects) (ps : List (List Place)) (ls : List Leaf), codedOf i = some (op, f)
    ∧ atomicValue i = some (f, fn) ∧ Clear s r op f ∧ r.band.pair = none ∧ r.band.copy = .unpaired ∧
    (let form : MemForm := if trit f.var 4 = 1 then .uniform else .gathered
     let word := wordType f.ty
     let log := memOperands r s f (fun _ => offsetLanes r s f form) fun _ =>
       readLanes r s f.ty 2 f.c ++ readLanes r s .t27 3 f.d
     let act := if form = .uniform then [3 * r.id.part] else log.active
     let es := act.flatMap fun l => laneElements form word log.base (lane log.offset l) f.imm l
     let flat := (es.zip ps).flatMap (·.2)
     let s0 := markLeaves (walkedState s r es) ls 2
     let s1 := prepare (countIngress (touchRemote r s0 flat) flat) r.who flat true true
     let expects (x : LogWord) : Bool := op == .acas || match x with | .data l => decide (l < 27) | _ => true
     badLog form { log with bad := log.bad.filter expects } = false
       ∧ checkElems (walkedState s r es) r.who (memXreg r f) .atomic word es = .ok ps ls
       ∧ (s.slow = false ∨ ps.flatten.any isRemote = false)
       ∧ poisonOf s1 r.who (form == .uniform) (es.zip ps) = none
       ∧ if form = .uniform then isUni f.d = true ∧ r.gang.parted = false else isVectorDest f.d = true) := by
  let r := run0 sAtom
  let log := memOperands r sAtom fAtom (fun _ => offsetLanes r sAtom fAtom .gathered) fun _ =>
       readLanes r sAtom .t27 2 fAtom.c ++ readLanes r sAtom .t27 3 fAtom.d
  let es := log.active.flatMap fun l => laneElements .gathered true log.base (lane log.offset l) fAtom.imm l
  let x := checkElems sAtom r.who (baseXreg r fAtom) .atomic true es
  exact ⟨.aadd fAtom, .aadd, fAtom, sAtom, r, _, placesOf x, leavesOf x, rfl, rfl, clear_of (by decide +kernel),
    by decide +kernel, by decide +kernel, by decide +kernel⟩

end Sys2Proof.Tests
end

