-- ==== Sys2Proof/Tests/WitnessB.lean ====
section
/-! SUPPORT. Concrete states and operands that meet the hypotheses of the statements about waiting, channels, barriers, grants,
gang state, traps and returns. -/

namespace Sys2Proof.Tests

open Sys2Proof.Machine

set_option Elab.async false

/-! ### Waits -/

theorem witness_WaitResult : ∃ i op f s r, codedOf i = some (op, f) ∧ Clear s r op f ∧ nothingToAwait i r s :=
  ⟨.regang {}, .regang, {}, placed (.regang {}), run0 (placed (.regang {})), rfl, clear_of (by decide +kernel),
    show _ = _ by decide +kernel⟩

def sDrained : State := waiting (placed (.drain {})) (.drain 0 none)

theorem witness_WaitResult_ends : ∃ e s r, endsWait e s r :=
  ⟨.drainComplete p0, sDrained, run0 sDrained, by decide +kernel, 0, waits_of (by decide +kernel), by decide +kernel⟩

def waitOf (w : Wait) : State := waiting (placed (.drain {})) w

theorem witness_WaitResult_icinv : endsWait (.icinvComplete p0) (waitOf (.icinv 0 .all)) (run0 (waitOf (.icinv 0 .all))) :=
  ⟨by decide +kernel, 0, .all, waits_of (by decide +kernel), by decide +kernel⟩

theorem witness_WaitResult_fence : endsWait (.fenceComplete p0) (waitOf (.fence 0)) (run0 (waitOf (.fence 0))) :=
  ⟨by decide +kernel, ⟨0, waits_of (by decide +kernel)⟩, by decide +kernel, by decide +kernel⟩

theorem witness_WaitResult_batch : endsWait (.batchWaitComplete p0) (waitOf (.batch 0)) (run0 (waitOf (.batch 0))) :=
  ⟨by decide +kernel, 0, waits_of (by decide +kernel), fun n hn => by
    rw [show (run0 (waitOf (.batch 0))).band.nodes = [] by decide +kernel] at hn; cases hn⟩

theorem witness_WaitResult_timeout :
    endsWait (.parkTimeout p0) (waitOf (.parkPoll 0 0 59049 243)) (run0 (waitOf (.parkPoll 0 0 59049 243))) :=
  ⟨by decide +kernel, 0, 0, 59049, 243, waits_of (by decide +kernel), by decide⟩

def sDrain : State := withGang (placed (.drain {})) fun g => { g with acks := 1 }

/-- A store of the part that no acknowledgement has come for. -/
def ownStore (id : Nat) : Req :=
  { id := id, part := p0, kind := .store, instr := .stw {}, elems := [], done := true, poison := none }

def sOwes (i : Instr) : State := { withGang (placed i) fun g => { g with acks := 1 } with reqs := [ownStore 3] }
def fNs : Fields := { var := 18 }

theorem witness_WaitResult_waits : ∃ (i : Instr) (op : Op) (f : Fields) (s : State) (r : Run) (w : Wait), codedOf i = some (op, f)
    ∧ (i = .drain f ∧ r.gang.acks ≠ 0 ∧ w = .drain s.free none
      ∨ i = .icinvAll f ∧ (s.slow = true ∨ r.gang.acks ≠ 0) ∧ w = .icinv s.free .all
      ∨ (i = .fenceNs f ∨ i = .fence f ∧ r.gang.parted = true) ∧ fenceScope f ≠ -3 ∧ owes s r = true
        ∧ w = .fence (fenceScope f))
    ∧ Clear s r op f :=
  ⟨.drain {}, .drain, {}, sDrain, run0 sDrain, .drain sDrain.free none, rfl, .inl ⟨rfl, by decide +kernel, rfl⟩,
    clear_of (by decide +kernel)⟩

theorem witness_WaitResult_fenceNs : ∃ (f : Fields) (s : State) (r : Run), fenceScope f ≠ -3 ∧ owes s r = true
    ∧ Clear s r .fenceNs f :=
  ⟨fNs, sOwes (.fenceNs fNs), run0 (sOwes (.fenceNs fNs)), by decide +kernel, by decide +kernel, clear_of (by decide +kernel)⟩

def sInv : State := sOwes (.icinvAll {})

theorem witness_WaitResult_icinvAll : ∃ (f : Fields) (s : State) (r : Run), (s.slow = true ∨ r.gang.acks ≠ 0)
    ∧ Clear s r .icinvAll f :=
  ⟨{}, sInv, run0 sInv, .inr (by decide +kernel), clear_of (by decide +kernel)⟩

/-! ### Channels, barriers and grants -/

def fSend : Fields := { b := .uni 10 }
def chan : Channel := { producer := 0, consumer := 0, depth := 9 }

theorem witness_ChannelResult_send : ∃ f s r n c, Clear s r .send f ∧ channelOf r f.imm Channel.producer = .ok (n, c)
    ∧ (channelWords r.band n).length < c.depth ∧ 0 < allowanceOf r.band r.id.gang n :=
  ⟨fSend, placed (.send fSend), run0 (placed (.send fSend)), 0, chan, clear_of (by decide +kernel), by rfl,
    by decide +kernel, by decide +kernel⟩

def sSent : State := waiting (placed (.send fSend)) (.send 0 7)

theorem witness_ChannelResult_sendComplete : ∃ s r n w c, Waits s r (.send n w) ∧ r.kern.launch.channels[n]? = some c
    ∧ canSend r.band r.gang n c = true
    ∧ (gangParts r.band).find? (fun x => match x.2.2.wait with | .send m _ => m == n && canSend r.band x.2.1 n c | _ => false)
        = some (r.id.gang, r.gang, r.part) :=
  ⟨sSent, run0 sSent, 0, 7, chan, waits_of (by decide +kernel), by decide +kernel, by decide +kernel, by decide +kernel⟩

def fRecv : Fields := { d := .uni 13 }
def sRecv : State := withBand (placed (.recv fRecv)) fun b => { b with channels := [[(5, 0)]] }

theorem witness_ChannelResult_recv : ∃ f s r n c w g rest, Clear s r .recv f ∧ r.gang.parted = false ∧ isUni f.d = true
    ∧ channelOf r f.imm Channel.consumer = .ok (n, c) ∧ channelWords r.band n = (w, g) :: rest
    ∧ (gangParts r.band).any (fun x => waitsRecv n x.2.2) = false ∧ g < r.band.gangs.length
    ∧ r.band.chanBad.contains (n, 0) = false :=
  ⟨fRecv, sRecv, run0 sRecv, 0, chan, 5, 0, [], clear_of (by decide +kernel), by decide +kernel, rfl, by rfl,
    by decide +kernel, by decide +kernel, by decide +kernel, by decide +kernel⟩

/-- The oldest word is poisoned. -/
def sRecvBad : State := withBand sRecv fun b => { b with chanBad := [(0, 0)] }

theorem witness_ChannelResult_poison : ∃ f s r n c w g rest, Clear s r .recv f ∧ r.gang.parted = false ∧ isUni f.d = true
    ∧ channelOf r f.imm Channel.consumer = .ok (n, c) ∧ channelWords r.band n = (w, g) :: rest
    ∧ (gangParts r.band).any (fun x => waitsRecv n x.2.2) = false ∧ g < r.band.gangs.length
    ∧ r.band.chanBad.contains (n, 0) = true ∧ r.band.pair = none ∧ relaunchable r.kern r.band = false ∧ owes s r = false :=
  ⟨fRecv, sRecvBad, run0 sRecvBad, 0, chan, 5, 0, [], clear_of (by decide +kernel), by decide +kernel, rfl, by rfl,
    by decide +kernel, by decide +kernel, by decide +kernel, by decide +kernel, by decide +kernel, by decide +kernel,
    by decide +kernel⟩

def sReceived : State := waiting sRecv (.recv 0 13)

theorem witness_ChannelResult_recvComplete : ∃ s r n d w g rest, Waits s r (.recv n d)
    ∧ channelWords r.band n = (w, g) :: rest ∧ r.band.chanBad.contains (n, 0) = false
    ∧ (gangParts r.band).find? (fun x => waitsRecv n x.2.2) = some (r.id.gang, r.gang, r.part) :=
  ⟨sReceived, run0 sReceived, 0, 13, 5, 0, [], waits_of (by decide +kernel), by decide +kernel, by decide +kernel,
    by decide +kernel⟩

def fBar : Fields := { a := .uni 9 }
def sBar : State := withUni (placed (.bar fBar)) 9 1
def key0 : BarrierKey := { level := 1, group := 0, number := 0, trailing := false }

theorem witness_BarrierResult : ∃ i op f s r key, codedOf i = some (op, f)
    ∧ (i = .bar f ∨ i = .barArr f ∨ i = .drainBar f ∧ r.gang.acks = 0) ∧ Clear s r op f
    ∧ barrierOf r (readWord r s 0 f.a) f.imm = .ok key
    ∧ ∀ j ∈ r.part.slices, (r.band.uid, r.id.gang, j) ∉ (barrierAt r.kern key).arrived :=
  ⟨.bar fBar, .bar, fBar, sBar, run0 sBar, key0, rfl, .inl rfl, clear_of (by decide +kernel), by rfl, by decide +kernel⟩


def sPhase : State :=
  (waiting (placed (.bar fBar)) (.barrier key0 0 .done [])).modKernel 0 fun k =>
    { k with barriers := [{ key := key0, phase := 0, arrived := (List.range 9).map fun j => (1, 0, j) }] }

theorem witness_BarrierResult_phase : ∃ s k key, s.kernel k.uid = some k ∧ s.issue = none ∧ NoForward s
    ∧ (barrierAt k key).arrived ≠ [] ∧ phaseComplete s k (barrierAt k key) = true
    ∧ ∃ r, Waits s r (.barrier key (barrierAt k key).phase .done []) ∧ r.kern = k :=
  ⟨sPhase, kern0 sPhase, key0, by decide +kernel, by decide +kernel, show ∀ b ∈ sPhase.bands, ∀ g ∈ b.gangs, ∀ p ∈ g.parts,
    p.forwarded = none by decide +kernel, by decide +kernel, by decide +kernel, run0 sPhase, waits_of (by decide +kernel), rfl⟩

def fShrink : Fields := { d := .uni 13, b := .uni 10, imm := 9 }

theorem witness_GrantResult : ∃ i op f s r g', codedOf i = some (op, f) ∧ Clear s r op f ∧ r.gang.parted = false
    ∧ isUni f.d = true ∧ grantAmount r s f % 9 = 0
    ∧ (i = .grow f ∧ grantAmount r s f = 0 ∧ g' = r.gang.grant
      ∨ i = .grow f ∧ 0 < grantAmount r s f ∧ ((g' : Nat) : Int) = r.gang.grant + grantAmount r s f ∧ g' ≤ 1530
        ∧ ((r.band.gangs.map (·.grant)).sum : Int) + grantAmount r s f ≤ 6561 ∧ growRequests s r.core = []
        ∧ grantAmount r s f ≤ freeRegisters s r.core
      ∨ i = .shrink f ∧ 0 ≤ grantAmount r s f ∧ (g' : Int) = r.gang.grant - grantAmount r s f ∧ 9 ≤ g') :=
  ⟨.shrink fShrink, .shrink, fShrink, placed (.shrink fShrink), run0 (placed (.shrink fShrink)), 1521, rfl,
    clear_of (by decide +kernel), by decide +kernel, rfl, by decide +kernel, .inr (.inr ⟨rfl, by decide +kernel⟩)⟩

def sGrow : State := withGang (placed (.grow fShrink)) fun g => { g with grant := 90 }

theorem witness_GrantResult_grow : ∃ i op f s r g', codedOf i = some (op, f) ∧ Clear s r op f ∧ r.gang.parted = false
    ∧ isUni f.d = true ∧ grantAmount r s f % 9 = 0
    ∧ i = .grow f ∧ 0 < grantAmount r s f ∧ ((g' : Nat) : Int) = r.gang.grant + grantAmount r s f ∧ g' ≤ 1530
        ∧ ((r.band.gangs.map (·.grant)).sum : Int) + grantAmount r s f ≤ 6561 ∧ growRequests s r.core = []
        ∧ grantAmount r s f ≤ freeRegisters s r.core :=
  ⟨.grow fShrink, .grow, fShrink, sGrow, run0 sGrow, 99, rfl, clear_of (by decide +kernel), by decide +kernel, rfl,
    by decide +kernel, rfl, by decide +kernel⟩

/-- Nothing is asked for, and another gang's request waits. -/
def fGrow0 : Fields := { d := .uni 13, b := .uni 10 }

theorem witness_GrantResult_none : ∃ f s r, Clear s r .grow f ∧ r.gang.parted = false ∧ isUni f.d = true
    ∧ grantAmount r s f = 0 :=
  ⟨fGrow0, placed (.grow fGrow0), run0 (placed (.grow fGrow0)), clear_of (by decide +kernel), by decide +kernel, rfl,
    by decide +kernel⟩

def sGrowMore : State :=
  let s := sGrow
  { s with bands := s.bands ++ [{ band0 s with
      uid := 2, gangs := (List.range 5).map fun _ => { (run0 s).gang with grant := 1530, parts := [] } }] }

theorem witness_GrantResult_waits : ∃ f s r d, Clear s r .grow f ∧ r.gang.parted = false ∧ f.d = .uni d
    ∧ grantAmount r s f % 9 = 0 ∧ 0 < grantAmount r s f ∧ (r.gang.grant : Int) + grantAmount r s f ≤ 1530
    ∧ ((r.band.gangs.map (·.grant)).sum : Int) + grantAmount r s f ≤ 6561
    ∧ (growRequests s r.core ≠ [] ∨ (freeRegisters s r.core : Int) < grantAmount r s f) :=
  ⟨fShrink, sGrowMore, run0 sGrowMore, 13, clear_of (by decide +kernel), by decide +kernel, rfl, by decide +kernel,
    by decide +kernel, by decide +kernel, by decide +kernel, .inr (by decide +kernel)⟩

def sGrown : State := waiting sGrow (.grow 9 13)

theorem witness_GrantResult_event : ∃ s r core n d rest, Waits s r (.grow n d)
    ∧ growRequests s core = (r.id, r.gang, n, d) :: rest ∧ growNeeds r.gang n ≤ freeRegisters s core :=
  ⟨sGrown, run0 sGrown, 0, 9, 13, [], waits_of (by decide +kernel), by decide +kernel, by decide +kernel⟩

def sGrownAway : State := withGang sGrown fun g => { g with residence := .evicted }

theorem witness_GrantResult_evicted : ∃ s r core n d rest, Waits s r (.grow n d)
    ∧ growRequests s core = (r.id, r.gang, n, d) :: rest ∧ growNeeds r.gang n ≤ freeRegisters s core
    ∧ r.gang.residence = .evicted :=
  ⟨sGrownAway, run0 sGrownAway, 0, 9, 13, [], waits_of (by decide +kernel), by decide +kernel, by decide +kernel,
    by decide +kernel⟩

/-! ### PARK, WAKE, BATCH.SEAL, ICLOCK, STATC and hints -/

def fPark : Fields := { a := .uni 9, b := .uni 10, imm := 300 }
def sPark : State := placed (.park fPark)
def cPark : Checked := checkElems sPark (run0 sPark).who (baseXreg (run0 sPark) fPark) .park true (parkElems fPark (run0 sPark) sPark)
def parkNonet : Nat := 2187 * 1062882 + 1093 + 300 - 1

theorem witness_ParkResult : ∃ f s r j rest ls, Clear s r .park f ∧ badLog .uniform (parkLog r s f) = false
    ∧ checkElems (walkedState s r (parkElems f r s)) r.who (memXreg r f) .park true (parkElems f r s)
        = .ok [.dev j :: rest] ls
    ∧ poisonOf (prepare (markLeaves (walkedState s r (parkElems f r s)) ls 2) r.who (.dev j :: rest) true false) r.who true
        ((parkElems f r s).zip [.dev j :: rest]) = none :=
  ⟨fPark, sPark, run0 sPark, parkNonet, [.dev (parkNonet + 1), .dev (parkNonet + 2)], leavesOf cPark,
    clear_of (by decide +kernel), by decide +kernel, by decide +kernel, by decide +kernel⟩

def sParked : State := waiting sPark (.parkPoll parkNonet 0 243 0)

theorem witness_ParkResult_poll : ∃ s r j c n b, Waits s r (.parkPoll j b c n) ∧ n < c / 243
    ∧ parkPoison (prepareRead s r.who [.dev j, .dev (j + 1), .dev (j + 2)]) r j = none :=
  ⟨sParked, run0 sParked, parkNonet, 243, 0, 0, waits_of (by decide +kernel), by decide, by decide +kernel⟩

def sParkedBad : State := { sParked with poison := [parkNonet / 27] }

theorem witness_ParkResult_pollPoison : ∃ s r j c n b ti, Waits s r (.parkPoll j b c n) ∧ n < c / 243
    ∧ parkPoison (prepareRead s r.who [.dev j, .dev (j + 1), .dev (j + 2)]) r j = some ti := by
  obtain ⟨ti, h⟩ := some_of (show (parkPoison (prepareRead sParkedBad (run0 sParkedBad).who
    [.dev parkNonet, .dev (parkNonet + 1), .dev (parkNonet + 2)]) (run0 sParkedBad) parkNonet).isSome = true by decide +kernel)
  exact ⟨sParkedBad, run0 sParkedBad, parkNonet, 243, 0, 0, ti, waits_of (by decide +kernel), by decide, h⟩

def fWake : Fields := { d := .uni 13, a := .uni 9, b := .uni 10, imm := 300 }
def sWake : State := withUni (placed (.wake fWake)) 10 5
def cWake : Checked := checkElems sWake (run0 sWake).who (baseXreg (run0 sWake) fWake) .wake true (parkElems fWake (run0 sWake) sWake)

theorem witness_ParkResult_wake : ∃ f s r j rest ls, Clear s r .wake f ∧ r.gang.parted = false ∧ r.band.pair = none
    ∧ r.band.copy = .unpaired ∧ isUni f.d = true ∧ NoForward s
    ∧ badLog .uniform (parkLog r s f) = false
    ∧ checkElems (walkedState s r (parkElems f r s)) r.who (memXreg r f) .wake true (parkElems f r s)
        = .ok [.dev j :: rest] ls :=
  ⟨fWake, sWake, run0 sWake, parkNonet, [.dev (parkNonet + 1), .dev (parkNonet + 2)], leavesOf cWake,
    clear_of (by decide +kernel), by decide +kernel, by decide +kernel, by decide +kernel, rfl,
    show ∀ b ∈ sWake.bands, ∀ g ∈ b.gangs, ∀ p ∈ g.parts, p.forwarded = none by decide +kernel, by decide +kernel,
    by decide +kernel⟩

def fSeal : Fields := { var := 1, d := .uni 13 }

theorem witness_BatchSealResult : ∃ f s r, Clear s r .batchSeal f ∧ r.gang.parted = false ∧ isUni f.d = true
    ∧ ∀ n ∈ r.band.nodes, ∀ m, n.gang = r.id.gang → n.batch = some m → m < r.gang.batch → m % 81 = r.gang.batch % 81 →
      n.state = .finished :=
  ⟨fSeal, placed (.batchSeal fSeal), run0 (placed (.batchSeal fSeal)), clear_of (by decide +kernel), by decide +kernel, rfl,
    fun n hn => by rw [show (run0 (placed (.batchSeal fSeal))).band.nodes = [] by decide +kernel] at hn; cases hn⟩

def fLock : Fields := { d := .uni 13, a := .uni 9, b := .uni 10 }

theorem witness_CodeLockResult : ∃ f s r, Clear s r .iclock f ∧ r.gang.parted = false ∧ isUni f.d = true
    ∧ (locksOf (s.core r.core) r.ctx.number).length ≤ 81 :=
  ⟨fLock, placed (.iclock fLock), run0 (placed (.iclock fLock)), clear_of (by decide +kernel), by decide +kernel, rfl,
    by decide +kernel⟩

theorem witness_CodeLockResult_un : ∃ f s r, Clear s r .iclockUn f ∧ r.gang.parted = false ∧ isUni f.d = true :=
  ⟨fLock, placed (.iclockUn fLock), run0 (placed (.iclockUn fLock)), clear_of (by decide +kernel), by decide +kernel, rfl⟩

theorem witness_GangStateResult : ∃ i op f s r g, codedOf i = some (op, f) ∧ gangChange i = some g ∧ Clear s r op f
    ∧ r.gang.parted = false :=
  ⟨.statc { imm := 3 }, .statc, { imm := 3 }, placed (.statc { imm := 3 }), run0 (placed (.statc { imm := 3 })), _, rfl, rfl,
    clear_of (by decide +kernel), by decide +kernel⟩

def fXld : Fields := { d := .xreg 7, a := .uni 9, b := .uni 10 }
def sXld : State := placed (.xld fXld)

theorem witness_HintResult_xld : ∃ f s r n, Clear s r .xld f ∧ r.gang.parted = false ∧ f.d = .xreg n ∧
    (let log := memOperands r s f (fun _ => List.replicate 27 (readWord r s 1 f.b)) fun _ => []
     let t := wrap 27 (log.base + lane log.offset 0 + f.imm)
     badLog .uniform log = false ∧ (xldLeaf (correctWalks s r.ctx [t]) r t).length = 1) :=
  ⟨fXld, sXld, run0 sXld, 7, clear_of (by decide +kernel), by decide +kernel, rfl, by decide +kernel⟩

def fPref : Fields := { a := .uni 9, b := .uni 10 }

theorem witness_HintResult_pref : ∃ i op f s r, codedOf i = some (op, f) ∧ (i = .pref f ∨ i = .prefSc f)
    ∧ Unhindered s r op :=
  ⟨.pref fPref, .pref, fPref, placed (.pref fPref), run0 (placed (.pref fPref)), rfl, .inl rfl,
    (clear_of (f := fPref) (by decide +kernel)).toUnhindered⟩

theorem witness_HintResult_prefSc : ∃ f s r, Unhindered s r .prefSc ∧ f = fPref :=
  ⟨fPref, placed (.prefSc fPref), run0 (placed (.prefSc fPref)), (clear_of (f := fPref) (by decide +kernel)).toUnhindered, rfl⟩

/-! ### Traps, returns, exits and stops -/

def fTrap : Fields := { a := .uni 9, imm := 5 }
def sTrap : State := placed (.trap fTrap)
def tTrap : TrapInfo := { code := 13, sub := 5 }
def slotNonet : Nat := 2187 * 1062882 + 1093 + 8100 - 40

def sChosen : State := (chooseSlot { sTrap with issue := none } (run0 sTrap).who).1
def slotAt0 : Resolved :=
  resolve (correctWalks sChosen (run0 sTrap).ctx [wrap 27 (8100 - 40)]) (run0 sTrap).who .write (wrap 27 (8100 - 40))
def slotLeaf : Option Leaf := match slotAt0 with | .ok _ l => l | _ => none

theorem witness_TrapTaken : ∃ (s s1 : State) (r : Run) (ti : TrapInfo) (j n : Nat) (leaf : Option Leaf), s.run r.id = some r
    ∧ r.band.pair = none ∧ r.band.copy = .unpaired ∧ r.gang.trapEnable = 1 ∧ dispositionOf r.ctx ti.code = 1
    ∧ (∀ x ∈ r.gang.slices, x.cap = none) ∧ chooseSlot { s with issue := none } r.who = (s1, some (some j))
    ∧ resolve (correctWalks s1 r.ctx [wrap 27 (slotAddr r.ctx j - 40)]) r.who .write (wrap 27 (slotAddr r.ctx j - 40))
        = .ok (.dev n) leaf :=
  ⟨sTrap, sChosen, run0 sTrap, tTrap, 0, slotNonet, slotLeaf, by decide +kernel, by decide +kernel, by decide +kernel, by decide +kernel,
    by decide +kernel, by decide +kernel, by decide +kernel, by decide +kernel⟩

theorem witness_TrapTaken_search : ∃ (s s1 : State) (w : Who) (x : Option (Option Nat)), s.flips = [] ∧ s.verFlips = []
    ∧ (∀ b ∈ s.bands, b.version = [] ∧ b.verPoison = []) ∧ chooseSlot s w = (s1, x) :=
  ⟨{ sTrap with issue := none }, sChosen, (run0 sTrap).who, (chooseSlot { sTrap with issue := none } (run0 sTrap).who).2,
    by decide +kernel, by decide +kernel, by decide +kernel, rfl⟩

theorem witness_TrapTaken_stop : ∃ (s : State) (r : Run) (ti : TrapInfo), s.run r.id = some r
    ∧ (r.gang.trapEnable = 0 ∨ dispositionOf r.ctx ti.code = 0) :=
  ⟨sTrap, run0 sTrap, { code := 15, sub := 2 }, by decide +kernel, by decide +kernel⟩

theorem witness_TrapResult : ∃ f s r, Clear s r .trap f ∧ r.band.pair = none :=
  ⟨fTrap, sTrap, run0 sTrap, clear_of (by decide +kernel), by decide +kernel⟩

def sFull : State := waiting sTrap (.faultSlot tTrap 0 (0, 0, 0))

theorem witness_TrapResult_freed : ∃ s r ti pc ws, Waits s r (.faultSlot ti pc ws) :=
  ⟨sFull, run0 sFull, tTrap, 0, (0, 0, 0), waits_of (by decide +kernel)⟩

def sTret : State :=
  withPart (withGang (placed (.tret {})) fun g => { g with
    trapEnable := 0, slices := g.slices.map fun x => { x with frec := (List.replicate 27 0).set 8 9841 } })
    fun q => { q with handling := some 8100, trapped := q.slices }

def tretLeaf : Option Leaf := match resolve sTret (run0 sTret).who .write (wrap 27 (8100 - 40)) with | .ok _ l => l | _ => none

theorem witness_ReturnResult : ∃ (i : Instr) (op : Op) (f : Fields) (s : State) (r : Run) (skip : Bool) (a : Word) (j : Nat)
    (leaf : Option Leaf), codedOf i = some (op, f) ∧ i = (if skip then .tretSkip f else .tret f)
    ∧ Clear s r op f ∧ r.band.copy = .unpaired ∧ tretFault r = none ∧ faultNode r = none ∧ openRecord r.part = some a
    ∧ resolve (correctWalks s r.ctx [wrap 27 (a - 40)]) r.who .write (wrap 27 (a - 40)) = .ok (.dev j) leaf
    ∧ unversioned s j ∧ unversioned s (j + 1) ∧ unversioned s (j + 2) :=
  ⟨.tret {}, .tret, {}, sTret, run0 sTret, false, 8100, slotNonet, tretLeaf, rfl, rfl, clear_of (by decide +kernel), by decide +kernel,
    by decide +kernel, by decide +kernel, by decide +kernel, by decide +kernel,
    show ∀ b ∈ sTret.bands, smapFind b.version slotNonet = none by decide +kernel,
    show ∀ b ∈ sTret.bands, smapFind b.version (slotNonet + 1) = none by decide +kernel,
    show ∀ b ∈ sTret.bands, smapFind b.version (slotNonet + 2) = none by decide +kernel⟩

/-- The handler's record names node 7, which has stalled. -/
def sTretNode : State :=
  withBand (withGang sTret fun g => { g with slices := g.slices.map fun x => { x with frec := (x.frec.set 0 1).set 15 7 } }) fun b =>
    { b with nodes := [{
      serial := 7, gang := 0, batch := some 0, kind := .matrix {} 0 0 0, state := .stalled, need := 0, got := 0, linked := 0, succs := [],
      progress := 0, acc := [], moved := false, followed := false, fault := none, tid := 0, stub := false }] }

theorem witness_ReturnResult_node : ∃ (i : Instr) (op : Op) (f : Fields) (s : State) (r : Run) (skip : Bool) (a : Word) (j n : Nat)
    (leaf : Option Leaf), codedOf i = some (op, f) ∧ i = (if skip then .tretSkip f else .tret f)
    ∧ Clear s r op f ∧ r.band.copy = .unpaired ∧ r.band.pair = none ∧ tretFault r = none ∧ faultNode r = some n
    ∧ openRecord r.part = some a
    ∧ resolve (correctWalks s r.ctx [wrap 27 (a - 40)]) r.who .write (wrap 27 (a - 40)) = .ok (.dev j) leaf :=
  ⟨.tret {}, .tret, {}, sTretNode, run0 sTretNode, false, 8100, slotNonet, 7, tretLeaf, rfl, rfl, clear_of (by decide +kernel),
    by decide +kernel, by decide +kernel, by decide +kernel, by decide +kernel, by decide +kernel, by decide +kernel⟩

theorem witness_StopResult_tkill : ∃ f s r, Clear s r .tkill f :=
  ⟨{}, placed (.tkill {}), run0 (placed (.tkill {})), clear_of (by decide +kernel)⟩

theorem witness_StopResult_stop : ∃ (s : State) (k : Kernel) (code sub : Int), s.kernel k.uid = some k
    ∧ (s.context k.context).isSome = true
    ∧ (code = 16 ∧ sub = 3 ∨ code = 15 ∧ sub = 8 ∧ (livePlanes s).isEmpty = true) :=
  ⟨sTrap, kern0 sTrap, 16, 3, by decide +kernel, by decide +kernel, .inl ⟨rfl, rfl⟩⟩

theorem witness_StopResult_planes : ∃ (s : State) (k : Kernel), s.kernel k.uid = some k ∧ (s.context k.context).isSome = true
    ∧ (livePlanes s).isEmpty = true :=
  ⟨{ sTrap with deadPlanes := List.range 9 }, kern0 sTrap, by decide +kernel, by decide +kernel, by decide +kernel⟩

def sWatch : State :=
  (withGang { sTrap with issue := none } fun g => { g with watchdog := 9 }).modKernel 0 fun k =>
    { k with launch := { k.launch with watchdog := 3 } }

theorem witness_StopResult_watchdog : ∃ (s : State) (r : Run), s.issue = none ∧ watchdogDue r.kern r.gang = true
    ∧ (∀ q ∈ s.reqs, q.part.band = r.id.band → q.kind ≠ .atomic)
    ∧ (s.band r.id.band).bind (fun b => (gangRuns s b r.id.gang).head?) = some r :=
  ⟨sWatch, run0 sWatch, by decide +kernel, by decide +kernel, by decide +kernel, by decide +kernel⟩

theorem witness_ExitResult : ∃ f s r, Clear s r .exit f ∧ openRecord r.part = none
    ∧ ((r.gang.parts.filter fun q => q.slices.head? != some r.id.part) = [] → unwaitedFault r.band r.id.gang = none) :=
  ⟨{}, placed (.exit {}), run0 (placed (.exit {})), clear_of (by decide +kernel), by decide +kernel, by decide +kernel⟩

/-- The part exits in the handler of the record at slot 0. -/
def sHandler : State := withPart (placed (.exit {})) fun q => { q with handling := some 8100, trapped := q.slices }
def exitLeaf : Option Leaf :=
  match resolve (correctWalks sHandler (run0 sHandler).ctx [wrap 27 (8100 - 40)]) (run0 sHandler).who .write (wrap 27 (8100 - 40)) with
  | .ok _ l => l
  | _ => none

theorem witness_ExitResult_handler : ∃ (f : Fields) (s : State) (r : Run) (a : Word) (j : Nat) (leaf : Option Leaf),
    Clear s r .exit f ∧ r.part.wait = .ready ∧ r.part.handling = some a ∧ r.band.copy ≠ .trailing
    ∧ unwaitedFault r.band r.id.gang = none
    ∧ resolve (correctWalks s r.ctx [wrap 27 (a - 40)]) r.who .write (wrap 27 (a - 40)) = .ok (.dev j) leaf
    ∧ unversioned s j ∧ unversioned s (j + 1) ∧ unversioned s (j + 2) :=
  ⟨{}, sHandler, run0 sHandler, 8100, slotNonet, exitLeaf, clear_of (by decide +kernel), by decide +kernel, by decide +kernel,
    by decide +kernel, by decide +kernel, by decide +kernel,
    show ∀ b ∈ sHandler.bands, smapFind b.version slotNonet = none by decide +kernel,
    show ∀ b ∈ sHandler.bands, smapFind b.version (slotNonet + 1) = none by decide +kernel,
    show ∀ b ∈ sHandler.bands, smapFind b.version (slotNonet + 2) = none by decide +kernel⟩

/-- A node of the gang stands stalled, and no batch wait has raised its fault. -/
def sNodeFault : State := withBand (placed (.exit {})) fun b => { b with
  nodes := [{ serial := 0, gang := 0, batch := some 0, kind := .matrix {} 0 0 0, state := .stalled, need := 0, got := 0, linked := 0,
              succs := [], progress := 0, acc := [], moved := false, followed := false, fault := some { code := 5, sub := 2 }, tid := 0,
              stub := false }] }

theorem witness_ExitResult_nodeFault : ∃ (f : Fields) (s : State) (r : Run) (ti : TrapInfo), Clear s r .exit f
    ∧ openRecord r.part = none ∧ (∀ q ∈ r.gang.parts, q.slices.head? = some r.id.part)
    ∧ unwaitedFault r.band r.id.gang = some ti ∧ owes s r = false := by
  obtain ⟨ti, h⟩ := some_of (show (unwaitedFault (run0 sNodeFault).band (run0 sNodeFault).id.gang).isSome = true by decide +kernel)
  exact ⟨{}, sNodeFault, run0 sNodeFault, ti, clear_of (by decide +kernel), by decide +kernel, by decide +kernel, h,
    by decide +kernel⟩

end Sys2Proof.Tests
end

