-- ==== Sys2Proof/Tests/WitnessC.lean ====
section
/-! SUPPORT. Concrete states and operands that meet the hypotheses of the statements about mapping, recovery, nodes and the matrix
engine. -/

namespace Sys2Proof.Tests

open Sys2Proof.Machine

set_option Elab.async false

/-! ### Mapping and keys -/

def fUnmap : Fields := { var := -1, d := .uni 13, a := .uni 9 }
def sUnmap : State := placed (.unmap fUnmap)

theorem witness_MapResult : ∃ i op f s r slot v, codedOf i = some (op, f) ∧ mapEntry i r s = some v ∧ Clear s r op f
    ∧ r.gang.parted = false ∧ isUni f.d = true ∧ r.band.pair = none ∧ r.band.copy = .unpaired
    ∧ 0 ≤ field (readWord r s 0 f.a) 25 2
    ∧ mapWalk (correctMapWalk s r.ctx (readWord r s 0 f.a) (mapLevel f)) r.ctx (readWord r s 0 f.a) (mapLevel f) = .entry slot
    ∧ pteKind (devWord s slot) ≠ 0 ∧ s.slow = false ∧ r.gang.acks = 0
    ∧ entryBad (openWords (commitVersion (correctMapWalk s r.ctx (readWord r s 0 f.a) (mapLevel f)) r.id.band false)
        [slot, slot + 1, slot + 2]) slot = false :=
  ⟨.unmap fUnmap, .unmap, fUnmap, sUnmap, run0 sUnmap, 3279, _, rfl, rfl, clear_of (by decide +kernel), by decide +kernel, rfl,
    by decide +kernel, by decide +kernel, by decide +kernel, by decide +kernel, by decide +kernel, rfl, by decide +kernel,
    by decide +kernel⟩

def sUnmapOwes : State := withGang sUnmap fun g => { g with acks := 1 }

theorem witness_MapResult_waits : ∃ i op f s r slot v, codedOf i = some (op, f) ∧ mapEntry i r s = some v ∧ Clear s r op f
    ∧ r.gang.parted = false ∧ isUni f.d = true ∧ r.band.pair = none ∧ r.band.copy = .unpaired
    ∧ 0 ≤ field (readWord r s 0 f.a) 25 2
    ∧ mapWalk (correctMapWalk s r.ctx (readWord r s 0 f.a) (mapLevel f)) r.ctx (readWord r s 0 f.a) (mapLevel f) = .entry slot
    ∧ pteKind (devWord s slot) ≠ 0 ∧ r.gang.acks ≠ 0 :=
  ⟨.unmap fUnmap, .unmap, fUnmap, sUnmapOwes, run0 sUnmapOwes, 3279, _, rfl, rfl, clear_of (by decide +kernel),
    by decide +kernel, rfl, by decide +kernel, by decide +kernel, by decide +kernel, by decide +kernel, by decide +kernel,
    by decide +kernel⟩

def fMap : Fields := { var := -1, d := .uni 13, a := .uni 9, b := .uni 10 }
def sMap : State := withUni (placed (.map fMap)) 10 (bootLeaf - 12)

theorem witness_MapResult_map : ∃ f s r v, mapEntry (.map f) r s = some v ∧ Clear s r .map f
    ∧ mapWalk (correctMapWalk s r.ctx (readWord r s 0 f.a) (mapLevel f)) r.ctx (readWord r s 0 f.a) (mapLevel f)
        = .entry 3279 := by
  obtain ⟨v, h⟩ := some_of (show (mapEntry (.map fMap) (run0 sMap) sMap).isSome = true by decide +kernel)
  exact ⟨fMap, sMap, run0 sMap, v, h, clear_of (by decide +kernel), by decide +kernel⟩

def sMapping (landed : Bool) : State := waiting sUnmap (.map 1 3279 (-81) 13 1000000 landed)

theorem witness_MapResult_complete : ∀ landed, ∃ s r level slot d v a, Waits s r (.map level slot v d a landed)
    ∧ r.band.pair = none ∧ r.gang.acks = 0
    ∧ entryBad (openWords (if landed then s else commitVersion s r.id.band false) [slot, slot + 1, slot + 2]) slot = false
  | true => ⟨sMapping true, run0 (sMapping true), 1, 3279, 13, -81, 1000000, waits_of (by decide +kernel), by decide +kernel,
      by decide +kernel, by decide +kernel⟩
  | false => ⟨sMapping false, run0 (sMapping false), 1, 3279, 13, -81, 1000000, waits_of (by decide +kernel), by decide +kernel,
      by decide +kernel, by decide +kernel⟩

def fPkset : Fields := { a := .uni 9, b := .uni 10, imm := 80 }
def sPkset : State := placed (.pkset fPkset)

theorem witness_MapResult_pkset : ∃ (f : Fields) (s : State) (r : Run) (k : Nat), Clear s r .pkset f ∧ r.band.pair = none
    ∧ r.band.copy = .unpaired ∧ s.slow = false ∧ readWord r s 0 f.a + f.imm = k ∧ k ≤ 80
    ∧ -1 ≤ readWord r s 1 f.b ∧ readWord r s 1 f.b ≤ 1 :=
  ⟨fPkset, sPkset, run0 sPkset, 80, clear_of (by decide +kernel), by decide +kernel, by decide +kernel, rfl, by decide +kernel,
    by decide +kernel, by decide +kernel, by decide +kernel⟩

def sSlowKey : State := { sPkset with slow := true }

theorem witness_MapResult_pksetWaits : ∃ (f : Fields) (s : State) (r : Run) (k : Nat), Clear s r .pkset f ∧ r.band.pair = none
    ∧ r.band.copy = .unpaired ∧ s.slow = true ∧ readWord r s 0 f.a + f.imm = k ∧ k ≤ 80
    ∧ -1 ≤ readWord r s 1 f.b ∧ readWord r s 1 f.b ≤ 1 :=
  ⟨fPkset, sSlowKey, run0 sSlowKey, 80, clear_of (by decide +kernel), by decide +kernel, by decide +kernel, rfl, by decide +kernel,
    by decide +kernel, by decide +kernel, by decide +kernel⟩

def sKeying : State := waiting sPkset (.pkset 80 1)

theorem witness_MapResult_pksetComplete : ∃ s r k v, Waits s r (.pkset k v) ∧ r.band.pair = none :=
  ⟨sKeying, run0 sKeying, 80, 1, waits_of (by decide +kernel), by decide +kernel⟩

/-! ### Recovery -/

def sCommit : State :=
  (withBand (placed (.commit {})) fun b => { b with version := [(9, 5)] }).modKernel 0 fun k =>
    { k with launch := { k.launch with versioned := true } }

theorem witness_CommitResult : ∃ f s r, Clear s r .commit f ∧ r.kern.launch.versioned = true :=
  ⟨{}, sCommit, run0 sCommit, clear_of (by decide +kernel), by decide +kernel⟩

def fInj : Fields := { var := 1, a := .uni 9, b := .uni 10, imm := 300 }
def injected (i : Instr) (f : Fields) (kind : AccKind) : Checked :=
  checkElems (placed i) (run0 (placed i)).who none kind true (einjElems f (run0 (placed i)) (placed i))
def injNonet : Nat := 2187 * 1062882 + 1093 + 299

theorem witness_InjectResult_corr : ∃ (f : Fields) (s : State) (r : Run) (p : Place) (ps : List Place) (ls : List Leaf),
    Clear s r .einjCorr f ∧ r.ctx.inject = 1 ∧ 0 ≤ readWord r s 1 f.b ∧ readWord r s 1 f.b ≤ 26
    ∧ checkElems (walkedState s r (einjElems f r s)) r.who none .einjStore true (einjElems f r s) = .ok [p :: ps] ls :=
  ⟨fInj, placed (.einjCorr fInj), run0 (placed (.einjCorr fInj)), .dev injNonet, [.dev (injNonet + 1), .dev (injNonet + 2)],
    leavesOf (injected (.einjCorr fInj) fInj .einjStore), clear_of (by decide +kernel), by decide +kernel, by decide +kernel,
    by decide +kernel, by decide +kernel⟩

def fUnc : Fields := { fInj with var := 2, b := .unused }

theorem witness_InjectResult_unc : ∃ (f : Fields) (s : State) (r : Run) (p : Place) (ps : List Place) (ls : List Leaf),
    Clear s r .einjUnc f ∧ r.ctx.inject = 1
    ∧ (r.kern.launch.versioned = false → (versionOf s r.band).version = [] ∧ (versionOf s r.band).verPoison = [])
    ∧ checkElems (walkedState s r (einjElems f r s)) r.who none .einjStore true (einjElems f r s) = .ok [p :: ps] ls :=
  ⟨fUnc, placed (.einjUnc fUnc), run0 (placed (.einjUnc fUnc)), .dev injNonet, [.dev (injNonet + 1), .dev (injNonet + 2)],
    leavesOf (injected (.einjUnc fUnc) fUnc .einjStore), clear_of (by decide +kernel), by decide +kernel, by decide +kernel,
    by decide +kernel⟩

def fLnk : Fields := { fUnc with var := 3 }

theorem witness_InjectResult_link : ∃ (f : Fields) (s : State) (r : Run) (j : Nat) (ps : List Place) (ls : List Leaf),
    Clear s r .einjLink f ∧ r.ctx.inject = 1
    ∧ checkElems (walkedState s r (einjElems f r s)) r.who none .einjLoad true (einjElems f r s) = .ok [.dev j :: ps] ls :=
  ⟨fLnk, placed (.einjLink fLnk), run0 (placed (.einjLink fLnk)), injNonet, [.dev (injNonet + 1), .dev (injNonet + 2)],
    leavesOf (injected (.einjLink fLnk) fLnk .einjLoad), clear_of (by decide +kernel), by decide +kernel, by decide +kernel⟩

def sMarked : State := let s := placed (.einjSig {}); { s with linkFails := [(1, 0, homeOf 5)] }

theorem witness_InjectResult_replay : ∃ (s : State) (w : Who) (j : Nat), (w.band.uid, w.gang, homeOf j) ∈ s.linkFails :=
  ⟨sMarked, (run0 sMarked).who, 5, by
    rw [show (run0 sMarked).who.band.uid = 1 by decide +kernel, show (run0 sMarked).who.gang = 0 by decide +kernel]
    exact List.mem_singleton.2 rfl⟩

/-- The band's version holds the line of the target. -/
def sInjHeld : State :=
  (withBand (placed (.einjCorr fInj)) fun b => { b with version := [(injNonet, 0)] }).modKernel 0 fun k =>
    { k with launch := { k.launch with versioned := true } }

theorem witness_InjectResult_version : versionHolds sInjHeld (run0 sInjHeld).id.band injNonet = true
    ∧ Clear sInjHeld (run0 sInjHeld) .einjCorr fInj := ⟨by decide +kernel, clear_of (by decide +kernel)⟩

def fSig : Fields := { var := 4 }

theorem witness_InjectResult_sig : ∃ f s r, Clear s r .einjSig f ∧ r.ctx.inject = 1 :=
  ⟨fSig, placed (.einjSig fSig), run0 (placed (.einjSig fSig)), clear_of (by decide +kernel), by decide +kernel⟩

def sNoInj : State := (placed (.einjSig fSig)).modContext 0 fun c => { c with inject := 0 }

theorem witness_InjectResult_refused : ∃ i op f s r, codedOf i = some (op, f)
    ∧ (i = .einjCorr f ∨ i = .einjUnc f ∨ i = .einjLink f ∨ i = .einjSig f) ∧ Clear s r op f ∧ r.band.pair = none
    ∧ r.ctx.inject ≠ 1 :=
  ⟨.einjSig fSig, .einjSig, fSig, sNoInj, run0 sNoInj, rfl, .inr (.inr (.inr rfl)), clear_of (by decide +kernel),
    by decide +kernel, by decide +kernel⟩

/-! ### Nodes -/

def fCmpb : Fields := { d := .uni 13, a := .uni 9, b := .uni 10, c := .uni 11 }
def sCmpb : State := withUni (withUni (placed (.cmpb fCmpb)) 9 1620) 10 1620
def zeroShape : Shape := { base := 0, format := 0, len := 0, rows := 0, rowStride := 0, planes := 0, planeStride := 0 }
def named0 : List Named := [{ addr := 1620, dest := false }, { addr := 1620, dest := false }]

theorem witness_NodeCreated : ∃ i op f s s1 r named mis shapes o kind, codedOf i = some (op, f) ∧ Clear s r op f
    ∧ r.gang.parted = false ∧ isUni f.d = true ∧ r.band.pair = none ∧ r.band.copy = .unpaired
    ∧ (∀ n ∈ r.band.nodes, n.serial < r.band.nextSerial) ∧ r.band.nodes.length < 243 ∧ namedRecords i r s = some (named, mis) ∧ (∀ k, withRecords r s named mis k = k s1 shapes)
    ∧ nodeRequest i r s shapes = some (o, kind) := by
  obtain ⟨x, hx⟩ := some_of (show (recordsOf (run0 sCmpb) sCmpb named0 false).isSome = true by decide +kernel)
  have h2 : x.2 = [zeroShape, zeroShape] := by
    have h : (recordsOf (run0 sCmpb) sCmpb named0 false).map (·.2) = some [zeroShape, zeroShape] := by decide +kernel
    rw [hx] at h
    exact Option.some.inj h
  obtain ⟨y, hy⟩ := some_of (show (nodeRequest (.cmpb fCmpb) (run0 sCmpb) sCmpb [zeroShape, zeroShape]).isSome = true by
    decide +kernel)
  exact ⟨.cmpb fCmpb, .cmpb, fCmpb, sCmpb, x.1, run0 sCmpb, named0, false, x.2, y.1, y.2, rfl, clear_of (by decide +kernel),
    by decide +kernel, rfl, by decide +kernel, by decide +kernel, by decide +kernel, by decide +kernel, by decide +kernel,
    fun k => records_of hx k, by rw [h2]; exact hy⟩

def fMul : Fields := { var := 1, ty := .t9, d := .uni 13, a := .uni 9, b := .uni 10, c := .uni 11 }
def accWord : Int := 3 ^ 26 + 3 ^ 16
def scrWord : Int := -(3 ^ 26)
def sMul : State := withUni (withUni (withUni (placed (.mmulNode fMul)) 9 scrWord) 10 scrWord) 11 accWord

theorem witness_NodeCreated_multiply : ∃ (f : Fields) (s : State) (r : Run) (m : MatArgs), Clear s r .mmulNode f
    ∧ r.gang.parted = false ∧ isUni f.d = true ∧ r.band.nodes.length < 243 ∧
    (let o := nodeOpts f.imm
     badOpts { o with low := trit f.imm 0 } = false ∧ (o.bins = 0 ∧ o.fp = 0 ∧ o.follow = 0 ∧ o.dither = 0)
       ∧ matArgs s r f (readWord r s 0 f.a) (readWord r s 1 f.b) (readWord r s 2 f.c) = .ok m) := by
  obtain ⟨m, hm⟩ := ok_of (show (matArgs sMul (run0 sMul) fMul (readWord (run0 sMul) sMul 0 fMul.a)
    (readWord (run0 sMul) sMul 1 fMul.b) (readWord (run0 sMul) sMul 2 fMul.c)).toOption.isSome = true by decide +kernel)
  exact ⟨fMul, sMul, run0 sMul, m, clear_of (by decide +kernel), by decide +kernel, rfl, by decide +kernel, by decide +kernel,
    by decide +kernel, hm⟩

def nodeA : Node :=
  { serial := 0, gang := 0, batch := some 0, kind := .cmpb zeroShape zeroShape 0, state := .running, need := 0, got := 0,
    linked := 0, succs := [], progress := 0, acc := [], moved := true, followed := false, fault := none, tid := 0, stub := false }
def nodeB : Node := { nodeA with serial := 1, state := .queued, need := 1, moved := false }
def fLink : Fields := { a := .uni 9, b := .uni 10 }
def withNodes (s : State) (ns : List Node) : State := withBand s fun b => { b with nodes := ns, nextSerial := 2 }
def sLink : State := withNodes (withUni (placed (.link fLink)) 10 1) [nodeA, nodeB]

theorem witness_GraphResult_link : ∃ (f : Fields) (s : State) (r : Run) (na : Option Node) (nb : Node) (a b : Nat),
    Clear s r .link f ∧ readWord r s 0 f.a = a ∧ readWord r s 1 f.b = b ∧ serialNode r.band a = some na
    ∧ serialNode r.band b = some (some nb) ∧ (nb.state = .held ∨ nb.state = .queued) ∧ nb.linked < nb.need
    ∧ successorsFull r.band a na = false :=
  ⟨fLink, sLink, run0 sLink, some nodeA, nodeB, 0, 1, clear_of (by decide +kernel), by decide +kernel, by decide +kernel,
    by decide +kernel, by decide +kernel, .inr rfl, by decide, by decide +kernel⟩

/-- The predecessor has finished, with two successors. -/
def sLinkDone : State := withBand (withNodes (withUni (placed (.link fLink)) 10 1) [nodeB]) fun b =>
  { b with openSlots := [0], succCounts := [(0, 2)] }

theorem witness_GraphResult_finished : ∃ (f : Fields) (s : State) (r : Run) (na : Option Node) (nb : Node) (a b : Nat),
    Clear s r .link f ∧ readWord r s 0 f.a = a ∧ readWord r s 1 f.b = b ∧ serialNode r.band a = some na ∧ na = none
    ∧ serialNode r.band b = some (some nb) ∧ (nb.state = .held ∨ nb.state = .queued) ∧ nb.linked < nb.need
    ∧ successorsFull r.band a na = false :=
  ⟨fLink, sLinkDone, run0 sLinkDone, none, nodeB, 0, 1, clear_of (by decide +kernel), by decide +kernel, by decide +kernel,
    by decide +kernel, rfl, by decide +kernel, .inr rfl, by decide, by decide +kernel⟩

def fRels : Fields := { d := .uni 13, a := .uni 9 }
def sRels : State := withNodes (placed (.rels fRels)) [{ nodeA with state := .held }]

theorem witness_GraphResult_rels : ∃ (f : Fields) (s : State) (r : Run) (na : Option Node) (a : Nat), Clear s r .rels f
    ∧ r.gang.parted = false ∧ isUni f.d = true ∧ readWord r s 0 f.a = a ∧ serialNode r.band a = some na :=
  ⟨fRels, sRels, run0 sRels, some { nodeA with state := .held }, 0, clear_of (by decide +kernel), by decide +kernel, rfl,
    by decide +kernel, by decide +kernel⟩

def sNode : State := { sLink with issue := none }
/-- A gang that acts through a node of its own. -/
def runN (s : State) : Run := { run0 s with node := true }

theorem witness_NodeEnds : ∃ (s s1 : State) (r : Run) (n m : Node) (b1 : Band),
    runningNode s r.id.band n.serial = some (r, n) ∧ runNode r n s = .ok s1 ()
    ∧ s1.band r.id.band = some b1 ∧ b1.pair = none ∧ nodeOf b1 n.serial = some m :=
  ⟨sNode, sNode, runN sNode, nodeA, nodeA, band0 sNode, by decide +kernel, rfl, by decide +kernel,
    by decide +kernel, by decide +kernel⟩

def nodeF : Node := { nodeA with kind := .copy zeroShape none none (some 1) none }
def sFollow : State := withNodes sNode [nodeF, nodeB]

theorem witness_NodeEnds_follow : ∃ (s s1 : State) (r : Run) (n : Node) (b1 : Band) (k : Nat),
    runningNode s r.id.band n.serial = some (r, n) ∧ pendingFollow n = some k
    ∧ runNode r n s = .ok s1 () ∧ s1.band r.id.band = some b1 :=
  ⟨sFollow, sFollow, runN sFollow, nodeF, band0 sFollow, 1, by decide +kernel, rfl, rfl, by decide +kernel⟩

def farShape : Shape := { zeroShape with base := 3 ^ 24, len := 1, rows := 1, planes := 1 }
def nodeBad : Node := { nodeA with moved := false, kind := .copy farShape none (some 0) none none }
def sBad : State := withNodes sNode [nodeBad]

theorem fault_of {α : Type} {x : NodeStep α} (h : (match x with | .fault _ _ => true | _ => false) = true) :
    ∃ t s, x = .fault t s := by
  cases x with
  | fault t s => exact ⟨t, s, rfl⟩
  | _ => cases h

theorem witness_NodeEnds_fault : ∃ (s s1 : State) (r : Run) (n : Node) (b1 : Band) (ti : TrapInfo),
    runningNode s r.id.band n.serial = some (r, n) ∧ runNode r n s = .fault ti s1 ∧ r.gang.residence ≠ .exited
    ∧ s1.band r.id.band = some b1 := by
  obtain ⟨t, s1, h⟩ := fault_of (x := runNode (runN sBad) nodeBad sBad) (by decide +kernel)
  have hb : (match runNode (runN sBad) nodeBad sBad with | .fault _ s => (s.band 1).isSome | _ => false) = true := by
    decide +kernel
  rw [h] at hb
  obtain ⟨b1, hb1⟩ := some_of hb
  exact ⟨sBad, s1, runN sBad, nodeBad, b1, t, by decide +kernel, h, by decide +kernel, by
    rw [show (runN sBad).id.band = 1 by decide +kernel]; exact hb1⟩

theorem witness_NodeEnds_pause : ∃ (s : State) (r : Run), s.run r.id = some r ∧ copyAllowed s r = false :=
  let s := sNode.modCore 0 fun c => { c with copied := [(0, 1000000000)] }
  ⟨s, run0 s, by decide +kernel, by decide +kernel⟩

/-! ### The matrix engine -/

def fTile : Fields := { d := .vec 7, a := .uni 9, b := .uni 10, c := .vec 5 }

theorem witness_TileResult : ∃ i op s r t n p, codedOf i = some (op, fTile) ∧ (op = .azero ∨ op = .ard ∨ op = .awr)
    ∧ accHandle r.band (readWord r s 0 fTile.a) = some (t, n, p) ∧ r.band.pair = none ∧ EngineReady s r ∧ Clear s r op fTile
    ∧ isVectorDest fTile.d = true
    ∧ ∀ l, lanesOf r.part.slices l = true → (readWord r s 1 fTile.b + l).toNat ∉ (tileOf r.band t).poison :=
  let s := withUni (placed (.ard fTile)) 9 accWord
  ⟨.ard fTile, .ard, s, run0 s, 0, 27, 0, rfl, .inr (.inl rfl), by decide +kernel, by decide +kernel,
    .inl (by decide +kernel), clear_of (by decide +kernel), rfl, fun l _ h => by
      rw [show (tileOf (run0 s).band 0).poison = [] by decide +kernel] at h
      cases h⟩

theorem witness_TileResult_write : ∃ s r, accHandle r.band (readWord r s 0 fTile.a) = some (0, 27, 0) ∧ r.band.pair = none
    ∧ EngineReady s r ∧ Clear s r .awr fTile :=
  let s := withUni (placed (.awr fTile)) 9 accWord
  ⟨s, run0 s, by decide +kernel, by decide +kernel, .inl (by decide +kernel), clear_of (by decide +kernel)⟩

theorem witness_TileResult_zero : ∃ s r, accHandle r.band (readWord r s 0 (Opnd.uni 9)) = some (0, 27, 0) ∧ r.band.pair = none
    ∧ EngineReady s r ∧ Clear s r .azero { a := .uni 9 } :=
  let s := withUni (placed (.azero { a := .uni 9 })) 9 accWord
  ⟨s, run0 s, by decide +kernel, by decide +kernel, .inl (by decide +kernel), clear_of (by decide +kernel)⟩

def fSave : Fields := { a := .uni 9, b := .uni 10 }

theorem witness_SaveResult : ∃ s r, accHandle r.band (readWord r s 0 fSave.a) = some (0, 27, 0)
    ∧ scrHandle r.kern.launch.scratch (readWord r s 1 fSave.b) (81 * 27) = some 0 ∧ r.band.pair = none ∧ EngineReady s r
    ∧ Clear s r .asave fSave :=
  let s := withUni (withUni (placed (.asave fSave)) 9 accWord) 10 scrWord
  ⟨s, run0 s, by decide +kernel, by decide +kernel, by decide +kernel, .inl (by decide +kernel), clear_of (by decide +kernel)⟩

theorem witness_SaveResult_restore : ∃ s r, accHandle r.band (readWord r s 0 fSave.a) = some (0, 27, 0)
    ∧ scrHandle r.kern.launch.scratch (readWord r s 1 fSave.b) (81 * 27) = some 0 ∧ r.band.pair = none ∧ EngineReady s r
    ∧ Clear s r .arst fSave :=
  let s := withUni (withUni (placed (.arst fSave)) 9 accWord) 10 scrWord
  ⟨s, run0 s, by decide +kernel, by decide +kernel, by decide +kernel, .inl (by decide +kernel), clear_of (by decide +kernel)⟩

def fBlock : Fields := { ty := .f9, a := .uni 9, b := .uni 10, c := .uni 11 }
def blockState (i : Instr) : State := withUni (withUni (withUni (placed i) 9 scrWord) 10 (scrWord + 100 * 3 ^ 16)) 11 1

/-- No word of the scratchpad is poisoned, and none has a wrong trit. -/
theorem block_sound {s : State} (hf : s.flips = [])
    (hp : ((s.band (run0 s).id.band).getD (run0 s).band).scrPoison = []) (lo n : Nat) :
    blockPoison (correctScratch s (run0 s).id.band lo n) (run0 s) lo n = none := by
  have hc : correctScratch s (run0 s).id.band lo n = s := by
    unfold correctScratch
    rw [hf]
    rfl
  rw [hc]
  unfold blockPoison scrPoisonAt
  rw [hp]
  rfl

theorem witness_BlockResult : ∃ (s : State) (r : Run) (f : Fields) (x : Nat × Nat × Nat), r.band.pair = none ∧ EngineReady s r
    ∧ Clear s r .bqnt f ∧ blockArgs r s f (rowExtent f.ty) 30 = .ok x
    ∧ blockPoison (correctScratch s r.id.band x.2.1 (x.1 * rowExtent f.ty)) r x.2.1 (x.1 * rowExtent f.ty) = none := by
  obtain ⟨x, hx⟩ := ok_of (show (blockArgs (run0 (blockState (.bqnt fBlock))) (blockState (.bqnt fBlock)) fBlock
    (rowExtent fBlock.ty) 30).toOption.isSome = true by decide +kernel)
  have hn := block_sound (s := blockState (.bqnt fBlock)) (by decide +kernel) (by decide +kernel)
  exact ⟨_, _, fBlock, x, by decide +kernel, .inl (by decide +kernel), clear_of (by decide +kernel), hx, hn _ _⟩

theorem witness_BlockResult_back : ∃ (s : State) (r : Run) (f : Fields) (x : Nat × Nat × Nat), r.band.pair = none
    ∧ EngineReady s r ∧ Clear s r .bdq f ∧ f.ty ≠ .l3 ∧ blockArgs r s f 30 (rowExtent f.ty) = .ok x
    ∧ blockPoison (correctScratch s r.id.band x.2.1 (30 * x.1)) r x.2.1 (30 * x.1) = none := by
  obtain ⟨x, hx⟩ := ok_of (show (blockArgs (run0 (blockState (.bdq fBlock))) (blockState (.bdq fBlock)) fBlock
    30 (rowExtent fBlock.ty)).toOption.isSome = true by decide +kernel)
  have hn := block_sound (s := blockState (.bdq fBlock)) (by decide +kernel) (by decide +kernel)
  exact ⟨_, _, fBlock, x, by decide +kernel, .inl (by decide +kernel), clear_of (by decide +kernel), by decide, hx, hn _ _⟩

end Sys2Proof.Tests
end

