-- ==== Sys2Proof/Tests/WitnessD.lean ====
section
/-! SUPPORT. Concrete states and operands that meet the hypotheses of the statements about multiplies, entering a
capsule and speculative fences. -/

namespace Sys2Proof.Tests

open Sys2Proof.Machine

set_option Elab.async false

/-! ### Multiplies -/

def fMm : Fields := { ty := .t9, d := .uni 11, a := .uni 9, b := .uni 10 }
def sMm : State :=
  withUni (withUni (withUni (placed (.mmul fMm)) 9 (-(3 ^ 26))) 10 (-(3 ^ 26))) 11 (3 ^ 26 + 3 ^ 16)
def withEngine (s : State) (es : List EngineCmd) : State := s.modCore 0 fun c => { c with engine := es }
def mm0 : MatArgs := { tile := 0, n := 27, skip := 0, ha := 0, hb := 0, pa := none, pb := none }
def sMmHead (done : Nat) (a : List Int) : State := withEngine sMm [.part p0 (some fMm) done a]

theorem witness_MultiplyResult : ∃ (f : Fields) (s s1 : State) (r : Run) (m : MatArgs) (a : List Int), Clear s r .mmul f
    ∧ r.gang.parted = false ∧ isUni f.d = true ∧ r.band.pair = none ∧ EngineReady s r ∧ trit f.imm 0 = 0
    ∧ matArgs s r f (readWord r s 0 f.a) (readWord r s 1 f.b) (readWord r s 3 f.d) = .ok m
    ∧ ((engineAt s r m.skip).1 < m.n / 27 → absentPlace s r.who m = none)
    ∧ matSteps r f m (m.n / 27 - (engineAt s r m.skip).1) (engineAt s r m.skip).1 (engineAt s r m.skip).2 s = .ok s1 a :=
  ⟨fMm, sMmHead 1 [], sMmHead 1 [], run0 (sMmHead 1 []), mm0, [], clear_of (by decide +kernel), by decide +kernel, rfl,
    by decide +kernel, .inr ⟨some fMm, 1, [], [], by decide +kernel⟩, by decide +kernel,
    ok_is (by decide +kernel), fun h => absurd h (by decide +kernel), by
      rw [show mm0.n / 27 - (engineAt (sMmHead 1 []) (run0 (sMmHead 1 [])) mm0.skip).1 = 0 by decide +kernel,
        show (engineAt (sMmHead 1 []) (run0 (sMmHead 1 [])) mm0.skip).2 = [] by decide +kernel]
      rfl⟩

theorem witness_MultiplyResult_ready : ∃ (f : Fields) (s : State) (r : Run) (m : MatArgs), Clear s r .mmul f
    ∧ EngineReady s r ∧ (engineAt s r m.skip).1 < m.n / 27
    ∧ matArgs s r f (readWord r s 0 f.a) (readWord r s 1 f.b) (readWord r s 3 f.d) = .ok m ∧ absentPlace s r.who m = none :=
  ⟨fMm, sMm, run0 sMm, mm0, clear_of (by decide +kernel), .inl (by decide +kernel), by decide +kernel,
    ok_is (by decide +kernel), by decide +kernel⟩

def loadedOf {α : Type} (s : State) : NodeStep α → State
  | .ok t _ => t
  | _ => s

theorem witness_MultiplyResult_step : ∃ (f : Fields) (s s1 s2 : State) (r : Run) (m : MatArgs) (k : Nat) (a a1 b : List Int)
    (band : Band),
    (if a.isEmpty = true then loadRows s r.who f.ty m.pa m.ha 27 0 27 = .ok s1 a1 else s1 = s ∧ a1 = a)
    ∧ loadRows s1 r.who f.ty m.pb m.hb m.n (27 * k) 27 = .ok s2 b ∧ s2.band r.id.band = some band
    ∧ m.tile < band.tiles.length ∧ (∀ x ∈ (tileOf band m.tile).poison, x < 729 * k ∨ 729 * (k + 1) ≤ x) := by
  obtain ⟨s2, b, h⟩ := step_of (show isOkStep (loadRows sMm (run0 sMm).who fMm.ty mm0.pb mm0.hb mm0.n (27 * 0) 27) = true by
    decide +kernel)
  have hb : ((loadedOf sMm (loadRows sMm (run0 sMm).who fMm.ty mm0.pb mm0.hb mm0.n (27 * 0) 27)).band (run0 sMm).id.band).isSome
      = true := by decide +kernel
  have ht : ((loadedOf sMm (loadRows sMm (run0 sMm).who fMm.ty mm0.pb mm0.hb mm0.n (27 * 0) 27)).band (run0 sMm).id.band).map
      (fun b => (b.tiles.length, (tileOf b 0).poison)) = some (2, []) := by decide +kernel
  rw [h] at hb ht
  obtain ⟨band, hb⟩ := some_of hb
  dsimp only [loadedOf] at hb ht
  rw [hb] at ht
  simp only [Option.map_some, Option.some.injEq, Prod.mk.injEq] at ht
  exact ⟨fMm, sMm, sMm, s2, run0 sMm, mm0, 0, [0], [0], b, band, ⟨rfl, rfl⟩, h, hb,
    by rw [ht.1]; decide, fun x hx => by rw [show mm0.tile = 0 from rfl, ht.2] at hx; cases hx⟩

def sMmWait : State := waiting (sMmHead 0 []) .engine

theorem witness_MultiplyResult_stepEvent : ∃ (s s1 : State) (r : Run) (f : Fields) (m : MatArgs) (done : Nat) (a a1 : List Int)
    (rest : List EngineCmd), s.run r.id = some r ∧ r.part.wait = .engine
    ∧ (s.core r.core).engine = .part r.id (some f) done a :: rest
    ∧ matArgs s r f (readWord r s 0 f.a) (readWord r s 1 f.b) (readWord r s 3 f.d) = .ok m ∧ done < m.n / 27
    ∧ absentPlace s r.who m = none ∧ matStep r f m done a s = .ok s1 a1 := by
  obtain ⟨s1, a1, h⟩ := step_of (show isOkStep (matStep (run0 sMmWait) fMm mm0 0 [] sMmWait) = true by decide +kernel)
  exact ⟨sMmWait, s1, run0 sMmWait, fMm, mm0, 0, [], a1, [], by decide +kernel, by decide +kernel, by decide +kernel,
    ok_is (by decide +kernel), by decide, by decide +kernel, h⟩

theorem witness_MultiplyResult_readyEvent : ∃ (s : State) (r : Run) (f : Option Fields) (done : Nat) (a : List Int)
    (rest : List EngineCmd), s.run r.id = some r ∧ r.part.wait = .engine
    ∧ (s.core r.core).engine = .part r.id f done a :: rest :=
  ⟨sMmWait, run0 sMmWait, some fMm, 0, [], [], by decide +kernel, by decide +kernel, by decide +kernel⟩

/-! ### Capsules -/

def fCap : Fields := { var := 1, d := .uni 11, a := .uni 9, b := .uni 10, imm := 14 }
/-- The nonet of a virtual address of the program's page. -/
def pageNonet (a : Nat) : Nat := 2187 * 1062882 + 1093 + a
def putWords (s : State) (ws : List (Nat × Int)) : State :=
  { s with mem := (ws.flatMap fun w => wordCells (pageNonet w.1 - 1) w.2).foldl (fun m c => memPutNonet m c.1 c.2) s.mem }
def single (s : State) : State := withPart s fun p => { p with slices := [0] }
def sCap : State := withUni (withUni (single (placed (.capEnter fCap))) 9 1620) 10 900

/-- The state in which CAP.ENTER contends, and the record it reads. -/
def capAt (s : State) : Option (State × State × CapRecord) :=
  (enterOf (run0 s) s fCap (readWord (run0 s) s 0 fCap.a) (readWord (run0 s) s 1 fCap.b)).bind fun s1 =>
    (recordAt (commitVersion s1 (run0 s).id.band false) (run0 s).who (readWord (run0 s) s 0 fCap.a)).toOption.map fun x => (s1, x)

theorem capAt_of {s : State} {x : State × State × CapRecord} (h : capAt s = some x) :
    (∀ k, enterChecks (run0 s) s fCap (readWord (run0 s) s 0 fCap.a) (readWord (run0 s) s 1 fCap.b) k = k x.1)
      ∧ recordAt (commitVersion x.1 (run0 s).id.band false) (run0 s).who (readWord (run0 s) s 0 fCap.a) = .ok x.2 := by
  unfold capAt at h
  rw [Option.bind_eq_some_iff] at h
  obtain ⟨s1, h1, h⟩ := h
  rw [Option.map_eq_some_iff] at h
  obtain ⟨y, h2, rfl⟩ := h
  exact ⟨fun k => enter_of h1 k, ok_is h2⟩

/-- The state with its record taken, before the slot's marker is written. -/
def takenAt (f : Fields) (s s2 : State) (r : Run) (c : CapRecord) : State :=
  wakeTethers (putRecord s2 r.who c
    ([(0, capWord0 1 0 0 (wrap 17 (c.token + 1))), (1, (identity r).1), (2, (identity r).2.1), (3, (identity r).2.2),
      (5, wrap 27 (r.slice.pc + 9 * f.imm)), (6, readWord r s 1 f.b)]
      ++ (capArgs r s2 f).zipIdx.map (fun x => (7 + x.2, x.1)) ++ [(18, 0)])) (c.nonet 0)

theorem witness_CapsuleResult : ∃ (f : Fields) (s s1 s2 s3 : State) (r : Run) (c : CapRecord), Clear s r .capEnter f
    ∧ r.slice.cap = none ∧ r.part.slices.length ≤ 1 ∧ r.band.pair = none
    ∧ (∀ k, enterChecks r s f (readWord r s 0 f.a) (readWord r s 1 f.b) k = k s1)
    ∧ recordAt (commitVersion s1 r.id.band false) r.who (readWord r s 0 f.a) = .ok (s2, c)
    ∧ recordPoison s2 (readWord r s 0 f.a) c = none ∧ c.state = 0
    ∧ directAt (takenAt f s s2 r c) r.who (markerAddr (readWord r s 1 f.b)) (-1) = .ok s3 := by
  obtain ⟨x, hx⟩ := some_of (show (capAt sCap).isSome = true by decide +kernel)
  have h : (capAt sCap).map (fun x => (recordPoison x.2.1 (readWord (run0 sCap) sCap 0 fCap.a) x.2.2, x.2.2.state,
      (directAt (takenAt fCap sCap x.2.1 (run0 sCap) x.2.2) (run0 sCap).who (markerAddr (readWord (run0 sCap) sCap 1 fCap.b))
        (-1)).toOption.isSome)) = some (none, 0, true) := by decide +kernel
  rw [hx] at h
  simp only [Option.map_some, Option.some.injEq, Prod.mk.injEq] at h
  obtain ⟨s3, h3⟩ := ok_of h.2.2
  exact ⟨fCap, sCap, x.1, x.2.1, s3, run0 sCap, x.2.2, clear_of (by decide +kernel), by decide +kernel, by decide +kernel,
    by decide +kernel, (capAt_of hx).1, (capAt_of hx).2, h.1, h.2.1, h3⟩

def sCapHeld : State := putWords sCap [(1581, 3 ^ 26 + 5)]

theorem witness_CapsuleResult_held : ∃ (f : Fields) (s s1 s2 : State) (r : Run) (c : CapRecord), Clear s r .capEnter f
    ∧ r.slice.cap = none ∧ r.part.slices.length ≤ 1 ∧ r.band.pair = none
    ∧ (∀ k, enterChecks r s f (readWord r s 0 f.a) (readWord r s 1 f.b) k = k s1)
    ∧ recordAt (commitVersion s1 r.id.band false) r.who (readWord r s 0 f.a) = .ok (s2, c)
    ∧ recordPoison s2 (readWord r s 0 f.a) c = none ∧ c.state = 1 ∧ field (c.word 3) 21 6 = (r.ctx.number : Int) := by
  obtain ⟨x, hx⟩ := some_of (show (capAt sCapHeld).isSome = true by decide +kernel)
  have h : (capAt sCapHeld).map (fun x => (recordPoison x.2.1 (readWord (run0 sCapHeld) sCapHeld 0 fCap.a) x.2.2, x.2.2.state,
      field (x.2.2.word 3) 21 6)) = some (none, 1, ((run0 sCapHeld).ctx.number : Int)) := by decide +kernel
  rw [hx] at h
  simp only [Option.map_some, Option.some.injEq, Prod.mk.injEq] at h
  exact ⟨fCap, sCapHeld, x.1, x.2.1, run0 sCapHeld, x.2.2, clear_of (by decide +kernel), by decide +kernel, by decide +kernel,
    by decide +kernel, (capAt_of hx).1, (capAt_of hx).2, h.1, h.2.1, h.2.2⟩

/-- The record was descheduled at a position; and it belongs to another context. -/
def sCapDown (position : Int) : State := putWords sCap [(1581, capWord0 (-1) 2 position 7)]
def sCapForeign : State := putWords sCap [(1581, 3 ^ 26 + 5), (1590, 6 * 3 ^ 21)]

/-- The state with a descheduled record adopted and the slot's marker cleared. -/
def adoptedAt (f : Fields) (s s2 : State) (r : Run) (c : CapRecord) : CapAccess State :=
  directAt (wakeTethers (putRecord s2 r.who c
    [(0, capWord0 1 c.step c.position (wrap 17 (c.token + 1))), (1, (identity r).1), (2, (identity r).2.1)]) (c.nonet 0))
    r.who (markerAddr (readWord r s 1 f.b)) 0

/-- What the cases of the adoption are told apart by. -/
def adoptFacts (s : State) (r : Run) : Option (Option TrapInfo × Int × Int × Int × Bool) :=
  (capAt s).map fun x => (recordPoison x.2.1 (readWord r s 0 fCap.a) x.2.2, x.2.2.state, field (x.2.2.word 3) 21 6,
    x.2.2.position, (adoptedAt fCap s x.2.1 r x.2.2).toOption.isSome)

theorem adopts {s : State} (position : Int) (h : adoptFacts s (run0 s) = some (none, -1, 0, position, true)) :
    ∃ (s1 s2 s3 : State) (c : CapRecord),
      (∀ k, enterChecks (run0 s) s fCap (readWord (run0 s) s 0 fCap.a) (readWord (run0 s) s 1 fCap.b) k = k s1)
      ∧ recordAt (commitVersion s1 (run0 s).id.band false) (run0 s).who (readWord (run0 s) s 0 fCap.a) = .ok (s2, c)
      ∧ recordPoison s2 (readWord (run0 s) s 0 fCap.a) c = none ∧ c.state = -1
      ∧ field (c.word 3) 21 6 = 0 ∧ c.position = position ∧ adoptedAt fCap s s2 (run0 s) c = .ok s3 := by
  unfold adoptFacts at h
  rw [Option.map_eq_some_iff] at h
  obtain ⟨x, hx, h1⟩ := h
  simp only [Prod.mk.injEq] at h1
  obtain ⟨s3, h3⟩ := ok_of h1.2.2.2.2
  exact ⟨x.1, x.2.1, s3, x.2.2, (capAt_of hx).1, (capAt_of hx).2, h1.1, h1.2.1, h1.2.2.1, h1.2.2.2.1, h3⟩

theorem witness_CapsuleResult_adopt : ∃ (f : Fields) (s s1 s2 s3 : State) (r : Run) (c : CapRecord), Clear s r .capEnter f
    ∧ r.slice.cap = none ∧ r.part.slices.length ≤ 1 ∧ r.band.pair = none
    ∧ (∀ k, enterChecks r s f (readWord r s 0 f.a) (readWord r s 1 f.b) k = k s1)
    ∧ recordAt (commitVersion s1 r.id.band false) r.who (readWord r s 0 f.a) = .ok (s2, c)
    ∧ recordPoison s2 (readWord r s 0 f.a) c = none ∧ c.state = -1 ∧ field (c.word 3) 21 6 = (r.ctx.number : Int)
    ∧ c.position = 26 ∧ adoptedAt f s s2 r c = .ok s3 := by
  obtain ⟨s1, s2, s3, c, h1, h2, h3, h4, h5, h6, h7⟩ := adopts (s := sCapDown 26) 26 (by decide +kernel)
  exact ⟨fCap, sCapDown 26, s1, s2, s3, run0 (sCapDown 26), c, clear_of (by decide +kernel), by decide +kernel,
    by decide +kernel, by decide +kernel, h1, h2, h3, h4, by rw [h5]; decide +kernel, h6, h7⟩

theorem witness_CapsuleResult_adoptLeave : ∃ (f : Fields) (s s1 s2 s3 : State) (r : Run) (c : CapRecord), Clear s r .capEnter f
    ∧ r.slice.cap = none ∧ r.part.slices.length ≤ 1 ∧ r.band.pair = none
    ∧ (∀ k, enterChecks r s f (readWord r s 0 f.a) (readWord r s 1 f.b) k = k s1)
    ∧ recordAt (commitVersion s1 r.id.band false) r.who (readWord r s 0 f.a) = .ok (s2, c)
    ∧ recordPoison s2 (readWord r s 0 f.a) c = none ∧ c.state = -1 ∧ field (c.word 3) 21 6 = (r.ctx.number : Int)
    ∧ c.position = 27 ∧ adoptedAt f s s2 r c = .ok s3 := by
  obtain ⟨s1, s2, s3, c, h1, h2, h3, h4, h5, h6, h7⟩ := adopts (s := sCapDown 27) 27 (by decide +kernel)
  exact ⟨fCap, sCapDown 27, s1, s2, s3, run0 (sCapDown 27), c, clear_of (by decide +kernel), by decide +kernel,
    by decide +kernel, by decide +kernel, h1, h2, h3, h4, by rw [h5]; decide +kernel, h6, h7⟩

theorem witness_CapsuleResult_foreign : ∃ (f : Fields) (s s1 s2 : State) (r : Run) (c : CapRecord), Clear s r .capEnter f
    ∧ r.slice.cap = none ∧ r.part.slices.length ≤ 1 ∧ r.band.pair = none
    ∧ (∀ k, enterChecks r s f (readWord r s 0 f.a) (readWord r s 1 f.b) k = k s1)
    ∧ recordAt (commitVersion s1 r.id.band false) r.who (readWord r s 0 f.a) = .ok (s2, c)
    ∧ recordPoison s2 (readWord r s 0 f.a) c = none ∧ c.state ≠ 0 ∧ field (c.word 3) 21 6 ≠ (r.ctx.number : Int)
    ∧ owes s2 r = false := by
  have h : (capAt sCapForeign).map (fun x => (recordPoison x.2.1 (readWord (run0 sCapForeign) sCapForeign 0 fCap.a) x.2.2,
      x.2.2.state, field (x.2.2.word 3) 21 6, owes x.2.1 (run0 sCapForeign))) = some (none, 1, 6, false) := by decide +kernel
  rw [Option.map_eq_some_iff] at h
  obtain ⟨x, hx, h⟩ := h
  simp only [Prod.mk.injEq] at h
  exact ⟨fCap, sCapForeign, x.1, x.2.1, run0 sCapForeign, x.2.2, clear_of (by decide +kernel), by decide +kernel,
    by decide +kernel, by decide +kernel, (capAt_of hx).1, (capAt_of hx).2, h.1, by rw [h.2.1]; decide,
    by rw [h.2.2.1]; decide +kernel, h.2.2.2⟩

def sCapWide : State := withUni (withUni (placed (.capEnter fCap)) 9 1620) 10 900

theorem witness_CapsuleResult_parts : ∃ (f : Fields) (s s1 : State) (r : Run), Clear s r .capEnter f ∧ r.slice.cap = none
    ∧ 1 < r.part.slices.length ∧ r.band.pair = none
    ∧ ∀ k, enterChecks r s f (readWord r s 0 f.a) (readWord r s 1 f.b) k = k s1 := by
  obtain ⟨x, hx⟩ := some_of (show (capAt sCapWide).isSome = true by decide +kernel)
  exact ⟨fCap, sCapWide, x.1, run0 sCapWide, clear_of (by decide +kernel), by decide +kernel, by decide +kernel,
    by decide +kernel, (capAt_of hx).1⟩

/-! ### Speculative fences -/

/-- A store of the gang is outstanding. -/
def sFence : State :=
  { withGang (placed (.fence {})) fun g => { g with acks := 1 } with
    reqs := [{ id := 3, part := p0, kind := .store, instr := .stw {}, elems := [], done := true, poison := none }] }

theorem witness_SpeculativeFence : ∃ (f : Fields) (s : State) (r : Run), Clear s r .fence f ∧ fenceScope f ≠ -3
    ∧ owes s r = true ∧ r.gang.parted = false :=
  ⟨{}, sFence, run0 sFence, clear_of (by decide +kernel), by decide +kernel, by decide +kernel, by decide +kernel⟩

def spec0 (s : State) : Spec1 :=
  { gang := 0, saved := (run0 s).gang, counts := [], invalid := 2, lines := [7], seen := [(pageNonet 299, 0)], held := [], issued := 3 }
def sSpec : State := let s := placed (.fence {}); withBand { s with issue := none } fun b => { b with specs := [spec0 s] }

theorem witness_SpeculativeFence_complete : ∃ (s : State) (r : Run) (x : Spec1), s.run r.id = some r ∧ r.gang.acks = 0
    ∧ r.band.pair = none ∧ specOf r.band r.id.gang = some x ∧ x.seen.all (readStands s r.who) = true :=
  ⟨sSpec, run0 sSpec, spec0 (placed (.fence {})), by decide +kernel, by decide +kernel, by decide +kernel, by decide +kernel,
    by decide +kernel⟩

theorem witness_SpeculativeFence_rollback : ∃ (s : State) (r : Run) (x : Spec1) (line : Nat), s.run r.id = some r
    ∧ s.issue = none ∧ specOf r.band r.id.gang = some x ∧ line ∈ x.lines :=
  ⟨sSpec, run0 sSpec, spec0 (placed (.fence {})), 7, by decide +kernel, by decide +kernel, by decide +kernel, by decide +kernel⟩

end Sys2Proof.Tests
end

