-- ==== Sys2Proof/Tests/WitnessE.lean ====
section
/-! SUPPORT. Concrete states and operands that meet the hypotheses of the statements about launches, placement, schedules and
paired launches. -/

namespace Sys2Proof.Tests

open Sys2Proof.Machine

set_option Elab.async false

/-! ### Launches -/

def fLaunch : Fields := { d := .uni 11, a := .uni 9, imm := 270 }
def sLaunch : State := placed (.launch fLaunch)
def s0Launch : State := walkedState sLaunch (run0 sLaunch) (sectorElems 270)
def cLaunch : Checked := checkElems s0Launch (run0 sLaunch).who none .read true (sectorElems 270)

theorem witness_LaunchResult : ∃ (f : Fields) (s : State) (r : Run) (ps : List (List Place)) (ls : List Leaf), Clear s r .launch f
    ∧ r.gang.parted = false ∧ isUni f.d = true ∧ r.band.pair = none ∧ r.band.copy = .unpaired ∧
    (let a := wrap 27 (readWord r s 0 f.a + f.imm)
     let s0 := walkedState s r (sectorElems a)
     let s1 := prepareRead (markLeaves s0 ls 2) r.who ps.flatten
     a % 27 = 0 ∧ checkElems s0 r.who none .read true (sectorElems a) = .ok ps ls
       ∧ poisonOf s1 r.who true ((sectorElems a).zip ps) = none) :=
  ⟨fLaunch, sLaunch, run0 sLaunch, placesOf cLaunch, leavesOf cLaunch, clear_of (by decide +kernel), by decide +kernel, rfl,
    by decide +kernel, by decide +kernel, by decide +kernel⟩

def queue0 : Queue := { number := 3, context := 0, priority := 2, base := 27 * 1000, size := 9, tail := 1, taken := 0 }
def sQueue : State := { placed (.launch fLaunch) with queues := [queue0], issue := none }

theorem witness_LaunchResult_take : ∃ (s : State) (q : Queue) (c : Context) (s0 : State) (ws : List Word),
    nextHead s = some (.queue q) ∧ (lookHeads s).context q.context = some c ∧
    headWords { lookHeads s with
      roundRobin := smapSet 0 s.roundRobin q.priority (q.number + 1)
      queues := s.queues.map fun x => if x.number = q.number then { x with taken := wrap 27 (x.taken + 1) } else x } q
      = some (s0, ws) := by
  obtain ⟨x, hx⟩ := some_of (show (headWords { lookHeads sQueue with
      roundRobin := smapSet 0 sQueue.roundRobin queue0.priority (queue0.number + 1)
      queues := sQueue.queues.map fun x => if x.number = queue0.number then { x with taken := wrap 27 (x.taken + 1) } else x }
      queue0).isSome = true by decide +kernel)
  exact ⟨sQueue, queue0, bootContext 0, x.1, x.2, by decide +kernel, by decide +kernel, hx⟩

/-- A LAUNCH's packet waits for the front end; entry 0 of its context's kernel table names a code base and a length. -/
def own0 : OwnPacket :=
  { number := 729, context := 0, priority := 2, entry := 0
    packet := { launch := (kern0 (placed (.exit {}))).launch, codeBase := 0, codeLen := 1, post := none, waits := []
                cuts := List.replicate 27 0 ++ [1] } }
def sOwn (base : Int) : State :=
  let s := { placed (.launch fLaunch) with launches := [own0], issue := none }
  { s with mem := (wordCells 1092 base ++ wordCells 1095 1).foldl (fun (m : List Host.Cell) (c : Nat × Int) => memPutNonet m c.1 c.2) s.mem }
def ownBefore (s : State) : State :=
  { lookHeads s with
    roundRobin := smapSet 0 s.roundRobin own0.priority (own0.number + 1)
    launches := s.launches.filter fun x => x.number != own0.number }

theorem witness_LaunchResult_own : ∃ (s s2 : State) (p : OwnPacket) (c : Context) (base : Word) (len : Nat),
    nextHead s = some (.own p) ∧ (lookHeads s).context p.context = some c ∧
    tableEntry { lookHeads s with
      roundRobin := smapSet 0 s.roundRobin p.priority (p.number + 1)
      launches := s.launches.filter fun x => x.number != p.number } c p.entry = .ok (s2, base, len)
    ∧ entriesOk p.packet.launch len = true
    ∧ ∃ d, d < Config.computeDies ∧ p.packet.cuts.getD d 0 < p.packet.cuts.getD (d + 1) 0 := by
  obtain ⟨x, hx⟩ := ok_of (show (tableEntry (ownBefore (sOwn 126)) (bootContext 0) 0).toOption.isSome = true by decide +kernel)
  have h1 : (tableEntry (ownBefore (sOwn 126)) (bootContext 0) 0).toOption.map (·.2.2) = some 1 := by decide +kernel
  rw [hx] at h1
  exact ⟨sOwn 126, x.1, own0, bootContext 0, x.2.1, x.2.2, by decide +kernel, by decide +kernel, hx, by
    rw [show x.2.2 = 1 from Option.some.inj h1]
    decide +kernel, 26, by decide, by decide⟩

/-! ### Placement -/

def idle (i : Instr) : State := { placed i with issue := none }
def sPend : State := (idle (.exit {})).modKernel 0 fun k =>
  { k with pending := [{ die := 0, lo := 4, hi := 9, copy := .unpaired }] }
def cand0 : Candidate := { kernel := 0, index := 4, copy := .unpaired, again := none, priority := 0, order := (1, 0, 4) }

theorem witness_DispatchResult : ∃ (s : State) (die core : Nat) (c : Candidate) (later : List Candidate) (k : Kernel),
    core < Config.cores ∧ core / Config.coresPerDie = die ∧ candidates s die = c :: later ∧ s.kernel c.kernel = some k
    ∧ fits s c core = true ∧ c.again = none :=
  ⟨sPend, 0, 5, cand0, [], kern0 sPend, by decide, by decide, by decide +kernel, by decide +kernel, by decide +kernel, rfl⟩

def sAway : State := withBand (idle (.exit {})) fun b => { b with core := none, gangs := b.gangs.map fun g => { g with residence := .evicted } }

theorem witness_DispatchResult_again : ∃ (s : State) (die core : Nat) (c : Candidate) (later : List Candidate) (k : Kernel)
    (u : Nat) (b : Band), core < Config.cores ∧ core / Config.coresPerDie = die ∧ candidates s die = c :: later
    ∧ s.kernel c.kernel = some k ∧ fits s c core = true ∧ c.again = some u ∧ s.band u = some b :=
  ⟨sAway, 0, 5, { kernel := 0, index := 0, copy := .unpaired, again := some 1, priority := 0, order := (0, 0, 0) }, [],
    kern0 sAway, 1, band0 sAway, by decide, by decide, by decide +kernel, by decide +kernel, by decide +kernel, rfl,
    by decide +kernel⟩

theorem witness_DispatchResult_start : ∃ (s : State) (k : Kernel) (c : Candidate) (die core : Nat) (g : Gang),
    g ∈ (newBand s k c die core).gangs :=
  ⟨sPend, kern0 sPend, cand0, 0, 5, (newBand sPend (kern0 sPend) cand0 0 5).gangs.headD (run0 sPend).gang, by decide +kernel⟩

def sResume : State := withBand (idle (.exit {})) fun b => { b with gangs := b.gangs.map fun g => { g with residence := .evicted } }

theorem witness_DispatchResult_resume : ∃ (s : State) (b : Band) (g : Gang) (core gang : Nat), s.band b.uid = some b
    ∧ b.core = some core ∧ b.gangs[gang]? = some g
    ∧ ((resumables s core).head?.map fun x => (x.1.uid, x.2)) = some (b.uid, gang) ∧ g.grant ≤ freeRegisters s core
    ∧ (partitionLoads s core).getD (leastLoaded (partitionLoads s core)) 0 < 3 :=
  ⟨sResume, band0 sResume, (run0 sResume).gang, 0, 0, by decide +kernel, by decide +kernel, by decide +kernel,
    by decide +kernel, by decide +kernel, by decide +kernel⟩

/-- A gang that waits in GROW, and one of a given grant that waits for the host. -/
def twoGangs (g : Gang) (grant : Nat) : List Gang :=
  [{ g with grant := 6000, parts := g.parts.map fun p => { p with wait := .grow 9 13 } },
   { g with grant := grant, index := 1, parts := g.parts.map fun p => { p with wait := .fault 8100 7 } }]
def sStuck : State := withBand (idle (.exit {})) fun b => { b with gangs := b.gangs.flatMap fun g => twoGangs g 560 }
def runOf (s : State) (p : PartId) : Run := (s.run p).getD blank
def p1 : PartId := { band := 1, gang := 1, part := 0 }

theorem witness_EvictResult : ∃ (s : State) (r : Run) (core : Nat), s.run r.id = some r ∧ s.issue = none
    ∧ r.band.core = some core ∧ growStuck s core = true ∧ growVictim s core = some (r.id.band, r.id.gang)
    ∧ (∀ x ∈ r.gang.parts, ∀ e ∈ (s.core core).engine, e.isPart { r.id with part := x.slices.headD 0 } = false)
    ∧ specOf r.band r.id.gang = none ∧ (∀ q ∈ s.reqs, q.part.band = r.id.band → q.kind ≠ .atomic)
    ∧ oldestShort (evictOne s r.id.band r.id.gang) core = false :=
  ⟨sStuck, runOf sStuck p1, 0, by decide +kernel, rfl, by decide +kernel, by decide +kernel, by decide +kernel,
    fun x _ e he => (by rw [show (sStuck.core 0).engine = [] by decide +kernel] at he; cases he), by decide +kernel,
    fun q hq => (by rw [show sStuck.reqs = [] by decide +kernel] at hq; cases hq), by decide +kernel⟩

def sUnstuck : State := evictOne sStuck 1 1

theorem witness_EvictResult_grow : ∃ (s : State) (core n d : Nat) (v : Nat × Nat) (r : Run)
    (rest : List (PartId × Gang × Nat × Nat)), s.issue = none ∧ growStuck s core = true ∧ growVictim s core = some v
    ∧ oldestShort (evictOne s v.1 v.2) core = false ∧ growRequests (evictOne s v.1 v.2) core = (r.id, r.gang, n, d) :: rest
    ∧ growNeeds r.gang n ≤ freeRegisters (evictOne s v.1 v.2) core ∧ (evictOne s v.1 v.2).run r.id = some r :=
  ⟨sStuck, 0, 9, 13, (1, 1), run0 sUnstuck, [], rfl, by decide +kernel, by decide +kernel, by decide +kernel, by decide +kernel,
    by decide +kernel, by decide +kernel⟩

/-- The oldest request is an evicted gang's; the youngest resident gang waits in GROW too. -/
def sStuckAway : State := withBand (idle (.exit {})) fun b => { b with gangs := b.gangs.flatMap fun g =>
  [{ g with grant := 6000, residence := .evicted, parts := g.parts.map fun p => { p with wait := .grow 9 13 } },
   { g with grant := 100, index := 1, parts := g.parts.map fun p => { p with wait := .fault 8100 7 } },
   { g with grant := 460, index := 2, parts := g.parts.map fun p => { p with wait := .grow 9 13 } }] }
def sUnstuckAway : State := evictOne sStuckAway 1 2

theorem witness_EvictResult_growAway : ∃ (s : State) (core n d : Nat) (v : Nat × Nat) (r : Run)
    (rest : List (PartId × Gang × Nat × Nat)), s.issue = none ∧ growStuck s core = true ∧ growVictim s core = some v
    ∧ oldestShort (evictOne s v.1 v.2) core = false ∧ growRequests (evictOne s v.1 v.2) core = (r.id, r.gang, n, d) :: rest
    ∧ growNeeds r.gang n ≤ freeRegisters (evictOne s v.1 v.2) core ∧ (evictOne s v.1 v.2).run r.id = some r
    ∧ r.gang.residence = .evicted ∧ growStuck (evictOne s v.1 v.2) core = false :=
  ⟨sStuckAway, 0, 9, 13, (1, 2), run0 sUnstuckAway, (growRequests sUnstuckAway 0).tail, by decide +kernel, by decide +kernel,
    by decide +kernel, by decide +kernel, by decide +kernel, by decide +kernel, by decide +kernel, by decide +kernel,
    by decide +kernel⟩

/-- Every core of cluster 0 is full; a band of priority 8 has waited for one of them. -/
def sCrowded : State :=
  let s0 := withBand (idle (.exit {})) fun b => { b with gangs := b.gangs.map fun g =>
    { g with grant := 6561, parts := g.parts.map fun p => { p with wait := .fault 8100 7 } } }
  let k := kern0 s0
  let high : Kernel := { k with
    uid := 5, priority := 8, clusters := [(0, false, 0)]
    launch := { k.launch with levels := [{ extent := 9, domain := -1 }] }
    pending := [{ die := 0, lo := 0, hi := 1, copy := .unpaired }] }
  { s0 with
    kernels := s0.kernels ++ [high]
    bands := s0.bands ++ (List.range (Config.coresPerCluster - 1)).map fun i =>
      { band0 s0 with uid := 100 + i, kernel := 5, core := some (i + 1) }
    dies := [{ number := 0, waited := [⟨5, 0, false, 59049⟩], hot := false, cycle := 0, last := -1 }] }
def candHigh : Candidate := { kernel := 5, index := 0, copy := .unpaired, again := none, priority := 8, order := (1, 0, 0) }

theorem witness_EvictResult_placement : ∃ (s : State) (die : Nat) (head : Candidate) (later : List Candidate) (b : Band)
    (bs : List Band), s.issue = none ∧ candidates s die = head :: later ∧ 59049 ≤ headWait (s.die die) head
    ∧ fitsSome s head die = false ∧ placementVictims s die head.priority = b :: bs ∧ s.band b.uid = some b ∧ b.gangs ≠ []
    ∧ fitsSome (evictBand s b) head die = true :=
  ⟨sCrowded, 0, candHigh, [], band0 sCrowded, [], rfl, by decide +kernel, by decide +kernel, by decide +kernel, by decide +kernel,
    by decide +kernel, by decide +kernel, by decide +kernel⟩

def sEnd : State := withBand (idle (.exit {})) fun b => { b with gangs := b.gangs.map fun g => { g with residence := .exited } }
def sEndLast : State := sEnd.modKernel 0 fun k => { k with post := some 5 }
def sEndMore : State := sEnd.modKernel 0 fun k => { k with pending := [{ die := 0, lo := 4, hi := 9, copy := .unpaired }] }

theorem witness_EndResult : ∃ (s : State) (b : Band) (k : Kernel) (c : Context), s.band b.uid = some b
    ∧ s.kernel b.kernel = some k ∧ s.context k.context = some c ∧ b.pair = none ∧ bandDone s b = true
    ∧ (k.pending = [] ∧ ∀ x ∈ s.bands, x.kernel = k.uid → x.uid = b.uid) ∧ k.post = some 5 :=
  ⟨sEndLast, band0 sEndLast, kern0 sEndLast, bootContext 0, by decide +kernel, by decide +kernel, by decide +kernel,
    by decide +kernel, by decide +kernel, ⟨by decide +kernel, by decide +kernel⟩, by decide +kernel⟩

theorem witness_EndResult_more : ∃ (s : State) (b : Band) (k : Kernel) (c : Context), s.band b.uid = some b
    ∧ s.kernel b.kernel = some k ∧ s.context k.context = some c ∧ b.pair = none ∧ bandDone s b = true ∧ k.pending ≠ [] :=
  ⟨sEndMore, band0 sEndMore, kern0 sEndMore, bootContext 0, by decide +kernel, by decide +kernel, by decide +kernel,
    by decide +kernel, by decide +kernel, by decide +kernel⟩

/-! ### Issue, shares and budgets -/

def sIdle : State := (idle (.exit {})).setDie { (idle (.exit {})).die 0 with last := -1 }
def sIdle1 (s : State) : State := { s.setDie { s.die 0 with last := 0 } with turn := 0 }

theorem witness_ScheduleResult : ∃ (s : State) (core partition : Nat) (r : Run), s.issue = none ∧ core < Config.cores
    ∧ partition < Config.partitions ∧ cycleDue s (dieOf core) = false
    ∧ (s.die (dieOf core)).last < ((32 * (core % Config.coresPerDie) + partition : Nat) : Int) ∧
    (let place : Nat := 32 * (core % Config.coresPerDie) + partition
     let s1 : State := { s.setDie { s.die (dieOf core) with last := place } with turn := 32 * core + partition }
     let s2 := endWaits s1 (partitionRuns s1 core partition)
     pickRun s2 partition (((partitionRuns s1 core partition).filter (readyPart s1)).filter (canIssue s2 partition)) = some r) :=
  ⟨sIdle, 0, 0, run0 (sIdle1 sIdle), rfl, by decide, by decide, by decide +kernel, by decide +kernel, by decide +kernel⟩

theorem witness_ScheduleResult_tick : ∃ (s : State) (core partition : Nat), s.issue = none ∧ core < Config.cores
    ∧ partition < Config.partitions ∧ cycleDue s (dieOf core) = false
    ∧ ((32 * (core % Config.coresPerDie) + partition : Nat) : Int) ≤ (s.die (dieOf core)).last :=
  ⟨sIdle1 sIdle, 0, 0, rfl, by decide, by decide, by decide +kernel, by decide +kernel⟩

def sHungry : State := withPart (idle (.exit {})) fun p => { p with waitCount := 27 }

theorem witness_ScheduleResult_starving : ∃ (s : State) (r : Run), s.run r.id = some r ∧ s.issue = none
    ∧ 27 ≤ r.part.waitCount ∧ r.part.starving = none :=
  ⟨sHungry, run0 sHungry, by decide +kernel, rfl, by decide +kernel, by decide +kernel⟩

def sDue : State := (idle (.exit {})).modCore 0 fun c => { c with rebalance := true, period := true }

theorem witness_ScheduleResult_due : ∃ (s : State) (core : Nat), (s.core core).rebalance = true ∧ (s.core core).period = true
    ∧ s.issue = none :=
  ⟨sDue, 0, by decide +kernel, by decide +kernel, rfl⟩

theorem witness_ScheduleResult_controller : ∃ (s : State) (n : Nat), n < Config.controllers ∧ (s.controller n).period = true :=
  ⟨State.reset.modController 3 fun c => { c with period := true }, 3, by decide, by decide +kernel⟩

theorem witness_ScheduleResult_management : ∃ s : State, s.mgmtPeriod = true := ⟨{ State.reset with mgmtPeriod := true }, rfl⟩

theorem witness_ScheduleResult_shell : ∃ (s : State) (n : Nat), (s.mgmtCycle + 1) % 59049 = 0 ∧ n < Config.controllers
    ∧ ((s.controller n).cycle + 1) % 59049 = 0 :=
  ⟨({ State.reset with mgmtCycle := 59048 }).modController 11 fun c => { c with cycle := 59048 }, 11, by decide +kernel,
    by decide, by decide +kernel⟩

theorem witness_ScheduleResult_modules : ∃ (s : State) (d p : Nat), wrap 27 ((s.die d).cycle + 1) % 59049 = 0 ∧ p < Config.planes
    ∧ (s.uci (moduleOf d p)).inPeriod ≠ 0 :=
  ⟨((State.reset.setDie { State.reset.die 26 with cycle := 59048 }).modUci (moduleOf 26 8) fun m => { m with inPeriod := 8 }),
    26, 8, by decide +kernel, by decide, by decide +kernel⟩

theorem witness_ScheduleResult_share : moveShare (fun i => if i = 1 then 1 else -1) [41, 40] = [40, 41] := by decide

def sParts : State := withGang (idle (.exit {})) fun g =>
  { g with parts := g.parts.flatMap fun p =>
      [{ p with slices := [0, 1, 2], wait := .regang false }, { p with slices := [3, 4, 5, 6, 7, 8], wait := .regang true }] }

theorem witness_ScheduleResult_regang : ∃ (s : State) (b : Band) (g : Gang) (gang : Nat), s.band b.uid = some b
    ∧ b.gangs[gang]? = some g ∧ allAtRegang g = true ∧ sameRegang g = true :=
  ⟨sParts, band0 sParts, (run0 sParts).gang, 0, by decide +kernel, by decide +kernel, by decide +kernel, by decide +kernel⟩

/-- The parts wait at two REGANG instructions; the second arrived last. -/
def sMixed : State := withGang sParts fun g =>
  { g with slices := g.slices.zipIdx.map fun x => if 3 ≤ x.2 then { x.1 with pc := wrap 27 (x.1.pc + 9) } else x.1 }
def pMixed : PartId := { band := 1, gang := 0, part := 3 }

theorem witness_ScheduleResult_mismatch : ∃ (s : State) (b : Band) (g : Gang) (gang : Nat) (r : Run), s.band b.uid = some b
    ∧ b.gangs[gang]? = some g ∧ s.issue = none ∧ allAtRegang g = true ∧ sameRegang g = false
    ∧ mismatchPart (gangRuns s b gang) = some r ∧ r.band.pair = none ∧ r.part.forwarded = none ∧ owes s r = false :=
  ⟨sMixed, band0 sMixed, (run0 sMixed).gang, 0, runOf sMixed pMixed, by decide +kernel, by decide +kernel, by decide +kernel,
    by decide +kernel, by decide +kernel, by decide +kernel, by decide +kernel, by decide +kernel, by decide +kernel⟩

/-! ### Paired launches -/

def pairOf (s : State) (mate : Nat) (sigs : List Word) : Pair :=
  { startPair mate 0 (band0 s) with signatures := sigs }
/-- The leading copy is band 1 and the trailing one band 7; both parts are at a checkpoint. -/
def pairedState (x y : List Word) : State :=
  let s0 := withPart (idle (.exit {})) fun p => { p with wait := .checkpoint false [] }
  { s0 with bands := [{ band0 s0 with copy := .leading, pair := some (pairOf s0 7 x) },
                      { band0 s0 with uid := 7, core := some 1, copy := .trailing, pair := some (pairOf s0 1 y) }] }
def copy0 (s : State) (i : Nat) : Band := (s.bands[i]?).getD (band0 s)
def pair0 (s : State) (i : Nat) : Pair := ((copy0 s i).pair).getD (startPair 0 0 (band0 s))

theorem witness_PairedResult : ∃ (s : State) (band : Nat) (l t : Band) (p q : Pair) (r : Run) (sl : List Nat)
    (terms : List Int), copiesOf s band = some (l, p, t, q) ∧ l.uid ≠ t.uid ∧ p.mate = t.uid ∧ copyRun s l = some r
    ∧ meeting l t = some (sl, false, terms) ∧ groupsMatch (closeGroup p []) (closeGroup q []) = true :=
  let s := pairedState [] []
  ⟨s, 1, copy0 s 0, copy0 s 1, pair0 s 0, pair0 s 1, run0 s, List.range 9, [], by decide +kernel, by decide +kernel,
    by decide +kernel, by decide +kernel, by decide +kernel, by decide +kernel⟩

theorem witness_PairedResult_receive : ∃ (s : State) (band : Nat) (l t : Band) (p q : Pair) (x : Word) (xs ys : List Word),
    copiesOf s band = some (l, p, t, q) ∧ l.uid ≠ t.uid ∧ p.mate = t.uid ∧ p.signatures = x :: xs
    ∧ p.received ++ q.signatures.take 1 = x :: ys :=
  let s := pairedState [5, 6] [5]
  ⟨s, 1, copy0 s 0, copy0 s 1, pair0 s 0, pair0 s 1, 5, [6], [], by decide +kernel, by decide +kernel, by decide +kernel,
    by decide +kernel, by decide +kernel⟩

theorem witness_PairedResult_mismatch : ∃ (s : State) (band : Nat) (l t : Band) (p q : Pair) (r : Run) (x y : Word)
    (xs ys : List Word), copiesOf s band = some (l, p, t, q) ∧ l.uid ≠ t.uid ∧ p.mate = t.uid ∧ copyRun s l = some r
    ∧ p.signatures = x :: xs ∧ p.received ++ q.signatures = y :: ys ∧ x ≠ y :=
  let s := pairedState [5] [6]
  ⟨s, 1, copy0 s 0, copy0 s 1, pair0 s 0, pair0 s 1, run0 s, 5, 6, [], [], by decide +kernel, by decide +kernel,
    by decide +kernel, by decide +kernel, by decide +kernel, by decide +kernel, by decide +kernel⟩

end Sys2Proof.Tests
end

