-- ==== Sys2Proof/Tests/WitnessF.lean ====
section
/-! SUPPORT. Concrete states and operands that meet the hypotheses of the statements about requests, sectors, links, ports, the
management controller, encodings and the step. -/

namespace Sys2Proof.Tests

open Sys2Proof.Machine

set_option Elab.async false

/-! ### Requests -/

def asking (s : State) : State := { s with issue := none }
def reqElem (p : Place) : ReqElem := { pos := 0, lane := 0, addr := 300, places := [p], data := [] }
def fAsk : Fields := { d := .uni 13, a := .uni 9, b := .uni 10 }
/-- A load that waits for one nonet. -/
def loadReq (id : Nat) (p : Place) (done : Bool) : Req :=
  { id := id, part := p0, kind := .load, instr := .ldn fAsk, elems := [{ reqElem p with data := if done then [7] else [] }],
    done := done, poison := none }
def askState (q : Req) : State :=
  let s := withPart (asking (placed (.ldn fAsk))) fun p => { p with wait := .load (q.id / 100) }
  { s with reqs := [q] }

theorem witness_RequestResult_home : ∃ (s : State) (q : Req) (w : Who) (j : Nat), findReq s q.id = some q
    ∧ s.who q.part.band q.part.gang = some w ∧ q.kind = .load ∧ q.done = false ∧ q.here = false ∧ blockedReq s q = false
    ∧ q.joins = none ∧ (∀ x ∈ s.reqs, x.joins ≠ some q.id) ∧ queuedBehind s q j = false ∧ q.cls = 0 ∧ q.places.head? = some (.dev j)
    ∧ roomFor s (homeOf j) (planeOf s j) (dieOf q.core) = true :=
  let q := loadReq 3 (.dev 5) false
  ⟨askState q, q, (run0 (askState q)).who, 5, by decide +kernel, by decide +kernel, rfl, rfl, rfl, by decide +kernel,
    rfl, by decide +kernel, by decide +kernel, by decide, rfl, by
    unfold roomFor retainedOf
    rw [show (askState q).retained = [] from rfl]
    rfl⟩

theorem witness_RequestResult_cluster : ∃ (s : State) (q : Req) (w : Who), findReq s q.id = some q
    ∧ s.who q.part.band q.part.gang = some w ∧ q.kind = .load ∧ q.done = false ∧ q.here = false ∧ blockedReq s q = false
    ∧ q.joins = none ∧ (∀ x ∈ s.reqs, x.joins ≠ some q.id) ∧ q.cls = 1 :=
  let q := loadReq 4 (.scr 1 0 true) false
  ⟨askState q, q, (run0 (askState q)).who, by decide +kernel, by decide +kernel, rfl, rfl, rfl, by decide +kernel, rfl,
    by decide +kernel, by decide⟩

theorem witness_RequestResult_host : ∃ (s : State) (q : Req) (w : Who) (data : List Nat), findReq s q.id = some q
    ∧ s.who q.part.band q.part.gang = some w ∧ q.kind = .load ∧ q.done = false ∧ q.here = false ∧ blockedReq s q = false
    ∧ q.joins = none ∧ (∀ x ∈ s.reqs, x.joins ≠ some q.id) ∧ q.cls = 2 ∧ data.length = (distinct q.places).length ∧ (∀ h ∈ data, (nonetOfHalfword (h % 65536)).isSome = true)
    ∧ (∀ n, (match q.places.head? with | some (.peer p _ _) => p | _ => hostPort s) = n → (s.port n).up = true) :=
  let q := loadReq 5 (.host 5) false
  ⟨askState q, q, (run0 (askState q)).who, [7], by decide +kernel, by decide +kernel, rfl, rfl, rfl, by decide +kernel,
    rfl, by decide +kernel, by decide, rfl,
    by decide +kernel, fun n h => by
      rw [← h, show (match q.places.head? with | some (.peer p _ _) => p | _ => hostPort (askState q)) = 0 by decide +kernel]
      decide +kernel⟩

theorem witness_RequestResult_return : ∃ (s : State) (r : Run) (req : Nat) (q : Req) (rest : List Req) (op : Op) (f : Fields),
    (s.reqs.filter fun x => x.group == req / 100 && x.kind != .store) = q :: rest ∧ q.kind = .load ∧ q.part = r.id
    ∧ Waits s r (.load (req / 100))
    ∧ r.body = false ∧ codedOf q.instr = some (op, f) ∧ (∀ x ∈ q :: rest, x.done = true ∧ x.poison = none)
    ∧ (if returnForm op f = .uniform then isUni f.d = true ∨ isK f.d = true else isVectorDest f.d = true) :=
  let q := loadReq 3 (.dev 5) true
  ⟨askState q, run0 (askState q), 3, q, [], .ldn, fAsk, by decide +kernel, rfl, by decide +kernel, waits_of (by decide +kernel),
    by decide +kernel, rfl, by decide, by decide⟩

def storeReq : Req :=
  { id := 3, part := p0, kind := .store, instr := .stn fAsk, elems := [{ reqElem (.dev 5) with data := [7] }], done := true,
    poison := none }
def sStored : State := { withGang (asking (placed (.stn fAsk))) (fun g => { g with acks := 1 }) with reqs := [storeReq] }

theorem witness_RequestResult_ack : ∃ (s : State) (b : Band) (g : Gang) (gang : Nat) (q : Req), s.band b.uid = some b
    ∧ b.gangs[gang]? = some g
    ∧ (s.reqs.find? fun x => x.kind == .store && x.done && x.part.band == b.uid && x.part.gang == gang) = some q
    ∧ ((s.reqs.filter fun x => x.id != q.id).any fun x => x.group == q.group && x.kind == .store) = false :=
  ⟨sStored, band0 sStored, (run0 sStored).gang, 0, storeReq, by decide +kernel, by decide +kernel, by decide +kernel,
    by decide +kernel⟩

/-! ### Sectors and links -/

theorem witness_SectorResult : ∃ (_s : State) (c : Nat) (e : SectorError), c < Config.controllers
    ∧ sectorExists e.sector = true ∧ controllerOf e.sector = c ∧ 0 < e.bytes ∧ e.bytes ≤ 3 ∧ e.badTag = false :=
  ⟨State.reset, controllerOf 7, { sector := 7, bytes := 3, badTag := false }, controllerOf_lt (by decide), by decide, rfl,
    by decide, by decide, rfl⟩

theorem witness_SectorResult_scrub : ∃ (s : State) (c : Nat) (e : SectorError), c < Config.controllers
    ∧ e.sector = sectorAt c (s.controller c).position ∧ (s.controller c).used < scrubLimit s (s.controller c)
    ∧ 0 < e.bytes ∧ e.bytes ≤ 3 ∧ e.badTag = false ∧ controllerOf e.sector = c :=
  ⟨State.reset, 11, { sector := sectorAt 11 0, bytes := 3, badTag := false }, by decide, rfl, by decide +kernel, by decide,
    by decide, rfl, controllerOf_sectorAt (by decide)⟩

theorem witness_SectorResult_worse : ∃ (s : State) (c : Nat) (e : SectorError), c < Config.controllers
    ∧ sectorExists e.sector = true ∧ controllerOf e.sector = c ∧ 3 < e.bytes ∧ e.sector ∉ s.poison :=
  ⟨State.reset, controllerOf 7, { sector := 7, bytes := 4, badTag := false }, controllerOf_lt (by decide), by decide, rfl,
    by decide, by decide +kernel⟩

def sScrub : State := State.reset.modController 0 fun c => { c with scrub := some (7, 0, List.replicate 27 5) }

theorem witness_SectorResult_writeback : ∃ (s : State) (c cycles sec gen : Nat) (vs : List Int),
    (s.controller c).scrub = some (sec, gen, vs) ∧ s.gen sec = gen
    ∧ (s.controller c).cycle - (s.controller c).scrubAt + cycles ≤ 4096 :=
  ⟨sScrub, 0, 4096, 7, 0, List.replicate 27 5, by decide +kernel, by decide +kernel, by decide +kernel⟩

theorem witness_LinkResult : ∃ (_s : State) (m : Nat) (codes : List Nat), m < Config.uciModules
    ∧ ∃ h ∈ codes, nonetOfHalfword (h % 65536) = none ∧ h % 65536 ≠ poisonCode :=
  ⟨State.reset, 242, [9999], by decide, 9999, by decide, by decide, by decide⟩

def sReplays : State := State.reset.modUci 0 fun x => { x with inPeriod := 9 }

theorem witness_LinkResult_rotation : ∃ (s : State) (m : Nat) (i : Instr), m < Config.uciModules ∧ i = .laneRotation m
    ∧ 9 ≤ (s.uci m).inPeriod ∧ (s.uci m).shadow = false :=
  ⟨sReplays, 0, .laneRotation 0, by decide, rfl, by decide +kernel, by decide +kernel⟩

theorem witness_LinkResult_dies : ∃ (s : State) (m : Nat) (i : Instr), m < Config.uciModules ∧ i = .laneMarginLow m
    ∧ (s.uci m).shadow = true :=
  ⟨State.reset.modUci 0 fun x => { x with shadow := true }, 0, .laneMarginLow 0, by decide, rfl, by decide +kernel⟩

theorem witness_LinkResult_plane : ∃ (s : State) (p i x : Nat), p < Config.planes ∧ p ∉ s.deadPlanes
    ∧ s.planeMap[i]? = some x ∧ x ≠ p :=
  ⟨State.reset, 0, 80, 8, by decide, by decide, by decide, by decide⟩

def sRetained : State :=
  { State.reset with
    retained := [{ home := 4, plane := 2, die := 1
                   responses := List.replicate 242 { tag := .core 0 0 0, value := [5] } ++ [{ tag := .port 0 3, value := [] }] }] }

theorem witness_LinkResult_confirm : ∃ (s : State) (h p d : Nat), 243 ≤ (retainedOf s h p d).length
    ∧ ((retainedOf s h p d).take 243).all (received s) = true :=
  ⟨sRetained, 4, 2, 1, by decide +kernel, by decide +kernel⟩

/-! ### Ports -/

theorem witness_PortMemory : ∃ (s : State) (port j : Nat) (hs : List Nat), hostFacing s port = true ∧ hs ≠ []
    ∧ (∀ h ∈ hs, h < 65536) ∧ j + hs.length ≤ Config.deviceNonets :=
  ⟨State.reset, 0, Config.deviceNonets - 1, [poisonCode], by decide +kernel, by decide, by decide, by decide⟩

/-- A host writes the 27 nonets of sector 3, which is poisoned. -/
theorem witness_PortMemory_clears : ∃ (s : State) (port j sec : Nat) (hs : List Nat), hostFacing s port = true ∧ hs ≠ []
    ∧ (∀ h ∈ hs, h < 65536) ∧ j + hs.length ≤ Config.deviceNonets ∧ j ≤ 27 * sec ∧ 27 * sec + 27 ≤ j + hs.length
    ∧ (∀ i, i < 27 → (nonetOfHalfword (hs.getD (27 * sec + i - j) 0)).isSome = true) ∧ sec ∈ s.poison :=
  ⟨{ State.reset with poison := [3] }, 0, 81, 3, List.replicate 27 5, by decide +kernel, by decide, by decide, by decide,
    by decide, by decide, by decide +kernel, by decide⟩

theorem witness_PortMemory_byte : ∃ (s : State) (port j high value v : Nat) (x : Int), hostFacing s port = true ∧ high < 2
    ∧ j < Config.deviceNonets ∧ unversioned s j ∧ (∀ y ∈ s.flips, y.1 ≠ .dev (j / 3))
    ∧ (∀ y ∈ s.verFlips, lineOf (3 * y.2.1) ≠ lineOf j) ∧ sectorOf j ∉ s.poison
    ∧ (∀ b ∈ s.bands, ∀ sec, sec ∈ b.verPoison → sec / 9 ≠ lineOf j)
    ∧ v = (if high = 0 then memHalf s.mem j / 256 * 256 + value % 256 else memHalf s.mem j % 256 + 256 * (value % 256))
    ∧ nonetOfHalfword v = some x :=
  ⟨State.reset, 0, 5, 0, 7, 7, 7, by decide +kernel, by decide, by decide, fun _ hb => (nomatch hb), fun _ hy => (nomatch hy),
    fun _ hy => (nomatch hy), by decide, fun _ hb => (nomatch hb), by decide +kernel, by decide⟩

theorem witness_PortMemory_read : ∃ (s : State) (port j n : Nat), hostFacing s port = true ∧ 0 < n
    ∧ j + n ≤ Config.deviceNonets ∧ s.flips = [] ∧ ∀ b ∈ s.bands, b.version = [] ∧ b.verPoison = [] :=
  ⟨State.reset, 0, 5, 3, by decide +kernel, by decide, by decide, rfl, fun b hb => by cases hb⟩

def sPeer : State := State.reset.modPort 1 fun _ => { Port.reset .peer with inbound := [(100, 50)] }

theorem witness_PortMemory_peer : ∃ (s : State) (port j n : Nat), s.power = .up ∧ (s.port port).role = .peer
    ∧ (s.port port).up = true ∧ port < s.ports.length ∧ inbound (s.port port) j n = false :=
  ⟨sPeer, 1, 149, 2, rfl, by decide +kernel, by decide +kernel, by decide +kernel, by decide +kernel⟩

theorem witness_PortMemory_peerDropped : ∃ (s : State) (port j : Nat) (hs : List Nat), s.power = .up
    ∧ (s.port port).role = .peer ∧ (s.port port).up = true ∧ port < s.ports.length ∧ hs ≠ []
    ∧ inbound (s.port port) j hs.length = false :=
  ⟨sPeer, 1, 149, [1, 2], rfl, by decide +kernel, by decide +kernel, by decide +kernel, by decide, by decide +kernel⟩

theorem witness_PortMemory_peerByte : ∃ (s : State) (port j high : Nat), s.power = .up
    ∧ (s.port port).role = .peer ∧ (s.port port).up = true ∧ port < s.ports.length ∧ high < 2
    ∧ inbound (s.port port) j 1 = false :=
  ⟨sPeer, 1, 150, 1, rfl, by decide +kernel, by decide +kernel, by decide +kernel, by decide, by decide +kernel⟩

theorem witness_PortMemory_peerMerge : ∃ (s : State) (port j high value v : Nat) (x : Int), hostFacing s port = false
    ∧ (s.power = .up ∧ (s.port port).role = .peer ∧ (s.port port).up = true ∧ inbound (s.port port) j 1 = true) ∧ high < 2
    ∧ j < Config.deviceNonets ∧ unversioned s j ∧ (∀ y ∈ s.flips, y.1 ≠ .dev (j / 3))
    ∧ (∀ y ∈ s.verFlips, lineOf (3 * y.2.1) ≠ lineOf j) ∧ sectorOf j ∉ s.poison
    ∧ (∀ b ∈ s.bands, ∀ sec, sec ∈ b.verPoison → sec / 9 ≠ lineOf j)
    ∧ v = (if high = 0 then memHalf s.mem j / 256 * 256 + value % 256 else memHalf s.mem j % 256 + 256 * (value % 256))
    ∧ nonetOfHalfword v = some x :=
  ⟨sPeer, 1, 149, 0, 7, 7, 7, by decide +kernel, ⟨rfl, by decide +kernel, by decide +kernel, by decide +kernel⟩, by decide,
    by decide, fun _ hb => (nomatch hb), fun _ hy => (nomatch hy), fun _ hy => (nomatch hy), by decide,
    fun _ hb => (nomatch hb), by decide +kernel, by decide⟩

theorem witness_PortMemory_peerWrite : ∃ (s : State) (port j : Nat) (hs : List Nat), s.power = .up
    ∧ (s.port port).role = .peer ∧ (s.port port).up = true ∧ port < s.ports.length ∧ hs ≠ []
    ∧ inbound (s.port port) j hs.length = true ∧ j + hs.length ≤ Config.deviceNonets ∧ ∀ h ∈ hs, h < 65536 :=
  ⟨sPeer, 1, 148, [1, 2], rfl, by decide +kernel, by decide +kernel, by decide +kernel, by decide, by decide +kernel, by decide,
    by decide⟩

/-- An AADD of one word to nonets 104 to 106, and one past the range's last nonet. -/
def atomicAt (j : Nat) : PeerAtomic := { op := .aadd, fields := { ty := .t27 }, elems := [(j, 5, 0)] }

theorem witness_PortMemory_peerAtomic : ∃ (s : State) (port k : Nat) (a : PeerAtomic) (c d : Word), s.power = .up
    ∧ (s.port port).role = .peer ∧ (s.port port).up = true ∧ port < s.ports.length ∧ a.elems = [(k, c, d)]
    ∧ (∀ i ∈ peerElem a k, inbound (s.port port) i 1 = true ∧ i < Config.deviceNonets ∧ sectorOf i ∉ s.poison)
    ∧ s.flips = [] ∧ (∀ b ∈ s.bands, b.version = [] ∧ b.verPoison = [])
    ∧ ∀ x ∈ splitNonets ((peerElem a k).map Place.dev)
        (atomicNew (opOfAtomic a.op) a.fields c d (joinNonets ((peerElem a k).map (memNonet s.mem)))).1, inTrits 9 x.2 = true :=
  ⟨sPeer, 1, 104, atomicAt 104, 5, 0, rfl, by decide +kernel, by decide +kernel, by decide +kernel, rfl, by decide +kernel, rfl,
    fun _ hb => (nomatch hb), by decide +kernel⟩

theorem witness_PortMemory_peerAtomicOut : ∃ (s : State) (port : Nat) (a : PeerAtomic), s.power = .up
    ∧ (s.port port).role = .peer ∧ (s.port port).up = true ∧ port < s.ports.length
    ∧ ∃ k ∈ peerNonets a, inbound (s.port port) k 1 = false :=
  ⟨sPeer, 1, atomicAt 148, rfl, by decide +kernel, by decide +kernel, by decide +kernel, 150, by decide, by decide +kernel⟩

def queue1 : Queue := { number := 728, context := 0, priority := 2, base := 27000, size := 9, tail := 0, taken := 0 }
def sTail : State := { State.reset with queues := [queue1] }

theorem witness_PortRegisters : ∃ (s : State) (port : Nat) (q : Queue) (bytes : List Nat) (v : Word), hostFacing s port = true
    ∧ q.number < Config.queues ∧ s.queueAt q.number = some q ∧ slotWord? bytes = some v ∧ 0 ≤ wrap 27 (v - q.tail)
    ∧ 0 ≤ wrap 27 (v - q.taken) ∧ wrap 27 (v - q.taken) ≤ q.size :=
  ⟨sTail, 0, queue1, codeBytes [9, 0, 0], 9, by decide +kernel, by decide, by decide +kernel, by decide, by decide +kernel,
    by decide +kernel, by decide +kernel⟩

/-- The difference to the packets taken wraps to a negative number. -/
theorem witness_PortRegisters_badTail : ∃ (s : State) (port : Nat) (q : Queue) (bytes : List Nat) (v : Word),
    hostFacing s port = true ∧ q.number < Config.queues ∧ s.queueAt q.number = some q ∧ slotWord? bytes = some v
    ∧ port < s.ports.length ∧ 0 ≤ wrap 27 (v - q.tail) ∧ wrap 27 (v - q.taken) < 0 :=
  let q : Queue := { queue1 with tail := 5 }
  let v : Word := wrap 27 (5 + half 27)
  ⟨{ State.reset with queues := [q] }, 0, q, codeBytes ((List.range 3).map fun m => halfword (nonetOf v m)), v,
    by decide +kernel, by decide, by decide +kernel, by decide +kernel, by decide +kernel, by decide +kernel, by decide +kernel⟩

theorem witness_PortRegisters_slot : ∃ (s : State) (port i : Nat) (bytes : List Nat) (v : Word), hostFacing s port = true
    ∧ port < s.ports.length ∧ i < 9 ∧ slotWord? bytes = some v ∧ bytes.length ≤ 8 :=
  ⟨State.reset, 0, 8, codeBytes [9, 0, 0], 9, by decide +kernel, by decide, by decide, by decide, by decide⟩

theorem witness_PortRegisters_response : ∃ (s : State) (port i : Nat), hostFacing s port = true ∧ i < 9 :=
  ⟨State.reset, 0, 8, by decide +kernel, by decide⟩

def sMailbox : State := State.reset.modPort 0 fun x => { x with command := [14, 0, 0, 0, 0, 0, 0, 0, 0] }

theorem witness_PortRegisters_doorbell : ∃ (s : State) (port : Nat) (bytes : List Nat), hostFacing s port = true
    ∧ port < s.ports.length ∧ slotWord? bytes = some 1 ∧ bytes.length ≤ 8 ∧ (s.port port).doorbell = 0
    ∧ 1 ≤ (s.port port).command.headD 0 ∧ (s.port port).command.headD 0 ≤ 14 ∧ s.commands = [] :=
  ⟨sMailbox, 0, codeBytes [1, 0, 0], by decide +kernel, by decide +kernel, by decide, by decide, by decide +kernel,
    by decide +kernel, by decide +kernel, rfl⟩

/-! ### The management controller -/

/-- An image signed under the key with the greatest modulus and the exponent 1, and a device in which it is fused. -/
def imageA : Image :=
  { bytes := [1, 2, 3], key := List.replicate 512 255 ++ [1],
    signature := pssEncode (sha512 [1, 2, 3]) (List.replicate 64 9), security := 2 }
def sFused : State :=
  { State.reset with power := .recovery, firmware := { State.reset.firmware with keyDigest := sha512 imageA.key } }

theorem witness_ManagementResult : ∃ (s : State) (image : Image), imageSigned s image = true
    ∧ s.firmware.minimum ≤ image.security ∧ s.power = .recovery :=
  ⟨sFused, imageA, by
    simp only [imageSigned, sFused, decide_true, Bool.true_and]
    exact verifySignature_self _ _ List.length_replicate (by decide), Nat.zero_le _, rfl⟩

theorem witness_ManagementResult_trip : ∃ s : State, s.power = .shut ∧ s.tripped = true :=
  ⟨{ State.reset with power := .shut, tripped := true }, rfl, rfl⟩

theorem witness_ManagementResult_noTrip : ∃ s : State, s.tripped = false := ⟨State.reset, rfl⟩

theorem witness_ManagementResult_report : ∃ (s : State) (nonce : List Nat), s.power = .up ∧ nonce.length = 64
    ∧ ∀ b ∈ nonce, b < 256 :=
  ⟨State.reset, List.replicate 64 255, rfl, by decide, by decide⟩

theorem witness_ManagementResult_cool : ∃ (s : State) (die : Nat), s.dies.Pairwise (fun x y => x.number < y.number)
    ∧ (∀ d ∈ s.dies, d.hot = true → d.number = die) ∧ s.budget 81 = 27 :=
  ⟨State.reset.setDie { Die.reset 4 with hot := true }, 4, by decide +kernel, by decide +kernel, by decide +kernel⟩

/-! ### Host commands -/

/-- The command is the only one, at port 0 of a device with one context. -/
def command (s : State) (code : Int) (args : List Int) : State :=
  { s with commands := [{ port := 0, code := code, args := args }], negotiated := true, issue := none }
def oneContext : State := { State.reset with contexts := [bootContext 0] }

def commandedB (s : State) (port : Nat) (code : Int) (args : List Int) : Bool :=
  decide (s.commands = [{ port := port, code := code, args := args }]) && mgmtReady s code && (earlyRefusal s code).isNone
    && decide (port < s.ports.length)

theorem commanded_of {s : State} {port : Nat} {code : Int} {args : List Int} (h : commandedB s port code args = true) :
    Commanded s port code args := by
  simp only [commandedB, Bool.and_eq_true, decide_eq_true_eq, Option.isNone_iff_eq_none] at h
  obtain ⟨⟨⟨h1, h2⟩, h3⟩, h4⟩ := h
  exact ⟨⟨[], h1, fun c hc => by cases hc⟩, h2, h3, h4⟩

def argsNeg : List Int := [1 + 3, 0, 0, 0, 0, 0, 0, 0]

theorem witness_CommandResult_negotiate : ∃ (s : State) (port : Nat) (args : List Int), Commanded s port 1 args
    ∧ (∀ x ∈ trits 27 (args.getD 0 0), x ≠ -1) ∧ ∀ x ∈ (trits 27 (args.getD 0 0)).drop Config.offered, x = 0 :=
  ⟨command State.reset 1 argsNeg, 0, argsNeg, commanded_of (by decide +kernel), by decide, by decide⟩

theorem witness_CommandResult_resync : ∃ (s : State) (port : Nat) (args : List Int), Commanded s port 2 args
    ∧ 0 ≤ args.getD 0 0 ∧ args.getD 0 0 % 2 = 0 :=
  ⟨command State.reset 2 [4096], 0, [4096], commanded_of (by decide +kernel), by decide, by decide⟩

/-- A descriptor for context n in the sector at address 2,700, and the frame pool in the one at 2,727. -/
def described (s : State) (n : Int) : State :=
  let cells := wordCells 3780 (n * 3 ^ 21) ++ wordCells (3780 + 6) 2727 ++ wordCells (3780 + 9) (3 ^ 22)
    ++ wordCells (3780 + 18) 9 ++ wordCells (1093 + 2727 - 1) 40 ++ wordCells (1093 + 2727 + 2) 3
  { s with mem := cells.foldl (fun (m : List Host.Cell) (c : Nat × Int) => memPutNonet m c.1 c.2) s.mem }

theorem witness_CommandResult_install : ∃ (s s1 : State) (port : Nat) (args ws : List Int) (es : List (Int × Int)),
    Commanded s port 3 args ∧ within (args.getD 0 0) 0 242 = true ∧ sectorAddress (args.getD 1 0) = true
    ∧ s.context (args.getD 0 0).toNat = none
    ∧ readDescriptor s (args.getD 0 0).toNat (args.getD 1 0) = .ok (s1, ws, es) ∧ es = [(40, 3)] := by
  let s := command (described oneContext 6) 3 [6, 2700]
  obtain ⟨x, h⟩ := ok_of (show (readDescriptor s 6 2700).toOption.isSome = true by decide +kernel)
  have he : (readDescriptor s 6 2700).toOption.map (·.2.2) = some [(40, 3)] := by decide +kernel
  rw [h] at he
  exact ⟨s, x.1, 0, [6, 2700], x.2.1, x.2.2, commanded_of (by decide +kernel), by decide, by decide, by decide +kernel, h,
    Option.some.inj he⟩

theorem witness_CommandResult_change : ∃ (s s1 : State) (port : Nat) (args ws : List Int) (es : List (Int × Int))
    (c c1 : Context), Commanded s port 4 args ∧ within (args.getD 0 0) 0 242 = true ∧ sectorAddress (args.getD 1 0) = true
    ∧ s.context (args.getD 0 0).toNat = some c ∧ readDescriptor s c.number (args.getD 1 0) = .ok (s1, ws, es)
    ∧ s1.context c.number = some c1 := by
  let s := command (described oneContext 0) 4 [0, 2700]
  have h0 : (match readDescriptor s 0 2700 with | .ok x => (x.1.context 0).isSome | .error _ => false) = true := by
    decide +kernel
  obtain ⟨x, h⟩ := ok_of (show (readDescriptor s 0 2700).toOption.isSome = true by decide +kernel)
  rw [h] at h0
  obtain ⟨c1, h1⟩ := some_of h0
  exact ⟨s, x.1, 0, [0, 2700], x.2.1, x.2.2, bootContext 0, c1, commanded_of (by decide +kernel), by decide, by decide,
    by decide +kernel, h, h1⟩

theorem named_of {s : State} {v : Int} {c : Context} (h0 : 0 ≤ v) (h : s.context v.toNat = some c) :
    namedContext s v = .ok c := by
  unfold namedContext
  rw [if_neg (by omega), h]

theorem witness_CommandResult_remove : ∃ (s : State) (port : Nat) (args : List Int) (c : Context), Commanded s port 5 args
    ∧ namedContext s (args.getD 0 0) = .ok c ∧ c.pool ≠ [] :=
  let s := command (placed (.exit {})) 5 [0]
  ⟨s, 0, [0], bootContext 0, commanded_of (by decide +kernel), named_of (by decide) (by decide +kernel), by decide⟩

theorem witness_CommandResult_release : ∃ (s : State) (port : Nat) (args : List Int), Commanded s port 6 args
    ∧ 0 ≤ args.getD 0 0 ∧ 0 ≤ args.getD 1 0 ∧ args.getD 0 0 + args.getD 1 0 ≤ (Config.frames : Int) :=
  ⟨command oneContext 6 [797170, 9], 0, [797170, 9], commanded_of (by decide +kernel), by decide, by decide, by decide⟩

theorem witness_CommandResult_window : ∃ (s : State) (port : Nat) (args : List Int) (c : Context), Commanded s port 7 args
    ∧ namedContext s (args.getD 0 0) = .ok c ∧ within (args.getD 2 0) 0 8 = true ∧ 0 ≤ args.getD 3 0 ∧ 0 ≤ args.getD 4 0
    ∧ args.getD 3 0 + args.getD 4 0 ≤ (half 18 : Int) + 1
    ∧ (args.getD 1 0 = 1 ∧ 0 ≤ args.getD 5 0 ∧ args.getD 5 0 % 4374 = 0)
    ∧ (otherWindows c (args.getD 1 0 == 1) (args.getD 2 0).toNat).all (disjoint (args.getD 3 0, args.getD 4 0)) = true :=
  let a : List Int := [0, 1, 8, 5, 4, 4374]
  ⟨command oneContext 7 a, 0, a, bootContext 0, commanded_of (by decide +kernel), named_of (by decide) (by decide +kernel),
    by decide, by decide, by decide, by decide +kernel, by decide, by decide⟩

theorem witness_CommandResult_peerWindow : ∃ (s : State) (port : Nat) (args : List Int) (c : Context), Commanded s port 7 args
    ∧ namedContext s (args.getD 0 0) = .ok c ∧ within (args.getD 2 0) 0 8 = true ∧ 0 ≤ args.getD 3 0 ∧ 0 ≤ args.getD 4 0
    ∧ args.getD 3 0 + args.getD 4 0 ≤ (half 18 : Int) + 1
    ∧ (args.getD 1 0 = -1 ∧ within (args.getD 5 0) 0 5 = true ∧ 0 ≤ args.getD 6 0)
    ∧ (otherWindows c (args.getD 1 0 == 1) (args.getD 2 0).toNat).all (disjoint (args.getD 3 0, args.getD 4 0)) = true :=
  let a : List Int := [0, -1, 8, 5, 4, 5, 100]
  ⟨command oneContext 7 a, 0, a, bootContext 0, commanded_of (by decide +kernel), named_of (by decide) (by decide +kernel),
    by decide, by decide, by decide, by decide +kernel, by decide, by decide⟩

theorem witness_CommandResult_queue : ∃ (s : State) (port : Nat) (args : List Int) (c : Context), Commanded s port 8 args
    ∧ within (args.getD 0 0) 0 728 = true ∧ within (args.getD 2 0) 0 8 = true ∧ within (args.getD 4 0) 1 729 = true
    ∧ 0 ≤ args.getD 3 0 ∧ args.getD 3 0 % 27 = 0 ∧ args.getD 3 0 + 30 * args.getD 4 0 ≤ (Config.deviceNonets : Int)
    ∧ namedContext s (args.getD 1 0) = .ok c ∧ ∀ q, s.queueAt (args.getD 0 0).toNat = some q → untaken q = 0 :=
  let a : List Int := [728, 0, 8, 27000, 9]
  ⟨command { oneContext with queues := [queue1] } 8 a, 0, a, bootContext 0, commanded_of (by decide +kernel), by decide,
    by decide, by decide, by decide, by decide, by decide, named_of (by decide) (by decide +kernel), fun q h => by
      rw [show (command { oneContext with queues := [queue1] } 8 a).queueAt (a.getD 0 0).toNat = some queue1 by decide +kernel] at h
      cases h
      decide⟩

def sFaulted : State := command (waiting (placed (.exit {})) (.fault 8100 7)) 9 [0, 8100, 1]

theorem witness_CommandResult_resolve : ∃ (s : State) (port : Nat) (args : List Int) (c : Context) (r : Run),
    Commanded s port 9 args ∧ namedContext s (args.getD 0 0) = .ok c
    ∧ (args.getD 2 0 = 1 ∨ args.getD 2 0 = -1 ∨ args.getD 2 0 = 2) ∧ inFaultArea c (args.getD 1 0) = true
    ∧ faultParts s c (args.getD 1 0) = [r] ∧ s.run r.id = some r :=
  ⟨sFaulted, 0, [0, 8100, 1], bootContext 0, run0 sFaulted, commanded_of (by decide +kernel),
    named_of (by decide) (by decide +kernel), .inl rfl, by decide +kernel, by decide +kernel, by decide +kernel⟩

/-- The fault area's last nonet, which no part waits at, and the one after it, which lies outside. -/
theorem witness_CommandResult_resolveNone : ∃ (s1 s2 : State) (port : Nat) (x y : List Int) (c : Context),
    Commanded s1 port 9 x ∧ namedContext s1 (x.getD 0 0) = .ok c ∧ x.getD 2 0 = 2 ∧ inFaultArea c (x.getD 1 0) = true
    ∧ faultParts s1 c (x.getD 1 0) = [] ∧ Commanded s2 port 9 y ∧ namedContext s2 (y.getD 0 0) = .ok c ∧ y.getD 2 0 = -1
    ∧ inFaultArea c (y.getD 1 0) = false :=
  ⟨command oneContext 9 [0, 8788, 2], command oneContext 9 [0, 8789, -1], 0, [0, 8788, 2], [0, 8789, -1], bootContext 0,
    commanded_of (by decide +kernel), named_of (by decide) (by decide +kernel), rfl, by decide +kernel, by decide +kernel,
    commanded_of (by decide +kernel), named_of (by decide) (by decide +kernel), rfl, by decide +kernel⟩

def sStop : State := command (placed (.exit {})) 10 [0, 0]

theorem witness_CommandResult_stop : ∃ (s : State) (port : Nat) (args : List Int) (c : Context) (k : Kernel),
    Commanded s port 10 args ∧ namedContext s (args.getD 0 0) = .ok c
    ∧ (s.kernels.find? fun k => k.context == c.number && k.number == args.getD 1 0) = some k :=
  ⟨sStop, 0, [0, 0], bootContext 0, kern0 sStop, commanded_of (by decide +kernel), named_of (by decide) (by decide +kernel),
    by decide +kernel⟩

theorem witness_CommandResult_budget : ∃ (s : State) (port : Nat) (args : List Int) (c : Context), Commanded s port 11 args
    ∧ within (args.getD 2 0) 1 81 = true ∧ args.getD 0 0 = 2 ∧ namedContext s (args.getD 1 0) = .ok c :=
  ⟨command oneContext 11 [2, 0, 81], 0, [2, 0, 81], bootContext 0, commanded_of (by decide +kernel), by decide, rfl,
    named_of (by decide) (by decide +kernel)⟩

theorem witness_CommandResult_budgets : ∃ (s1 s2 : State) (port : Nat) (x y : List Int), Commanded s1 port 11 x
    ∧ within (x.getD 2 0) 1 81 = true ∧ x.getD 0 0 = 3 ∧ within (x.getD 1 0) 0 11 = true ∧ Commanded s2 port 11 y
    ∧ within (y.getD 2 0) 1 81 = true ∧ y.getD 0 0 = 4 ∧ y.getD 1 0 = 0 :=
  ⟨command oneContext 11 [3, 11, 1], command oneContext 11 [4, 0, 1], 0, [3, 11, 1], [4, 0, 1], commanded_of (by decide +kernel),
    by decide, rfl, by decide, commanded_of (by decide +kernel), by decide, rfl, rfl⟩

theorem witness_CommandResult_inject : ∃ (s : State) (port : Nat) (args : List Int) (c : Context), Commanded s port 12 args
    ∧ namedContext s (args.getD 0 0) = .ok c ∧ within (args.getD 1 0) 0 1 = true :=
  ⟨command oneContext 12 [0, 1], 0, [0, 1], bootContext 0, commanded_of (by decide +kernel),
    named_of (by decide) (by decide +kernel), by decide⟩

def argsRep : List Int := [0, 728, 126, 1]
def sReplace : State := command (placed (.exit {})) 13 argsRep

theorem witness_CommandResult_replace : ∃ (s s0 : State) (port : Nat) (args : List Int) (c : Context) (n i j : Nat),
    Commanded s port 13 args ∧ namedContext s (args.getD 0 0) = .ok c ∧ within (args.getD 1 0) 0 728 = true
    ∧ within (args.getD 3 0) 0 (3 ^ 26) = true ∧ (args.getD 2 0 + 117) % 243 = 0
    ∧ countDeprecated c (args.getD 3 0).toNat (args.getD 2 0) s = some (s0, n)
    ∧ physNonet (c.kernelTable + 6 * args.getD 1 0) = some i ∧ physNonet (c.kernelTable + 6 * args.getD 1 0 + 3) = some j := by
  obtain ⟨x, h⟩ := some_of (show (countDeprecated (bootContext 0) 1 126 sReplace).isSome = true by decide +kernel)
  exact ⟨sReplace, x.1, 0, argsRep, bootContext 0, x.2, 1093 + 6 * 728 - 1, 1093 + 6 * 728 + 3 - 1,
    commanded_of (by decide +kernel), named_of (by decide) (by decide +kernel), by decide, by decide +kernel, by decide, h,
    by decide +kernel, by decide +kernel⟩

theorem witness_CommandResult_token : ∃ (s : State) (port : Nat) (args : List Int) (c : Context), Commanded s port 14 args
    ∧ namedContext s (args.getD 0 0) = .ok c ∧ within (args.getD 1 0) 0 728 = true ∧ 0 ≤ args.getD 2 0
    ∧ ((args.getD 2 0).toNat < smapGet 0 c.tokens (args.getD 1 0).toNat → tokenAwaited s c (args.getD 1 0).toNat = false) :=
  ⟨command oneContext 14 [0, 728, 5], 0, [0, 728, 5], bootContext 0, commanded_of (by decide +kernel),
    named_of (by decide) (by decide +kernel), by decide, by decide, fun h => absurd h (by decide)⟩

/-! ### Numbers, encodings and the step -/

theorem witness_ArithmeticRules : inTrits 27 (half 27) = true ∧ inTrits 9 (-(half 9 : Int)) = true ∧ (7 : Int) ≠ 0
    ∧ (∀ y ∈ [(1 : Int), 0, -1], y = -1 ∨ y = 0 ∨ y = 1) ∧ nonetOfHalfword 9841 = some 9841 := by decide +kernel

theorem witness_DecodeEncode : ∃ (x : DecodeCtx) (i : Instr) (ws : Word × Word × Word), wellFormed x i = true
    ∧ encode i = some ws ∧ inTrits 27 ws.1 = true ∧ inTrits 27 ws.2.1 = true ∧ inTrits 27 ws.2.2 = true
    ∧ decode x ws.1 ws.2.1 ws.2.2 = .ok i :=
  let i : Instr := .uadd { var := 81, d := .uni 11, a := .uni 9, imm := 27 }
  ⟨{ capsule := false, grant := 1530 }, i, (-3375209454363, 1709302386114, 27), by decide +kernel, by decide +kernel,
    by decide +kernel, by decide +kernel, by decide +kernel, ok_is (by decide +kernel)⟩

/-- The state that the part's fetch leaves, the part in it, and the places that it reads. -/
def fetchState (s : State) : State := fetchEffects s (run0 s)
def fetchRun (s : State) : Run := (run0 s).again (fetchState s)
def fetched (s : State) : List Place := (((fetchPlaces (fetchState s) (fetchRun s)).toOption).map (·.1)).getD []
def fetchCtx (s : State) : DecodeCtx := { capsule := (fetchRun s).capsule, grant := (fetchRun s).gang.grant }
def fetchWords (s : State) : Word × Word × Word := wordsOfNonets (fetchedNonets (fetchState s) (fetchRun s) (fetched s))

/-- The part's next instruction is fetched, and no word of it is poison. -/
def fetchesB (s : State) : Bool :=
  decide (s.issue = some { part := p0 }) && decide (s.run p0 = some (run0 s)) && decide ((run0 s).part.stepping ≠ 1)
    && (fetchPlaces (fetchState s) (fetchRun s)).toOption.isSome
    && (fetched s).all fun p => !isPoison (fetchState s) (fetchRun s).who p

/-- What the statement about a fetch supposes, of a state in which the part fetches. -/
theorem fetches_of {s : State} (h : fetchesB s = true) : ∃ (it : Issue) (r : Run) (ps : List Place) (ls : List Leaf),
    s.issue = some it ∧ s.run it.part = some r ∧ r.part.stepping ≠ 1 ∧ r = run0 s ∧ ps = fetched s
      ∧ fetchPlaces (fetchState s) (fetchRun s) = .ok (ps, ls) ∧ ∀ p ∈ ps, isPoison (fetchState s) (fetchRun s).who p = false := by
  simp only [fetchesB, Bool.and_eq_true, decide_eq_true_eq, List.all_eq_true, Bool.not_eq_true'] at h
  obtain ⟨⟨⟨⟨h1, h2⟩, h3⟩, h4⟩, h5⟩ := h
  obtain ⟨x, hx⟩ := ok_of h4
  have hf : fetched s = x.1 := by unfold fetched; rw [hx]; rfl
  exact ⟨_, run0 s, fetched s, x.2, h1, h2, h3, rfl, rfl, by rw [hx, hf], h5⟩

def uaddWord : Instr := .uadd { var := 81, d := .uni 11, a := .uni 9, imm := 27 }

theorem witness_StepRunsDecoded : ∃ (s : State) (it : Issue) (r : Run) (ps : List Place) (ls : List Leaf) (i : Instr),
    s.issue = some it ∧ s.run it.part = some r ∧ r.part.stepping ≠ 1 ∧ r = run0 s ∧ ps = fetched s
      ∧ fetchPlaces (fetchState s) (fetchRun s) = .ok (ps, ls)
      ∧ (∀ p ∈ ps, isPoison (fetchState s) (fetchRun s).who p = false) ∧ wellFormed (fetchCtx s) i = true
      ∧ encode i = some (fetchWords s)
      ∧ decode (fetchCtx s) (fetchWords s).1 (fetchWords s).2.1 (fetchWords s).2.2 = .ok i := by
  obtain ⟨it, r, ps, ls, h1, h2, h3, h4, h5, h6, h7⟩ := fetches_of (s := placed uaddWord) (by decide +kernel)
  exact ⟨placed uaddWord, it, r, ps, ls, uaddWord, h1, h2, h3, h4, h5, h6, h7, by decide +kernel, by decide +kernel,
    ok_is (by decide +kernel)⟩

theorem witness_StepRunsDecoded_undecodable : ∃ (s : State) (it : Issue) (r : Run) (ps : List Place) (ls : List Leaf) (n : Nat),
    s.issue = some it ∧ s.run it.part = some r ∧ r.part.stepping ≠ 1 ∧ r = run0 s ∧ ps = fetched s
      ∧ fetchPlaces (fetchState s) (fetchRun s) = .ok (ps, ls)
      ∧ (∀ p ∈ ps, isPoison (fetchState s) (fetchRun s).who p = false)
      ∧ decode (fetchCtx s) (fetchWords s).1 (fetchWords s).2.1 (fetchWords s).2.2 = .error n := by
  obtain ⟨it, r, ps, ls, h1, h2, h3, h4, h5, h6, h7⟩ := fetches_of (s := placeInstr State.reset []) (by decide +kernel)
  have h : (decode (fetchCtx (placeInstr State.reset [])) (fetchWords (placeInstr State.reset [])).1
      (fetchWords (placeInstr State.reset [])).2.1 (fetchWords (placeInstr State.reset [])).2.2).toOption = none := by
    decide +kernel
  obtain ⟨n, hn⟩ : ∃ n, decode (fetchCtx (placeInstr State.reset [])) (fetchWords (placeInstr State.reset [])).1
      (fetchWords (placeInstr State.reset [])).2.1 (fetchWords (placeInstr State.reset [])).2.2 = .error n := by
    revert h
    generalize decode _ _ _ _ = y
    intro h
    cases y with
    | error n => exact ⟨n, rfl⟩
    | ok i => cases h
  exact ⟨placeInstr State.reset [], it, r, ps, ls, n, h1, h2, h3, h4, h5, h6, h7, hn⟩

theorem witness_StepRunsDecoded_code : ∃ (s : State) (r : Run) (ps : List Place), ps ≠ []
    ∧ ∀ p, ps.head? = some p → oldCode s r.id.band r.core (unitStart 9 p) = none :=
  ⟨State.reset, blank, [.dev 5], by decide, fun _ _ => rfl⟩

theorem witness_StepRunsDecoded_debug : ∃ (s : State) (it : Issue) (r : Run), s.issue = some it ∧ s.run it.part = some r
    ∧ r.part.stepping = 1 :=
  let s := withPart (placed (.exit {})) fun p => { p with stepping := 1 }
  ⟨s, { part := p0 }, run0 s, by decide +kernel, by decide +kernel, by decide +kernel⟩

theorem witness_StepRunsDecoded_event : ∃ (s : State) (e : Instr) (rest : List Instr), s.issue = none ∧ s.upsets = []
    ∧ (cycleStarts s).find? (changes s) = none ∧ s.agenda = e :: rest ∧ codedOf e = none :=
  ⟨{ State.reset with agenda := [.thermalHigh 4] }, .thermalHigh 4, [], rfl, rfl, by decide +kernel, rfl, rfl⟩

theorem witness_StepRunsDecoded_cycle : ∃ (s : State) (i : Instr), s.issue = none ∧ s.upsets = []
    ∧ (cycleStarts s).find? (changes s) = some i :=
  ⟨{ State.reset with mgmtPeriod := true }, .budgetPeriodStart .management, rfl, rfl, by decide +kernel⟩

theorem witness_StepRunsDecoded_upset : ∃ (s : State) (u : Upset) (rest : List Upset), s.issue = none ∧ s.upsets = u :: rest :=
  ⟨{ State.reset with upsets := [{ unit := .reg p0 (.vec 3) 5, errors := 2 }] }, _, [], rfl, rfl⟩

theorem witness_StepKeepsMemory : ∃ s t : State, MemoryForm s ∧ step s = .next t ∧ s.mem ≠ [] := by
  have h : (match step (placed (.exit {})) with | .next _ => true | _ => false) = true := by decide +kernel
  cases hs : step (placed (.exit {})) with
  | next t => exact ⟨placed (.exit {}), t, ⟨by decide +kernel, by decide +kernel, by decide +kernel⟩, hs, by decide +kernel⟩
  | fault f => rw [hs] at h; cases h
  | refused f => rw [hs] at h; cases h

theorem witness_DecodeWords : ∃ x : DecodeCtx, 8 ≤ x.grant ∧ x.capsule = false := ⟨{ capsule := false, grant := 8 }, by decide, rfl⟩

end Sys2Proof.Tests
end

