-- ==== Sys2Proof/Tests/WitnessG.lean ====
section
/-! SUPPORT. Concrete states and operands that meet the hypotheses of the statements about the steps of a capsule's body, rejoins
and the events of capsules. -/

namespace Sys2Proof.Tests

open Sys2Proof.Machine

set_option Elab.async false

/-! ### Body steps -/

def capsule0 : Capsule :=
  { enter := 0, record := 1620, slot := 900, token := 5, step := 0, position := 0, body := 126, stores := 0, pending := none,
    apply := none, running := true, skipping := false }
def inBody (s : State) (c : Capsule) : State :=
  withGang (single s) fun g => { g with slices := g.slices.zipIdx.map fun x => if x.2 = 0 then { x.1 with cap := some c } else x.1 }

def bodyB (s : State) (r : Run) (op : Op) (f : Fields) : Bool :=
  decide (s.issue = some { part := r.id }) && decide (s.run r.id = some r) && r.body && (capsuleTrap r op f).isNone
    && (preWait r s op).isNone && (specOf r.band r.id.gang).isNone && !poisonedRead r s op f && r.part.forwarded.isNone
    && !r.part.granted

theorem body_of {s : State} {r : Run} {op : Op} {f : Fields} (h : bodyB s r op f = true) : InBody s r op f := by
  simp only [bodyB, Bool.and_eq_true, decide_eq_true_eq, Bool.not_eq_true', Option.isNone_iff_eq_none] at h
  obtain ⟨⟨⟨⟨⟨⟨⟨⟨h1, h2⟩, h3⟩, h4⟩, h5⟩, h6⟩, h7⟩, h8⟩, h9⟩ := h
  exact ⟨⟨h1, h2⟩, h3, h4, h5, h6, h7, h8, h9⟩

theorem witness_CapsuleResult_leave : ∃ f s r, InBody s r .capLeave f :=
  let s := inBody (placed (.capLeave {})) capsule0
  ⟨{}, s, run0 s, body_of (by decide +kernel)⟩

def fBody : Fields := { d := .kreg 2, a := .kreg 1, b := .kreg 0 }

theorem witness_CapsuleResult_body : ∃ (i : Instr) (op : Op) (f : Fields) (s : State) (r : Run) (e : CapEffect),
    codedOf i = some (op, f) ∧ InBody s r op f
    ∧ ∃ v n, uniformValue i r s = some v ∧ f.d = .kreg n ∧ e = .reg n v.1 v.2.sticky := by
  let s := inBody (placed (.uadd fBody)) capsule0
  exact ⟨.uadd fBody, .uadd, fBody, s, run0 s, _, rfl, body_of (by decide +kernel), _, 2, rfl, rfl, rfl⟩

def fJump (cond : Cond) : Fields := { cond := cond, a := .kreg 1, imm := 26 }

/-- A branch to the last position that is taken, and one that is not. -/
theorem witness_CapsuleResult_branch : ∃ (i : Instr) (op : Op) (f : Fields) (s : State) (r : Run) (c : Capsule)
    (target pos : Word) (taken : Nat → Bool), codedOf i = some (op, f) ∧ branchOf i r s = some (target, taken)
    ∧ InBody s r op f ∧ r.slice.cap = some c ∧ (∃ j ∈ r.part.slices, taken j = true)
    ∧ (target % 9 = 0 ∧ pos = (target - c.body) / 9 ∧ wrap 27 (c.body + 9 * pos) = target) ∧ pos = 26 ∧ c.step < 81 := by
  let s := inBody (placed (.brU (fJump .eq))) capsule0
  exact ⟨.brU (fJump .eq), .brU, fJump .eq, s, run0 s, capsule0, _, 26, _, rfl, rfl, body_of (by decide +kernel),
    by decide +kernel, ⟨0, by decide +kernel, by decide +kernel⟩, by decide +kernel, rfl, by decide⟩

theorem witness_CapsuleResult_branchOn : ∃ (i : Instr) (op : Op) (f : Fields) (s : State) (r : Run) (c : Capsule)
    (target : Word) (taken : Nat → Bool), codedOf i = some (op, f) ∧ branchOf i r s = some (target, taken)
    ∧ InBody s r op f ∧ r.slice.cap = some c ∧ (∀ j ∈ r.part.slices, taken j = false) ∧ c.position + 1 = 26 ∧ c.step < 81 := by
  let c := { capsule0 with position := 25, step := 80 }
  let s := inBody (placed (.brU (fJump .ne))) c
  exact ⟨.brU (fJump .ne), .brU, fJump .ne, s, run0 s, c, _, _, rfl, rfl, body_of (by decide +kernel), by decide +kernel,
    by decide +kernel, rfl, by decide⟩

def fBodyLoad : Fields := { d := .kreg 2, a := .kreg 1, b := .kreg 0, imm := 300 }
def sBodyLoad : State := inBody (placed (.ldw fBodyLoad)) capsule0
def cBodyLoad : Checked := checkElems sBodyLoad (run0 sBodyLoad).who none .read true
  (accessElems (run0 sBodyLoad) fBodyLoad .uniform true (memOperands (run0 sBodyLoad) sBodyLoad fBodyLoad
    (fun _ => List.replicate 27 (readWord (run0 sBodyLoad) sBodyLoad 1 fBodyLoad.b)) fun _ => []))

theorem witness_CapsuleResult_load : ∃ (i : Instr) (op : Op) (f : Fields) (s : State) (r : Run) (log : OpLog) (word : Bool)
    (ps : List (List Place)) (ls : List Leaf) (n : Nat), codedOf i = some (op, f)
    ∧ accessLog i r s = some (log, f, .uniform, word) ∧ InBody s r op f ∧ [Op.ldn, .ldw].contains op = true ∧ f.d = .kreg n
    ∧ accessOk s r f .uniform word log .read ps ls ∧ (s.slow = false ∨ ps.flatten.any isRemote = false)
    ∧ pendingStore s r ps.flatten = false
    ∧ poisonOf (afterReads (walkedState s r (accessElems r f .uniform word log)) r ps.flatten ls) r.who true
        ((accessElems r f .uniform word log).zip ps) = none :=
  ⟨.ldw fBodyLoad, .ldw, fBodyLoad, sBodyLoad, run0 sBodyLoad, _, true, placesOf cBodyLoad, leavesOf cBodyLoad, 2, rfl, rfl,
    body_of (by decide +kernel), rfl, rfl, ⟨by decide +kernel, fun h => absurd rfl h, by decide +kernel⟩, .inl rfl,
    by decide +kernel, by decide +kernel⟩

def fBodyStore : Fields := { a := .kreg 1, b := .kreg 0, c := .kreg 2, imm := 300 }
def sBodyStore : State := inBody (placed (.stn fBodyStore)) capsule0
def cBodyStore : Checked := checkElems sBodyStore (run0 sBodyStore).who none .write false
  (accessElems (run0 sBodyStore) fBodyStore .uniform false (memOperands (run0 sBodyStore) sBodyStore fBodyStore
    (fun _ => List.replicate 27 (readWord (run0 sBodyStore) sBodyStore 1 fBodyStore.b))
    fun _ => List.replicate 27 (readWord (run0 sBodyStore) sBodyStore 2 fBodyStore.c)))

theorem witness_CapsuleResult_store : ∃ (i : Instr) (op : Op) (f : Fields) (s : State) (r : Run) (log : OpLog) (word : Bool)
    (ps : List (List Place)) (ls : List Leaf), codedOf i = some (op, f)
    ∧ accessLog i r s = some (log, f, .uniform, word) ∧ InBody s r op f ∧ [Op.stn, .stw].contains op = true
    ∧ accessOk s r f .uniform word log .write ps ls :=
  ⟨.stn fBodyStore, .stn, fBodyStore, sBodyStore, run0 sBodyStore, _, false, placesOf cBodyStore, leavesOf cBodyStore, rfl, rfl,
    body_of (by decide +kernel), rfl, ⟨by decide +kernel, fun h => absurd rfl h, by decide +kernel⟩⟩

/-! ### Rejoins -/

def capsuleOut : Capsule := { capsule0 with running := false }
/-- The slice is at its CAP.ENTER; the record's word 0, its holder's kernel, and the marker of the slot are these. -/
def sRejoin (own : Capsule) (word0 word1 marker : Word) : State :=
  let s := putWords (inBody (placed (.capEnter fCap)) own) [(1581, word0), (1584, word1), (909, marker)]
  { s with issue := none }

def rejoinB (s : State) (r : Run) (own : Capsule) (f : Fields) : Bool :=
  decide (s.run r.id = some r) && s.issue.isNone && decide (r.part.wait = .ready) && r.part.forwarded.isNone && !r.part.granted
    && decide (r.slice.cap = some own) && !own.running && decide (r.slice.pc = own.enter)
    && decide ((decode { capsule := true, grant := r.gang.grant } (instrWords s r).1 (instrWords s r).2.1
        (instrWords s r).2.2).toOption = some (.capEnter f))

/-- The record as the rejoin reads it. -/
def rejoinRead (s : State) (r : Run) (own : Capsule) : CapAccess (State × CapRecord) :=
  recordVia [.read] (correctCapsule { s with issue := none } r.who (recordAddr own.record 0 :: slotAddrs own.slot)) r.who own.record

/-- What the cases of the rejoin are told apart by: soundness, state, holder, step and position. -/
def rejoinFacts (s : State) (r : Run) (own : Capsule) : Option (Option TrapInfo × Int × Bool × Int × Int) :=
  (rejoinRead s r own).toOption.map fun x => (recordPoison x.1 own.record x.2, x.2.state, x.2.heldBy r, x.2.step, x.2.position)

theorem rejoin_of {s : State} {r : Run} {own : Capsule} {f : Fields} {y : Int × Bool × Int × Int} (h : rejoinB s r own f = true)
    (hf : rejoinFacts s r own = some (none, y)) :
    ∃ s1 c, rejoinRead s r own = .ok (s1, c) ∧ AtRejoin s r own f s1 c ∧ (c.state, c.heldBy r, c.step, c.position) = y := by
  simp only [rejoinB, Bool.and_eq_true, decide_eq_true_eq, Bool.not_eq_true', Option.isNone_iff_eq_none] at h
  obtain ⟨⟨⟨⟨⟨⟨⟨⟨h1, h2⟩, h3⟩, h4⟩, h5⟩, h6⟩, h7⟩, h8⟩, h9⟩ := h
  unfold rejoinFacts at hf
  rw [Option.map_eq_some_iff] at hf
  obtain ⟨⟨s1, c⟩, hx, hy⟩ := hf
  have hx := ok_is hx
  simp only [Prod.mk.injEq] at hy
  exact ⟨s1, c, hx, ⟨h1, h2, h3, ⟨h4, h5⟩, h6, h7, h8, ok_is h9, hx, hy.1⟩, hy.2⟩

def outSkip : Capsule := { capsuleOut with skipping := true }

/-- The holder comes back to skip a step of a record that has made 81; of one at position 26; of one that allows it. -/
theorem witness_CapsuleResult_skip : (∃ f s r own s1 c, AtRejoin s r own f s1 c ∧ c.state ≠ 0 ∧ c.heldBy r = true
      ∧ own.skipping = true ∧ 81 ≤ c.step)
    ∧ (∃ f s r own s1 c, AtRejoin s r own f s1 c ∧ c.state ≠ 0 ∧ c.heldBy r = true ∧ own.skipping = true ∧ c.step < 81
      ∧ 26 ≤ c.position)
    ∧ ∃ f s r own s1 c x, AtRejoin s r own f s1 c ∧ c.state ≠ 0 ∧ c.heldBy r = true ∧ own.skipping = true
      ∧ (c.step < 81 ∧ c.position < 26) ∧ recordAt s1 r.who own.record = .ok x := by
  obtain ⟨t1, c1, -, h1, e1⟩ := rejoin_of (s := sRejoin outSkip (capWord0 1 81 2 5) 0 0)
    (r := run0 (sRejoin outSkip (capWord0 1 81 2 5) 0 0)) (own := outSkip) (f := fCap) (y := (1, true, 81, 2))
    (by decide +kernel) (by decide +kernel)
  obtain ⟨t2, c2, -, h2, e2⟩ := rejoin_of (s := sRejoin outSkip (capWord0 1 3 26 5) 0 0)
    (r := run0 (sRejoin outSkip (capWord0 1 3 26 5) 0 0)) (own := outSkip) (f := fCap) (y := (1, true, 3, 26))
    (by decide +kernel) (by decide +kernel)
  obtain ⟨t3, c3, g3, h3, e3⟩ := rejoin_of (s := sRejoin outSkip (capWord0 (-1) 80 25 5) 0 0)
    (r := run0 (sRejoin outSkip (capWord0 (-1) 80 25 5) 0 0)) (own := outSkip) (f := fCap) (y := (-1, true, 80, 25))
    (by decide +kernel) (by decide +kernel)
  simp only [Prod.mk.injEq] at e1 e2 e3
  have hx : (match rejoinRead (sRejoin outSkip (capWord0 (-1) 80 25 5) 0 0) (run0 (sRejoin outSkip (capWord0 (-1) 80 25 5) 0 0))
      outSkip with
    | .ok x => (recordAt x.1 (run0 (sRejoin outSkip (capWord0 (-1) 80 25 5) 0 0)).who outSkip.record).toOption.isSome
    | .error _ => false) = true := by decide +kernel
  rw [g3] at hx
  obtain ⟨x, hx⟩ := ok_of hx
  exact ⟨⟨_, _, _, _, _, _, h1, by rw [e1.1]; decide, e1.2.1, rfl, Int.le_of_eq e1.2.2.1.symm⟩,
    ⟨_, _, _, _, _, _, h2, by rw [e2.1]; decide, e2.2.1, rfl, by rw [e2.2.2.1]; decide, Int.le_of_eq e2.2.2.2.symm⟩,
    _, _, _, _, _, _, x, h3, by rw [e3.1]; decide, e3.2.1, rfl, by rw [e3.2.2.1, e3.2.2.2]; decide, hx⟩

/-- The holder comes back to a body that stands at a position. -/
def sOn (position : Int) : State := sRejoin capsuleOut (capWord0 1 3 position 5) 0 0

theorem goesOn (position : Int) (hb : rejoinB (sOn position) (run0 (sOn position)) capsuleOut fCap = true)
    (hf : rejoinFacts (sOn position) (run0 (sOn position)) capsuleOut = some (none, 1, true, 3, position))
    (hx : (match rejoinRead (sOn position) (run0 (sOn position)) capsuleOut with
      | .ok x => (recordAt x.1 (run0 (sOn position)).who capsuleOut.record).toOption.isSome
      | .error _ => false) = true) :
    ∃ f s r own s1 c x, AtRejoin s r own f s1 c ∧ c.state ≠ 0 ∧ c.heldBy r = true ∧ own.skipping = false
      ∧ recordAt s1 r.who own.record = .ok x ∧ c.position = position := by
  obtain ⟨t, c, g, h, e⟩ := rejoin_of hb hf
  simp only [Prod.mk.injEq] at e
  rw [g] at hx
  obtain ⟨x, hx⟩ := ok_of hx
  exact ⟨_, _, _, _, _, _, x, h, by rw [e.1]; decide, e.2.1, rfl, hx, e.2.2.2⟩

theorem witness_CapsuleResult_on : ∃ f s r own s1 c x, AtRejoin s r own f s1 c ∧ c.state ≠ 0 ∧ c.heldBy r = true
    ∧ own.skipping = false ∧ recordAt s1 r.who own.record = .ok x ∧ c.position = 26 :=
  goesOn 26 (by decide +kernel) (by decide +kernel) (by decide +kernel)

theorem witness_CapsuleResult_onLeave : ∃ f s r own s1 c x, AtRejoin s r own f s1 c ∧ c.state ≠ 0 ∧ c.heldBy r = true
    ∧ own.skipping = false ∧ recordAt s1 r.who own.record = .ok x ∧ c.position = 27 :=
  goesOn 27 (by decide +kernel) (by decide +kernel) (by decide +kernel)

/-- The marker that the rejoin reads. -/
def markerOf (s : State) (r : Run) (own : Capsule) : Option Word :=
  match rejoinRead s r own with
  | .ok x => (slotWord x.1 r.who (markerAddr own.slot)).toOption.map (·.2)
  | .error _ => none

theorem marker_of {s s1 : State} {r : Run} {own : Capsule} {c : CapRecord} {m : Word} (h : rejoinRead s r own = .ok (s1, c))
    (hm : markerOf s r own = some m) : ∃ s2, slotWord s1 r.who (markerAddr own.slot) = .ok (s2, m) := by
  unfold markerOf at hm
  rw [h] at hm
  simp only [Option.map_eq_some_iff] at hm
  obtain ⟨⟨s2, v⟩, hv, rfl⟩ := hm
  exact ⟨s2, ok_is hv⟩

def sDone : State := sRejoin capsuleOut 0 0 1

/-- Another has completed the capsule: the results are there. -/
theorem witness_CapsuleResult_rejoin : ∃ f s r own s1 c s2 s3 s4 ks, AtRejoin s r own f s1 c
    ∧ (c.state = 0 ∨ c.heldBy r = false) ∧ slotWord s1 r.who (markerAddr own.slot) = .ok (s2, 1)
    ∧ returnWords s2 r own.slot = .ok (s3, ks) ∧ directAt s3 r.who (markerAddr own.slot) 0 = .ok s4 := by
  obtain ⟨s1, c, g, h, e⟩ := rejoin_of (s := sDone) (r := run0 sDone) (own := capsuleOut) (f := fCap) (y := (0, true, 0, 0))
    (by decide +kernel) (by decide +kernel)
  simp only [Prod.mk.injEq] at e
  obtain ⟨s2, h2⟩ := marker_of g (show markerOf sDone (run0 sDone) capsuleOut = some 1 by decide +kernel)
  have hx : (match rejoinRead sDone (run0 sDone) capsuleOut with
    | .ok x => match slotWord x.1 (run0 sDone).who (markerAddr capsuleOut.slot) with
      | .ok y => match returnWords y.1 (run0 sDone) capsuleOut.slot with
        | .ok z => (directAt z.1 (run0 sDone).who (markerAddr capsuleOut.slot) 0).toOption.isSome
        | .error _ => false
      | .error _ => false
    | .error _ => false) = true := by decide +kernel
  rw [g] at hx
  dsimp only at hx
  rw [h2] at hx
  dsimp only at hx
  cases h3 : returnWords s2 (run0 sDone) capsuleOut.slot with
  | error t => rw [h3] at hx; cases hx
  | ok z =>
    rw [h3] at hx
    obtain ⟨s4, h4⟩ := ok_of hx
    exact ⟨_, _, _, _, _, _, s2, z.1, s4, z.2, h, .inl e.1, h2, h3, h4⟩

def sOther (marker : Word) : State := sRejoin capsuleOut (capWord0 1 3 2 9) 7 marker
def sNobody : State := sRejoin capsuleOut 0 0 (-1)

/-- Another runs the capsule; and nobody does. -/
theorem witness_CapsuleResult_rejoinElse : (∃ f s r own s1 c s2, AtRejoin s r own f s1 c ∧ c.heldBy r = false ∧ c.state ≠ 0
      ∧ slotWord s1 r.who (markerAddr own.slot) = .ok (s2, -1))
    ∧ (∃ f s r own s1 c s2 marker, AtRejoin s r own f s1 c ∧ c.heldBy r = false ∧ c.state ≠ 0
      ∧ slotWord s1 r.who (markerAddr own.slot) = .ok (s2, marker) ∧ marker ≠ 1 ∧ marker ≠ -1)
    ∧ ∃ f s r own s1 c s2, AtRejoin s r own f s1 c ∧ c.state = 0 ∧ slotWord s1 r.who (markerAddr own.slot) = .ok (s2, -1) := by
  obtain ⟨ta, ca, ga, ha, ea⟩ := rejoin_of (s := sOther (-1)) (r := run0 (sOther (-1))) (own := capsuleOut) (f := fCap)
    (y := (1, false, 3, 2)) (by decide +kernel) (by decide +kernel)
  obtain ⟨tb, cb, gb, hb, eb⟩ := rejoin_of (s := sOther 0) (r := run0 (sOther 0)) (own := capsuleOut) (f := fCap)
    (y := (1, false, 3, 2)) (by decide +kernel) (by decide +kernel)
  obtain ⟨tc, cc, gc, hc, ec⟩ := rejoin_of (s := sNobody) (r := run0 sNobody) (own := capsuleOut) (f := fCap)
    (y := (0, true, 0, 0)) (by decide +kernel) (by decide +kernel)
  simp only [Prod.mk.injEq] at ea eb ec
  obtain ⟨xa, ha'⟩ := marker_of ga (show markerOf (sOther (-1)) (run0 (sOther (-1))) capsuleOut = some (-1) by decide +kernel)
  obtain ⟨xb, hb'⟩ := marker_of gb (show markerOf (sOther 0) (run0 (sOther 0)) capsuleOut = some 0 by decide +kernel)
  obtain ⟨xc, hc'⟩ := marker_of gc (show markerOf sNobody (run0 sNobody) capsuleOut = some (-1) by decide +kernel)
  exact ⟨⟨_, _, _, _, _, _, xa, ha, ea.2.1, by rw [ea.1]; decide, ha'⟩,
    ⟨_, _, _, _, _, _, xb, 0, hb, eb.2.1, by rw [eb.1]; decide, hb', by decide, by decide⟩,
    _, _, _, _, _, _, xc, hc, ec.1, hc'⟩

/-! ### Events -/

/-- A step waits for its commit at a record with this word 0 and the return slot 900. -/
def sCommitStep (e : CapEffect) (word0 : Word) : State :=
  putWords (waiting (inBody (placed (.capLeave {})) { capsule0 with pending := some e }) .capCommit) [(1581, word0), (1599, 900)]

/-- The record as the commit reads it, with one access of the gang less outstanding. -/
def commitRead (s : State) (r : Run) (c : Capsule) : CapAccess (State × CapRecord) :=
  recordAt (correctCapsule (r.modGang s fun g => { g with acks := g.acks - 1 }) r.who [recordAddr c.record 0]) r.who c.record
    c.sent

theorem commit_of {s : State} {r : Run} {c : Capsule} {y : Int × Int × Int}
    (h : (commitRead s r c).toOption.map (fun x => (recordPoison x.1 c.record x.2, x.2.state, x.2.token, x.2.step)) = some (none, y)) :
    ∃ s1 rec, commitRead s r c = .ok (s1, rec) ∧ recordPoison s1 c.record rec = none ∧ (rec.state, rec.token, rec.step) = y := by
  rw [Option.map_eq_some_iff] at h
  obtain ⟨⟨s1, rec⟩, hx, hy⟩ := h
  simp only [Prod.mk.injEq] at hy
  exact ⟨s1, rec, ok_is hx, hy.1, hy.2⟩

def regStep : Capsule := { capsule0 with pending := some (.reg 2 7) }

theorem witness_CapsuleEvents : ∃ (s s1 : State) (r : Run) (c : Capsule) (e : CapEffect) (rec : CapRecord),
    Waits s r .capCommit ∧ r.slice.cap = some c ∧ c.pending = some e ∧ wordAnswers s r (recordAddr c.record 0) = true ∧ e ≠ .leave ∧ commitRead s r c = .ok (s1, rec)
    ∧ recordPoison s1 c.record rec = none ∧ (rec.state = 1 ∧ rec.token = c.token ∧ rec.step = c.step)
    ∧ specOf r.band r.id.gang = none := by
  obtain ⟨s1, rec, h1, h2, h3⟩ := commit_of (s := sCommitStep (.reg 2 7) (3 ^ 26 + 5))
    (r := run0 (sCommitStep (.reg 2 7) (3 ^ 26 + 5))) (c := regStep) (y := (1, 5, 0)) (by decide +kernel)
  simp only [Prod.mk.injEq] at h3
  exact ⟨_, s1, _, regStep, .reg 2 7, rec, waits_of (by decide +kernel), by decide +kernel, rfl, by decide +kernel, by decide, h1, h2, h3,
    by decide +kernel⟩

theorem witness_CapsuleEvents_fails : ∃ (s s1 : State) (r : Run) (c : Capsule) (e : CapEffect) (rec : CapRecord),
    Waits s r .capCommit ∧ r.slice.cap = some c ∧ c.pending = some e ∧ wordAnswers s r (recordAddr c.record 0) = true ∧ commitRead s r c = .ok (s1, rec)
    ∧ recordPoison s1 c.record rec = none ∧ ¬ (rec.state = 1 ∧ rec.token = c.token ∧ rec.step = c.step) := by
  obtain ⟨s1, rec, h1, h2, h3⟩ := commit_of (s := sCommitStep (.reg 2 7) (3 ^ 26 + 6))
    (r := run0 (sCommitStep (.reg 2 7) (3 ^ 26 + 6))) (c := regStep) (y := (1, 6, 0)) (by decide +kernel)
  simp only [Prod.mk.injEq] at h3
  exact ⟨_, s1, _, regStep, .reg 2 7, rec, waits_of (by decide +kernel), by decide +kernel, rfl, by decide +kernel, h1, h2,
    fun h => by have := h.2.1; rw [h3.2.1] at this; exact absurd this (by decide)⟩

/-- The states and the records that CAP.LEAVE goes through from its commit on. -/
def leaveAt (s : State) (r : Run) (c : Capsule) (rec : CapRecord) :
    CapAccess ((State × CapRecord) × State × State × State × CapRecord) :=
  (recordAt (commitStep s r c rec .leave) r.who c.record).bind fun x =>
    (directAll (correctCapsule x.1 r.who (slotAddrs (x.2.word 6))) r.who
      ([0, 1, 2].map fun (i : Nat) => (wrap 27 (x.2.word 6 + 3 * i), r.slice.k.getD i 0))).bind fun s4 =>
    (directAt s4 r.who (markerAddr (x.2.word 6)) 1).bind fun s5 =>
    (recordAt (commitVersion s5 r.id.band false) r.who c.record).map fun y => (x, s4, s5, y)

theorem bind_ok {ε α β : Type} {x : Except ε α} {k : α → Except ε β} {v : β} (h : x.bind k = .ok v) :
    ∃ a, x = .ok a ∧ k a = .ok v := by
  cases x with
  | ok a => exact ⟨a, rfl, h⟩
  | error e => cases h

theorem map_ok {ε α β : Type} {x : Except ε α} {k : α → β} {v : β} (h : x.map k = .ok v) : ∃ a, x = .ok a ∧ k a = v := by
  cases x with
  | ok a => exact ⟨a, rfl, Except.ok.inj h⟩
  | error e => cases h

def leaveStep : Capsule := { capsule0 with pending := some .leave }
def sLeaving : State := sCommitStep .leave (3 ^ 26 + 5)

theorem witness_CapsuleEvents_leave : ∃ (s s1 s3 s4 s5 s6 : State) (r : Run) (c : Capsule) (rec c3 c6 : CapRecord),
    Waits s r .capCommit ∧ r.slice.cap = some c ∧ c.pending = some .leave ∧ wordAnswers s r (recordAddr c.record 0) = true ∧ commitRead s r c = .ok (s1, rec)
    ∧ recordPoison s1 c.record rec = none ∧ (rec.state = 1 ∧ rec.token = c.token ∧ rec.step = c.step)
    ∧ recordAt (commitStep s1 r c rec .leave) r.who c.record = .ok (s3, c3)
    ∧ directAll (correctCapsule s3 r.who (slotAddrs (c3.word 6))) r.who
        ([0, 1, 2].map fun (i : Nat) => (wrap 27 (c3.word 6 + 3 * i), r.slice.k.getD i 0)) = .ok s4
    ∧ directAt s4 r.who (markerAddr (c3.word 6)) 1 = .ok s5
    ∧ recordAt (commitVersion s5 r.id.band false) r.who c.record = .ok (s6, c6)
    ∧ (c6.state = 1 ∧ c6.token = c.token ∧ c6.step = c.step + 1) := by
  obtain ⟨s1, rec, h1, h2, h3⟩ := commit_of (s := sLeaving) (r := run0 sLeaving) (c := leaveStep) (y := (1, 5, 0))
    (by decide +kernel)
  simp only [Prod.mk.injEq] at h3
  have hx : (match commitRead sLeaving (run0 sLeaving) leaveStep with
    | .ok x => (leaveAt x.1 (run0 sLeaving) leaveStep x.2).toOption.map fun y =>
        (y.2.2.2.2.state, y.2.2.2.2.token, y.2.2.2.2.step)
    | .error _ => none) = some (1, 5, 1) := by decide +kernel
  rw [h1] at hx
  dsimp only at hx
  rw [Option.map_eq_some_iff] at hx
  obtain ⟨⟨⟨s3, c3⟩, s4, s5, s6, c6⟩, hy, hz⟩ := hx
  have hy := ok_is hy
  obtain ⟨x1, g1, hy⟩ := bind_ok hy
  obtain ⟨x2, g2, hy⟩ := bind_ok hy
  obtain ⟨x3, g3, hy⟩ := bind_ok hy
  obtain ⟨x4, g4, hy⟩ := map_ok hy
  cases hy
  simp only [Prod.mk.injEq] at hz
  exact ⟨sLeaving, s1, s3, s4, s5, s6, run0 sLeaving, leaveStep, rec, c3, c6, waits_of (by decide +kernel), by decide +kernel, rfl,
    by decide +kernel, h1, h2, h3, g1, g2, g3, g4, hz⟩

def sStoring : State :=
  waiting (inBody (placed (.capLeave {})) { capsule0 with apply := some (.store 300 7 true) }) .capApply

theorem witness_CapsuleEvents_apply : ∃ (s : State) (r : Run) (c : Capsule) (a v : Word) (word : Bool), Waits s r .capApply
    ∧ r.slice.cap = some c ∧ c.apply = some (.store a v word) ∧ wordAnswers s r a = true :=
  ⟨sStoring, run0 sStoring, { capsule0 with apply := some (.store 300 7 true) }, 300, 7, true, waits_of (by decide +kernel),
    by decide +kernel, rfl, by decide +kernel⟩

def sRetry : State := waiting sCap (.tether (pageNonet 1580) true)
def sRetryHeld : State := waiting sCapHeld (.tether (pageNonet 1580) true)
def sRetryOut : State := withGang sRetry fun g => { g with residence := .evicted }

theorem witness_CapsuleEvents_retry : ∃ (s : State) (r : Run) (w : Nat), Waits s r (.tether w true)
    ∧ r.gang.residence ≠ .resident :=
  ⟨sRetryOut, run0 sRetryOut, pageNonet 1580, waits_of (by decide +kernel), by decide +kernel⟩

/-- The record as the contender reads it again. -/
def retryRead (s : State) : CapAccess (State × CapRecord) :=
  let record := readWord (run0 s) s 0 fCap.a
  recordAt (correctCapsule s (run0 s).who (recordAddr record 0 :: slotAddrs (readWord (run0 s) s 1 fCap.b))) (run0 s).who record

theorem witness_CapsuleEvents_retryTakes : ∃ (s s1 s2 : State) (r : Run) (w : Nat) (f : Fields) (c : CapRecord),
    Waits s r (.tether w true) ∧ r.gang.residence = .resident ∧ enterInstr s r = some f ∧ r.slice.cap = none
    ∧ recordAt (correctCapsule s r.who (recordAddr (readWord r s 0 f.a) 0 :: slotAddrs (readWord r s 1 f.b))) r.who
        (readWord r s 0 f.a) = .ok (s1, c)
    ∧ recordPoison s1 (readWord r s 0 f.a) c = none ∧ c.state = 0
    ∧ directAt (takenAt f s s1 r c) r.who (markerAddr (readWord r s 1 f.b)) (-1) = .ok s2 := by
  obtain ⟨⟨s1, c⟩, hx⟩ := ok_of (show (retryRead sRetry).toOption.isSome = true by decide +kernel)
  have h : (retryRead sRetry).toOption.map (fun x => (recordPoison x.1 (readWord (run0 sRetry) sRetry 0 fCap.a) x.2, x.2.state,
      (directAt (takenAt fCap sRetry x.1 (run0 sRetry) x.2) (run0 sRetry).who
        (markerAddr (readWord (run0 sRetry) sRetry 1 fCap.b)) (-1)).toOption.isSome)) = some (none, 0, true) := by decide +kernel
  rw [hx] at h
  simp only [Except.toOption, Option.map_some, Option.some.injEq, Prod.mk.injEq] at h
  obtain ⟨s2, h2⟩ := ok_of h.2.2
  exact ⟨sRetry, s1, s2, run0 sRetry, pageNonet 1580, fCap, c, waits_of (by decide +kernel), by decide +kernel,
    by decide +kernel, by decide +kernel, hx, h.1, h.2.1, h2⟩

theorem witness_CapsuleEvents_retryHeld : ∃ (s s1 : State) (r : Run) (w : Nat) (f : Fields) (c : CapRecord),
    Waits s r (.tether w true) ∧ r.gang.residence = .resident ∧ enterInstr s r = some f ∧ r.slice.cap = none
    ∧ recordAt (correctCapsule s r.who (recordAddr (readWord r s 0 f.a) 0 :: slotAddrs (readWord r s 1 f.b))) r.who
        (readWord r s 0 f.a) = .ok (s1, c)
    ∧ recordPoison s1 (readWord r s 0 f.a) c = none ∧ c.state = 1 ∧ field (c.word 3) 21 6 = (r.ctx.number : Int) := by
  obtain ⟨⟨s1, c⟩, hx⟩ := ok_of (show (retryRead sRetryHeld).toOption.isSome = true by decide +kernel)
  have h : (retryRead sRetryHeld).toOption.map (fun x => (recordPoison x.1 (readWord (run0 sRetryHeld) sRetryHeld 0 fCap.a) x.2,
      x.2.state, field (x.2.word 3) 21 6)) = some (none, 1, ((run0 sRetryHeld).ctx.number : Int)) := by decide +kernel
  rw [hx] at h
  simp only [Except.toOption, Option.map_some, Option.some.injEq, Prod.mk.injEq] at h
  exact ⟨sRetryHeld, s1, run0 sRetryHeld, pageNonet 1580, fCap, c, waits_of (by decide +kernel), by decide +kernel,
    by decide +kernel, by decide +kernel, hx, h.1, h.2.1, h.2.2⟩

def sMark : State := putWords (inBody (placed (.capLeave {})) capsuleOut) [(1581, 3 ^ 26 + 5)]

theorem witness_CapsuleEvents_mark : ∃ (s : State) (r : Run) (c : Capsule) (j : Nat) (leaf : Option Leaf), s.run r.id = some r
    ∧ r.slice.cap = some c ∧ c.running = false
    ∧ devWordAt (correctWalks s r.ctx [wrap 27 (recordAddr c.record 0 - 1)]) r.who .read (recordAddr c.record 0) = some (j, leaf)
    ∧ (unversioned s j ∧ unversioned s (j + 1) ∧ unversioned s (j + 2))
    ∧ (∀ m, m < 3 → pteNonet leaf.toList (.dev (j + m)) = false) ∧ trit (devWord s j) 26 = 1
    ∧ field (devWord s j) 0 17 = c.token := by
  have h : (devWordAt (correctWalks sMark (run0 sMark).ctx [wrap 27 (recordAddr capsuleOut.record 0 - 1)]) (run0 sMark).who .read
      (recordAddr capsuleOut.record 0)).map (fun x => (x.1, (List.range 3).all fun m => !pteNonet x.2.toList (.dev (x.1 + m))))
      = some (pageNonet 1580, true) := by decide +kernel
  rw [Option.map_eq_some_iff] at h
  obtain ⟨⟨j, leaf⟩, hj, he⟩ := h
  simp only [Prod.mk.injEq] at he
  obtain ⟨rfl, he⟩ := he
  refine ⟨sMark, run0 sMark, capsuleOut, pageNonet 1580, leaf, by decide +kernel, by decide +kernel, rfl, hj,
    ⟨by unfold unversioned; decide +kernel, by unfold unversioned; decide +kernel, by unfold unversioned; decide +kernel⟩,
    fun m hm => ?_, by decide +kernel, by decide +kernel⟩
  have := List.all_eq_true.1 he m (List.mem_range.2 hm)
  simpa using this

end Sys2Proof.Tests
end

section
/-! Balanced trits, words, divisions, shifts and halfwords: what each operation of R6, R8, R23, R24, R30, R131 and
R133 gives, and the statement O53 about them. -/

namespace Sys2Proof.Machine

/-! ### Bounds, wrapping, saturating and truncating (R8, R23) -/

theorem two_mul_half (n : Nat) : 2 * (half n : Int) + 1 = (3 ^ n : Nat) := by
  obtain ⟨k, hk⟩ : Odd (3 ^ n) := Odd.pow (by decide)
  unfold half
  omega

/-- The bound of n + m trits, from the bounds of its n low and its m high trits. -/
theorem half_add (n m : Nat) : (half (n + m) : Int) = half n + half m * (3 ^ n : Nat) := by
  have hn := two_mul_half n
  have hm := two_mul_half m
  have hnm := two_mul_half (n + m)
  rw [pow_add, Nat.cast_mul, ← hm] at hnm
  linarith

theorem inTrits_iff {n : Nat} {x : Int} : inTrits n x = true ↔ -(half n : Int) ≤ x ∧ x ≤ half n := by
  simp [inTrits]

theorem wrap_add_trunc (n : Nat) (x : Int) : wrap n x + trunc n x * (3 ^ n : Nat) = x := by
  have h := Int.emod_add_ediv_mul (x + half n) (3 ^ n : Nat)
  unfold wrap trunc
  omega

theorem inTrits_wrap (n : Nat) (x : Int) : inTrits n (wrap n x) = true := by
  have hh := two_mul_half n
  have h0 := Int.emod_nonneg (x + half n) (show ((3 ^ n : Nat) : Int) ≠ 0 by omega)
  have h1 := Int.emod_lt_of_pos (x + half n) (show (0 : Int) < (3 ^ n : Nat) by omega)
  rw [inTrits_iff]
  unfold wrap
  omega

theorem wrap_add_mul {n : Nat} {r : Int} (hr : inTrits n r = true) (q : Int) : wrap n (r + q * (3 ^ n : Nat)) = r := by
  have hh := two_mul_half n
  rw [inTrits_iff] at hr
  unfold wrap
  rw [add_right_comm, Int.add_mul_emod_self_right, Int.emod_eq_of_lt (by omega) (by omega)]
  omega

theorem trunc_add_mul {n : Nat} {r : Int} (hr : inTrits n r = true) (q : Int) : trunc n (r + q * (3 ^ n : Nat)) = q := by
  have hh := two_mul_half n
  rw [inTrits_iff] at hr
  unfold trunc
  rw [add_right_comm, Int.add_mul_ediv_right _ _ (by omega), Int.ediv_eq_zero_of_lt (by omega) (by omega), zero_add]

theorem wrap_of_inTrits {n : Nat} {x : Int} (hx : inTrits n x = true) : wrap n x = x := by
  simpa using wrap_add_mul hx 0

theorem trunc_of_inTrits {n : Nat} {x : Int} (hx : inTrits n x = true) : trunc n x = 0 := by
  simpa using trunc_add_mul hx 0

/-- Truncation of low trits rounds to nearest, and 3ⁿ is odd, so that there is no tie. -/
theorem two_mul_sub_trunc_lt (n : Nat) (x : Int) : 2 * (x - trunc n x * (3 ^ n : Nat)).natAbs < 3 ^ n := by
  have hh := two_mul_half n
  have hw := wrap_add_trunc n x
  have hr := inTrits_iff.1 (inTrits_wrap n x)
  omega

theorem inTrits_sat (n : Nat) (x : Int) : inTrits n (sat n x) = true := by
  rw [inTrits_iff]
  unfold sat
  omega

theorem sat_of_inTrits {n : Nat} {x : Int} (hx : inTrits n x = true) : sat n x = x := by
  rw [inTrits_iff] at hx
  unfold sat
  omega

theorem sat_of_half_lt {n : Nat} {x : Int} (hx : (half n : Int) < x) : sat n x = half n := by
  unfold sat
  omega

theorem sat_of_lt_neg_half {n : Nat} {x : Int} (hx : x < -(half n : Int)) : sat n x = -(half n : Int) := by
  unfold sat
  omega

/-! ### Fields of more trits -/

theorem inTrits_zero (n : Nat) : inTrits n 0 = true := inTrits_iff.2 ⟨by omega, by omega⟩

/-- n low trits and m high ones make n + m. -/
theorem inTrits_add_mul {n m : Nat} {r q : Int} (hr : inTrits n r = true) (hq : inTrits m q = true) :
    inTrits (n + m) (r + q * (3 ^ n : Nat)) = true := by
  rw [inTrits_iff] at hr hq
  rw [inTrits_iff, half_add]
  have hp : (0 : Int) ≤ (3 ^ n : Nat) := Int.natCast_nonneg _
  constructor <;> nlinarith

theorem trunc_no_trits (x : Int) : trunc 0 x = x := by
  simp [trunc, half]

theorem inTrits_add_left {n : Nat} (m : Nat) {x : Int} (hx : inTrits n x = true) : inTrits (n + m) x = true := by
  simpa using inTrits_add_mul hx (inTrits_zero m)

/-- Removing n trits of n + m leaves m. -/
theorem inTrits_trunc {n m : Nat} {x : Int} (hx : inTrits (n + m) x = true) : inTrits m (trunc n x) = true := by
  have hw := wrap_add_trunc n x
  have hr := inTrits_iff.1 (inTrits_wrap n x)
  have hh := two_mul_half n
  rw [inTrits_iff, half_add] at hx
  rw [inTrits_iff]
  constructor <;> nlinarith

theorem trunc_add (n m : Nat) (x : Int) : trunc (n + m) x = trunc m (trunc n x) := by
  have hr := inTrits_add_mul (inTrits_wrap n x) (inTrits_wrap m (trunc n x))
  have hx : x = wrap n x + wrap m (trunc n x) * (3 ^ n : Nat) + trunc m (trunc n x) * (3 ^ (n + m) : Nat) :=
    calc x = wrap n x + trunc n x * (3 ^ n : Nat) := (wrap_add_trunc n x).symm
      _ = wrap n x + (wrap m (trunc n x) + trunc m (trunc n x) * (3 ^ m : Nat)) * (3 ^ n : Nat) := by
        rw [wrap_add_trunc m]
      _ = wrap n x + wrap m (trunc n x) * (3 ^ n : Nat) + trunc m (trunc n x) * (3 ^ (n + m) : Nat) := by
        push_cast
        ring
  conv_lhs => rw [hx, trunc_add_mul hr]

/-! ### Trits (R6, R23) -/

theorem inTrits_one_iff {x : Int} : inTrits 1 x = true ↔ x = -1 ∨ x = 0 ∨ x = 1 := by
  rw [inTrits_iff, show half 1 = 1 from rfl]
  omega

theorem trits_length (n : Nat) (x : Int) : (trits n x).length = n := by
  induction n generalizing x with
  | zero => rfl
  | succ n ih => rw [trits, List.length_cons, ih]

theorem inTrits_one_of_mem_trits {n : Nat} {x y : Int} (hy : y ∈ trits n x) : inTrits 1 y = true := by
  induction n generalizing x with
  | zero => cases hy
  | succ n ih =>
    rcases List.mem_cons.1 hy with rfl | hy
    · exact inTrits_wrap 1 x
    · exact ih hy

theorem ofTrits_cons (t : Int) (ts : List Int) : ofTrits (t :: ts) = t + ofTrits ts * (3 ^ 1 : Nat) := by
  rw [ofTrits]
  omega

theorem ofTrits_trits {n : Nat} {x : Int} (hx : inTrits n x = true) : ofTrits (trits n x) = x := by
  induction n generalizing x with
  | zero =>
    have h0 := inTrits_iff.1 hx
    rw [show half 0 = 0 from rfl] at h0
    rw [trits, ofTrits]
    omega
  | succ n ih => rw [trits, ofTrits_cons, ih (inTrits_trunc (Nat.add_comm n 1 ▸ hx)), wrap_add_trunc]

theorem trits_ofTrits {ts : List Int} (h : ∀ y ∈ ts, inTrits 1 y = true) : trits ts.length (ofTrits ts) = ts := by
  induction ts with
  | nil => rfl
  | cons t ts ih =>
    obtain ⟨ht, hts⟩ := List.forall_mem_cons.1 h
    rw [ofTrits_cons, List.length_cons, trits, wrap_add_mul ht, trunc_add_mul ht, ih hts]

theorem inTrits_ofTrits {ts : List Int} (h : ∀ y ∈ ts, inTrits 1 y = true) : inTrits ts.length (ofTrits ts) = true := by
  induction ts with
  | nil => rfl
  | cons t ts ih =>
    obtain ⟨ht, hts⟩ := List.forall_mem_cons.1 h
    rw [ofTrits_cons, List.length_cons, Nat.add_comm]
    exact inTrits_add_mul ht (ih hts)

/-! ### Words and nonets (R24) -/

theorem wordOf_eq (n0 n1 n2 : Int) : wordOf n0 n1 n2 = n0 + (n1 + n2 * (3 ^ 9 : Nat)) * (3 ^ 9 : Nat) := by
  unfold wordOf
  omega

theorem inTrits_wordOf {n0 n1 n2 : Int} (h0 : inTrits 9 n0 = true) (h1 : inTrits 9 n1 = true) (h2 : inTrits 9 n2 = true) :
    inTrits 27 (wordOf n0 n1 n2) = true := by
  have h : inTrits (9 + (9 + 9)) _ = true := inTrits_add_mul h0 (inTrits_add_mul h1 h2)
  rwa [← wordOf_eq] at h

theorem nonetOf_zero (x : Int) : nonetOf x 0 = wrap 9 x := by
  unfold nonetOf field
  rw [Nat.mul_zero, trunc_no_trits]

/-- The nonets above nonet 0 are the nonets of what truncating nonet 0 leaves. -/
theorem nonetOf_succ (x : Int) (j : Nat) : nonetOf x (j + 1) = nonetOf (trunc 9 x) j := by
  unfold nonetOf field
  rw [Nat.mul_succ, Nat.add_comm, trunc_add]

theorem nonetOf_wordOf_zero {n0 : Int} (h0 : inTrits 9 n0 = true) (n1 n2 : Int) : nonetOf (wordOf n0 n1 n2) 0 = n0 := by
  rw [nonetOf_zero, wordOf_eq, wrap_add_mul h0]

theorem nonetOf_wordOf_one {n0 n1 : Int} (h0 : inTrits 9 n0 = true) (h1 : inTrits 9 n1 = true) (n2 : Int) :
    nonetOf (wordOf n0 n1 n2) 1 = n1 := by
  rw [nonetOf_succ, nonetOf_zero, wordOf_eq, trunc_add_mul h0, wrap_add_mul h1]

theorem nonetOf_wordOf_two {n0 n1 n2 : Int} (h0 : inTrits 9 n0 = true) (h1 : inTrits 9 n1 = true) (h2 : inTrits 9 n2 = true) :
    nonetOf (wordOf n0 n1 n2) 2 = n2 := by
  rw [nonetOf_succ, nonetOf_succ, nonetOf_zero, wordOf_eq, trunc_add_mul h0, trunc_add_mul h1, wrap_of_inTrits h2]

theorem wordOf_nonetOf {w : Int} (hw : inTrits 27 w = true) : wordOf (nonetOf w 0) (nonetOf w 1) (nonetOf w 2) = w := by
  have h2 : inTrits 9 (trunc 9 (trunc 9 w)) = true := inTrits_trunc (m := 9) (inTrits_trunc (m := 18) hw)
  rw [wordOf_eq, nonetOf_succ w 1, nonetOf_succ w 0, nonetOf_succ _ 0, nonetOf_zero, nonetOf_zero, nonetOf_zero,
    wrap_of_inTrits h2, wrap_add_trunc, wrap_add_trunc]

/-! ### Divisions (R131) -/

theorem sgn_eq_sign (x : Int) : sgn x = x.sign := by
  unfold sgn
  split
  · next h => rw [Int.sign_eq_one_of_pos h]
  · split
    · next h => rw [Int.sign_eq_neg_one_of_neg h]
    · rw [show x = 0 by omega, Int.sign_zero]

/-- The magnitude of div_near's quotient: the nearest natural number to a / b, an exact half downward. -/
def nearQuot (a b : Nat) : Nat := (2 * a + b - 1) / (2 * b)

theorem nearQuot_bounds (a : Nat) {b : Nat} (hb : 0 < b) :
    2 * (b * nearQuot a b) ≤ 2 * a + b - 1 ∧ 2 * a + b - 1 < 2 * (b * nearQuot a b) + 2 * b := by
  have h1 := Nat.mul_div_le (2 * a + b - 1) (2 * b)
  have h2 := Nat.lt_mul_div_succ (2 * a + b - 1) (show 0 < 2 * b by omega)
  rw [Nat.mul_add, Nat.mul_assoc] at h2
  rw [Nat.mul_assoc] at h1
  unfold nearQuot
  omega

/-- y · div_near(x, y) has the sign of x and the magnitude of the multiple of |y| nearest to |x|. -/
theorem mul_divNear (x y : Int) : y * divNear x y = x.sign * (y.natAbs * nearQuot x.natAbs y.natAbs : Nat) := by
  by_cases hy : y = 0
  · simp [hy]
  · have ha : (x * y.sign).natAbs = x.natAbs := by rw [Int.natAbs_mul, Int.natAbs_sign_of_ne_zero hy, Nat.mul_one]
    unfold divNear nearDiv
    rw [sgn_eq_sign, sgn_eq_sign, ha, Int.sign_mul, Int.sign_sign, Nat.cast_mul, ← Int.mul_sign_self y]
    unfold nearQuot
    ring

theorem two_mul_sub_divNear_le (x : Int) {y : Int} (hy : y ≠ 0) : 2 * (x - y * divNear x y).natAbs ≤ y.natAbs
    ∧ (2 * (x - y * divNear x y).natAbs = y.natAbs → (y * divNear x y).natAbs < x.natAbs) := by
  have hb := nearQuot_bounds x.natAbs (Int.natAbs_pos.2 hy)
  rw [mul_divNear]
  rcases lt_trichotomy x 0 with hx | rfl | hx
  · rw [Int.sign_eq_neg_one_of_neg hx]
    omega
  · rw [Int.sign_zero]
    omega
  · rw [Int.sign_eq_one_of_pos hx]
    omega

theorem divDest_zero (n : Nat) (c : Clamp) (k x : Int) : divDest n c k x 0 = (sgn x * half n, .clamped) := if_pos rfl

theorem remNear_zero (x : Int) : remNear x 0 = x := if_pos rfl

/-! ### Shifts (R133) -/

theorem scaleInt_natCast (j : Nat) (x : Int) : scaleInt j x = x * (3 ^ j : Nat) := by
  simp [scaleInt]

theorem scaleInt_neg_natCast (j : Nat) (x : Int) : scaleInt (-(j : Int)) x = trunc j x := by
  cases j with
  | zero => simp [scaleInt, trunc_no_trits]
  | succ j => rw [scaleInt, if_neg (by omega), neg_neg, Int.toNat_natCast]

theorem scaleInt_zero (m : Int) : scaleInt m 0 = 0 := by
  unfold scaleInt
  split
  · exact zero_mul _
  · exact trunc_of_inTrits (inTrits_zero _)

/-- A right shift by n or more of a value of n trits gives 0. -/
theorem scaleInt_of_le_neg {n : Nat} {x m : Int} (hx : inTrits n x = true) (hm : m ≤ -(n : Int)) : scaleInt m x = 0 := by
  obtain ⟨k, rfl⟩ : ∃ k : Nat, m = -((n + k : Nat) : Int) := ⟨(-m).toNat - n, by omega⟩
  rw [scaleInt_neg_natCast, trunc_of_inTrits (inTrits_add_left k hx)]

/-- What a left shift by n or more gives of a nonzero value x of n trits (R133): 0 where it wraps, otherwise the
clamp's bound on x's side. -/
def shiftedOut (n : Nat) (c : Clamp) (x : Int) : Int × Effects :=
  match c with
  | .off => (0, .none)
  | .sat => (x.sign * half n, .clamped)
  | .unit => (x.sign, .clamped)

theorem wrap_mul_pow (n k : Nat) (x : Int) : wrap n (x * (3 ^ (n + k) : Nat)) = 0 := by
  have h := wrap_add_mul (inTrits_zero n) (x * (3 ^ k : Nat))
  rwa [zero_add, mul_assoc, ← Nat.cast_mul, mul_comm (3 ^ k), ← pow_add] at h

/-- A value further from 0 than n trits reach saturates at the bound on its side. -/
theorem sat_of_half_lt_natAbs {n : Nat} {x : Int} (hx : half n < x.natAbs) : sat n x = x.sign * half n := by
  rcases lt_trichotomy x 0 with h | rfl | h
  · rw [sat_of_lt_neg_half (by omega), Int.sign_eq_neg_one_of_neg h, neg_one_mul]
  · cases hx
  · rw [sat_of_half_lt (by omega), Int.sign_eq_one_of_pos h, one_mul]

theorem clampInt_sat_of_half_lt {n : Nat} {x : Int} (hx : half n < x.natAbs) :
    clampInt n .sat x = (x.sign * half n, .clamped) := by
  have hne : x.sign * half n ≠ x := by
    rw [← sat_of_half_lt_natAbs hx]
    have hs := inTrits_iff.1 (inTrits_sat n x)
    omega
  simp only [clampInt]
  rw [sat_of_half_lt_natAbs hx, if_neg hne]

theorem clampInt_unit_of_one_lt {n : Nat} {x : Int} (hx : 1 < x.natAbs) : clampInt n .unit x = (x.sign, .clamped) := by
  have hs : max (-1) (min 1 x) = x.sign := by
    rcases lt_or_gt_of_ne (show x ≠ 0 by omega) with h | h
    · rw [Int.sign_eq_neg_one_of_neg h]
      omega
    · rw [Int.sign_eq_one_of_pos h]
      omega
  simp only [clampInt]
  rw [if_neg (by omega), hs]

theorem half_pos_of_ne_zero {n : Nat} {x : Int} (hx : inTrits n x = true) (h0 : x ≠ 0) : 0 < half n := by
  rw [inTrits_iff] at hx
  omega

/-- A left shift by n or more carries a nonzero value beyond n trits. -/
theorem half_lt_natAbs_mul_pow (n k : Nat) {x : Int} (h0 : x ≠ 0) : half n < (x * (3 ^ (n + k) : Nat)).natAbs := by
  have hh := two_mul_half n
  have hp : 3 ^ n ≤ 3 ^ (n + k) := Nat.pow_le_pow_right (by decide) (Nat.le_add_right n k)
  have hx : 3 ^ (n + k) ≤ x.natAbs * 3 ^ (n + k) := Nat.le_mul_of_pos_left _ (Int.natAbs_pos.2 h0)
  rw [Int.natAbs_mul, Int.natAbs_natCast]
  omega

theorem clampInt_scaleInt_of_le {n : Nat} {x m : Int} (c : Clamp) (hx : inTrits n x = true) (h0 : x ≠ 0)
    (hm : (n : Int) ≤ m) : clampInt n c (scaleInt m x) = shiftedOut n c x := by
  obtain ⟨k, rfl⟩ : ∃ k : Nat, m = (n + k : Nat) := ⟨m.toNat - n, by omega⟩
  have hh := half_pos_of_ne_zero hx h0
  have hlt := half_lt_natAbs_mul_pow n k h0
  have hs : (x * (3 ^ (n + k) : Nat)).sign = x.sign := by
    rw [Int.sign_mul, Int.sign_eq_one_of_pos (Int.natCast_pos.2 (by positivity)), mul_one]
  rw [scaleInt_natCast]
  cases c with
  | off => rw [clampInt, wrap_mul_pow, shiftedOut]
  | sat => rw [clampInt_sat_of_half_lt hlt, hs, shiftedOut]
  | unit => rw [clampInt_unit_of_one_lt (by omega), hs, shiftedOut]

/-- Limiting the count to 2n trits in either direction changes nothing: beyond it, every trit is shifted out. -/
theorem shiftDest_eq {n : Nat} (c : Clamp) {x : Int} (m : Int) (hx : inTrits n x = true) :
    shiftDest n c x m = clampInt n c (scaleInt m x) := by
  simp only [shiftDest]
  by_cases h0 : x = 0
  · rw [h0, scaleInt_zero, scaleInt_zero]
  · rcases lt_or_ge m (-(2 * n : Int)) with hm | hm
    · rw [scaleInt_of_le_neg hx (show m ≤ -(n : Int) by omega), scaleInt_of_le_neg hx (by omega)]
    · rcases le_or_gt m (2 * n) with hm' | hm'
      · rw [min_eq_right hm', max_eq_right hm]
      · rw [clampInt_scaleInt_of_le c hx h0 (show (n : Int) ≤ m by omega), clampInt_scaleInt_of_le c hx h0 (by omega)]

/-! ### Halfwords (R30, R32) -/

theorem halfword_ofHalfword {h : Nat} (hh : h < 65536) : halfword (ofHalfword h) = h := by
  unfold halfword ofHalfword
  split <;> omega

theorem nonetOfHalfword_eq_some {h : Nat} {v : Int} :
    nonetOfHalfword h = some v ↔ ofHalfword h = v ∧ inTrits 9 v = true := by
  simp only [nonetOfHalfword]
  split
  · next hn =>
    rw [Option.some_inj]
    exact ⟨fun hv => ⟨hv, hv ▸ hn⟩, And.left⟩
  · next hn => exact ⟨nofun, fun ⟨hv, hi⟩ => absurd (hv ▸ hi) hn⟩

theorem nonetOfHalfword_halfword {v : Int} (hv : inTrits 9 v = true) : nonetOfHalfword (halfword v) = some v := by
  obtain ⟨hl, hu⟩ : -9841 ≤ v ∧ v ≤ 9841 := inTrits_iff.1 hv
  exact nonetOfHalfword_eq_some.2 ⟨ofHalfword_halfword v (by omega), hv⟩

theorem nonetOfHalfword_poisonCode : nonetOfHalfword poisonCode = none := rfl

/-! ### The statement -/

/-- Settles O53, one part for each of the rules it cites. -/
theorem arithmeticRules : Obligations.ArithmeticRules := by
  refine ⟨fun n x hx => ⟨ofTrits_trits hx, trits_length n x, fun y hy => inTrits_one_iff.1 (inTrits_one_of_mem_trits hy)⟩,
    fun ts h => ?trits, fun n x => ?bounds, fun n0 n1 n2 h0 h1 h2 => ?words, fun w hw => wordOf_nonetOf hw,
    fun x y hy => two_mul_sub_divNear_le x hy, fun n c k x => ?zeroDivisor, fun n c x m hx => shiftDest_eq c m hx,
    fun v hv => ⟨halfword_lt v, nonetOfHalfword_halfword hv⟩, fun h v hh hv => ?halfwords, nonetOfHalfword_poisonCode⟩
  case trits =>
    have h1 : ∀ y ∈ ts, inTrits 1 y = true := fun y hy => inTrits_one_iff.2 (h y hy)
    exact ⟨trits_ofTrits h1, inTrits_ofTrits h1⟩
  case bounds =>
    exact ⟨inTrits_wrap n x, ⟨trunc n x, (wrap_add_trunc n x).symm⟩, inTrits_sat n x,
      fun hx => ⟨wrap_of_inTrits hx, sat_of_inTrits hx⟩, sat_of_half_lt, sat_of_lt_neg_half, two_mul_sub_trunc_lt n x⟩
  case words =>
    exact ⟨inTrits_wordOf h0 h1 h2, nonetOf_wordOf_zero h0 n1 n2, nonetOf_wordOf_one h0 h1 n2, nonetOf_wordOf_two h0 h1 h2⟩
  case zeroDivisor =>
    rw [divDest_zero, remNear_zero]
    exact ⟨rfl, rfl, rfl⟩
  case halfwords =>
    obtain ⟨rfl, hi⟩ := nonetOfHalfword_eq_some.1 hv
    exact ⟨hi, halfword_ofHalfword hh⟩

end Sys2Proof.Machine
end

section
/-! What a uniform instruction does: the value and the effects of its entry (R130 to R133, R249), what its destination
takes (R70, R74, R129), and the statement O1 about the committed instruction. -/

namespace Sys2Proof.Machine

/-! ### The value of an entry -/

@[simp] theorem Effects.none_invalid : Effects.none.invalid = 0 := rfl

@[simp] theorem clampInt_invalid (n : Nat) (c : Clamp) (x : Int) : (clampInt n c x).2.invalid = 0 := by
  cases c with
  | off => rfl
  | sat | unit =>
    simp only [clampInt]
    split <;> rfl

@[simp] theorem intDest_invalid (n : Nat) (c : Clamp) (k x : Int) : (intDest n c k x).2.invalid = 0 :=
  clampInt_invalid ..

@[simp] theorem shiftDest_invalid (n : Nat) (c : Clamp) (x m : Int) : (shiftDest n c x m).2.invalid = 0 :=
  clampInt_invalid ..

@[simp] theorem divDest_invalid (n : Nat) (c : Clamp) (k a b : Int) : (divDest n c k a b).2.invalid = 0 := by
  unfold divDest
  split
  · rfl
  · exact clampInt_invalid ..

/-- Integers hold no signalling NaN: no uniform instruction raises a context's invalid count (R218). -/
theorem uniformValue_invalid {i : Instr} {r : Run} {s : State} {v : Int × Effects} (hv : uniformValue i r s = some v) :
    v.2.invalid = 0 := by
  unfold uniformValue at hv
  split at hv
  case h_19 => cases hv
  all_goals
    cases hv
    simp

/-- Each instruction to which the statements give a uniform value runs the shared uniform shape on that value. -/
theorem exec_of_uniformValue {i : Instr} {op : Op} {f : Fields} {r : Run} {s : State} {v : Int × Effects}
    (hc : codedOf i = some (op, f)) (hv : uniformValue i r s = some v) :
    ∃ body, exec i s = runOp op f s body ∧ body r = uniform r s f v := by
  unfold uniformValue at hv
  split at hv
  case h_19 => cases hv
  all_goals
    cases hc
    cases hv
    exact ⟨_, rfl, rfl⟩

/-! ### A uniform destination -/

/-- The destinations of the statement: a uniform register, of a gang that is not parted (R56), or a k register. -/
def UniformDest (g : Gang) (d : Opnd) : Prop := (isUni d = true ∧ g.parted = false) ∨ isK d = true

/-- A gang whose uniform destination takes a word: a uniform register takes it for all slices, a k register in each of
the slices sl (R70, R74). -/
def takeUniform (sl : List Nat) (d : Opnd) (v : Word) (g : Gang) : Gang :=
  match d with
  | .uni n => uset g n v
  | .kreg n => setK g sl n fun _ => v
  | _ => g

/-- The k registers of one of those slices then. -/
def takeK (d : Opnd) (v : Word) (k : List Int) : List Int :=
  match d with
  | .kreg n => k.set n v
  | _ => k

theorem uset_rest (g : Gang) (n : Nat) (v : Word) : { uset g n v with uregs := g.uregs, bad := g.bad } = g := by
  unfold uset
  split <;> rfl

theorem uget_uset (g : Gang) (m n : Nat) (v : Word) :
    uget (uset g n v) m = if m = n then if m = 0 then 0 else v else uget g m := by
  unfold uset uget
  grind [smapGet_smapSet]

theorem setK_slices (g : Gang) (sl : List Nat) (n j : Nat) (v : Nat → Int) :
    (setK g sl n v).slices[j]? = (g.slices[j]?).map fun x => if j ∈ sl then { x with k := x.k.set n (v j) } else x := by
  simp [setK, List.getElem?_mapIdx]

theorem takeUniform_rest (sl : List Nat) (d : Opnd) (v : Word) (g : Gang) :
    { takeUniform sl d v g with uregs := g.uregs, bad := g.bad, slices := g.slices } = g := by
  cases d with
  | uni n => exact congrArg (fun g' => { g' with slices := g.slices }) (uset_rest g n v)
  | _ => rfl

/-- Of the gang, a uniform destination changes uniform registers, poison marks and slices alone. -/
theorem takeUniform_frame {sl : List Nat} {d : Opnd} {v : Word} {g g' : Gang}
    (h : { g' with slices := (takeUniform sl d v g).slices, parts := (takeUniform sl d v g).parts } = takeUniform sl d v g) :
    g' = { g with uregs := g'.uregs, bad := g'.bad, slices := g'.slices, parts := g'.parts } := by
  have hg : { g' with uregs := g.uregs, bad := g.bad, slices := g.slices, parts := (takeUniform sl d v g).parts } = g :=
    (congrArg (fun x => { x with uregs := g.uregs, bad := g.bad, slices := g.slices }) h).trans (takeUniform_rest sl d v g)
  rw [← hg]

theorem takeUniform_parts (sl : List Nat) (d : Opnd) (v : Word) (g : Gang) : (takeUniform sl d v g).parts = g.parts :=
  (congrArg Gang.parts (takeUniform_rest sl d v g) :)

theorem uset_slices (g : Gang) (n : Nat) (v : Word) : (uset g n v).slices = g.slices :=
  (congrArg Gang.slices (uset_rest g n v) :)

theorem takeUniform_slices (sl : List Nat) (d : Opnd) (v : Word) (g : Gang) (j : Nat) :
    (takeUniform sl d v g).slices[j]? = (g.slices[j]?).map fun x =>
      if j ∈ sl then { x with k := takeK d v x.k } else x := by
  cases d with
  | kreg n => exact setK_slices ..
  | uni n => simp [takeUniform, takeK, uset_slices]
  | _ => simp [takeUniform, takeK]

theorem kLanes_setK (g : Gang) (sl : List Nat) {m n : Nat} (v : Nat → Int) (h : m ≠ n) :
    kLanes (setK g sl n v) m = kLanes g m := by
  unfold kLanes
  congr 1
  funext l
  rw [setK_slices, show (setK g sl n v).width = g.width from rfl]
  cases g.slices[l / 3]? with
  | none => rfl
  | some x => by_cases hl : l / 3 ∈ sl <;> simp [hl, List.getElem?_set_ne h.symm]

theorem uget_takeUniform_of_ne {sl : List Nat} {d : Opnd} {n : Nat} (v : Word) (g : Gang) (h : .uni n ≠ d) :
    uget (takeUniform sl d v g) n = uget g n := by
  cases d with
  | uni m => exact (uget_uset g n m v).trans (if_neg fun hn => h (congrArg Opnd.uni hn))
  | _ => rfl

theorem kLanes_takeUniform_of_ne {sl : List Nat} {d : Opnd} {n : Nat} (v : Word) (g : Gang) (h : .kreg n ≠ d) :
    kLanes (takeUniform sl d v g) n = kLanes g n := by
  cases d with
  | kreg m => exact kLanes_setK g sl _ fun hn => h (congrArg Opnd.kreg hn)
  | uni m => exact (congrArg (kLanes · n) (uset_rest g m v) :)
  | _ => rfl

/-- Every register but the destination reads as before. -/
theorem regLanes_takeUniform {sl : List Nat} {d o : Opnd} {v : Word} {r r1 : Run} (ty : Ty)
    (hg : r1.gang = takeUniform sl d v r.gang) (hp : r1.part.hist = r.part.hist) (ho : o ≠ d) :
    regLanes r1 ty o = regLanes r ty o := by
  have hrest := takeUniform_rest sl d v r.gang
  rw [← hg] at hrest
  cases o with
  | vec n => exact (congrArg (vget · n) hrest :)
  | opr n => exact (congrArg (oget · n) hrest :)
  | mask n => exact (congrArg (mget · n) hrest :)
  | hist n => simp only [regLanes, hp]
  | uni n => simp only [regLanes, hg, uget_takeUniform_of_ne v r.gang ho]
  | kreg n => simp only [regLanes, hg, kLanes_takeUniform_of_ne v r.gang ho]
  | _ => rfl

/-! ### The instruction -/

/-- The run of a part once its instruction's effects have been applied under tensor identifier 0 (R198, R216). -/
def effectsRun (r : Run) (e : Effects) : Run :=
  { r with
    band := { modGangB r.band r.id.gang (fun g => { g with sticky := (stickyAfter g e).1, stickyNow := (stickyAfter g e).2 })
      with counts := countsAfter r.band 0 e }
    gang := { r.gang with sticky := (stickyAfter r.gang e).1, stickyNow := (stickyAfter r.gang e).2 } }

/-- The run of a part once its uniform instruction has moved its counts and written its destination. -/
def uniformRun (r : Run) (d : Opnd) (v : Int × Effects) : Run :=
  { effectsRun r v.2 with
    band := modGangB (effectsRun r v.2).band r.id.gang (takeUniform r.part.slices d v.1)
    gang := takeUniform r.part.slices d v.1 (effectsRun r v.2).gang }

theorem uniform_eq_commit {r : Run} (s : State) {f : Fields} (v : Int × Effects) (hb : r.body = false)
    (hd : UniformDest r.gang f.d) : ∃ dests, uniform r s f v
      = .commit dests (r.modGang (applyEffects r s 0 v.2) (takeUniform r.part.slices f.d v.1)) := by
  unfold uniform
  cases hf : f.d with
  | kreg n => exact ⟨[], by
      simp only [hb, writeUni]
      rfl⟩
  | uni n =>
    have hp : r.gang.parted = false := by simpa [UniformDest, hf, isK, isUni] using hd
    exact ⟨[.uni n], by
      simp only [Result.orParted, hp, writeUni]
      rfl⟩
  | _ => simp [UniformDest, hf, isUni, isK] at hd

theorem uniform_upd {s : State} {r : Run} (d : Opnd) {v : Int × Effects} (hrun : s.run r.id = some r)
    (hs : specOf r.band r.id.gang = none) (hi : v.2.invalid = 0) :
    Upd s (r.modGang (applyEffects r s 0 v.2) (takeUniform r.part.slices d v.1)) r (uniformRun r d v) :=
  (applyEffects_upd 0 v.2 hrun hs hi).modGang _ (takeUniform_parts _ _ _)

theorem regLanes_uniformRun {r : Run} {d o : Opnd} (v : Int × Effects) (ty : Ty) (ho : o ≠ d) :
    regLanes (uniformRun r d v) ty o = regLanes r ty o := by
  have he : regLanes (effectsRun r v.2) ty o = regLanes r ty o := by cases o <;> rfl
  exact (regLanes_takeUniform (r := effectsRun r v.2) (r1 := uniformRun r d v) ty rfl rfl ho).trans he

/-- Settles O1: the instruction runs the shared uniform shape (`exec_of_uniformValue`), which commits (`commit_obs`) what
`uniformRun` says. -/
theorem uniformResult : Obligations.UniformResult := by
  intro i op f s r v hc hv h hd
  obtain ⟨body, hexec, hbody⟩ := exec_of_uniformValue hc hv
  obtain ⟨dests, hcommit⟩ := uniform_eq_commit s v h.outside hd
  obtain ⟨t, r', ht, hcom, hdev, hregs, hslices, hgang, hband, -, hid, -⟩ :=
    commit_obs h (hbody.trans hcommit) (uniform_upd f.d h.run h.noFence (uniformValue_invalid hv))
  have hb : r'.band = { r.band with gangs := r'.band.gangs, counts := countsAfter r.band 0 v.2 } :=
    (congrArg (fun b => { b with gangs := r'.band.gangs }) hband :)
  refine ⟨t, r', hexec.trans ht, hcom, hdev, ?reads, ?regs, hb, takeUniform_frame hgang, ?value, ?slices⟩
  case reads =>
    refine reads_kept hcom hdev h.run ?_ hid
    rw [hb]
  case regs => exact fun o ho => (hregs o).trans (regLanes_uniformRun v .t27 ho)
  case value =>
    intro n hn
    have hu : uget r'.gang n = uget (uniformRun r f.d v).gang n := (congrArg (uget · n) hgang :)
    rw [hu, uniformRun, hn]
    exact (uget_uset _ n n v.1).trans (if_pos rfl)
  case slices =>
    intro j
    rw [hslices, uniformRun, takeUniform_slices, Option.map_map]
    refine Option.map_congr fun x _ => ?_
    by_cases hj : j ∈ r.part.slices
    · simp only [Function.comp_apply, if_pos hj]
      rfl
    · simp only [Function.comp_apply, if_neg hj]

end Sys2Proof.Machine
end
